-- ==== Sys2Proof/Word.lean ====
section
/-! DEFINITION. The word types of the FP-256: bytes, tags, 32-bit counters, and the numbers that name its flows, blocks, bodies, records and notice items. -/
namespace Sys2Proof

/-- A byte on a lane or in frame memory. -/
abbrev Byte := BitVec 8

/-- A node tag, a label or a sequence number: 16 bits (R189). -/
abbrev Tag := BitVec 16

/-- A counter: 32 bits, wrapping to 0 (00_scope.md, Conventions, "Counters"). -/
abbrev Counter := BitVec 32

/-- A flow, 0 to 255 (R1). -/
abbrev FlowId := Fin 256

/-- A block of frame memory, 0 to 2047 (R26). -/
abbrev BlockId := Fin 2048

/-- A body record, 0 to 1023 (R27). -/
abbrev BodyId := Fin 1024

/-- A frame record, 0 to 1023 (R28). -/
abbrev RecordId := Fin 1024

/-- A slot of the management queue (R155). -/
abbrev SlotId := Fin 4

/-- A notice item, 0 to 1028: in ascending kind code and, within a kind, ascending scope (R176, R184). -/
abbrev ItemId := Fin 1029

end Sys2Proof
end

