-- ==== Sys2Proof/Syntax.lean ====
section
/-! DEFINITION. The commands and events of the FP-256: one constructor of Instr per row of spec/opcode_table.json, with the row's operands. -/
namespace Sys2Proof

/-- The nine notice kinds, four per flow and five global, in the order of their codes (R191). -/
inductive NoticeKind where
  | stageTaken
  | flowHeld
  | flowClosed
  | queueDrop
  | poolLow
  | ingressError
  | mgmtLost
  | holdStuck
  | quenched
  deriving DecidableEq, Repr

/-- Is the kind one of the four per-flow kinds (R176)? -/
def NoticeKind.perFlow : NoticeKind → Bool
  | .stageTaken => true
  | .flowHeld => true
  | .flowClosed => true
  | .queueDrop => true
  | .poolLow => false
  | .ingressError => false
  | .mgmtLost => false
  | .holdStuck => false
  | .quenched => false

/-- The commands and events, one constructor per row of the table.
A management command carries its argument bytes as the request carries them (R161), whatever their number;
an event at one flow or one notice item names it; a byte on the receive lane is an operand. -/
inductive Instr where
  /-- OPEN (R4). -/
  | openFlow (args : List Byte)
  /-- HOLD (R5). -/
  | hold (args : List Byte)
  /-- RELEASE (R6). -/
  | release (args : List Byte)
  /-- CLOSE (R7). -/
  | close (args : List Byte)
  /-- FLUSH (R10). -/
  | flush (args : List Byte)
  /-- SET_FLOW (R22). -/
  | setFlow (args : List Byte)
  /-- READ_FLOW (R23). -/
  | readFlow (args : List Byte)
  /-- SET_POOL (R40). -/
  | setPool (args : List Byte)
  /-- READ_POOL (R42). -/
  | readPool (args : List Byte)
  /-- WRITE_MATCH (R56). -/
  | writeMatch (args : List Byte)
  /-- READ_MATCH (R58). -/
  | readMatch (args : List Byte)
  /-- SET_DEFAULT (R59). -/
  | setDefault (args : List Byte)
  /-- SET_EPOCH (R65). -/
  | setEpoch (args : List Byte)
  /-- STAGE (R96). -/
  | stage (args : List Byte)
  /-- UNSTAGE (R98). -/
  | unstage (args : List Byte)
  /-- ADOPT (R99). -/
  | adopt (args : List Byte)
  /-- READ_PROFILE (R101). -/
  | readProfile (args : List Byte)
  /-- SET_RELEASE (R120). -/
  | setRelease (args : List Byte)
  /-- RESUME (R122). -/
  | resume (args : List Byte)
  /-- SET_GROUP (R123). -/
  | setGroup (args : List Byte)
  /-- SET_TOP (R124). -/
  | setTop (args : List Byte)
  /-- SET_HOLD_LIMIT (R152). -/
  | setHoldLimit (args : List Byte)
  /-- READ_STATUS (R169). -/
  | readStatus (args : List Byte)
  /-- READ_COUNTERS (R170). -/
  | readCounters (args : List Byte)
  /-- RESTART (R171). -/
  | restart (args : List Byte)
  /-- ACK_NOTICE (R180). -/
  | ackNotice (args : List Byte)
  /-- SET_NOTICE (R184). -/
  | setNotice (args : List Byte)
  /-- A command whose code is not in the command code table (R163). -/
  | unknownCommand (code : Byte) (args : List Byte)
  /-- A start delimiter on the receive lane (R126). -/
  | startDelimiter
  /-- A byte on the receive lane (R130). -/
  | receiveByte (b : Byte)
  /-- The twelfth byte of a frame in LEAD (R127). -/
  | leadEvent (b : Byte)
  /-- The classification of the traffic lead in DECIDING (R48). -/
  | classification
  /-- The admission decision of the next flow named for the frame in DECIDING (R18). -/
  | admission
  /-- The reservation for the frame in DECIDING (R30). -/
  | reservation
  /-- An end delimiter on the receive lane (R132). -/
  | endDelimiter
  /-- An abort delimiter on the receive lane (R131). -/
  | abortDelimiter
  /-- The agent takes the oldest waiting request (R157). -/
  | take
  /-- A transmission starts on the return lane (R138). -/
  | returnTransmission
  /-- The transmission on the return lane ends (R138). -/
  | returnCompletion
  /-- Re-initialisation at a restart (R173). -/
  | reinitialisation
  /-- The epoch timer expires (R63). -/
  | epochExpiry
  /-- One flow's replenishment (R68). -/
  | replenishment (flow : FlowId)
  /-- One flow's aging sweep (R78). -/
  | agingSweep (flow : FlowId)
  /-- One flow's profile step (R87). -/
  | profileStep (flow : FlowId)
  /-- The profile step of one flow in which its active profile expires (R88, R89). -/
  | lifetimeExpiry (flow : FlowId)
  /-- One flush step of a FLUSHING flow (R11). -/
  | flushStep (flow : FlowId)
  /-- A selection (R111). -/
  | selection
  /-- The frame in transmission on Port D has been sent (R145). -/
  | transmissionCompletion
  /-- QUENCH becomes asserted (R121). -/
  | quenchAssertion
  /-- QUENCH becomes deasserted (R121). -/
  | quenchDeassertion
  /-- DHOLD becomes asserted (R149, R150). -/
  | dholdAssertion
  /-- DHOLD becomes deasserted (R149, R150). -/
  | dholdDeassertion
  /-- The hold tick of an epoch expiry (R150). -/
  | holdTick
  /-- The hold tick at which HOLD_STUCK is reported (R151). -/
  | holdStuck
  /-- A reported condition is taken at its notice item (R177). -/
  | noticeOccurrence (kind : NoticeKind) (scope : FlowId)
  /-- A first build (R179). -/
  | firstBuild
  /-- One item's repeat tick (R181). -/
  | repeatTick (kind : NoticeKind) (scope : FlowId)
  /-- The repeat tick of one item at which its repeat becomes due (R181). -/
  | repeatDue (kind : NoticeKind) (scope : FlowId)
  /-- A repeat build (R182). -/
  | repeatBuild
  /-- RESET becomes asserted (R153). -/
  | resetAssertion
  /-- RESET is released with the TAG straps at the given levels (R136, R153). -/
  | resetRelease (straps : Byte)
  deriving DecidableEq, Repr

end Sys2Proof
end

