-- ==== Sys2Proof/WellFormed.lean ====
section
/-! DEFINITION. Which commands and events are well formed: what a request can carry and which scopes suit a notice kind. -/
namespace Sys2Proof

/-- The argument bytes of one command fit its one-byte argument length (R190). -/
def argsFit (args : List Byte) : Bool := decide (args.length ≤ 255)

/-- The code is in the command code table, 01h to 1Bh (R191). -/
def knownCode (code : Byte) : Bool := decide (1 ≤ code.toNat) && decide (code.toNat ≤ 27)

/-- The scope suits the kind: a flow for a per-flow kind, 0 for a global one (R176). -/
def scopeSuits (kind : NoticeKind) (scope : FlowId) : Bool := kind.perFlow || decide (scope = 0)

/-- A command or event that the part can be offered. -/
def Instr.wellFormed : Instr → Bool
  | .openFlow args => argsFit args
  | .hold args => argsFit args
  | .release args => argsFit args
  | .close args => argsFit args
  | .flush args => argsFit args
  | .setFlow args => argsFit args
  | .readFlow args => argsFit args
  | .setPool args => argsFit args
  | .readPool args => argsFit args
  | .writeMatch args => argsFit args
  | .readMatch args => argsFit args
  | .setDefault args => argsFit args
  | .setEpoch args => argsFit args
  | .stage args => argsFit args
  | .unstage args => argsFit args
  | .adopt args => argsFit args
  | .readProfile args => argsFit args
  | .setRelease args => argsFit args
  | .resume args => argsFit args
  | .setGroup args => argsFit args
  | .setTop args => argsFit args
  | .setHoldLimit args => argsFit args
  | .readStatus args => argsFit args
  | .readCounters args => argsFit args
  | .restart args => argsFit args
  | .ackNotice args => argsFit args
  | .setNotice args => argsFit args
  | .unknownCommand code args => argsFit args && !knownCode code
  | .startDelimiter => true
  | .receiveByte _ => true
  | .leadEvent _ => true
  | .classification => true
  | .admission => true
  | .reservation => true
  | .endDelimiter => true
  | .abortDelimiter => true
  | .take => true
  | .returnTransmission => true
  | .returnCompletion => true
  | .reinitialisation => true
  | .epochExpiry => true
  | .replenishment _ => true
  | .agingSweep _ => true
  | .profileStep _ => true
  | .lifetimeExpiry _ => true
  | .flushStep _ => true
  | .selection => true
  | .transmissionCompletion => true
  | .quenchAssertion => true
  | .quenchDeassertion => true
  | .dholdAssertion => true
  | .dholdDeassertion => true
  | .holdTick => true
  | .holdStuck => true
  | .noticeOccurrence kind scope => scopeSuits kind scope
  | .firstBuild => true
  | .repeatTick kind scope => scopeSuits kind scope
  | .repeatDue kind scope => scopeSuits kind scope
  | .repeatBuild => true
  | .resetAssertion => true
  | .resetRelease _ => true

end Sys2Proof
end

