-- ==== Sys2Proof/Decode.lean ====
section
/-! DEFINITION. Decoding: the table gives no row any bits, so no word spells a command; and the command codes of R191, by which the agent knows which row a request's next command is. -/
namespace Sys2Proof

/-- The command a word of the opcode table's numbering spells: none, since the table gives no row any bits. -/
def decodeTableWord (_nbits _w : Nat) : Option Instr := none

/-- The row a command of a request stands for, by its code (R191); every other code is unknown (R163). -/
def commandRow (code : Byte) (args : List Byte) : Instr :=
  match code.toNat with
  | 0x01 => .openFlow args
  | 0x02 => .hold args
  | 0x03 => .release args
  | 0x04 => .close args
  | 0x05 => .flush args
  | 0x06 => .setFlow args
  | 0x07 => .readFlow args
  | 0x08 => .setPool args
  | 0x09 => .readPool args
  | 0x0A => .writeMatch args
  | 0x0B => .readMatch args
  | 0x0C => .setDefault args
  | 0x0D => .setEpoch args
  | 0x0E => .stage args
  | 0x0F => .unstage args
  | 0x10 => .adopt args
  | 0x11 => .readProfile args
  | 0x12 => .setRelease args
  | 0x13 => .resume args
  | 0x14 => .setGroup args
  | 0x15 => .setTop args
  | 0x16 => .setHoldLimit args
  | 0x17 => .readStatus args
  | 0x18 => .readCounters args
  | 0x19 => .restart args
  | 0x1A => .ackNotice args
  | 0x1B => .setNotice args
  | _ => .unknownCommand code args

/-- The code and argument bytes by which a request carries the command (R190, R191); none for an event. -/
def commandCode : Instr → Option (Byte × List Byte)
  | .openFlow args => some (0x01#8, args)
  | .hold args => some (0x02#8, args)
  | .release args => some (0x03#8, args)
  | .close args => some (0x04#8, args)
  | .flush args => some (0x05#8, args)
  | .setFlow args => some (0x06#8, args)
  | .readFlow args => some (0x07#8, args)
  | .setPool args => some (0x08#8, args)
  | .readPool args => some (0x09#8, args)
  | .writeMatch args => some (0x0A#8, args)
  | .readMatch args => some (0x0B#8, args)
  | .setDefault args => some (0x0C#8, args)
  | .setEpoch args => some (0x0D#8, args)
  | .stage args => some (0x0E#8, args)
  | .unstage args => some (0x0F#8, args)
  | .adopt args => some (0x10#8, args)
  | .readProfile args => some (0x11#8, args)
  | .setRelease args => some (0x12#8, args)
  | .resume args => some (0x13#8, args)
  | .setGroup args => some (0x14#8, args)
  | .setTop args => some (0x15#8, args)
  | .setHoldLimit args => some (0x16#8, args)
  | .readStatus args => some (0x17#8, args)
  | .readCounters args => some (0x18#8, args)
  | .restart args => some (0x19#8, args)
  | .ackNotice args => some (0x1A#8, args)
  | .setNotice args => some (0x1B#8, args)
  | .unknownCommand code args => some (code, args)
  | .startDelimiter => none
  | .receiveByte _ => none
  | .leadEvent _ => none
  | .classification => none
  | .admission => none
  | .reservation => none
  | .endDelimiter => none
  | .abortDelimiter => none
  | .take => none
  | .returnTransmission => none
  | .returnCompletion => none
  | .reinitialisation => none
  | .epochExpiry => none
  | .replenishment _ => none
  | .agingSweep _ => none
  | .profileStep _ => none
  | .lifetimeExpiry _ => none
  | .flushStep _ => none
  | .selection => none
  | .transmissionCompletion => none
  | .quenchAssertion => none
  | .quenchDeassertion => none
  | .dholdAssertion => none
  | .dholdDeassertion => none
  | .holdTick => none
  | .holdStuck => none
  | .noticeOccurrence _ _ => none
  | .firstBuild => none
  | .repeatTick _ _ => none
  | .repeatDue _ _ => none
  | .repeatBuild => none
  | .resetAssertion => none
  | .resetRelease _ => none

end Sys2Proof
end

