-- ==== Sys2Proof/Config.lean ====
section
/-! DEFINITION. The constants of the FP-256: sizes, limits and reset values the spec states, and the one value the model chooses. -/
namespace Sys2Proof.Config

/-- Bytes in one block of frame memory (R26). -/
def blockBytes : Nat := 128

/-- Blocks of frame memory (R26). -/
def blocks : Nat := 2048

/-- Bytes of frame memory: 256 KiB (R26). -/
def memoryBytes : Nat := 262144

/-- What a byte of frame memory that nothing has written reads as.
DESIGN CHOICE (log 10), unsafe: the spec gives frame memory no contents at reset. -/
def unwrittenByte : Byte := 0#8

/-- Bytes of the lead (R189). -/
def leadBytes : Nat := 12

/-- Bytes of the check (R188). -/
def checkBytes : Nat := 4

/-- Least frame length a lead may claim (R127). -/
def minFrame : Nat := 16

/-- Greatest frame length a lead may claim (R127). -/
def maxFrame : Nat := 2048

/-- Where the actual length is held (R126). -/
def actualCap : Nat := 2049

/-- Longest request a management slot takes (R128). -/
def maxRequest : Nat := 512

/-- Entries of the response queue (R158). -/
def responseEntries : Nat := 4

/-- Entries of the notice queue (R176). -/
def noticeEntries : Nat := 16

/-- The floor of every flow's credit (R67). -/
def creditFloor : Int := -131072

/-- Where the 16-bit counts that saturate are held (R150, R176). -/
def saturation : Nat := 65535

/-- The base of the own tag (R136). -/
def tagBase : Tag := 0xF000#16

/-- The generator polynomial of the check (R188). -/
def crcPolynomial : BitVec 32 := 0x04C11DB7#32

/-- The preset of the check register (R188). -/
def crcPreset : BitVec 32 := 0xFFFFFFFF#32

end Sys2Proof.Config
end

