-- ==== Sys2Proof/Machine/Bytes.lean ====
section
/-! DEFINITION. Byte order and the check: reading and writing multi-byte fields (R188) and the CRC-32 that ends every frame. -/
namespace Sys2Proof.Machine

/-- The number in the byte at an offset; 0 past the end. -/
def byteAt (bs : List Byte) (i : Nat) : Nat := (bs.getD i 0#8).toNat

/-- The 16-bit number at an offset, most significant byte first (R188). -/
def num16At (bs : List Byte) (i : Nat) : Nat := byteAt bs i * 256 + byteAt bs (i + 1)

/-- The 32-bit number at an offset, most significant byte first (R188). -/
def num32At (bs : List Byte) (i : Nat) : Nat := num16At bs i * 65536 + num16At bs (i + 2)

/-- The 16-bit field at an offset (R188). -/
def field16At (bs : List Byte) (i : Nat) : BitVec 16 := BitVec.ofNat 16 (num16At bs i)

/-- A number as one byte. -/
def bytes8 (n : Nat) : List Byte := [BitVec.ofNat 8 n]

/-- A number as two bytes, most significant first (R188). -/
def bytes16 (n : Nat) : List Byte := [BitVec.ofNat 8 (n / 256), BitVec.ofNat 8 n]

/-- A number as four bytes, most significant first (R188). -/
def bytes32 (n : Nat) : List Byte := bytes16 (n / 65536) ++ bytes16 n

/-- A signed number as four bytes of two's complement, most significant first (R188). -/
def bytesInt32 (z : Int) : List Byte := bytes32 (z % 4294967296).toNat

/-- A yes/no field or a level (R188, R191). -/
def bytesBool (b : Bool) : List Byte := bytes8 b.toNat

/-- One bit into the check register (R188). -/
def crcBit (reg : BitVec 32) (bit : Bool) : BitVec 32 :=
  if reg.msb != bit then (reg <<< 1) ^^^ Config.crcPolynomial else reg <<< 1

/-- One byte into the check register, least significant bit first (R188). -/
def crcByte (reg : BitVec 32) (b : Byte) : BitVec 32 :=
  [0, 1, 2, 3, 4, 5, 6, 7].foldl (fun r i => crcBit r (b.getLsbD i)) reg

/-- The bytes into a check register, in order. -/
def crcBytes (reg : BitVec 32) (bs : List Byte) : BitVec 32 := bs.foldl crcByte reg

/-- The check of a register: complemented, and read with its bit order reflected (R188). -/
def crcResult (reg : BitVec 32) : BitVec 32 := (~~~reg).reverse

/-- A check as its four bytes, least significant first (R188). -/
def checkField (check : BitVec 32) : List Byte :=
  [check.extractLsb' 0 8, check.extractLsb' 8 8, check.extractLsb' 16 8, check.extractLsb' 24 8]

/-- The four check bytes of a lead and body (R188). -/
def checkOf (bs : List Byte) : List Byte := checkField (crcResult (crcBytes Config.crcPreset bs))

/-- A lead and body followed by the check computed over them (R138, R144). -/
def withCheck (bs : List Byte) : List Byte := bs ++ checkOf bs

end Sys2Proof.Machine
end

