-- ==== Sys2Proof/Machine/State.lean ====
section
/-! DEFINITION. The state of the FP-256 as plain data, block by block, the reasons a step could stop, and the state right after power-on reset. -/
namespace Sys2Proof.Machine

/-! ## Profiles and flows (R1, R84, R86) -/

/-- How credit makes a head frame eligible (R71). -/
inductive Discipline where
  | none
  | loose
  | strict
  deriving DecidableEq, Repr

/-- The kind of run a grant starts (R114). -/
inductive ReleaseMode where
  | single
  | block
  | demand
  deriving DecidableEq, Repr

/-- What follows an expiry with the staged slot empty (R89). -/
inductive ExpireAction where
  | hold
  | repeat
  | close
  deriving DecidableEq, Repr

/-- A pacing profile (R84). -/
structure Profile where
  discipline : Discipline
  rate : Nat
  burstCap : Nat
  releaseMode : ReleaseMode
  runLength : Nat
  ageLimit : Nat
  lifetime : Nat
  expireAction : ExpireAction
  deriving DecidableEq, Repr

/-- The default profile (R85). -/
def Profile.default : Profile :=
  { discipline := .none, rate := 0, burstCap := 0, releaseMode := .single, runLength := 1,
    ageLimit := 0, lifetime := 0, expireAction := .hold }

/-- Why a flow is held (R1). -/
inductive HoldCause where
  | expired
  | ordered
  deriving DecidableEq, Repr

/-- The state a flow goes back to when its flush is complete (R1). -/
inductive ReturnState where
  | active
  | held (cause : HoldCause)
  | draining
  deriving DecidableEq, Repr

/-- A flow's state, with the hold cause in HELD only and the return state in FLUSHING only (R1). -/
inductive FlowState where
  | disabled
  | active
  | held (cause : HoldCause)
  | draining
  | flushing (back : ReturnState)
  deriving DecidableEq, Repr

/-- What is given up when a new frame does not fit (R1). -/
inductive AdmissionPolicy where
  | tailDrop
  | headDrop
  deriving DecidableEq, Repr

/-- A flow's release group: 0 to 7, or the express group X (R1). -/
inductive Group where
  | ring (g : Fin 8)
  | express
  deriving DecidableEq, Repr

/-- The ten counters of a flow, in the order R170 lists them (R24). -/
structure FlowCounters where
  acceptedFrames : Counter
  acceptedBytes : Counter
  releasedFrames : Counter
  releasedBytes : Counter
  limit : Counter
  head : Counter
  closed : Counter
  flushed : Counter
  stale : Counter
  pool : Counter
  deriving DecidableEq, Repr

/-- All ten counters at 0 (R25). -/
def FlowCounters.zero : FlowCounters :=
  { acceptedFrames := 0#32, acceptedBytes := 0#32, releasedFrames := 0#32, releasedBytes := 0#32,
    limit := 0#32, head := 0#32, closed := 0#32, flushed := 0#32, stale := 0#32, pool := 0#32 }

/-- The work of the last epoch expiry that the flow has not yet had (R64, R87; log 4). -/
structure FlowDue where
  replenishment : Bool
  sweep : Bool
  step : Bool
  deriving DecidableEq, Repr

/-- A flow: its record (R1), its credit (R67) and its profile state (R86). -/
structure Flow where
  state : FlowState
  generation : Byte
  queue : List RecordId
  queuedFrames : Nat
  queuedBytes : Nat
  frameLimit : Nat
  byteLimit : Nat
  policy : AdmissionPolicy
  group : Group
  inTransmission : Bool
  counters : FlowCounters
  credit : Int
  active : Profile
  staged : Option Profile
  remaining : Nat
  adoptPending : Bool
  due : FlowDue
  deriving DecidableEq, Repr

/-- A flow after either reset (R25, R83, R103). -/
def Flow.reset : Flow :=
  { state := .disabled, generation := 0#8, queue := [], queuedFrames := 0, queuedBytes := 0,
    frameLimit := 64, byteLimit := 32768, policy := .tailDrop, group := .ring 0,
    inTransmission := false, counters := FlowCounters.zero, credit := 0,
    active := Profile.default, staged := none, remaining := 0, adoptPending := false,
    due := { replenishment := false, sweep := false, step := false } }

/-! ## The Frame Store (R26 to R43) -/

/-- An entry of the block link table (R26). -/
inductive BlockLink where
  | absent
  | last
  | next (b : BlockId)
  deriving DecidableEq, Repr

/-- The state of a live body, with the fields that FILLING alone has (R27). -/
inductive BodyState where
  | filling (linked : Nat) (pendingBlocks : List BlockId)
  | stored
  deriving DecidableEq, Repr

/-- A live body (R27). -/
structure Body where
  state : BodyState
  firstBlock : BlockId
  blockCount : Nat
  length : Nat
  share : Nat
  deriving DecidableEq, Repr

/-- The state of a frame record, with the admission generation in RESERVED only and the arrival stamp in QUEUED only (R28). -/
inductive RecordState where
  | reserved (generation : Byte)
  | queued (stamp : BitVec 16)
  | inTransmission
  deriving DecidableEq, Repr

/-- A frame record that is not free (R28). -/
structure FrameRecord where
  state : RecordState
  body : BodyId
  flow : FlowId
  deriving DecidableEq, Repr

/-- The Frame Store: memory, links, bodies, records, the three free lists, the watermarks, the pause condition and the low-water count. -/
structure FrameStore where
  mem : List Host.Cell
  links : Vector BlockLink 2048
  freeBlocks : List BlockId
  bodies : Vector (Option Body) 1024
  freeBodies : List BodyId
  records : Vector (Option FrameRecord) 1024
  freeRecords : List RecordId
  pauseMark : Nat
  resumeMark : Nat
  pauseCondition : Bool
  lowWater : Nat
  deriving DecidableEq, Repr

/-- The store after either reset (R43), with nothing listed in memory (log 10). -/
def FrameStore.reset : FrameStore :=
  { mem := [], links := Vector.replicate 2048 .absent, freeBlocks := List.finRange 2048,
    bodies := Vector.replicate 1024 none, freeBodies := List.finRange 1024,
    records := Vector.replicate 1024 none, freeRecords := List.finRange 1024,
    pauseMark := 256, resumeMark := 512, pauseCondition := false, lowWater := 2048 }

/-! ## The Classifier (R44 to R62) -/

/-- A match entry's action, with the fields each action has (R44). -/
inductive MatchAction where
  | discard
  | queue (flow : FlowId) (relabel : Option Tag)
  | mirror (flow mirror : FlowId) (relabel : Option Tag)
  deriving DecidableEq, Repr

/-- A match entry (R44). -/
structure MatchEntry where
  valid : Bool
  destValue : Tag
  destMask : Tag
  sourceValue : Tag
  sourceMask : Tag
  kindSet : BitVec 16
  classSet : BitVec 16
  laneValue : Byte
  laneMask : Byte
  labelValue : Tag
  labelMask : Tag
  lengthMin : Nat
  lengthMax : Nat
  action : MatchAction
  deriving DecidableEq, Repr

/-- A match entry after either reset (R62). -/
def MatchEntry.reset : MatchEntry :=
  { valid := false, destValue := 0#16, destMask := 0#16, sourceValue := 0#16, sourceMask := 0#16,
    kindSet := 0#16, classSet := 0#16, laneValue := 0#8, laneMask := 0#8, labelValue := 0#16,
    labelMask := 0#16, lengthMin := 0, lengthMax := 0, action := .discard }

/-- The default action (R53). -/
inductive DefaultAction where
  | discard
  | queue (flow : FlowId)
  deriving DecidableEq, Repr

/-- The Classifier. -/
structure Classifier where
  entries : Vector MatchEntry 64
  hits : Vector Counter 64
  defaultAction : DefaultAction
  noMatch : Counter
  deriving DecidableEq, Repr

/-- The Classifier after either reset (R62). -/
def Classifier.reset : Classifier :=
  { entries := Vector.replicate 64 MatchEntry.reset, hits := Vector.replicate 64 0#32,
    defaultAction := .discard, noMatch := 0#32 }

/-! ## The Pacing Unit's timer (R63 to R66) -/

/-- The epoch timer and the epoch counter. -/
structure Pacing where
  periodInForce : Nat
  nextPeriod : Nat
  epochCounter : BitVec 16
  deriving DecidableEq, Repr

/-- The Pacing Unit after either reset (R83). -/
def Pacing.reset : Pacing := { periodInForce := 100, nextPeriod := 100, epochCounter := 0#16 }

/-! ## The Release Scheduler (R104) -/

/-- A ring's policy (R104). -/
inductive RingPolicy where
  | fixed
  | rotating
  deriving DecidableEq, Repr

/-- A run's mode (R104). -/
inductive RunMode where
  | block
  | demand
  deriving DecidableEq, Repr

/-- The run record when a run exists (R104). -/
structure Run where
  holder : FlowId
  mode : RunMode
  remaining : Nat
  deriving DecidableEq, Repr

/-- One group's policy and pointer (R104). -/
structure GroupRing where
  policy : RingPolicy
  pointer : FlowId
  deriving DecidableEq, Repr

/-- The Release Scheduler. -/
structure Scheduler where
  topPolicy : RingPolicy
  topPointer : Fin 8
  groups : Vector GroupRing 8
  run : Option Run
  releaseEnable : Bool
  quenchFlag : Bool
  deriving DecidableEq, Repr

/-- The scheduler after power-on reset with QUENCH deasserted (R125). -/
def Scheduler.reset : Scheduler :=
  { topPolicy := .fixed, topPointer := 7,
    groups := Vector.replicate 8 { policy := .fixed, pointer := 255 },
    run := none, releaseEnable := true, quenchFlag := false }

/-! ## The ports (R126 to R154) -/

/-- What an output lane is carrying or last carried, between delimiters (R197, R198; log 14). -/
inductive LaneOut where
  /-- Idle link signalling and nothing else. -/
  | idle
  /-- The start delimiter, then these bytes, check included, are going out. -/
  | carrying (frame : List Byte)
  /-- The frame of these bytes went out and was closed by an end delimiter. -/
  | ended (frame : List Byte)
  /-- The frame under way was closed by an abort delimiter. -/
  | aborted
  deriving DecidableEq, Repr

/-- What arrives on the receive lane (R126). -/
inductive Symbol where
  | start
  | byte (b : Byte)
  | endMark
  | abort
  deriving DecidableEq, Repr

/-- The counted and checked part of the frame in reception (R126): the actual length, the check register
over the bytes before the last four, and the last bytes received, at most four. -/
structure Reception where
  actual : Nat
  crc : BitVec 32
  tail : List Byte
  deriving DecidableEq, Repr

/-- A flow's grant of admission with the generation recorded for it (R3, R18). -/
structure Grant where
  flow : FlowId
  generation : Byte
  deriving DecidableEq, Repr

/-- How far a frame in DECIDING has come (R129, R20). -/
inductive Deciding where
  | classify
  | admitting (todo : List FlowId) (granted : List Grant) (label : Tag)
  | reserve (granted : List Grant) (label : Tag)
  deriving DecidableEq, Repr

/-- The state of the receive lane, with the fields of the frame in reception (R126). In LEAD and DECIDING the bytes of the lead
stand, and with the lead complete its claimed length among them. IGNORE keeps the claimed length, if the lead was complete, and
neither the actual length nor the running check (R130). -/
inductive Lane where
  | idle
  | lead (rx : Reception) (bytes : List Byte)
  | deciding (rx : Reception) (bytes : List Byte) (phase : Deciding) (held : List Symbol)
  | request (rx : Reception) (claimed : Nat) (slot : SlotId)
  | store (rx : Reception) (claimed : Nat) (body : BodyId) (records : List RecordId) (label : Tag)
  | pass (rx : Reception) (claimed : Nat)
  | ignore (claimed : Option Nat)
  deriving DecidableEq, Repr

/-- The return lane (R138). -/
inductive ReturnLane where
  | free
  | response
  | notice
  deriving DecidableEq, Repr

/-- The Upstream Port. -/
structure UpstreamPort where
  lane : Lane
  framesReceived : Counter
  leadErrors : Counter
  lengthErrors : Counter
  checkErrors : Counter
  aborts : Counter
  ownTag : Tag
  restartCondition : Bool
  returnLane : ReturnLane
  responseRun : Nat
  line : LaneOut
  deriving DecidableEq, Repr

/-- The Upstream Port after power-on reset with all TAG straps at 0 (R141; log 11). -/
def UpstreamPort.reset : UpstreamPort :=
  { lane := .idle, framesReceived := 0#32, leadErrors := 0#32, lengthErrors := 0#32,
    checkErrors := 0#32, aborts := 0#32, ownTag := Config.tagBase, restartCondition := false,
    returnLane := .free, responseRun := 0, line := .idle }

/-- The frame in transmission on Port D (R142). -/
structure Transmission where
  record : RecordId
  flow : FlowId
  body : BodyId
  length : Nat
  deriving DecidableEq, Repr

/-- The Downstream Port; FREE is `sending = none` (R142). -/
structure DownstreamPort where
  sending : Option Transmission
  framesSent : Counter
  bytesSent : Counter
  holdLimit : Nat
  holdTimer : Nat
  stuck : Bool
  holdTickDue : Bool
  line : LaneOut
  deriving DecidableEq, Repr

/-- Port D after either reset (R154). -/
def DownstreamPort.reset : DownstreamPort :=
  { sending := none, framesSent := 0#32, bytesSent := 0#32, holdLimit := 1000, holdTimer := 0,
    stuck := false, holdTickDue := false, line := .idle }

/-! ## The Management Agent (R155 to R175) -/

/-- The status codes (R167). -/
inductive Status where
  | ok
  | badCommand
  | badArgument
  | badState
  | busy
  | slotFull
  | slotEmpty
  | staleAck
  | notAttempted
  | malformed
  deriving DecidableEq, Repr

/-- One command of a request: its code and its argument bytes (R161). -/
structure Command where
  code : Byte
  args : List Byte
  deriving DecidableEq, Repr

/-- One result of a response (R165). -/
structure CommandResult where
  code : Byte
  status : Status
  data : List Byte
  deriving DecidableEq, Repr

/-- The request in execution (R156). -/
structure Execution where
  request : List Byte
  commands : List Command
  stopOnError : Bool
  index : Nat
  results : List CommandResult
  stop : Bool
  deriving DecidableEq, Repr

/-- The agent's state, with the request in execution in EXECUTING only (R156). -/
inductive AgentState where
  | idle
  | executing (x : Execution)
  | restartPending
  | restarting
  deriving DecidableEq, Repr

/-- A slot of the management queue (R155). -/
inductive Slot where
  | free
  | filling (bytes : List Byte)
  | waiting (frame : List Byte)
  deriving DecidableEq, Repr

/-- An entry of the response queue (R158); a ready entry holds lead and body. -/
inductive ResponseEntry where
  | claimed
  | ready (frame : List Byte)
  deriving DecidableEq, Repr

/-- The replay memory when it is not empty (R159). -/
structure Replay where
  source : Tag
  sequence : Tag
  response : List Byte
  deriving DecidableEq, Repr

/-- The Management Agent. -/
structure Agent where
  state : AgentState
  slots : Vector Slot 4
  waitOrder : List SlotId
  responses : List ResponseEntry
  replay : Option Replay
  taken : Counter
  lost : Counter
  replayed : Counter
  malformed : Counter
  restartCount : Counter
  deriving DecidableEq, Repr

/-- The agent after power-on reset (R174). -/
def Agent.reset : Agent :=
  { state := .idle, slots := Vector.replicate 4 .free, waitOrder := [], responses := [],
    replay := none, taken := 0#32, lost := 0#32, replayed := 0#32, malformed := 0#32,
    restartCount := 0#32 }

/-! ## The Notice Unit (R176 to R187) -/

/-- A notice item's state, with the fields that SENT alone has (R176). -/
inductive ItemState where
  | clear
  | raised
  | sent (again : Bool) (number : BitVec 16) (sentCount : Nat) (epochs : Nat)
  deriving DecidableEq, Repr

/-- A notice item: its state, its occurrence count, and whether a repeat tick is due to it (R176, R181; log 4). -/
structure NoticeItem where
  state : ItemState
  count : Nat
  tickDue : Bool
  deriving DecidableEq, Repr

/-- A notice item after either reset (R187). -/
def NoticeItem.reset : NoticeItem := { state := .clear, count := 0, tickDue := false }

/-- The Notice Unit; `reports` are the reported conditions not yet taken at their items (R177; log 6). -/
structure NoticeUnit where
  items : Vector NoticeItem 1029
  raisedList : List ItemId
  repeatList : List ItemId
  queue : List (List Byte)
  numberCounter : BitVec 16
  destination : Tag
  enables : BitVec 9
  interval : Nat
  built : Counter
  repeats : Counter
  acks : Counter
  staleAcks : Counter
  reports : List ItemId
  deriving DecidableEq, Repr

/-- The Notice Unit after either reset (R187). -/
def NoticeUnit.reset : NoticeUnit :=
  { items := Vector.replicate 1029 NoticeItem.reset, raisedList := [], repeatList := [], queue := [],
    numberCounter := 0#16, destination := 0#16, enables := 0x1FF#9, interval := 10000,
    built := 0#32, repeats := 0#32, acks := 0#32, staleAcks := 0#32, reports := [] }

/-! ## The part -/

/-- The levels of the input pins (R197): true is asserted; the straps as last sampled. -/
structure Pins where
  reset : Bool
  quench : Bool
  dhold : Bool
  straps : Byte
  deriving DecidableEq, Repr

/-- The pins right after reset: RESET released; the other levels are the model's choice (log 11). -/
def Pins.released : Pins := { reset := false, quench := false, dhold := false, straps := 0#8 }

/-- The whole part, with the queue of the commands and events that wait. -/
structure State where
  flows : Vector Flow 256
  store : FrameStore
  classifier : Classifier
  pacing : Pacing
  scheduler : Scheduler
  up : UpstreamPort
  down : DownstreamPort
  agent : Agent
  notices : NoticeUnit
  pins : Pins
  pending : List Instr
  deriving DecidableEq, Repr

/-- The reasons the machine could stop with a fault: none.
The part keeps running through every error it meets (00_scope.md, Functional overview); nothing raises a fault, which is neither safe nor unsafe (log 20). -/
inductive Fault where
  deriving DecidableEq, Repr

/-- The reasons a step could be refused. -/
inductive Refusal where
  /-- A row of the table that has no meaning yet, raised by exec's arms alone; safe. Every row has its meaning, so nothing raises it. -/
  | notModelled (mnemonic : String)
  deriving DecidableEq, Repr

/-- The part right after power-on reset, with nothing waiting (R25, R43, R62, R83, R103, R125, R141, R154, R174, R187; logs 10, 11). -/
def State.reset : State :=
  { flows := Vector.replicate 256 Flow.reset, store := FrameStore.reset,
    classifier := Classifier.reset, pacing := Pacing.reset, scheduler := Scheduler.reset,
    up := UpstreamPort.reset, down := DownstreamPort.reset, agent := Agent.reset,
    notices := NoticeUnit.reset, pins := Pins.released, pending := [] }

end Sys2Proof.Machine
end

