-- ==== Sys2Proof/Machine/Access.lean ====
section
/-! DEFINITION. Reading and replacing the parts of State, by which every operation goes. -/
namespace Sys2Proof.Machine

/-- One flow. -/
def State.flow (s : State) (f : FlowId) : Flow := s.flows[f]

/-- Replaces one flow. -/
def State.setFlow (s : State) (f : FlowId) (x : Flow) : State :=
  { s with flows := s.flows.set f x }

/-- Changes one flow. -/
def State.modifyFlow (s : State) (f : FlowId) (g : Flow → Flow) : State := s.setFlow f (g (s.flow f))

/-- Replaces the Frame Store. -/
def State.setStore (s : State) (x : FrameStore) : State := { s with store := x }

/-- Replaces the Classifier. -/
def State.setClassifier (s : State) (x : Classifier) : State := { s with classifier := x }

/-- Replaces the epoch timer and counter. -/
def State.setPacing (s : State) (x : Pacing) : State := { s with pacing := x }

/-- Replaces the Release Scheduler. -/
def State.setScheduler (s : State) (x : Scheduler) : State := { s with scheduler := x }

/-- Replaces the Upstream Port. -/
def State.setUp (s : State) (x : UpstreamPort) : State := { s with up := x }

/-- Replaces the receive lane's state. -/
def State.setLane (s : State) (l : Lane) : State := { s with up := { s.up with lane := l } }

/-- Replaces the Downstream Port. -/
def State.setDown (s : State) (x : DownstreamPort) : State := { s with down := x }

/-- Replaces the Management Agent. -/
def State.setAgent (s : State) (x : Agent) : State := { s with agent := x }

/-- Replaces the Notice Unit. -/
def State.setNotices (s : State) (x : NoticeUnit) : State := { s with notices := x }

/-- Replaces the pins. -/
def State.setPins (s : State) (x : Pins) : State := { s with pins := x }

/-- The flow numbers in ascending order. -/
def allFlows : List FlowId := List.finRange 256

/-- The groups in ascending order. -/
def allGroups : List (Fin 8) := List.finRange 8

/-- The notice items in ascending kind code and, within a kind, ascending scope (R184). -/
def allItems : List ItemId := List.finRange 1029

/-- A vector with every entry changed. -/
def mapAll {α : Type} {n : Nat} (g : α → α) (v : Vector α n) : Vector α n :=
  ⟨(v.toList.map g).toArray, by simp⟩

end Sys2Proof.Machine
end

