-- ==== Sys2Proof/Machine/Flags.lean ====
section
/-! DEFINITION. The levels, flags and tests the spec computes from the state: UPAUSE, the pause tests, staleness, eligibility, candidacy, and the conditions under which events are due. -/
namespace Sys2Proof.Machine

/-! ## Flow states (R2) -/

/-- The flow accepts frames: ACTIVE or HELD (R2). -/
def Flow.accepting (x : Flow) : Bool :=
  match x.state with
  | .disabled => false
  | .active => true
  | .held _ => true
  | .draining => false
  | .flushing _ => false

/-- The flow may release frames: ACTIVE or DRAINING (R2). -/
def Flow.releasing (x : Flow) : Bool :=
  match x.state with
  | .disabled => false
  | .active => true
  | .held _ => false
  | .draining => true
  | .flushing _ => false

/-- The flow is FLUSHING. -/
def Flow.isFlushing (x : Flow) : Bool :=
  match x.state with
  | .disabled => false
  | .active => false
  | .held _ => false
  | .draining => false
  | .flushing _ => true

/-- The flow is DISABLED. -/
def Flow.isDisabled (x : Flow) : Bool := decide (x.state = .disabled)

/-! ## Lookups in the Frame Store -/

/-- The frame length of a record, from its body (R28); 0 for a free record, which no queue holds (log 18). -/
def FrameStore.recordLength (st : FrameStore) (r : RecordId) : Nat :=
  match st.records[r] with
  | none => 0
  | some fr =>
    match st.bodies[fr.body] with
    | none => 0
    | some b => b.length

/-- The arrival stamp of a QUEUED record (R28). -/
def FrameStore.arrivalStamp (st : FrameStore) (r : RecordId) : Option (BitVec 16) :=
  match st.records[r] with
  | none => none
  | some fr =>
    match fr.state with
    | .reserved _ => none
    | .queued stamp => some stamp
    | .inTransmission => none

/-! ## Back-pressure (R39, R137) -/

/-- The pause condition is to be asserted: deasserted, with the free-block count below the pause watermark (R39). -/
def FrameStore.pauseAsserts (st : FrameStore) : Bool :=
  !st.pauseCondition && decide (st.freeBlocks.length < st.pauseMark)

/-- The pause condition is to be deasserted: asserted, with the free-block count at or above the resume watermark (R39). -/
def FrameStore.pauseDeasserts (st : FrameStore) : Bool :=
  st.pauseCondition && decide (st.resumeMark ≤ st.freeBlocks.length)

/-- The level of the UPAUSE pin (R137). -/
def State.upause (s : State) : Bool :=
  s.store.pauseCondition || s.up.restartCondition || s.pins.reset

/-! ## Aging (R76) -/

/-- The residence of a record with the given stamp (R76). -/
def residence (counter stamp : BitVec 16) : Nat := (counter - stamp).toNat

/-- Is the record stale under the age limit (R76)? -/
def State.stale (s : State) (ageLimit : Nat) (r : RecordId) : Bool :=
  match s.store.arrivalStamp r with
  | none => false
  | some stamp => decide (ageLimit ≠ 0) && decide (ageLimit < residence s.pacing.epochCounter stamp)

/-! ## Credit (R71) -/

/-- Is a head of the given length eligible by credit (R71)? -/
def eligible (discipline : Discipline) (credit : Int) (length : Nat) : Bool :=
  match discipline with
  | .none => true
  | .loose => decide (0 < credit)
  | .strict => decide ((length : Int) ≤ credit)

/-- The credit after the release of a frame of the given length (R71, R73). -/
def debited (discipline : Discipline) (credit : Int) (length : Nat) : Int :=
  match discipline with
  | .none => credit
  | .loose => max (credit - length) Config.creditFloor
  | .strict => max (credit - length) Config.creditFloor

/-- Release as a whole is allowed: enabled and not quenched (R105). -/
def State.releaseAllowed (s : State) : Bool := s.scheduler.releaseEnable && !s.scheduler.quenchFlag

/-- Is the flow a candidate, judged on its head as it stands (R105)? -/
def State.candidate (s : State) (f : FlowId) : Bool :=
  let x := s.flow f
  match x.queue with
  | [] => false
  | r :: _ =>
    x.releasing && eligible x.active.discipline x.credit (s.store.recordLength r) && s.releaseAllowed

/-- Does the holder of the run qualify to continue (R115)? -/
def State.qualifies (s : State) (run : Run) : Bool :=
  match run.mode with
  | .block =>
    (s.flow run.holder).releasing && !(s.flow run.holder).queue.isEmpty && decide (0 < run.remaining)
  | .demand => s.candidate run.holder && decide (0 < run.remaining)

/-- Is a selection due (R110)? RESTARTING is the time for which selections stop (R172). -/
def State.selectionDue (s : State) : Bool :=
  s.down.sending.isNone && !s.pins.dhold && s.releaseAllowed && !s.up.restartCondition &&
    (s.scheduler.run.isSome || allFlows.any s.candidate)

/-! ## Hold timing (R150, R151) -/

/-- Is HOLD_STUCK to be reported with the given limit and timer (R151, R152)? -/
def stuckReports (dhold stuck : Bool) (limit timer : Nat) : Bool :=
  dhold && !stuck && decide (limit ≠ 0) && decide (limit ≤ timer)

/-- The hold timer after a tick with DHOLD asserted (R150). -/
def holdTimerTicked (timer : Nat) : Nat := min (timer + 1) Config.saturation

/-! ## The work of an expiry (R64, R87, R150, R181) -/

/-- The flow has had all the work of the last expiry, or is DISABLED and has none (R64, R87). -/
def Flow.expiryDone (x : Flow) : Bool :=
  x.isDisabled || (!x.due.replenishment && !x.due.sweep && !x.due.step)

/-- The item is SENT (R176). -/
def NoticeItem.isSent (x : NoticeItem) : Bool :=
  match x.state with
  | .clear => false
  | .raised => false
  | .sent _ _ _ _ => true

/-- The item has had its tick of the last expiry, or is not SENT and has none (R181). -/
def NoticeItem.expiryDone (x : NoticeItem) : Bool := !x.isSent || !x.tickDue

/-- All the work of the last expiry has been taken, so that the next expiry may be (R64, R87, R150, R181; log 4). -/
def State.expiryDone (s : State) : Bool :=
  s.flows.toList.all Flow.expiryDone && (!s.down.holdTickDue || !s.pins.dhold) &&
    s.notices.items.toList.all NoticeItem.expiryDone

/-! ## Notices (R177, R179) -/

/-- The code of a notice kind (R191). -/
def kindCode : NoticeKind → Nat
  | .stageTaken => 0
  | .flowHeld => 1
  | .flowClosed => 2
  | .queueDrop => 3
  | .poolLow => 4
  | .ingressError => 5
  | .mgmtLost => 6
  | .holdStuck => 7
  | .quenched => 8

/-- Is the kind enabled in the set (R176, R191)? -/
def kindEnabled (enables : BitVec 9) (k : NoticeKind) : Bool := enables.getLsbD (kindCode k)

/-- There is a destination and room in the notice queue, so that a build may be taken (R179). -/
def NoticeUnit.buildAllowed (n : NoticeUnit) : Bool :=
  decide (n.destination ≠ 0#16) && decide (n.queue.length < Config.noticeEntries)

end Sys2Proof.Machine
end

