-- ==== Sys2Proof/Machine/Ops.lean ====
section
/-! DEFINITION. The named operations the meanings share: frame memory, the Frame Store's bodies and records, reports to the Notice Unit, the ends of runs, entry into DISABLED, head removals and the pause test. -/
namespace Sys2Proof.Machine

/-! ## Frame memory (R26) -/

/-- The canonical form of frame memory: addresses strictly rising and inside the memory, no entry equal to what an unlisted address reads as (log 10). -/
def Memory.wf : List Host.Cell → Bool
  | [] => true
  | [(a, v)] => decide (a < Config.memoryBytes) && decide (v ≠ Config.unwrittenByte)
  | (a, v) :: (b, w) :: m =>
    decide (a < b) && decide (v ≠ Config.unwrittenByte) && Memory.wf ((b, w) :: m)

/-- The byte at an address. -/
def Memory.read (m : List Host.Cell) (a : Nat) : Byte :=
  match m with
  | [] => Config.unwrittenByte
  | (b, w) :: rest => if a = b then w else Memory.read rest a

/-- An entry in front of a memory, left out if it equals what an unlisted address reads as. -/
def Memory.cons (a : Nat) (v : Byte) (m : List Host.Cell) : List Host.Cell :=
  if v = Config.unwrittenByte then m else (a, v) :: m

/-- The memory with one byte written, in canonical form. -/
def Memory.write (m : List Host.Cell) (a : Nat) (v : Byte) : List Host.Cell :=
  match m with
  | [] => Memory.cons a v []
  | (b, w) :: rest =>
    if a < b then Memory.cons a v ((b, w) :: rest)
    else if a = b then Memory.cons a v rest
    else (b, w) :: Memory.write rest a v

/-- The address of a byte of a block (R26, log 10); the offset is below 128. -/
def blockAddress (b : BlockId) (offset : Nat) : Nat := b.val * Config.blockBytes + offset % Config.blockBytes

/-! ## Chains and free lists (R26, R29) -/

/-- The blocks of a chain of n blocks, by the link table (R26). -/
def chainFrom (links : Vector BlockLink 2048) : Nat → BlockId → List BlockId
  | 0, _ => []
  | n + 1, b =>
    b :: match links[b] with
      | .absent => []
      | .last => []
      | .next c => chainFrom links n c

/-- The blocks in a body's chain, in chain order (R26, R27). -/
def FrameStore.chain (st : FrameStore) (b : Body) : List BlockId :=
  match b.state with
  | .filling linked _ => chainFrom st.links linked b.firstBlock
  | .stored => chainFrom st.links b.blockCount b.firstBlock

/-- The blocks reserved for a body and not yet linked (R27). -/
def Body.pendingBlocks (b : Body) : List BlockId :=
  match b.state with
  | .filling _ blocks => blocks
  | .stored => []

/-- The link table with the entries of the given blocks absent. -/
def clearLinks (links : Vector BlockLink 2048) (blocks : List BlockId) : Vector BlockLink 2048 :=
  blocks.foldl (fun l (b : BlockId) => l.set b .absent) links

/-- Frees a body (R37): chain blocks and then pending blocks to the block free list, the body to its own. -/
def FrameStore.freeBody (st : FrameStore) (b : BodyId) : FrameStore :=
  match st.bodies[b] with
  | none => st
  | some body =>
    { st with
      links := clearLinks st.links (st.chain body)
      freeBlocks := st.freeBlocks ++ st.chain body ++ body.pendingBlocks
      bodies := st.bodies.set b none
      freeBodies := st.freeBodies ++ [b] }

/-- Returns a record that is not free to the record free list (R28); a free record is left alone (log 18). -/
def FrameStore.freeRecord (st : FrameStore) (r : RecordId) : FrameStore :=
  match st.records[r] with
  | none => st
  | some _ => { st with records := st.records.set r none, freeRecords := st.freeRecords ++ [r] }

/-- Lowers a body's share count by 1, freeing the body at 0 (R35, R36). -/
def FrameStore.dropShare (st : FrameStore) (b : BodyId) : FrameStore :=
  match st.bodies[b] with
  | none => st
  | some body =>
    if body.share ≤ 1 then st.freeBody b
    else { st with bodies := st.bodies.set b (some { body with share := body.share - 1 }) }

/-- Releases a record that leaves a queue or Port D: the record, and its share of its body (R35, R36). -/
def FrameStore.releaseRecord (st : FrameStore) (r : RecordId) : FrameStore :=
  match st.records[r] with
  | none => st
  | some fr => (st.freeRecord r).dropShare fr.body

/-- Sets the state of a record that is not free (R28). -/
def FrameStore.setRecordState (st : FrameStore) (r : RecordId) (rs : RecordState) : FrameStore :=
  match st.records[r] with
  | none => st
  | some fr => { st with records := st.records.set r (some { fr with state := rs }) }

/-! ## Reservation, filling and commit (R30 to R34) -/

/-- The blocks a frame of length L needs: ceil(L / 128) (R30). -/
def blocksFor (length : Nat) : Nat := (length + (Config.blockBytes - 1)) / Config.blockBytes

/-- The records of a reservation, each RESERVED for its grant (R30). -/
def reserveRecords (records : Vector (Option FrameRecord) 1024) (b : BodyId) :
    List RecordId → List Grant → Vector (Option FrameRecord) 1024
  | r :: rs, g :: gs =>
    reserveRecords (records.set r (some { state := .reserved g.generation, body := b, flow := g.flow })) b rs gs
  | [], _ => records
  | _, [] => records

/-- The reservation for a frame of length L granted by the given flows, whole or not at all (R30, R41):
the new store, the body and the records, primary first. -/
def FrameStore.reserve (st : FrameStore) (length : Nat) (grants : List Grant) :
    Option (FrameStore × BodyId × List RecordId) :=
  if grants.length ≤ st.freeRecords.length ∧ blocksFor length ≤ st.freeBlocks.length then
    match st.freeBodies, st.freeBlocks.take (blocksFor length) with
    | [], _ => none
    | _ :: _, [] => none
    | b :: bodiesLeft, first :: rest =>
      let blocksLeft := st.freeBlocks.drop (blocksFor length)
      let records := st.freeRecords.take grants.length
      some ({ st with
        links := st.links.set first .last
        freeBlocks := blocksLeft
        bodies := st.bodies.set b (some
          { state := .filling 1 rest, firstBlock := first, blockCount := blocksFor length,
            length := length, share := grants.length })
        freeBodies := bodiesLeft
        records := reserveRecords st.records b records grants
        freeRecords := st.freeRecords.drop grants.length
        lowWater := min st.lowWater blocksLeft.length }, b, records)
  else none

/-- Writes a byte of a block (R26). -/
def FrameStore.writeByte (st : FrameStore) (b : BlockId) (offset : Nat) (v : Byte) : FrameStore :=
  { st with mem := Memory.write st.mem (blockAddress b offset) v }

/-- Links a block at the tail of a chain (R32). -/
def linkTail (links : Vector BlockLink 2048) (chain : List BlockId) (b : BlockId) : Vector BlockLink 2048 :=
  match chain.getLast? with
  | none => links.set b .last
  | some t => (links.set t (.next b)).set b .last

/-- The block that byte n of the frame in reception goes to: the one of its place in the chain, or, when the chain is
full, the first pending one; none when no pending block remains (R32). -/
def FrameStore.byteBlock (st : FrameStore) (b : BodyId) (n : Nat) : Option BlockId :=
  match st.bodies[b] with
  | none => none
  | some body =>
    match body.state with
    | .stored => none
    | .filling _ blocks =>
      match (st.chain body)[n / Config.blockBytes]? with
      | some block => some block
      | none => blocks.head?

/-- Links the first pending block at the tail of the chain when the chain holds no place for byte n (R32). -/
def FrameStore.extendTo (st : FrameStore) (b : BodyId) (n : Nat) : FrameStore :=
  match st.bodies[b] with
  | none => st
  | some body =>
    match body.state with
    | .stored => st
    | .filling linked blocks =>
      match (st.chain body)[n / Config.blockBytes]?, blocks with
      | some _, _ => st
      | none, [] => st
      | none, p :: rest =>
        { st with
          links := linkTail st.links (st.chain body) p
          bodies := st.bodies.set b (some { body with state := .filling (linked + 1) rest }) }

/-- Byte n of the frame in reception into its FILLING body, unwritten when no block is left for it (R32). -/
def FrameStore.storeByte (st : FrameStore) (b : BodyId) (n : Nat) (v : Byte) : FrameStore :=
  match st.byteBlock b n with
  | none => st
  | some block => (st.extendTo b n).writeByte block n v

/-- The bytes from byte n on into a FILLING body, in order (R32). -/
def FrameStore.storeBytes (st : FrameStore) (b : BodyId) (n : Nat) : List Byte → FrameStore
  | [] => st
  | v :: vs => (st.storeByte b n v).storeBytes b (n + 1) vs

/-- Settles a body at the commit of its frame: STORED with the records appended as its share count, or freed (R33). -/
def FrameStore.settleBody (st : FrameStore) (b : BodyId) (appended : Nat) : FrameStore :=
  if appended = 0 then st.freeBody b
  else
    match st.bodies[b] with
    | none => st
    | some body => { st with bodies := st.bodies.set b (some { body with state := .stored, share := appended }) }

/-- Frees a whole reservation: its records, primary first, and its body (R34). -/
def FrameStore.freeReservation (st : FrameStore) (b : BodyId) (records : List RecordId) : FrameStore :=
  (records.foldl FrameStore.freeRecord st).freeBody b

/-- The first n bytes stored in a body's chain, in chain order (R26, R144). -/
def FrameStore.bodyBytes (st : FrameStore) (b : Body) (n : Nat) : List Byte :=
  ((st.chain b).flatMap fun block => (List.range Config.blockBytes).map fun o =>
    Memory.read st.mem (blockAddress block o)).take n

/-! ## Reports (R177, log 6) -/

/-- The notice item of a kind and a scope; a global kind has one item (R176). -/
def itemOf (k : NoticeKind) (scope : FlowId) : ItemId :=
  match k with
  | .stageTaken => ⟨scope.val, by omega⟩
  | .flowHeld => ⟨256 + scope.val, by omega⟩
  | .flowClosed => ⟨512 + scope.val, by omega⟩
  | .queueDrop => ⟨768 + scope.val, by omega⟩
  | .poolLow => 1024
  | .ingressError => 1025
  | .mgmtLost => 1026
  | .holdStuck => 1027
  | .quenched => 1028

/-- The kind of a notice item (R176). -/
def itemKind (i : ItemId) : NoticeKind :=
  if i.val < 256 then .stageTaken
  else if i.val < 512 then .flowHeld
  else if i.val < 768 then .flowClosed
  else if i.val < 1024 then .queueDrop
  else if i.val = 1024 then .poolLow
  else if i.val = 1025 then .ingressError
  else if i.val = 1026 then .mgmtLost
  else if i.val = 1027 then .holdStuck
  else .quenched

/-- The scope of a notice item: its flow, or 0 for a global kind (R176). -/
def itemScope (i : ItemId) : Nat := if i.val < 1024 then i.val % 256 else 0

/-- Reports a condition of one flow to the Notice Unit (R177). -/
def State.report (s : State) (k : NoticeKind) (f : FlowId) : State :=
  s.setNotices { s.notices with reports := s.notices.reports ++ [itemOf k f] }

/-- Reports a global condition to the Notice Unit (R177). -/
def State.reportGlobal (s : State) (k : NoticeKind) : State := s.report k 0

/-! ## The pause test (R39) -/

/-- The pause tests after an event that may have changed the free-block count or the watermarks (R39, R40; log 16). -/
def State.pauseTest (s : State) : State :=
  if s.store.pauseAsserts then
    (s.setStore { s.store with pauseCondition := true }).reportGlobal .poolLow
  else if s.store.pauseDeasserts then s.setStore { s.store with pauseCondition := false }
  else s

/-! ## Runs and flow states (R8, R11, R118) -/

/-- Ends the run in progress, if any (R118). -/
def State.endRun (s : State) : State := s.setScheduler { s.scheduler with run := none }

/-- Does the flow hold the run (R104)? -/
def State.holdsRun (s : State) (f : FlowId) : Bool :=
  match s.scheduler.run with
  | none => false
  | some run => decide (run.holder = f)

/-- Ends the run if the flow holds it (R118). -/
def State.endRunOf (s : State) (f : FlowId) : State := if s.holdsRun f then s.endRun else s

/-- Sets a flow's state. -/
def State.setFlowState (s : State) (f : FlowId) (fs : FlowState) : State :=
  s.modifyFlow f fun x => { x with state := fs }

/-- A flow as its entry into DISABLED leaves it (R8): the staged slot empty, adopt-pending clear, and a replenishment that is due
and not yet taken removed (R69; that every entry removes it, and not a completed drain alone, is log 4). -/
def Flow.disabled (x : Flow) : Flow :=
  { x with state := .disabled, staged := none, adoptPending := false, due := { x.due with replenishment := false } }

/-- Entry into DISABLED, whichever cause leads there (R8). -/
def State.enterDisabled (s : State) (f : FlowId) : State :=
  ((s.modifyFlow f Flow.disabled).endRunOf f).report .flowClosed f

/-- Closes an ACTIVE or HELD flow (R7): DRAINING, or DISABLED at once if it is empty and nothing is in transmission. -/
def State.closeFlow (s : State) (f : FlowId) : State :=
  if (s.flow f).queue.isEmpty && !(s.flow f).inTransmission then s.enterDisabled f
  else s.setFlowState f .draining

/-- The completion of a flush with the given return state (R11). -/
def State.completeFlush (s : State) (f : FlowId) (back : ReturnState) : State :=
  match back with
  | .active => s.setFlowState f .active
  | .held cause => s.setFlowState f (.held cause)
  | .draining => if (s.flow f).inTransmission then s.setFlowState f .draining else s.enterDisabled f

/-- The tests of R8 and R11 after an event at which the flow's queue may have become empty or its in-transmission flag clear. -/
def State.settleFlow (s : State) (f : FlowId) : State :=
  if (s.flow f).queue.isEmpty then
    match (s.flow f).state with
    | .disabled => s
    | .active => s
    | .held _ => s
    | .draining => if (s.flow f).inTransmission then s else s.enterDisabled f
    | .flushing back => s.completeFlush f back
  else s

/-! ## Counters and head removals (R16, R17) -/

/-- The six reasons for which a flow counts a discard (R24). -/
inductive DiscardReason where
  | limit
  | head
  | closed
  | flushed
  | stale
  | pool
  deriving DecidableEq, Repr

/-- The counters after one discard for the given reason (R24). -/
def FlowCounters.discard (c : FlowCounters) (why : DiscardReason) : FlowCounters :=
  match why with
  | .limit => { c with limit := c.limit + 1 }
  | .head => { c with head := c.head + 1 }
  | .closed => { c with closed := c.closed + 1 }
  | .flushed => { c with flushed := c.flushed + 1 }
  | .stale => { c with stale := c.stale + 1 }
  | .pool => { c with pool := c.pool + 1 }

/-- Counts one discard at a flow (R24). -/
def State.countDiscard (s : State) (f : FlowId) (why : DiscardReason) : State :=
  s.modifyFlow f fun x => { x with counters := x.counters.discard why }

/-- The flow without its head record, whose frame has the given length (R16, R17). -/
def Flow.popHead (x : Flow) (length : Nat) : Flow :=
  { x with queue := x.queue.tail, queuedFrames := x.queuedFrames - 1, queuedBytes := x.queuedBytes - length }

/-- Reports QUEUE_DROP for a head removal of reason HEAD or STALE (R17); a flush step reports nothing (R11). -/
def State.reportRemoval (s : State) (f : FlowId) (why : DiscardReason) : State :=
  match why with
  | .head => s.report .queueDrop f
  | .stale => s.report .queueDrop f
  | .limit => s
  | .closed => s
  | .flushed => s
  | .pool => s

/-- Removes a flow's head record for discard, or by a flush step, with the given reason (R11, R17, R35):
the queue, the counter, the store with its pause test, the report, and the tests of R8 and R11. -/
def State.discardHead (s : State) (f : FlowId) (why : DiscardReason) : State :=
  match (s.flow f).queue with
  | [] => s
  | r :: _ =>
    let s1 := s.modifyFlow f fun x =>
      { x.popHead (s.store.recordLength r) with counters := x.counters.discard why }
    let s2 := (s1.setStore (s1.store.releaseRecord r)).pauseTest
    (s2.reportRemoval f why).settleFlow f

/-- Removes a flow's stale heads, at most n of them (R77). -/
def State.removeStale (s : State) (f : FlowId) : Nat → State
  | 0 => s
  | n + 1 =>
    match (s.flow f).queue with
    | [] => s
    | r :: _ =>
      if s.stale (s.flow f).active.ageLimit r then (s.discardHead f .stale).removeStale f n else s

/-- The aging of one flow's heads: removes stale heads until the head is not stale or the queue is empty (R77). -/
def State.ageFlow (s : State) (f : FlowId) : State := s.removeStale f (s.flow f).queue.length

end Sys2Proof.Machine
end

