-- ==== Sys2Proof/Machine/Operands.lean ====
section
/-! DEFINITION. The encodings of what commands carry and return: flow numbers, profiles (R192), match entries (R193), codes (R190, R191) and the READ_FLOW result (R194); an argument out of range decodes to nothing (R196). -/
namespace Sys2Proof.Machine

/-! ## Numbers that name things -/

/-- A flow number, or nothing above 255 (R196). -/
def flowOf (n : Nat) : Option FlowId := if h : n < 256 then some ⟨n, h⟩ else none

/-- The flow number at an offset of the arguments (R188, R191). -/
def flowAt (args : List Byte) (i : Nat) : Option FlowId := flowOf (num16At args i)

/-- A yes/no byte (R188, R196). -/
def boolOf (n : Nat) : Option Bool :=
  match n with
  | 0 => some false
  | 1 => some true
  | _ => none

/-- A release group of SET_FLOW: 0 to 7, with 8 for X (R191). -/
def groupOf (n : Nat) : Option Group :=
  if h : n < 8 then some (.ring ⟨n, h⟩) else if n = 8 then some .express else none

/-- The code of a group (R191). -/
def groupCode : Group → Nat
  | .ring g => g.val
  | .express => 8

/-- A group of SET_GROUP: 0 to 7 (R123, R196). -/
def ringGroupOf (n : Nat) : Option (Fin 8) := if h : n < 8 then some ⟨n, h⟩ else none

/-- An admission policy (R191). -/
def policyOf (n : Nat) : Option AdmissionPolicy :=
  match n with
  | 0 => some .tailDrop
  | 1 => some .headDrop
  | _ => none

/-- The code of an admission policy (R191). -/
def policyCode : AdmissionPolicy → Nat
  | .tailDrop => 0
  | .headDrop => 1

/-- A ring policy (R191). -/
def ringPolicyOf (n : Nat) : Option RingPolicy :=
  match n with
  | 0 => some .fixed
  | 1 => some .rotating
  | _ => none

/-- The code of a ring policy (R191). -/
def ringPolicyCode : RingPolicy → Nat
  | .fixed => 0
  | .rotating => 1

/-- The code of a status (R190). -/
def statusCode : Status → Nat
  | .ok => 0
  | .badCommand => 1
  | .badArgument => 2
  | .badState => 3
  | .busy => 4
  | .slotFull => 5
  | .slotEmpty => 6
  | .staleAck => 7
  | .notAttempted => 8
  | .malformed => 9

/-- A notice kind (R191). -/
def kindOf (n : Nat) : Option NoticeKind :=
  match n with
  | 0 => some .stageTaken
  | 1 => some .flowHeld
  | 2 => some .flowClosed
  | 3 => some .queueDrop
  | 4 => some .poolLow
  | 5 => some .ingressError
  | 6 => some .mgmtLost
  | 7 => some .holdStuck
  | 8 => some .quenched
  | _ => none

/-- A match index, or nothing above 63 (R57). -/
def matchIndexOf (n : Nat) : Option (Fin 64) := if h : n < 64 then some ⟨n, h⟩ else none

/-! ## Profiles (R192) -/

/-- A discipline (R192). -/
def disciplineOf (n : Nat) : Option Discipline :=
  match n with
  | 0 => some .none
  | 1 => some .loose
  | 2 => some .strict
  | _ => none

/-- The code of a discipline (R192). -/
def disciplineCode : Discipline → Nat
  | .none => 0
  | .loose => 1
  | .strict => 2

/-- A release mode (R192). -/
def releaseModeOf (n : Nat) : Option ReleaseMode :=
  match n with
  | 0 => some .single
  | 1 => some .block
  | 2 => some .demand
  | _ => none

/-- The code of a release mode (R192). -/
def releaseModeCode : ReleaseMode → Nat
  | .single => 0
  | .block => 1
  | .demand => 2

/-- An expire action (R192). -/
def expireActionOf (n : Nat) : Option ExpireAction :=
  match n with
  | 0 => some .hold
  | 1 => some .repeat
  | 2 => some .close
  | _ => none

/-- The code of an expire action (R192). -/
def expireActionCode : ExpireAction → Nat
  | .hold => 0
  | .repeat => 1
  | .close => 2

/-- Every field of the profile lies in its range (R84). -/
def Profile.good (p : Profile) : Bool :=
  decide (p.rate ≤ 65535) && decide (p.burstCap ≤ 262143) && decide (1 ≤ p.runLength) &&
    decide (p.runLength ≤ 64) && decide (p.ageLimit ≤ 32767) && decide (p.lifetime ≤ 65535)

/-- A profile in its 16-byte encoding (R192). -/
def encodeProfile (p : Profile) : List Byte :=
  bytes8 (disciplineCode p.discipline) ++ bytes8 (releaseModeCode p.releaseMode) ++ bytes16 p.rate ++
    bytes32 p.burstCap ++ bytes8 p.runLength ++ bytes8 (expireActionCode p.expireAction) ++
    bytes16 p.ageLimit ++ bytes16 p.lifetime ++ bytes16 0

/-- The profile of a 16-byte encoding, or nothing when a field is out of range (R84, R192, R196). -/
def decodeProfile (bs : List Byte) : Option Profile :=
  match disciplineOf (byteAt bs 0), releaseModeOf (byteAt bs 1), expireActionOf (byteAt bs 9) with
  | some d, some m, some e =>
    let p : Profile :=
      { discipline := d, rate := num16At bs 2, burstCap := num32At bs 4, releaseMode := m,
        runLength := byteAt bs 8, ageLimit := num16At bs 10, lifetime := num16At bs 12, expireAction := e }
    if p.good && decide (num16At bs 14 = 0) then some p else none
  | _, _, _ => none

/-! ## Match entries (R193) -/

/-- The relabel value an entry writes: nothing under a clear flag, and nothing decoded when the flag is neither 00h nor 01h (R57, R196). -/
def relabelOf (bs : List Byte) : Option (Option Tag) :=
  match boolOf (byteAt bs 2) with
  | none => none
  | some false => some none
  | some true => some (some (field16At bs 30))

/-- The action of an encoded match entry with the fields it has; the fields absent under it are not checked (R57). -/
def decodeAction (bs : List Byte) : Option MatchAction :=
  match byteAt bs 1 with
  | 0 => some .discard
  | 1 =>
    match flowAt bs 26, relabelOf bs with
    | some f, some r => some (.queue f r)
    | _, _ => none
  | 2 =>
    match flowAt bs 26, flowAt bs 28, relabelOf bs with
    | some f, some g, some r => if f = g then none else some (.mirror f g r)
    | _, _, _ => none
  | _ => none

/-- The match entry of a 32-byte encoding, or nothing when a check of R57 or R196 fails. -/
def decodeEntry (bs : List Byte) : Option MatchEntry :=
  match boolOf (byteAt bs 0), decodeAction bs with
  | some v, some a =>
    if byteAt bs 3 = 0 ∧ num16At bs 22 ≤ 2048 ∧ num16At bs 24 ≤ 2048 ∧ num16At bs 22 ≤ num16At bs 24 then
      some
        { valid := v
          destValue := field16At bs 4, destMask := field16At bs 6
          sourceValue := field16At bs 8, sourceMask := field16At bs 10
          kindSet := field16At bs 12, classSet := field16At bs 14
          laneValue := BitVec.ofNat 8 (byteAt bs 16), laneMask := BitVec.ofNat 8 (byteAt bs 17)
          labelValue := field16At bs 18, labelMask := field16At bs 20
          lengthMin := num16At bs 22, lengthMax := num16At bs 24, action := a }
    else none
  | _, _ => none

/-- The code of a match action (R191). -/
def actionCode : MatchAction → Nat
  | .discard => 0
  | .queue _ _ => 1
  | .mirror _ _ _ => 2

/-- The flow field of an action, 0 where absent (R58). -/
def actionFlow : MatchAction → Nat
  | .discard => 0
  | .queue f _ => f.val
  | .mirror f _ _ => f.val

/-- The mirror flow field of an action, 0 where absent (R58). -/
def actionMirror : MatchAction → Nat
  | .discard => 0
  | .queue _ _ => 0
  | .mirror _ g _ => g.val

/-- The relabel value of an action, if its flag is set (R44). -/
def actionRelabel : MatchAction → Option Tag
  | .discard => none
  | .queue _ r => r
  | .mirror _ _ r => r

/-- A match entry in its 32-byte encoding, absent fields as 0 (R58, R193). -/
def encodeEntry (e : MatchEntry) : List Byte :=
  bytesBool e.valid ++ bytes8 (actionCode e.action) ++ bytesBool (actionRelabel e.action).isSome ++ bytes8 0 ++
    bytes16 e.destValue.toNat ++ bytes16 e.destMask.toNat ++ bytes16 e.sourceValue.toNat ++
    bytes16 e.sourceMask.toNat ++ bytes16 e.kindSet.toNat ++ bytes16 e.classSet.toNat ++
    bytes8 e.laneValue.toNat ++ bytes8 e.laneMask.toNat ++ bytes16 e.labelValue.toNat ++
    bytes16 e.labelMask.toNat ++ bytes16 e.lengthMin ++ bytes16 e.lengthMax ++ bytes16 (actionFlow e.action) ++
    bytes16 (actionMirror e.action) ++ bytes16 ((actionRelabel e.action).getD 0#16).toNat

/-- The default action of SET_DEFAULT's arguments; with DISCARD the flow position is not checked (R59). -/
def decodeDefault (action flow : Nat) : Option DefaultAction :=
  match action with
  | 0 => some .discard
  | 1 => (flowOf flow).map .queue
  | _ => none

/-- A default action as SET_DEFAULT returns it: its code, and its flow or 0000h (R59, R191). -/
def encodeDefault : DefaultAction → List Byte
  | .discard => bytes8 0 ++ bytes16 0
  | .queue f => bytes8 1 ++ bytes16 f.val

/-! ## The READ_FLOW result (R194) -/

/-- The code of a flow state (R194). -/
def flowStateCode : FlowState → Nat
  | .disabled => 0
  | .active => 1
  | .held _ => 2
  | .draining => 3
  | .flushing _ => 4

/-- The code of the hold cause, 0 where absent (R194). -/
def holdCauseCode : FlowState → Nat
  | .disabled => 0
  | .active => 0
  | .held .expired => 1
  | .held .ordered => 2
  | .draining => 0
  | .flushing _ => 0

/-- The code of a return state (R194). -/
def returnCode : ReturnState → Nat
  | .active => 1
  | .held .expired => 2
  | .held .ordered => 3
  | .draining => 4

/-- The code of the return state, 0 where absent (R194). -/
def returnStateCode : FlowState → Nat
  | .disabled => 0
  | .active => 0
  | .held _ => 0
  | .draining => 0
  | .flushing back => returnCode back

/-- The 28 bytes of a READ_FLOW result (R23, R194). -/
def encodeFlow (x : Flow) (holdsRun : Bool) : List Byte :=
  bytes8 (flowStateCode x.state) ++ bytes8 (holdCauseCode x.state) ++ bytes8 (returnStateCode x.state) ++
    bytes8 x.generation.toNat ++ bytes8 (groupCode x.group) ++ bytes8 (policyCode x.policy) ++
    bytes16 x.frameLimit ++ bytes32 x.byteLimit ++ bytes16 x.queuedFrames ++ bytes32 x.queuedBytes ++
    bytesBool x.inTransmission ++ bytesInt32 x.credit ++ bytes16 x.remaining ++ bytesBool x.staged.isSome ++
    bytesBool x.adoptPending ++ bytesBool holdsRun

/-- The 36 bytes of a READ_PROFILE result; an empty slot is sixteen zero bytes (R101, R191, R196). -/
def encodeProfileState (x : Flow) : List Byte :=
  encodeProfile x.active ++ bytesBool x.staged.isSome ++
    (match x.staged with
      | none => List.replicate 16 0#8
      | some p => encodeProfile p) ++
    bytes16 x.remaining ++ bytesBool x.adoptPending

/-! ## The lead (R189) -/

/-- The lead's source tag. -/
def leadSource (bs : List Byte) : Tag := field16At bs 2

/-- The lead's kind, 0 to 15. -/
def leadKind (bs : List Byte) : Nat := byteAt bs 4 / 16

/-- The lead's class, 0 to 15. -/
def leadClass (bs : List Byte) : Nat := byteAt bs 4 % 16

/-- The lead's dest tag. -/
def leadDest (bs : List Byte) : Tag := field16At bs 0

/-- The lead's lane. -/
def leadLane (bs : List Byte) : Byte := bs.getD 5 0#8

/-- The lead's sequence. -/
def leadSequence (bs : List Byte) : Tag := field16At bs 6

/-- The claimed length. -/
def leadLength (bs : List Byte) : Nat := num16At bs 8

/-- The lead's label. -/
def leadLabel (bs : List Byte) : Tag := field16At bs 10

/-- A lead with its label replaced (R52). -/
def relabelled (bs : List Byte) (label : Tag) : List Byte := bs.take 10 ++ bytes16 label.toNat

/-- The bytes of a lead the part builds (R165, R178, R189). -/
def buildLead (dest source : Tag) (kind cls : Nat) (lane : Byte) (sequence : Tag) (length : Nat) (label : Tag) :
    List Byte :=
  bytes16 dest.toNat ++ bytes16 source.toNat ++ bytes8 (kind * 16 + cls) ++ [lane] ++ bytes16 sequence.toNat ++
    bytes16 length ++ bytes16 label.toNat

/-- The kind code of a management request (R189). -/
def kindMgmtReq : Nat := 2

/-- The kind code of a management response (R189). -/
def kindMgmtResp : Nat := 3

/-- The kind code of a notice frame (R189). -/
def kindNotice : Nat := 4

end Sys2Proof.Machine
end

