-- ==== Sys2Proof/Machine/Management.lean ====
section
/-! DEFINITION. The Management Agent (R155 to R175): how the next command of the request in execution is taken and answered, and the agent's own commands and the TAKE. -/
namespace Sys2Proof.Machine

/-! ## Answers -/

/-- What a command gives at its owning block: the new state, the status, and the data of its result (R163). -/
structure Answer where
  state : State
  status : Status
  data : List Byte

/-- A refusal: nothing changes and no data is carried (R167). -/
def refuse (s : State) (st : Status) : Answer := { state := s, status := st, data := [] }

/-- OK with the given data. -/
def answerOk (s : State) (data : List Byte) : Answer := { state := s, status := .ok, data := data }

/-- The agent's check of the argument length (R163). -/
def ofLength (n : Nat) (args : List Byte) (s : State) (run : Answer) : Answer :=
  if args.length = n then run else refuse s .badArgument

/-! ## Responses (R165, R166) -/

/-- One result as the response body carries it (R190). -/
def encodeResult (r : CommandResult) : List Byte :=
  [r.code] ++ bytes8 (statusCode r.status) ++ bytes8 r.data.length ++ r.data

/-- The overall status: OK, or the status of the first result that is not OK (R165). -/
def overallStatus : List CommandResult → Status
  | [] => .ok
  | r :: rs => if r.status = .ok then overallStatus rs else r.status

/-- The body of a response (R190). -/
def responseBody (overall : Status) (results : List CommandResult) : List Byte :=
  bytes8 (statusCode overall) ++ bytes8 results.length ++ results.flatMap encodeResult

/-- The response to a request, lead and body (R165). -/
def buildResponse (request : List Byte) (ownTag : Tag) (overall : Status) (results : List CommandResult) : List Byte :=
  let body := responseBody overall results
  buildLead (leadSource request) ownTag kindMgmtResp (leadClass request) (leadLane request) (leadSequence request)
    (Config.leadBytes + body.length + Config.checkBytes) (leadLabel request) ++ body

/-- The claimed entry of the response queue made ready with a response (R158). -/
def readyClaimed (frame : List Byte) : ResponseEntry → ResponseEntry
  | .claimed => .ready frame
  | .ready f => .ready f

/-- Places a response in the claimed entry (R158). -/
def Agent.placeResponse (a : Agent) (frame : List Byte) : Agent :=
  { a with responses := a.responses.map (readyClaimed frame) }

/-- Places a response and stores it with the request's key in the replay memory (R159, R162, R166). -/
def Agent.placeAndStore (a : Agent) (request frame : List Byte) : Agent :=
  { a.placeResponse frame with
    replay := some { source := leadSource request, sequence := leadSequence request, response := frame } }

/-! ## Executing a command (R163, R164, R166) -/

/-- The execution after one more result; the stop marker is set by an executed RESTART, and by a result other than OK under stop-on-error (R164). -/
def Execution.record (x : Execution) (r : CommandResult) (restart : Bool) : Execution :=
  { x with
    index := x.index + 1
    results := x.results ++ [r]
    stop := x.stop || restart || (x.stopOnError && decide (r.status ≠ .ok)) }

/-- The results of the commands that are not attempted (R164). -/
def Execution.notAttempted (x : Execution) : List CommandResult :=
  (x.commands.drop x.index).map fun c => { code := c.code, status := .notAttempted, data := [] }

/-- Execution has ended: the stop marker is set, or every command has been executed (R164). -/
def Execution.ended (x : Execution) : Bool := x.stop || decide (x.commands.length ≤ x.index)

/-- The agent after a command's result: the next command, or the response placed and stored (R164, R166). -/
def Agent.finish (a : Agent) (ownTag : Tag) (r : CommandResult) (restart : Bool) : Agent :=
  match a.state with
  | .idle => a
  | .executing x =>
    let y := x.record r restart
    if y.ended then
      let results := y.results ++ y.notAttempted
      { a.placeAndStore y.request (buildResponse y.request ownTag (overallStatus results) results) with
        state := if restart then .restartPending else .idle }
    else { a with state := .executing y }
  | .restartPending => a
  | .restarting => a

/-- The next command of the request in execution is this one, so its event is due (R163; logs 1, 3, 12). -/
def State.commandDue (s : State) (code : Byte) (args : List Byte) : Bool :=
  match s.agent.state with
  | .idle => false
  | .executing x =>
    !s.pins.reset && !x.stop && decide (x.commands[x.index]? = some { code := code, args := args })
  | .restartPending => false
  | .restarting => false

/-- Records a command's result with the agent. -/
def Answer.finish (r : Answer) (code : Byte) (restart : Bool) : State :=
  r.state.setAgent (r.state.agent.finish r.state.up.ownTag { code := code, status := r.status, data := r.data } restart)

/-- The event of one command of a request: taken at its owning block when it is the next command, and answered (R163). -/
def takeCommand (code : Byte) (args : List Byte) (run : State → Answer) (s : State) : Host.Outcome State Fault Refusal :=
  if s.commandDue code args then .next ((run s).finish code false) else .next s

/-! ## The commands the agent owns -/

/-- The meaning of UNKNOWN_COMMAND: BAD_COMMAND with no data, and no block reached (R163). -/
def execUnknownCommand (code : Byte) (args : List Byte) (s : State) : Host.Outcome State Fault Refusal :=
  if knownCode code then .next s else takeCommand code args (fun s => refuse s .badCommand) s

/-- The status result (R169, R191). -/
def statusResult (s : State) : List Byte :=
  bytes16 s.up.ownTag.toNat ++ bytes16 s.pacing.epochCounter.toNat ++ bytes16 s.store.freeBlocks.length ++
    bytesBool s.store.pauseCondition ++ bytesBool s.upause ++ bytesBool s.scheduler.releaseEnable ++
    bytesBool s.scheduler.quenchFlag ++ bytesBool s.pins.quench ++ bytesBool s.pins.dhold ++
    bytes32 s.agent.restartCount.toNat

/-- READ_STATUS at the agent (R169). -/
def commandReadStatus (args : List Byte) (s : State) : Answer :=
  ofLength 0 args s (answerOk s (statusResult s))

/-- The meaning of READ_STATUS (R169). -/
def execReadStatus (args : List Byte) (s : State) : Host.Outcome State Fault Refusal :=
  takeCommand 0x17#8 args (commandReadStatus args) s

/-- A scope of READ_COUNTERS (R170). -/
inductive CounterScope where
  | flow (f : FlowId)
  | classifier
  | ingress
  | egress
  | management
  | notices
  deriving DecidableEq, Repr

/-- The scope of a scope number (R191). -/
def scopeOf (n : Nat) : Option CounterScope :=
  match flowOf n with
  | some f => some (.flow f)
  | none =>
    if n = 0x100 then some .classifier
    else if n = 0x101 then some .ingress
    else if n = 0x102 then some .egress
    else if n = 0x103 then some .management
    else if n = 0x104 then some .notices
    else none

/-- Counters as the data of a result, four bytes each (R191). -/
def encodeCounters (cs : List Counter) : List Byte := cs.flatMap fun c => bytes32 c.toNat

/-- The counters of a flow in the order R170 lists them. -/
def FlowCounters.toList (c : FlowCounters) : List Counter :=
  [c.acceptedFrames, c.acceptedBytes, c.releasedFrames, c.releasedBytes, c.limit, c.head, c.closed, c.flushed,
    c.stale, c.pool]

/-- The counters of a scope in the order R170 lists them. -/
def State.scopeCounters (s : State) : CounterScope → List Counter
  | .flow f => (s.flow f).counters.toList
  | .classifier => [s.classifier.noMatch]
  | .ingress => [s.up.framesReceived, s.up.leadErrors, s.up.lengthErrors, s.up.checkErrors, s.up.aborts]
  | .egress => [s.down.framesSent, s.down.bytesSent]
  | .management => [s.agent.taken, s.agent.lost, s.agent.replayed, s.agent.malformed]
  | .notices => [s.notices.built, s.notices.repeats, s.notices.acks, s.notices.staleAcks]

/-- The state with the counters of a scope at 0 (R170). -/
def State.clearScope (s : State) : CounterScope → State
  | .flow f => s.modifyFlow f fun x => { x with counters := FlowCounters.zero }
  | .classifier => s.setClassifier { s.classifier with noMatch := 0#32 }
  | .ingress =>
    s.setUp { s.up with
      framesReceived := 0#32, leadErrors := 0#32, lengthErrors := 0#32, checkErrors := 0#32, aborts := 0#32 }
  | .egress => s.setDown { s.down with framesSent := 0#32, bytesSent := 0#32 }
  | .management => s.setAgent { s.agent with taken := 0#32, lost := 0#32, replayed := 0#32, malformed := 0#32 }
  | .notices => s.setNotices { s.notices with built := 0#32, repeats := 0#32, acks := 0#32, staleAcks := 0#32 }

/-- READ_COUNTERS at the agent (R170): the counters as read, then cleared if asked. -/
def commandReadCounters (args : List Byte) (s : State) : Answer :=
  ofLength 3 args s <|
    match scopeOf (num16At args 0), boolOf (byteAt args 2) with
    | some scope, some clear =>
      answerOk (if clear then s.clearScope scope else s) (encodeCounters (s.scopeCounters scope))
    | _, _ => refuse s .badArgument

/-- The meaning of READ_COUNTERS (R170). -/
def execReadCounters (args : List Byte) (s : State) : Host.Outcome State Fault Refusal :=
  takeCommand 0x18#8 args (commandReadCounters args) s

/-- The meaning of RESTART (R171): OK, the stop marker, the response placed, and RESTART_PENDING;
with arguments it is refused and restarts nothing. -/
def execRestart (args : List Byte) (s : State) : Host.Outcome State Fault Refusal :=
  if s.commandDue 0x19#8 args then
    if args.length = 0 then .next ((answerOk s []).finish 0x19#8 true)
    else .next ((refuse s .badArgument).finish 0x19#8 false)
  else .next s

/-! ## Taking a request (R157 to R162) -/

/-- The commands of a request's command list, or nothing when the body does not hold them exactly (R161). -/
def parseCommands : Nat → List Byte → Option (List Command)
  | 0, [] => some []
  | 0, _ :: _ => none
  | n + 1, code :: len :: rest =>
    if rest.length < len.toNat then none
    else
      match parseCommands n (rest.drop len.toNat) with
      | none => none
      | some cs => some ({ code := code, args := rest.take len.toNat } :: cs)
  | _ + 1, [_] => none
  | _ + 1, [] => none

/-- The stop-on-error flag and the command list of a request body, or nothing when the request is malformed (R161, R190). -/
def parseBody (body : List Byte) : Option (Bool × List Command) :=
  match body with
  | [] => none
  | [_] => none
  | flags :: count :: rest =>
    match boolOf flags.toNat with
    | none => none
    | some stopOnError =>
      if count.toNat = 0 ∨ 8 < count.toNat then none
      else
        match parseCommands count.toNat rest with
        | none => none
        | some cs => some (stopOnError, cs)

/-- The lead and body of a whole request frame, without its check (R161). -/
def leadAndBody (frame : List Byte) : List Byte := frame.take (frame.length - Config.checkBytes)

/-- The request's key is the replay memory's (R159, R160). -/
def Agent.replays (a : Agent) (request : List Byte) : Option (List Byte) :=
  match a.replay with
  | none => none
  | some m => if leadSource request = m.source ∧ leadSequence request = m.sequence then some m.response else none

/-- The agent with a request taken: its slot free, an entry claimed, the taken counter moved (R157). -/
def Agent.claim (a : Agent) (slot : SlotId) : Agent :=
  { a with
    slots := a.slots.set slot .free
    waitOrder := a.waitOrder.tail
    responses := a.responses ++ [.claimed]
    taken := a.taken + 1 }

/-- What the take does with the request taken: a replay, MALFORMED, or execution (R160, R162, R163). -/
def Agent.answerTake (a : Agent) (ownTag : Tag) (request : List Byte) : Agent :=
  match a.replays request with
  | some response => { a.placeResponse response with replayed := a.replayed + 1 }
  | none =>
    match parseBody (request.drop Config.leadBytes) with
    | none => { a.placeAndStore request (buildResponse request ownTag .malformed []) with malformed := a.malformed + 1 }
    | some (stopOnError, commands) =>
      { a with
        state := .executing
          { request := request, commands := commands, stopOnError := stopOnError, index := 0, results := [], stop := false } }

/-- The frame in a waiting slot (R155). -/
def Slot.waitingFrame : Slot → Option (List Byte)
  | .free => none
  | .filling _ => none
  | .waiting frame => some frame

/-- The oldest waiting request with its slot (R155, R157). -/
def Agent.oldestWaiting (a : Agent) : Option (SlotId × List Byte) :=
  match a.waitOrder with
  | [] => none
  | slot :: _ => (a.slots[slot].waitingFrame).map fun frame => (slot, frame)

/-- The meaning of TAKE (R157 to R163): taken when the agent is IDLE, a request waits and a response entry is free. -/
def execTake (s : State) : Host.Outcome State Fault Refusal :=
  if s.pins.reset = false ∧ s.agent.state = .idle ∧ s.agent.responses.length < Config.responseEntries then
    match s.agent.oldestWaiting with
    | none => .next s
    | some (slot, frame) =>
      .next (s.setAgent ((s.agent.claim slot).answerTake s.up.ownTag (leadAndBody frame)))
  else .next s

end Sys2Proof.Machine
end

