-- ==== Sys2Proof/Machine/Downstream.lean ====
section
/-! DEFINITION. The Downstream Port (R142 to R152): the completion of a transmission, DHOLD, the hold timer and SET_HOLD_LIMIT. -/
namespace Sys2Proof.Machine

/-- An output lane whose frame has been closed by an end delimiter. -/
def LaneOut.close : LaneOut → LaneOut
  | .idle => .idle
  | .carrying frame => .ended frame
  | .ended frame => .ended frame
  | .aborted => .aborted

/-- The drain test of R8 at the clearing of an in-transmission flag: a FLUSHING flow stays FLUSHING (R145). -/
def State.settleDrain (s : State) (f : FlowId) : State :=
  if (s.flow f).state = .draining ∧ (s.flow f).queue.isEmpty = true ∧ (s.flow f).inTransmission = false then
    s.enterDisabled f
  else s

/-- A flow at the completion of its frame's transmission (R16). -/
def Flow.completed (x : Flow) (length : Nat) : Flow :=
  { x with
    inTransmission := false
    counters :=
      { x.counters with
        releasedFrames := x.counters.releasedFrames + 1
        releasedBytes := x.counters.releasedBytes + BitVec.ofNat 32 length } }

/-- Port D at a completion (R145, R148). -/
def DownstreamPort.completed (d : DownstreamPort) (length : Nat) : DownstreamPort :=
  { d with
    sending := none
    framesSent := d.framesSent + 1
    bytesSent := d.bytesSent + BitVec.ofNat 32 length
    line := d.line.close }

/-- The meaning of TRANSMISSION_COMPLETION (R145): taken when Port D is SENDING. -/
def execTransmissionCompletion (s : State) : Host.Outcome State Fault Refusal :=
  match s.down.sending with
  | none => .next s
  | some t =>
    if s.pins.reset then .next s
    else
      let s1 := (s.modifyFlow t.flow fun x => x.completed t.length).setDown (s.down.completed t.length)
      let s2 := (s1.setStore (s1.store.releaseRecord t.record)).pauseTest
      .next (s2.settleDrain t.flow)

/-! ## DHOLD (R149 to R152) -/

/-- The level of DHOLD changed, with the hold timer at 0 and the stuck flag clear (R150). -/
def State.dholdChange (s : State) (level : Bool) : State :=
  (s.setPins { s.pins with dhold := level }).setDown { s.down with holdTimer := 0, stuck := false }

/-- The meaning of DHOLD_ASSERTION (R149, R150). -/
def execDholdAssertion (s : State) : Host.Outcome State Fault Refusal :=
  if s.pins.dhold then .next s else .next (s.dholdChange true)

/-- The meaning of DHOLD_DEASSERTION (R149, R150). -/
def execDholdDeassertion (s : State) : Host.Outcome State Fault Refusal :=
  if s.pins.dhold then .next (s.dholdChange false) else .next s

/-- The test of R151 and R152 at the hold limit and timer as they stand. -/
def State.stuckTest (s : State) : State :=
  if stuckReports s.pins.dhold s.down.stuck s.down.holdLimit s.down.holdTimer then
    (s.setDown { s.down with stuck := true }).reportGlobal .holdStuck
  else s

/-- The hold tick of an expiry (R150, R151). -/
def State.takeHoldTick (s : State) : State :=
  if s.pins.dhold then
    (s.setDown { s.down with holdTickDue := false, holdTimer := holdTimerTicked s.down.holdTimer }).stuckTest
  else s.setDown { s.down with holdTickDue := false }

/-- The meaning of HOLD_TICK (R150): taken once per expiry, whatever it reports (log 5). -/
def execHoldTick (s : State) : Host.Outcome State Fault Refusal :=
  if s.pins.reset = false ∧ s.down.holdTickDue = true then .next s.takeHoldTick else .next s

/-- The hold tick that is due would report HOLD_STUCK (R151). -/
def State.tickReports (s : State) : Bool :=
  stuckReports s.pins.dhold s.down.stuck s.down.holdLimit (holdTimerTicked s.down.holdTimer)

/-- The meaning of HOLD_STUCK (R151): the hold tick at which it is reported (log 5). -/
def execHoldStuck (s : State) : Host.Outcome State Fault Refusal :=
  if s.pins.reset = false ∧ s.down.holdTickDue = true ∧ s.tickReports = true then .next s.takeHoldTick else .next s

/-- SET_HOLD_LIMIT at Port D (R152): the new limit, its test at once, and the old limit as data. -/
def commandSetHoldLimit (args : List Byte) (s : State) : Answer :=
  ofLength 2 args s <|
    answerOk (s.setDown { s.down with holdLimit := num16At args 0 }).stuckTest (bytes16 s.down.holdLimit)

/-- The meaning of SET_HOLD_LIMIT (R152). -/
def execSetHoldLimit (args : List Byte) (s : State) : Host.Outcome State Fault Refusal :=
  takeCommand 0x16#8 args (commandSetHoldLimit args) s

end Sys2Proof.Machine
end

