-- ==== Sys2Proof/Machine/FlowTable.lean ====
section
/-! DEFINITION. The Flow Table (R1 to R25): the flow commands, flush steps, admission and the commit re-check. -/
namespace Sys2Proof.Machine

/-! ## Flow commands (R4 to R13, R22, R23) -/

/-- OPEN at the Flow Table (R4): only in DISABLED. -/
def commandOpen (args : List Byte) (s : State) : Answer :=
  ofLength 18 args s <|
    match flowAt args 0, decodeProfile (args.drop 2) with
    | some f, some p =>
      if (s.flow f).isDisabled then
        answerOk (s.modifyFlow f fun x =>
          { x with state := .active, generation := x.generation + 1, active := p, remaining := p.lifetime, credit := 0 }) []
      else refuse s .badState
    | _, _ => refuse s .badArgument

/-- The meaning of OPEN (R4). -/
def execOpen (args : List Byte) (s : State) : Host.Outcome State Fault Refusal :=
  takeCommand 0x01#8 args (commandOpen args) s

/-- HOLD at the Flow Table (R5, R13): only in ACTIVE. -/
def commandHold (args : List Byte) (s : State) : Answer :=
  ofLength 2 args s <|
    match flowAt args 0 with
    | none => refuse s .badArgument
    | some f =>
      match (s.flow f).state with
      | .disabled => refuse s .badState
      | .active => answerOk ((s.setFlowState f (.held .ordered)).endRunOf f) []
      | .held _ => refuse s .badState
      | .draining => refuse s .badState
      | .flushing _ => refuse s .busy

/-- The meaning of HOLD (R5). -/
def execHold (args : List Byte) (s : State) : Host.Outcome State Fault Refusal :=
  takeCommand 0x02#8 args (commandHold args) s

/-- RELEASE at the Flow Table (R6, R13): only in HELD; an expired hold reloads the remaining lifetime. -/
def commandRelease (args : List Byte) (s : State) : Answer :=
  ofLength 2 args s <|
    match flowAt args 0 with
    | none => refuse s .badArgument
    | some f =>
      match (s.flow f).state with
      | .disabled => refuse s .badState
      | .active => refuse s .badState
      | .held .expired =>
        answerOk (s.modifyFlow f fun x => { x with state := .active, remaining := x.active.lifetime }) []
      | .held .ordered => answerOk (s.setFlowState f .active) []
      | .draining => refuse s .badState
      | .flushing _ => refuse s .busy

/-- The meaning of RELEASE (R6). -/
def execRelease (args : List Byte) (s : State) : Host.Outcome State Fault Refusal :=
  takeCommand 0x03#8 args (commandRelease args) s

/-- CLOSE at the Flow Table (R7, R13): in ACTIVE and HELD. -/
def commandClose (args : List Byte) (s : State) : Answer :=
  ofLength 2 args s <|
    match flowAt args 0 with
    | none => refuse s .badArgument
    | some f =>
      match (s.flow f).state with
      | .disabled => refuse s .badState
      | .active => answerOk (s.closeFlow f) []
      | .held _ => answerOk (s.closeFlow f) []
      | .draining => refuse s .badState
      | .flushing _ => refuse s .busy

/-- The meaning of CLOSE (R7). -/
def execClose (args : List Byte) (s : State) : Host.Outcome State Fault Refusal :=
  takeCommand 0x04#8 args (commandClose args) s

/-- The flow put into FLUSHING, with the flush complete at once if its queue is empty (R10, R11). -/
def State.startFlush (s : State) (f : FlowId) (back : ReturnState) : State :=
  ((s.setFlowState f (.flushing back)).endRunOf f).settleFlow f

/-- FLUSH at the Flow Table (R10, R13): in ACTIVE, HELD and DRAINING. -/
def commandFlush (args : List Byte) (s : State) : Answer :=
  ofLength 2 args s <|
    match flowAt args 0 with
    | none => refuse s .badArgument
    | some f =>
      match (s.flow f).state with
      | .disabled => refuse s .badState
      | .active => answerOk (s.startFlush f .active) []
      | .held cause => answerOk (s.startFlush f (.held cause)) []
      | .draining => answerOk (s.startFlush f .draining) []
      | .flushing _ => refuse s .busy

/-- The meaning of FLUSH (R10). -/
def execFlush (args : List Byte) (s : State) : Host.Outcome State Fault Refusal :=
  takeCommand 0x05#8 args (commandFlush args) s

/-- SET_FLOW at the Flow Table (R22): the arguments first, and then only in DISABLED. -/
def commandSetFlow (args : List Byte) (s : State) : Answer :=
  ofLength 10 args s <|
    match flowAt args 0, groupOf (byteAt args 2), policyOf (byteAt args 9) with
    | some f, some g, some p =>
      if 1 ≤ num16At args 3 ∧ num16At args 3 ≤ 1024 ∧ 16 ≤ num32At args 5 ∧ num32At args 5 ≤ 262144 then
        if (s.flow f).isDisabled then
          answerOk (s.modifyFlow f fun x =>
            { x with group := g, frameLimit := num16At args 3, byteLimit := num32At args 5, policy := p }) []
        else refuse s .badState
      else refuse s .badArgument
    | _, _, _ => refuse s .badArgument

/-- The meaning of SET_FLOW (R22). -/
def execSetFlow (args : List Byte) (s : State) : Host.Outcome State Fault Refusal :=
  takeCommand 0x06#8 args (commandSetFlow args) s

/-- READ_FLOW at the Flow Table (R23). -/
def commandReadFlow (args : List Byte) (s : State) : Answer :=
  ofLength 2 args s <|
    match flowAt args 0 with
    | none => refuse s .badArgument
    | some f => answerOk s (encodeFlow (s.flow f) (s.holdsRun f))

/-- The meaning of READ_FLOW (R23). -/
def execReadFlow (args : List Byte) (s : State) : Host.Outcome State Fault Refusal :=
  takeCommand 0x07#8 args (commandReadFlow args) s

/-! ## Flush steps (R11) -/

/-- The meaning of FLUSH_STEP: one head record of a FLUSHING flow removed and counted FLUSHED (R11). -/
def execFlushStep (f : FlowId) (s : State) : Host.Outcome State Fault Refusal :=
  if s.pins.reset = false ∧ (s.flow f).isFlushing = true then .next (s.discardHead f .flushed) else .next s

/-! ## Admission (R18, R19) -/

/-- A frame of the given length fits the queue (R18). -/
def Flow.fits (x : Flow) (length : Nat) : Bool :=
  decide (x.queuedFrames + 1 ≤ x.frameLimit) && decide (x.queuedBytes + length ≤ x.byteLimit)

/-- Head-drops until the frame fits, at most n of them (R19). -/
def State.makeRoom (s : State) (f : FlowId) (length : Nat) : Nat → State
  | 0 => s
  | n + 1 => if (s.flow f).fits length then s else (s.discardHead f .head).makeRoom f length n

/-- A refusal counted LIMIT, which also reports QUEUE_DROP (R18). -/
def State.refuseLimit (s : State) (f : FlowId) : State := (s.countDiscard f .limit).report .queueDrop f

/-- One flow's admission decision for a frame of claimed length L (R18): the state after it and whether admission is granted. -/
def State.admitting (s : State) (f : FlowId) (length : Nat) : State × Bool :=
  let x := s.flow f
  if x.accepting = false then (s.countDiscard f (if x.isFlushing then .flushed else .closed), false)
  else if x.byteLimit < length then (s.refuseLimit f, false)
  else if x.fits length then (s, true)
  else
    match x.policy with
    | .tailDrop => (s.refuseLimit f, false)
    | .headDrop => (s.makeRoom f length x.queue.length, true)

/-! ## The commit (R15, R21, R33) -/

/-- Appends a reserved record at the tail of its flow's queue (R15). -/
def State.appendRecord (s : State) (f : FlowId) (r : RecordId) : State :=
  let length := s.store.recordLength r
  let s1 := s.modifyFlow f fun x =>
    { x with
      queue := x.queue ++ [r]
      queuedFrames := x.queuedFrames + 1
      queuedBytes := x.queuedBytes + length
      counters :=
        { x.counters with
          acceptedFrames := x.counters.acceptedFrames + 1
          acceptedBytes := x.counters.acceptedBytes + BitVec.ofNat 32 length } }
  s1.setStore (s1.store.setRecordState r (.queued s1.pacing.epochCounter))

/-- The reason a record is not appended at commit (R21). -/
def rejectReason (x : Flow) (generation : Byte) : DiscardReason :=
  if x.generation = generation ∧ x.isFlushing = true then .flushed else .closed

/-- The commit re-check of one reserved record (R21): the state after it and how many records were appended. -/
def State.commitRecord (s : State) (r : RecordId) : State × Nat :=
  match s.store.records[r] with
  | none => (s, 0)
  | some fr =>
    match fr.state with
    | .reserved generation =>
      let x := s.flow fr.flow
      if x.accepting = true ∧ x.generation = generation then (s.appendRecord fr.flow r, 1)
      else ((s.countDiscard fr.flow (rejectReason x generation)).setStore (s.store.freeRecord r), 0)
    | .queued _ => (s, 0)
    | .inTransmission => (s, 0)

/-- The commit re-checks of a frame's records, primary first, with the number appended (R21). -/
def State.commitRecords (s : State) : List RecordId → State × Nat
  | [] => (s, 0)
  | r :: rs =>
    let first := s.commitRecord r
    let others := first.1.commitRecords rs
    (others.1, first.2 + others.2)

/-- The commit of a frame (R21, R33): the re-checks, the body settled or freed, and the pause test. -/
def State.commit (s : State) (b : BodyId) (records : List RecordId) : State :=
  let after := s.commitRecords records
  (after.1.setStore (after.1.store.settleBody b after.2)).pauseTest

end Sys2Proof.Machine
end

