-- ==== Sys2Proof/Machine/Notices.lean ====
section
/-! DEFINITION. The Notice Unit (R176 to R187): occurrences, builds, acknowledgement, repeats, and SET_NOTICE. -/
namespace Sys2Proof.Machine

/-- A 16-bit count after one more, held at 65535 (R176). -/
def countUp (n : Nat) : Nat := min (n + 1) Config.saturation

/-- The Notice Unit with one item replaced. -/
def NoticeUnit.setItem (n : NoticeUnit) (i : ItemId) (x : NoticeItem) : NoticeUnit :=
  { n with items := n.items.set i x }

/-! ## Occurrences (R177) -/

/-- An occurrence taken at its item, by the kind's enable and the item's state (R177). -/
def NoticeUnit.occur (n : NoticeUnit) (i : ItemId) : NoticeUnit :=
  if kindEnabled n.enables (itemKind i) then
    match n.items[i].state with
    | .clear =>
      { n.setItem i { n.items[i] with state := .raised, count := 1 } with raisedList := n.raisedList ++ [i] }
    | .raised => n.setItem i { n.items[i] with count := countUp n.items[i].count }
    | .sent _ number sentCount epochs =>
      n.setItem i { n.items[i] with state := .sent true number sentCount epochs, count := countUp n.items[i].count }
  else n

/-- The meaning of NOTICE_OCCURRENCE (R177): a reported condition taken at its item; an item nobody has reported is left alone (log 6). -/
def execNoticeOccurrence (kind : NoticeKind) (scope : FlowId) (s : State) : Host.Outcome State Fault Refusal :=
  if s.pins.reset = false ∧ scopeSuits kind scope = true ∧ itemOf kind scope ∈ s.notices.reports then
    .next (s.setNotices
      ({ s.notices with reports := s.notices.reports.erase (itemOf kind scope) }.occur (itemOf kind scope)))
  else .next s

/-! ## Builds (R178, R179, R182) -/

/-- The body of a notice (R195). -/
def noticeBody (i : ItemId) (marker : Bool) (number : BitVec 16) (count : Nat) : List Byte :=
  bytes8 (kindCode (itemKind i)) ++ bytesBool marker ++ bytes16 (itemScope i) ++ bytes16 number.toNat ++ bytes16 count

/-- A notice frame, lead and body (R178). -/
def buildNotice (destination ownTag : Tag) (i : ItemId) (marker : Bool) (number : BitVec 16) (count : Nat) : List Byte :=
  buildLead destination ownTag kindNotice 0 0#8 number
    (Config.leadBytes + (noticeBody i marker number count).length + Config.checkBytes) 0#16 ++
    noticeBody i marker number count

/-- A first build of the item at the head of the raised list (R179). -/
def NoticeUnit.firstBuild (n : NoticeUnit) (ownTag : Tag) (i : ItemId) (rest : List ItemId) : NoticeUnit :=
  let number := n.numberCounter + 1
  let count := n.items[i].count
  { n.setItem i { n.items[i] with state := .sent false number count 0, count := 0 } with
    raisedList := rest
    numberCounter := number
    queue := n.queue ++ [buildNotice n.destination ownTag i false number count]
    built := n.built + 1 }

/-- The meaning of FIRST_BUILD (R179): a destination, room in the queue, an empty repeat list and a raised item. -/
def execFirstBuild (s : State) : Host.Outcome State Fault Refusal :=
  if s.pins.reset = false ∧ s.notices.buildAllowed = true ∧ s.notices.repeatList = [] then
    match s.notices.raisedList with
    | [] => .next s
    | i :: rest => .next (s.setNotices (s.notices.firstBuild s.up.ownTag i rest))
  else .next s

/-- A repeat build of the item at the head of the repeat list (R182); an item there is SENT (R176). -/
def NoticeUnit.repeatBuild (n : NoticeUnit) (ownTag : Tag) (i : ItemId) (rest : List ItemId) : NoticeUnit :=
  match n.items[i].state with
  | .clear => { n with repeatList := rest }
  | .raised => { n with repeatList := rest }
  | .sent again number sentCount _ =>
    { n.setItem i { n.items[i] with state := .sent again number sentCount 0 } with
      repeatList := rest
      queue := n.queue ++ [buildNotice n.destination ownTag i true number sentCount]
      repeats := n.repeats + 1 }

/-- The meaning of REPEAT_BUILD (R182). -/
def execRepeatBuild (s : State) : Host.Outcome State Fault Refusal :=
  if s.pins.reset = false ∧ s.notices.buildAllowed = true then
    match s.notices.repeatList with
    | [] => .next s
    | i :: rest => .next (s.setNotices (s.notices.repeatBuild s.up.ownTag i rest))
  else .next s

/-! ## Acknowledgement (R180) -/

/-- The item a kind code and a scope number name, or nothing (R180, R196). -/
def ackItem (kind scope : Nat) : Option ItemId :=
  match kindOf kind, flowOf scope with
  | some k, some f => if scopeSuits k f then some (itemOf k f) else none
  | _, _ => none

/-- The Notice Unit after an accepted acknowledgement of an item whose AGAIN flag is given (R180). -/
def NoticeUnit.acknowledge (n : NoticeUnit) (i : ItemId) (again : Bool) : NoticeUnit :=
  let n1 :=
    if again then { n.setItem i { n.items[i] with state := .raised } with raisedList := n.raisedList ++ [i] }
    else n.setItem i { n.items[i] with state := .clear, count := 0 }
  { n1 with repeatList := n.repeatList.filter fun j => decide (j ≠ i), acks := n.acks + 1 }

/-- An acknowledgement refused with STALE_ACK (R180). -/
def staleAck (s : State) : Answer :=
  { state := s.setNotices { s.notices with staleAcks := s.notices.staleAcks + 1 }, status := .staleAck, data := [] }

/-- ACK_NOTICE at the Notice Unit (R180). -/
def commandAckNotice (args : List Byte) (s : State) : Answer :=
  ofLength 5 args s <|
    match ackItem (byteAt args 0) (num16At args 1) with
    | none => refuse s .badArgument
    | some i =>
      match s.notices.items[i].state with
      | .clear => staleAck s
      | .raised => staleAck s
      | .sent again number _ _ =>
        if number = field16At args 3 then answerOk (s.setNotices (s.notices.acknowledge i again)) []
        else staleAck s

/-- The meaning of ACK_NOTICE (R180). -/
def execAckNotice (args : List Byte) (s : State) : Host.Outcome State Fault Refusal :=
  takeCommand 0x1A#8 args (commandAckNotice args) s

/-! ## Repeats (R181) -/

/-- The epochs since sent of a SENT item (R176). -/
def NoticeItem.epochsSent (x : NoticeItem) : Option Nat :=
  match x.state with
  | .clear => none
  | .raised => none
  | .sent _ _ _ epochs => some epochs

/-- The item's repeat is due at the given interval: SENT, with its epochs since sent at or above it (R181, R184). -/
def NoticeItem.repeatDueAt (x : NoticeItem) (interval : Nat) : Bool :=
  match x.epochsSent with
  | none => false
  | some epochs => decide (interval ≠ 0) && decide (interval ≤ epochs)

/-- An item after its tick of the last expiry; an item that is not SENT has none (R181). -/
def NoticeItem.ticked (x : NoticeItem) : NoticeItem :=
  match x.state with
  | .clear => { x with tickDue := false }
  | .raised => { x with tickDue := false }
  | .sent again number sentCount epochs =>
    { x with state := .sent again number sentCount (countUp epochs), tickDue := false }

/-- The tick of an item makes its repeat due (R181). -/
def NoticeUnit.tickMakesDue (n : NoticeUnit) (i : ItemId) : Bool :=
  n.items[i].ticked.repeatDueAt n.interval && !n.repeatList.contains i

/-- One item's repeat tick (R181). -/
def NoticeUnit.tick (n : NoticeUnit) (i : ItemId) : NoticeUnit :=
  { n.setItem i n.items[i].ticked with
    repeatList := if n.tickMakesDue i then n.repeatList ++ [i] else n.repeatList }

/-- The meaning of REPEAT_TICK (R181): taken once per expiry, whatever it makes due (log 5). -/
def execRepeatTick (kind : NoticeKind) (scope : FlowId) (s : State) : Host.Outcome State Fault Refusal :=
  if s.pins.reset = false ∧ scopeSuits kind scope = true ∧ s.notices.items[itemOf kind scope].tickDue = true then
    .next (s.setNotices (s.notices.tick (itemOf kind scope)))
  else .next s

/-- The meaning of REPEAT_DUE (R181): the tick at which the item's repeat becomes due (log 5). -/
def execRepeatDue (kind : NoticeKind) (scope : FlowId) (s : State) : Host.Outcome State Fault Refusal :=
  if s.pins.reset = false ∧ scopeSuits kind scope = true ∧ s.notices.items[itemOf kind scope].tickDue = true ∧
      s.notices.tickMakesDue (itemOf kind scope) = true then
    .next (s.setNotices (s.notices.tick (itemOf kind scope)))
  else .next s

/-! ## SET_NOTICE (R183, R184) -/

/-- The kind is enabled in the old set and disabled in the new one (R183). -/
def newlyDisabled (old new : BitVec 9) (i : ItemId) : Bool :=
  kindEnabled old (itemKind i) && !kindEnabled new (itemKind i)

/-- An item of a kind that has just been disabled (R183). -/
def NoticeItem.silenced (x : NoticeItem) : NoticeItem :=
  match x.state with
  | .clear => x
  | .raised => { x with state := .clear, count := 0 }
  | .sent _ number sentCount epochs => { x with state := .sent false number sentCount epochs, count := 0 }

/-- The items after SET_NOTICE's new set of enables (R183). -/
def silenceItems (old new : BitVec 9) (items : Vector NoticeItem 1029) : Vector NoticeItem 1029 :=
  ⟨(List.zipWith (fun i (x : NoticeItem) => if newlyDisabled old new i then x.silenced else x)
      allItems items.toList).toArray, by simp [allItems]⟩

/-- The repeat list after SET_NOTICE's new interval (R184). -/
def repeatsAfter (items : Vector NoticeItem 1029) (interval : Nat) (old : List ItemId) : List ItemId :=
  let kept := old.filter fun i => items[i].repeatDueAt interval
  kept ++ allItems.filter fun i => items[i].repeatDueAt interval && !kept.contains i

/-- The Notice Unit after SET_NOTICE (R183, R184). -/
def NoticeUnit.configure (n : NoticeUnit) (destination : Tag) (enables : BitVec 9) (interval : Nat) : NoticeUnit :=
  let items := silenceItems n.enables enables n.items
  { n with
    items := items
    raisedList := n.raisedList.filter fun i => !newlyDisabled n.enables enables i
    repeatList := repeatsAfter items interval n.repeatList
    destination := destination
    enables := enables
    interval := interval }

/-- SET_NOTICE at the Notice Unit (R184, R196). -/
def commandSetNotice (args : List Byte) (s : State) : Answer :=
  ofLength 6 args s <|
    if num16At args 2 < 512 then
      answerOk
        (s.setNotices (s.notices.configure (field16At args 0) (BitVec.ofNat 9 (num16At args 2)) (num16At args 4)))
        (bytes16 s.notices.destination.toNat ++ bytes16 s.notices.enables.toNat ++ bytes16 s.notices.interval)
    else refuse s .badArgument

/-- The meaning of SET_NOTICE (R184). -/
def execSetNotice (args : List Byte) (s : State) : Host.Outcome State Fault Refusal :=
  takeCommand 0x1B#8 args (commandSetNotice args) s

end Sys2Proof.Machine
end

