-- ==== Sys2Proof/Machine/PacingAndProfile.lean ====
section
/-! DEFINITION. The Pacing Unit's epochs, credit and sweeps (R63 to R82) and the Profile Unit's commands, steps, swaps and expiries (R84 to R102). -/
namespace Sys2Proof.Machine

/-! ## Epochs (R63 to R65) -/

/-- SET_EPOCH at the Pacing Unit (R65): the next period; the period in force is returned and kept. -/
def commandSetEpoch (args : List Byte) (s : State) : Answer :=
  ofLength 2 args s <|
    if 10 ≤ num16At args 0 then
      answerOk (s.setPacing { s.pacing with nextPeriod := num16At args 0 }) (bytes16 s.pacing.periodInForce)
    else refuse s .badArgument

/-- The meaning of SET_EPOCH (R65). -/
def execSetEpoch (args : List Byte) (s : State) : Host.Outcome State Fault Refusal :=
  takeCommand 0x0D#8 args (commandSetEpoch args) s

/-- The epoch timer and counter after an expiry (R63). -/
def Pacing.expire (p : Pacing) : Pacing :=
  { p with periodInForce := p.nextPeriod, epochCounter := p.epochCounter + 1 }

/-- All the work of an expiry becomes due (R63, R64, R87, R150, R181). -/
def State.makeDue (s : State) : State :=
  { s with
    flows := mapAll (fun x => { x with due := { replenishment := true, sweep := true, step := true } }) s.flows
    down := { s.down with holdTickDue := true }
    notices := { s.notices with items := mapAll (fun x => { x with tickDue := true }) s.notices.items } }

/-- The meaning of EPOCH_EXPIRY (R63): taken when the work of the last expiry has been (log 4). -/
def execEpochExpiry (s : State) : Host.Outcome State Fault Refusal :=
  if s.pins.reset = false ∧ s.expiryDone = true then .next (s.setPacing s.pacing.expire).makeDue else .next s

/-- A flow's credit after a replenishment (R68). -/
def replenished (x : Flow) : Int := min (x.credit + x.active.rate) x.active.burstCap

/-- The meaning of REPLENISHMENT (R68): taken once per expiry; a DISABLED flow has none (R64). -/
def execReplenishment (f : FlowId) (s : State) : Host.Outcome State Fault Refusal :=
  if s.pins.reset = false ∧ (s.flow f).due.replenishment = true then
    .next (s.modifyFlow f fun x =>
      { x with
        credit := if x.isDisabled then x.credit else replenished x
        due := { x.due with replenishment := false } })
  else .next s

/-- The meaning of AGING_SWEEP (R78): taken once per expiry; a DISABLED flow has none (R64). -/
def execAgingSweep (f : FlowId) (s : State) : Host.Outcome State Fault Refusal :=
  if s.pins.reset = false ∧ (s.flow f).due.sweep = true then
    let s1 := s.modifyFlow f fun x => { x with due := { x.due with sweep := false } }
    .next (if (s1.flow f).isDisabled then s1 else s1.ageFlow f)
  else .next s

/-! ## The swap and the expiry (R89 to R91) -/

/-- A flow's state after a swap (R9, R91). -/
def stateAfterSwap : FlowState → FlowState
  | .disabled => .disabled
  | .active => .active
  | .held .expired => .active
  | .held .ordered => .held .ordered
  | .draining => .draining
  | .flushing (.held .expired) => .flushing .active
  | .flushing (.held .ordered) => .flushing (.held .ordered)
  | .flushing .active => .flushing .active
  | .flushing .draining => .flushing .draining

/-- A flow after the swap of the given profile (R70, R90, R91). -/
def Flow.swapped (x : Flow) (p : Profile) : Flow :=
  { x with
    state := stateAfterSwap x.state
    active := p
    staged := none
    remaining := p.lifetime
    adoptPending := false
    credit := min x.credit p.burstCap }

/-- The swap of a flow's staged profile, if it has one (R90, R91). -/
def State.swap (s : State) (f : FlowId) : State :=
  match (s.flow f).staged with
  | none => s
  | some p => ((s.modifyFlow f fun x => x.swapped p).endRunOf f).report .stageTaken f

/-- The expire action of a flow's active profile (R89); the remaining lifetime has reached 0. -/
def State.expireFlow (s : State) (f : FlowId) : State :=
  let s0 := s.modifyFlow f fun x => { x with remaining := 0 }
  match (s.flow f).active.expireAction with
  | .repeat => s.modifyFlow f fun x => { x with remaining := x.active.lifetime }
  | .hold => ((s0.setFlowState f (.held .expired)).endRunOf f).report .flowHeld f
  | .close => s0.closeFlow f

/-- The countdown of an ACTIVE flow with a non-zero lifetime and adopt-pending clear (R88). -/
def State.countDown (s : State) (f : FlowId) : State :=
  if 1 < (s.flow f).remaining then s.modifyFlow f fun x => { x with remaining := x.remaining - 1 }
  else
    match (s.flow f).staged with
    | some _ => s.swap f
    | none => s.expireFlow f

/-- A flow's profile step, by the table of R87; `swap` does nothing with an empty slot. -/
def State.profileStep (s : State) (f : FlowId) : State :=
  match (s.flow f).state with
  | .disabled => s
  | .active =>
    if (s.flow f).adoptPending then s.swap f
    else if (s.flow f).active.lifetime = 0 then s
    else s.countDown f
  | .held .expired => s.swap f
  | .held .ordered => if (s.flow f).adoptPending then s.swap f else s
  | .draining => if (s.flow f).adoptPending then s.swap f else s
  | .flushing (.held .expired) => s.swap f
  | .flushing (.held .ordered) => if (s.flow f).adoptPending then s.swap f else s
  | .flushing .active => if (s.flow f).adoptPending then s.swap f else s
  | .flushing .draining => if (s.flow f).adoptPending then s.swap f else s

/-- The flow's step of the last expiry taken. -/
def State.takeProfileStep (s : State) (f : FlowId) : State :=
  (s.modifyFlow f fun x => { x with due := { x.due with step := false } }).profileStep f

/-- The meaning of PROFILE_STEP (R87): taken once per expiry, whatever the step does (log 5). -/
def execProfileStep (f : FlowId) (s : State) : Host.Outcome State Fault Refusal :=
  if s.pins.reset = false ∧ (s.flow f).due.step = true then .next (s.takeProfileStep f) else .next s

/-- The flow's next profile step would expire its active profile (R88). -/
def Flow.expires (x : Flow) : Bool :=
  decide (x.state = .active) && !x.adoptPending && decide (x.active.lifetime ≠ 0) && decide (x.remaining ≤ 1)

/-- The meaning of LIFETIME_EXPIRY (R88, R89): the profile step in which the remaining lifetime reaches 0 (log 5). -/
def execLifetimeExpiry (f : FlowId) (s : State) : Host.Outcome State Fault Refusal :=
  if s.pins.reset = false ∧ (s.flow f).due.step = true ∧ (s.flow f).expires = true then
    .next (s.takeProfileStep f)
  else .next s

/-! ## The staging commands (R95 to R101) -/

/-- STAGE at the Profile Unit (R95, R96). -/
def commandStage (args : List Byte) (s : State) : Answer :=
  ofLength 18 args s <|
    match flowAt args 0, decodeProfile (args.drop 2) with
    | some f, some p =>
      if (s.flow f).isDisabled then refuse s .badState
      else if (s.flow f).staged.isSome then refuse s .slotFull
      else answerOk (s.modifyFlow f fun x => { x with staged := some p }) []
    | _, _ => refuse s .badArgument

/-- The meaning of STAGE (R96). -/
def execStage (args : List Byte) (s : State) : Host.Outcome State Fault Refusal :=
  takeCommand 0x0E#8 args (commandStage args) s

/-- UNSTAGE at the Profile Unit (R95, R98). -/
def commandUnstage (args : List Byte) (s : State) : Answer :=
  ofLength 2 args s <|
    match flowAt args 0 with
    | none => refuse s .badArgument
    | some f =>
      if (s.flow f).staged.isSome then
        answerOk (s.modifyFlow f fun x => { x with staged := none, adoptPending := false }) []
      else refuse s .slotEmpty

/-- The meaning of UNSTAGE (R98). -/
def execUnstage (args : List Byte) (s : State) : Host.Outcome State Fault Refusal :=
  takeCommand 0x0F#8 args (commandUnstage args) s

/-- ADOPT at the Profile Unit (R95, R99). -/
def commandAdopt (args : List Byte) (s : State) : Answer :=
  ofLength 2 args s <|
    match flowAt args 0 with
    | none => refuse s .badArgument
    | some f =>
      if (s.flow f).staged.isSome then answerOk (s.modifyFlow f fun x => { x with adoptPending := true }) []
      else refuse s .slotEmpty

/-- The meaning of ADOPT (R99). -/
def execAdopt (args : List Byte) (s : State) : Host.Outcome State Fault Refusal :=
  takeCommand 0x10#8 args (commandAdopt args) s

/-- READ_PROFILE at the Profile Unit (R101). -/
def commandReadProfile (args : List Byte) (s : State) : Answer :=
  ofLength 2 args s <|
    match flowAt args 0 with
    | none => refuse s .badArgument
    | some f => answerOk s (encodeProfileState (s.flow f))

/-- The meaning of READ_PROFILE (R101). -/
def execReadProfile (args : List Byte) (s : State) : Host.Outcome State Fault Refusal :=
  takeCommand 0x11#8 args (commandReadProfile args) s

end Sys2Proof.Machine
end

