-- ==== Sys2Proof/Machine/PoolAndMatch.lean ====
section
/-! DEFINITION. The commands of the Frame Store (R40, R42) and of the Classifier (R44 to R62), and the search of the match table. -/
namespace Sys2Proof.Machine

/-! ## Frame Store commands -/

/-- SET_POOL at the Frame Store (R40): both watermarks, then the pause tests. -/
def commandSetPool (args : List Byte) (s : State) : Answer :=
  ofLength 4 args s <|
    if num16At args 0 ≤ num16At args 2 ∧ num16At args 2 ≤ 2048 then
      answerOk (s.setStore { s.store with pauseMark := num16At args 0, resumeMark := num16At args 2 }).pauseTest []
    else refuse s .badArgument

/-- The meaning of SET_POOL (R40). -/
def execSetPool (args : List Byte) (s : State) : Host.Outcome State Fault Refusal :=
  takeCommand 0x08#8 args (commandSetPool args) s

/-- READ_POOL at the Frame Store (R42): the four counts, then the low-water count set to the free-block count. -/
def commandReadPool (args : List Byte) (s : State) : Answer :=
  ofLength 0 args s <|
    answerOk (s.setStore { s.store with lowWater := s.store.freeBlocks.length })
      (bytes16 s.store.freeBlocks.length ++ bytes16 s.store.freeRecords.length ++
        bytes16 s.store.freeBodies.length ++ bytes16 s.store.lowWater)

/-- The meaning of READ_POOL (R42). -/
def execReadPool (args : List Byte) (s : State) : Host.Outcome State Fault Refusal :=
  takeCommand 0x09#8 args (commandReadPool args) s

/-! ## The search (R45 to R47) -/

/-- A masked test (R45). -/
def maskedTest {w : Nat} (value mask field : BitVec w) : Bool := decide (field &&& mask = value &&& mask)

/-- The entry matches the lead (R45 to R47). -/
def MatchEntry.matchesLead (e : MatchEntry) (lead : List Byte) : Bool :=
  e.valid && maskedTest e.destValue e.destMask (leadDest lead) &&
    maskedTest e.sourceValue e.sourceMask (leadSource lead) &&
    e.kindSet.getLsbD (leadKind lead) && e.classSet.getLsbD (leadClass lead) &&
    maskedTest e.laneValue e.laneMask (leadLane lead) &&
    maskedTest e.labelValue e.labelMask (leadLabel lead) &&
    decide (e.lengthMin ≤ leadLength lead) && decide (leadLength lead ≤ e.lengthMax)

/-- The chosen entry: the first that matches, in ascending order (R47). -/
def Classifier.chosen (c : Classifier) (lead : List Byte) : Option (Fin 64) :=
  (List.finRange 64).find? fun i => c.entries[i].matchesLead lead

/-- The Classifier after a classification: a hit counter or the no-match counter moves (R48). -/
def Classifier.count (c : Classifier) (lead : List Byte) : Classifier :=
  match c.chosen lead with
  | some i => { c with hits := c.hits.set i (c.hits[i] + 1) }
  | none => { c with noMatch := c.noMatch + 1 }

/-- The action fixed for a lead: that of the chosen entry, or the default action, which carries no relabel (R48, R53). -/
def Classifier.actionFor (c : Classifier) (lead : List Byte) : MatchAction :=
  match c.chosen lead with
  | some i => c.entries[i].action
  | none =>
    match c.defaultAction with
    | .discard => .discard
    | .queue f => .queue f none

/-- The flows an action offers the frame to, in their order (R48 to R51). -/
def actionFlows : MatchAction → List FlowId
  | .discard => []
  | .queue f _ => [f]
  | .mirror f g _ => [f, g]

/-- The label to be stored under an action (R52). -/
def storedLabel (a : MatchAction) (lead : List Byte) : Tag := (actionRelabel a).getD (leadLabel lead)

/-! ## Classifier commands -/

/-- WRITE_MATCH at the Classifier (R56, R57). -/
def commandWriteMatch (args : List Byte) (s : State) : Answer :=
  ofLength 33 args s <|
    match matchIndexOf (byteAt args 0), decodeEntry (args.drop 1) with
    | some i, some e =>
      answerOk (s.setClassifier
        { s.classifier with entries := s.classifier.entries.set i e, hits := s.classifier.hits.set i 0#32 }) []
    | _, _ => refuse s .badArgument

/-- The meaning of WRITE_MATCH (R56). -/
def execWriteMatch (args : List Byte) (s : State) : Host.Outcome State Fault Refusal :=
  takeCommand 0x0A#8 args (commandWriteMatch args) s

/-- READ_MATCH at the Classifier (R58). -/
def commandReadMatch (args : List Byte) (s : State) : Answer :=
  ofLength 1 args s <|
    match matchIndexOf (byteAt args 0) with
    | none => refuse s .badArgument
    | some i => answerOk s (encodeEntry s.classifier.entries[i] ++ bytes32 s.classifier.hits[i].toNat)

/-- The meaning of READ_MATCH (R58). -/
def execReadMatch (args : List Byte) (s : State) : Host.Outcome State Fault Refusal :=
  takeCommand 0x0B#8 args (commandReadMatch args) s

/-- SET_DEFAULT at the Classifier (R59): the new default action, and the old one as data. -/
def commandSetDefault (args : List Byte) (s : State) : Answer :=
  ofLength 3 args s <|
    match decodeDefault (byteAt args 0) (num16At args 1) with
    | none => refuse s .badArgument
    | some a => answerOk (s.setClassifier { s.classifier with defaultAction := a }) (encodeDefault s.classifier.defaultAction)

/-- The meaning of SET_DEFAULT (R59). -/
def execSetDefault (args : List Byte) (s : State) : Host.Outcome State Fault Refusal :=
  takeCommand 0x0C#8 args (commandSetDefault args) s

end Sys2Proof.Machine
end

