-- ==== Sys2Proof/Machine/Resets.lean ====
section
/-! DEFINITION. Power-on reset (R25, R43, R62, R83, R103, R125, R136, R141, R153, R174, R187, R198) and re-initialisation at a restart (R173). -/
namespace Sys2Proof.Machine

/-- An output lane at the assertion of RESET: a frame under way is ended with the abort delimiter (R140, R153, R198). -/
def LaneOut.abort (sending : Bool) : LaneOut := if sending then .aborted else .idle

/-- The meaning of RESET_ASSERTION (R140, R153, R198): both output lanes end their frames, and UPAUSE follows the pin (R137).
What else the part holds is replaced at the release (log 12). -/
def execResetAssertion (s : State) : Host.Outcome State Fault Refusal :=
  if s.pins.reset then .next s
  else
    .next (((s.setPins { s.pins with reset := true }).setDown
      { s.down with sending := none, line := LaneOut.abort s.down.sending.isSome }).setUp
      { s.up with returnLane := .free, line := LaneOut.abort (decide (s.up.returnLane ≠ .free)) })

/-- The own tag for the given straps (R136). -/
def ownTagOf (straps : Byte) : Tag := Config.tagBase + BitVec.ofNat 16 straps.toNat

/-- The part at the release of RESET: the power-on values, the own tag from the straps and the quench flag from the QUENCH level (R125, R136). -/
def State.powerOn (s : State) (straps : Byte) : State :=
  { State.reset with
    up := { UpstreamPort.reset with ownTag := ownTagOf straps }
    scheduler := { Scheduler.reset with quenchFlag := s.pins.quench }
    pins := { s.pins with reset := false, straps := straps }
    pending := s.pending }

/-- The meaning of RESET_RELEASE (R136, R153). -/
def execResetRelease (straps : Byte) (s : State) : Host.Outcome State Fault Refusal :=
  if s.pins.reset then .next (s.powerOn straps) else .next s

/-- The part after re-initialisation: the restart values, with what a restart keeps (R125, R141, R154, R173, R174). -/
def State.reinitialised (s : State) : State :=
  { State.reset with
    scheduler := { Scheduler.reset with quenchFlag := s.scheduler.quenchFlag }
    up := { UpstreamPort.reset with ownTag := s.up.ownTag, line := s.up.line }
    down := { DownstreamPort.reset with line := s.down.line }
    agent := { Agent.reset with replay := s.agent.replay, restartCount := s.agent.restartCount + 1 }
    pins := s.pins
    pending := s.pending }

/-- The meaning of REINITIALISATION (R173): taken in RESTARTING once Port D has no frame in transmission. -/
def execReinitialisation (s : State) : Host.Outcome State Fault Refusal :=
  if s.pins.reset = false ∧ s.agent.state = .restarting ∧ s.down.sending = none then .next s.reinitialised
  else .next s

end Sys2Proof.Machine
end

