-- ==== Sys2Proof/Machine/Scheduler.lean ====
section
/-! DEFINITION. The Release Scheduler (R104 to R125): candidates in ring order, runs, the selection, the release of a head, quench, and the arbitration commands. -/
namespace Sys2Proof.Machine

/-! ## The rings (R106, R107, R109) -/

/-- The flow numbers read cyclically from the one above the pointer (R106). -/
def flowRing (pointer : FlowId) : List FlowId :=
  (allFlows.filter fun f => decide (pointer < f)) ++ (allFlows.filter fun f => decide (f ≤ pointer))

/-- The groups read cyclically from the one above the pointer (R107). -/
def groupRing (pointer : Fin 8) : List (Fin 8) :=
  (allGroups.filter fun g => decide (pointer < g)) ++ (allGroups.filter fun g => decide (g ≤ pointer))

/-- The flow is a candidate and a member of the group (R105, R106). -/
def State.candidateIn (s : State) (g : Group) (f : FlowId) : Bool :=
  decide ((s.flow f).group = g) && s.candidate f

/-- The first candidate of a group in its ring's order (R106). -/
def State.groupChoice (s : State) (g : Fin 8) : Option FlowId :=
  (flowRing s.scheduler.groups[g].pointer).find? (s.candidateIn (.ring g))

/-- The group and the flow that arbitration chooses (R107). -/
def State.arbitration (s : State) : Option (Fin 8 × FlowId) :=
  (groupRing s.scheduler.topPointer).findSome? fun g => (s.groupChoice g).map fun f => (g, f)

/-- The lowest-numbered express candidate (R109). -/
def State.expressChoice (s : State) : Option FlowId := allFlows.find? (s.candidateIn .express)

/-! ## Grants and runs (R108, R114, R118) -/

/-- A ring pointer after a grant (R108). -/
def rotated {n : Nat} (policy : RingPolicy) (pointer chosen : Fin n) : Fin n :=
  match policy with
  | .fixed => pointer
  | .rotating => chosen

/-- A group's ring after a grant to one of its flows (R108). -/
def GroupRing.granted (g : GroupRing) (f : FlowId) : GroupRing := { g with pointer := rotated g.policy g.pointer f }

/-- The run record after one frame of the run: none at 0 frames remaining (R111). -/
def Run.spend (r : Run) : Option Run := if r.remaining ≤ 1 then none else some { r with remaining := r.remaining - 1 }

/-- The run that a grant starts, counted before the head is removed; SINGLE starts none that outlives its frame (R114). -/
def Flow.startedRun (x : Flow) (f : FlowId) : Option Run :=
  match x.active.releaseMode with
  | .single => none
  | .block => some { holder := f, mode := .block, remaining := min x.active.runLength x.queuedFrames }
  | .demand => some { holder := f, mode := .demand, remaining := x.active.runLength }

/-- The grant of a flow of a group by arbitration: pointers rotated and the run started, less its first frame (R108, R111, R114). -/
def State.grant (s : State) (g : Fin 8) (f : FlowId) : State :=
  s.setScheduler { s.scheduler with
    topPointer := rotated s.scheduler.topPolicy s.scheduler.topPointer g
    groups := s.scheduler.groups.set g (s.scheduler.groups[g].granted f)
    run := ((s.flow f).startedRun f).bind Run.spend }

/-! ## The selection (R111, R112) -/

/-- The bytes Port D sends for a record: the first L - 4 stored bytes and a fresh check (R144). -/
def FrameStore.trunkFrame (st : FrameStore) (b : BodyId) (length : Nat) : List Byte :=
  match st.bodies[b] with
  | none => []
  | some body => withCheck (st.bodyBytes body (length - Config.checkBytes))

/-- The release of a flow's head record to Port D (R16, R73, R112, R143). -/
def State.releaseHead (s : State) (f : FlowId) : State :=
  match (s.flow f).queue with
  | [] => s
  | r :: _ =>
    match s.store.records[r] with
    | none => s
    | some fr =>
      let length := s.store.recordLength r
      let s1 := s.modifyFlow f fun x =>
        { x.popHead length with
          inTransmission := true
          credit := debited x.active.discipline x.credit length }
      let s2 := s1.setStore (s1.store.setRecordState r .inTransmission)
      s2.setDown { s2.down with
        sending := some { record := r, flow := f, body := fr.body, length := length }
        line := .carrying (s.store.trunkFrame fr.body length) }

/-- The aging check of a selection: every ACTIVE and DRAINING flow, in ascending flow number (R29, R79). -/
def State.agingCheck (s : State) : State :=
  allFlows.foldl (fun t f => if (t.flow f).releasing then t.ageFlow f else t) s

/-- Step 4 of a selection: the grant, if any group holds a candidate (R111). -/
def State.arbitrate (s : State) : State :=
  match s.arbitration with
  | none => s
  | some (g, f) => (s.grant g f).releaseHead f

/-- Steps 2 to 5 of a selection, after its aging check (R111). -/
def State.choose (s : State) : State :=
  match s.expressChoice with
  | some f => s.releaseHead f
  | none =>
    match s.scheduler.run with
    | none => s.arbitrate
    | some run =>
      if s.qualifies run then
        (s.setScheduler { s.scheduler with run := run.spend }).releaseHead run.holder
      else s.endRun.arbitrate

/-- The meaning of SELECTION (R110, R111): taken when it is due. -/
def execSelection (s : State) : Host.Outcome State Fault Refusal :=
  if s.pins.reset = false ∧ s.selectionDue = true then .next s.agingCheck.choose else .next s

/-! ## The commands (R120, R122 to R124) -/

/-- SET_RELEASE at the scheduler (R120): disabling ends the run. -/
def commandSetRelease (args : List Byte) (s : State) : Answer :=
  ofLength 1 args s <|
    match boolOf (byteAt args 0) with
    | none => refuse s .badArgument
    | some true => answerOk (s.setScheduler { s.scheduler with releaseEnable := true }) []
    | some false => answerOk (s.setScheduler { s.scheduler with releaseEnable := false, run := none }) []

/-- The meaning of SET_RELEASE (R120). -/
def execSetRelease (args : List Byte) (s : State) : Host.Outcome State Fault Refusal :=
  takeCommand 0x12#8 args (commandSetRelease args) s

/-- RESUME at the scheduler (R122): refused while the QUENCH pin is asserted. -/
def commandResume (args : List Byte) (s : State) : Answer :=
  ofLength 0 args s <|
    if s.pins.quench then refuse s .badState
    else answerOk (s.setScheduler { s.scheduler with quenchFlag := false }) []

/-- The meaning of RESUME (R122). -/
def execResume (args : List Byte) (s : State) : Host.Outcome State Fault Refusal :=
  takeCommand 0x13#8 args (commandResume args) s

/-- SET_GROUP at the scheduler (R123): both fields, with the old ones as data. -/
def commandSetGroup (args : List Byte) (s : State) : Answer :=
  ofLength 4 args s <|
    match ringGroupOf (byteAt args 0), ringPolicyOf (byteAt args 1), flowAt args 2 with
    | some g, some p, some f =>
      answerOk
        (s.setScheduler { s.scheduler with groups := s.scheduler.groups.set g { policy := p, pointer := f } })
        (bytes8 (ringPolicyCode s.scheduler.groups[g].policy) ++ bytes16 s.scheduler.groups[g].pointer.val)
    | _, _, _ => refuse s .badArgument

/-- The meaning of SET_GROUP (R123). -/
def execSetGroup (args : List Byte) (s : State) : Host.Outcome State Fault Refusal :=
  takeCommand 0x14#8 args (commandSetGroup args) s

/-- SET_TOP at the scheduler (R124): both fields, with the old ones as data. -/
def commandSetTop (args : List Byte) (s : State) : Answer :=
  ofLength 2 args s <|
    match ringPolicyOf (byteAt args 0), ringGroupOf (byteAt args 1) with
    | some p, some g =>
      answerOk (s.setScheduler { s.scheduler with topPolicy := p, topPointer := g })
        (bytes8 (ringPolicyCode s.scheduler.topPolicy) ++ bytes8 s.scheduler.topPointer.val)
    | _, _ => refuse s .badArgument

/-- The meaning of SET_TOP (R124). -/
def execSetTop (args : List Byte) (s : State) : Host.Outcome State Fault Refusal :=
  takeCommand 0x15#8 args (commandSetTop args) s

/-! ## Quench (R121) -/

/-- An assertion of QUENCH at the scheduler: the flag, the run and the report (R121). -/
def State.quenchOn (s : State) : State :=
  (s.setScheduler { s.scheduler with quenchFlag := true, run := none }).reportGlobal .quenched

/-- The meaning of QUENCH_ASSERTION (R121): a change of the pin; while RESET is held only the level changes (log 12). -/
def execQuenchAssertion (s : State) : Host.Outcome State Fault Refusal :=
  if s.pins.quench then .next s
  else
    let s1 := s.setPins { s.pins with quench := true }
    .next (if s.pins.reset then s1 else s1.quenchOn)

/-- The meaning of QUENCH_DEASSERTION (R121): the pin level alone. -/
def execQuenchDeassertion (s : State) : Host.Outcome State Fault Refusal :=
  .next (s.setPins { s.pins with quench := false })

end Sys2Proof.Machine
end

