-- ==== Sys2Proof/Machine/Upstream.lean ====
section
/-! DEFINITION. The Upstream Port (R126 to R140): the stages of one received frame, from its start delimiter to its commit or discard, and the return lane. -/
namespace Sys2Proof.Machine

/-! ## Counting (R134, R135) -/

/-- The errors the port counts (R134). -/
inductive IngressError where
  | lead
  | length
  | check
  | abort
  deriving DecidableEq, Repr

/-- The port with one error counted (R134). -/
def UpstreamPort.countError (u : UpstreamPort) (e : IngressError) : UpstreamPort :=
  match e with
  | .lead => { u with leadErrors := u.leadErrors + 1 }
  | .length => { u with lengthErrors := u.lengthErrors + 1 }
  | .check => { u with checkErrors := u.checkErrors + 1 }
  | .abort => { u with aborts := u.aborts + 1 }

/-- Counts an error and reports INGRESS_ERROR; nothing under the restart condition (R134, R135, R137). -/
def State.ingressError (s : State) (e : IngressError) : State :=
  if s.up.restartCondition then s else (s.setUp (s.up.countError e)).reportGlobal .ingressError

/-- Counts a closing in frames received; nothing under the restart condition (R134, R137). -/
def State.countReceived (s : State) : State :=
  if s.up.restartCondition then s else s.setUp { s.up with framesReceived := s.up.framesReceived + 1 }

/-! ## The frame in reception (R126, R130) -/

/-- A frame just opened: actual length 0 and a preset check (R126, R188). -/
def Reception.opened : Reception := { actual := 0, crc := Config.crcPreset, tail := [] }

/-- The counted and checked part after one more byte: the actual length is held at 2049, and the last four bytes
are kept out of the check register (R126, R130, R132). -/
def Reception.take (rx : Reception) (b : Byte) : Reception :=
  match rx.tail with
  | [t0, t1, t2, t3] =>
    { actual := min (rx.actual + 1) Config.actualCap, crc := crcByte rx.crc t0, tail := [t1, t2, t3, b] }
  | t => { actual := min (rx.actual + 1) Config.actualCap, crc := rx.crc, tail := t ++ [b] }

/-- The last four bytes are the check of the bytes before them (R132, R188). -/
def Reception.checkGood (rx : Reception) : Bool := decide (rx.tail = checkField (crcResult rx.crc))

/-! ## Slots (R128, R155) -/

/-- Sets one slot of the management queue. -/
def State.setSlot (s : State) (k : SlotId) (x : Slot) : State :=
  s.setAgent { s.agent with slots := s.agent.slots.set k x }

/-- The free slot a request claims: the lowest numbered (R128; log 13). -/
def Agent.freeSlot (a : Agent) : Option SlotId := (List.finRange 4).find? fun k => decide (a.slots[k] = .free)

/-- A slot with one more byte of the request in reception (R130). -/
def Slot.append (b : Byte) : Slot → Slot
  | .free => .free
  | .filling bytes => .filling (bytes ++ [b])
  | .waiting frame => .waiting frame

/-- A filling slot become a waiting request (R133). -/
def Slot.await : Slot → Slot
  | .free => .free
  | .filling bytes => .waiting bytes
  | .waiting frame => .waiting frame

/-! ## Closing a frame (R131 to R133) -/

/-- Frees what the frame in reception holds: its reservation in STORE, its slot in REQUEST (R34, R132). -/
def State.freeReception (s : State) : State :=
  match s.up.lane with
  | .idle => s
  | .lead _ _ => s
  | .deciding _ _ _ _ => s
  | .request _ _ slot => s.setSlot slot .free
  | .store _ _ b records _ => (s.setStore (s.store.freeReservation b records)).pauseTest
  | .pass _ _ => s
  | .ignore _ => s

/-- Closes a frame in error (R131, R132). -/
def State.closeBad (s : State) (e : IngressError) : State :=
  ((s.freeReception.setLane .idle).countReceived).ingressError e

/-- Closes a frame from IGNORE (R131). -/
def State.closeIgnored (s : State) : State := (s.setLane .idle).countReceived

/-- A good end (R133). -/
def State.closeGood (s : State) : State :=
  let s1 := (s.setLane .idle).countReceived
  match s.up.lane with
  | .idle => s
  | .lead _ _ => s
  | .deciding _ _ _ _ => s
  | .request _ _ slot =>
    s1.setAgent { s1.agent with
      slots := s1.agent.slots.set slot s1.agent.slots[slot].await
      waitOrder := s1.agent.waitOrder ++ [slot] }
  | .store _ _ b records _ => s1.commit b records
  | .pass _ _ => s1
  | .ignore _ => s

/-- The tests of an end delimiter in REQUEST, STORE and PASS, in their order (R132). -/
def State.closeTested (s : State) (rx : Reception) (claimed : Nat) : State :=
  if rx.actual ≠ claimed then s.closeBad .length
  else if rx.checkGood then s.closeGood
  else s.closeBad .check

/-! ## The lead event (R127 to R129) -/

/-- A management request lost at its lead event (R128). -/
def State.loseRequest (s : State) (bytes : List Byte) : State :=
  ((s.setAgent { s.agent with lost := s.agent.lost + 1 }).reportGlobal .mgmtLost).setLane (.ignore (some (leadLength bytes)))

/-- A management request routed: a slot claimed, or the request lost (R128). -/
def State.routeRequest (s : State) (rx : Reception) (bytes : List Byte) : State :=
  if Config.maxRequest < leadLength bytes then s.loseRequest bytes
  else
    match s.agent.freeSlot with
    | none => s.loseRequest bytes
    | some k => (s.setSlot k (.filling bytes)).setLane (.request rx (leadLength bytes) k)

/-- The lead event, at the twelfth byte (R127); under the restart condition the frame is ignored (R137). -/
def State.leadArrived (s : State) (rx : Reception) (bytes : List Byte) : State :=
  if s.up.restartCondition then s.setLane (.ignore (some (leadLength bytes)))
  else if leadLength bytes < Config.minFrame ∨ Config.maxFrame < leadLength bytes then
    (s.ingressError .lead).setLane (.ignore (some (leadLength bytes)))
  else if leadKind bytes = kindMgmtReq ∧ leadDest bytes = s.up.ownTag then s.routeRequest rx bytes
  else s.setLane (.deciding rx bytes .classify [])

/-! ## What arrives on the lane (R126, R130 to R132) -/

/-- A byte or delimiter that arrives in DECIDING is held; in every other state nothing is (R129). -/
def State.holdSymbol (s : State) (x : Symbol) : State :=
  match s.up.lane with
  | .idle => s
  | .lead _ _ => s
  | .deciding rx bytes phase held => s.setLane (.deciding rx bytes phase (held ++ [x]))
  | .request _ _ _ => s
  | .store _ _ _ _ _ => s
  | .pass _ _ => s
  | .ignore _ => s

/-- An abort delimiter (R131, R132). -/
def State.takeAbort (s : State) : State :=
  match s.up.lane with
  | .idle => s
  | .lead _ _ => s.closeBad .abort
  | .deciding _ _ _ _ => s.holdSymbol .abort
  | .request _ _ _ => s.closeBad .abort
  | .store _ _ _ _ _ => s.closeBad .abort
  | .pass _ _ => s.closeBad .abort
  | .ignore _ => s.closeIgnored

/-- A start delimiter (R126): an open frame is closed as by an abort delimiter, and a new one is opened in LEAD. -/
def State.takeStart (s : State) : State :=
  match s.up.lane with
  | .idle => s.setLane (.lead Reception.opened [])
  | .lead _ _ => s.takeAbort.setLane (.lead Reception.opened [])
  | .deciding _ _ _ _ => s.holdSymbol .start
  | .request _ _ _ => s.takeAbort.setLane (.lead Reception.opened [])
  | .store _ _ _ _ _ => s.takeAbort.setLane (.lead Reception.opened [])
  | .pass _ _ => s.takeAbort.setLane (.lead Reception.opened [])
  | .ignore _ => s.takeAbort.setLane (.lead Reception.opened [])

/-- A byte of a frame in LEAD (R126, R127). -/
def State.takeLeadByte (s : State) (rx : Reception) (bytes : List Byte) (b : Byte) : State :=
  if (bytes ++ [b]).length < Config.leadBytes then s.setLane (.lead (rx.take b) (bytes ++ [b]))
  else s.leadArrived (rx.take b) (bytes ++ [b])

/-- A byte (R126, R130). -/
def State.takeByte (s : State) (b : Byte) : State :=
  match s.up.lane with
  | .idle => s
  | .lead rx bytes => s.takeLeadByte rx bytes b
  | .deciding _ _ _ _ => s.holdSymbol (.byte b)
  | .request rx claimed slot =>
    let s1 := s.setLane (.request (rx.take b) claimed slot)
    if rx.actual < claimed then s1.setSlot slot (s1.agent.slots[slot].append b) else s1
  | .store rx claimed body records label =>
    (s.setStore (s.store.storeByte body rx.actual b)).setLane (.store (rx.take b) claimed body records label)
  | .pass rx claimed => s.setLane (.pass (rx.take b) claimed)
  | .ignore _ => s

/-- An end delimiter (R131, R132). -/
def State.takeEnd (s : State) : State :=
  match s.up.lane with
  | .idle => s
  | .lead _ _ => s.closeBad .lead
  | .deciding _ _ _ _ => s.holdSymbol .endMark
  | .request rx claimed _ => s.closeTested rx claimed
  | .store rx claimed _ _ _ => s.closeTested rx claimed
  | .pass rx claimed => s.closeTested rx claimed
  | .ignore _ => s.closeIgnored

/-- A byte or delimiter taken in the lane state as it stands. -/
def State.takeSymbol (s : State) (x : Symbol) : State :=
  match x with
  | .start => s.takeStart
  | .byte b => s.takeByte b
  | .endMark => s.takeEnd
  | .abort => s.takeAbort

/-- The held bytes and delimiters taken in arrival order (R129). -/
def State.takeHeld (s : State) : List Symbol → State
  | [] => s
  | x :: xs => (s.takeSymbol x).takeHeld xs

/-- DECIDING left for the lane state that the outcome sets, and the hold taken in it (R129; log 8). -/
def State.leaveDeciding (s : State) (lane : Lane) (held : List Symbol) : State := (s.setLane lane).takeHeld held

/-- The meaning of START_DELIMITER (R126). -/
def execStartDelimiter (s : State) : Host.Outcome State Fault Refusal :=
  if s.pins.reset then .next s else .next s.takeStart

/-- The meaning of RECEIVE_BYTE (R130). -/
def execReceiveByte (b : Byte) (s : State) : Host.Outcome State Fault Refusal :=
  if s.pins.reset then .next s else .next (s.takeByte b)

/-- The meaning of LEAD_EVENT (R127): the twelfth byte of a frame in LEAD (log 7). -/
def execLeadEvent (b : Byte) (s : State) : Host.Outcome State Fault Refusal :=
  match s.up.lane with
  | .idle => .next s
  | .lead rx bytes =>
    if s.pins.reset = false ∧ bytes.length + 1 = Config.leadBytes then
      .next (s.leadArrived (rx.take b) (bytes ++ [b]))
    else .next s
  | .deciding _ _ _ _ => .next s
  | .request _ _ _ => .next s
  | .store _ _ _ _ _ => .next s
  | .pass _ _ => .next s
  | .ignore _ => .next s

/-- The meaning of END_DELIMITER (R132). -/
def execEndDelimiter (s : State) : Host.Outcome State Fault Refusal :=
  if s.pins.reset then .next s else .next s.takeEnd

/-- The meaning of ABORT_DELIMITER (R131). -/
def execAbortDelimiter (s : State) : Host.Outcome State Fault Refusal :=
  if s.pins.reset then .next s else .next s.takeAbort

/-! ## The decisions on a traffic frame (R20, R129) -/

/-- The frame in DECIDING, if there is one. -/
def Lane.decidingParts : Lane → Option (Reception × List Byte × Deciding × List Symbol)
  | .idle => none
  | .lead _ _ => none
  | .deciding rx bytes phase held => some (rx, bytes, phase, held)
  | .request _ _ _ => none
  | .store _ _ _ _ _ => none
  | .pass _ _ => none
  | .ignore _ => none

/-- The classification of the frame in DECIDING (R48, R129). -/
def State.classify (s : State) (rx : Reception) (bytes : List Byte) (held : List Symbol) : State :=
  let a := s.classifier.actionFor bytes
  let s1 := s.setClassifier (s.classifier.count bytes)
  match actionFlows a with
  | [] => s1.leaveDeciding (.pass rx (leadLength bytes)) held
  | f :: rest => s1.setLane (.deciding rx bytes (.admitting (f :: rest) [] (storedLabel a bytes)) held)

/-- The meaning of CLASSIFICATION (R48). -/
def execClassification (s : State) : Host.Outcome State Fault Refusal :=
  if s.pins.reset then .next s
  else
    match s.up.lane.decidingParts with
    | some (rx, bytes, .classify, held) => .next (s.classify rx bytes held)
    | some (_, _, .admitting _ _ _, _) => .next s
    | some (_, _, .reserve _ _, _) => .next s
    | none => .next s

/-- The grants after one more admission decision, with the generation recorded (R3, R18). -/
def grantsAfter (granted : List Grant) (f : FlowId) (generation : Byte) (granting : Bool) : List Grant :=
  if granting then granted ++ [{ flow := f, generation := generation }] else granted

/-- One admission decision for the frame in DECIDING (R18, R20, R129). -/
def State.decideAdmission (s : State) (rx : Reception) (bytes : List Byte) (f : FlowId) (rest : List FlowId)
    (granted : List Grant) (label : Tag) (held : List Symbol) : State :=
  let decision := s.admitting f (leadLength bytes)
  let grants := grantsAfter granted f (s.flow f).generation decision.2
  match rest with
  | g :: more => decision.1.setLane (.deciding rx bytes (.admitting (g :: more) grants label) held)
  | [] =>
    if grants.isEmpty then decision.1.leaveDeciding (.pass rx (leadLength bytes)) held
    else decision.1.setLane (.deciding rx bytes (.reserve grants label) held)

/-- The meaning of ADMISSION (R18): the decision of the next flow named for the frame. -/
def execAdmission (s : State) : Host.Outcome State Fault Refusal :=
  if s.pins.reset then .next s
  else
    match s.up.lane.decidingParts with
    | some (rx, bytes, .admitting (f :: rest) granted label, held) =>
      .next (s.decideAdmission rx bytes f rest granted label held)
    | some (_, _, .admitting [] _ _, _) => .next s
    | some (_, _, .classify, _) => .next s
    | some (_, _, .reserve _ _, _) => .next s
    | none => .next s

/-- A POOL discard counted in each flow that granted admission (R20, R31). -/
def State.poolDiscard (s : State) : List Grant → State
  | [] => s
  | g :: gs => (s.countDiscard g.flow .pool).poolDiscard gs

/-- The reservation for the frame in DECIDING, or its refusal (R30 to R32, R129). -/
def State.decideReservation (s : State) (rx : Reception) (bytes : List Byte) (granted : List Grant) (label : Tag)
    (held : List Symbol) : State :=
  match s.store.reserve (leadLength bytes) granted with
  | none => (s.poolDiscard granted).leaveDeciding (.pass rx (leadLength bytes)) held
  | some (st, b, records) =>
    ((s.setStore (st.storeBytes b 0 (relabelled bytes label))).pauseTest).leaveDeciding
      (.store rx (leadLength bytes) b records label) held

/-- The meaning of RESERVATION (R30). -/
def execReservation (s : State) : Host.Outcome State Fault Refusal :=
  if s.pins.reset then .next s
  else
    match s.up.lane.decidingParts with
    | some (rx, bytes, .reserve granted label, held) => .next (s.decideReservation rx bytes granted label held)
    | some (_, _, .classify, _) => .next s
    | some (_, _, .admitting _ _ _, _) => .next s
    | none => .next s

/-! ## The return lane (R138 to R140) and the start of a restart (R137, R172) -/

/-- The frame at the head of the response queue, when its entry is ready (R158). -/
def Agent.headReady (a : Agent) : Option (List Byte) :=
  match a.responses with
  | [] => none
  | .claimed :: _ => none
  | .ready frame :: _ => some frame

/-- A return transmission of the given frame started (R138, R139). -/
def State.startReturn (s : State) (which : ReturnLane) (run : Nat) (frame : List Byte) : State :=
  s.setUp { s.up with returnLane := which, responseRun := run, line := .carrying (withCheck frame) }

/-- The arbiter's choice at a start (R139). -/
def State.arbitrateReturn (s : State) : State :=
  match s.agent.headReady, s.notices.queue with
  | some frame, [] => s.startReturn .response (min (s.up.responseRun + 1) 2) frame
  | some frame, notice :: _ =>
    if s.up.responseRun < 2 then s.startReturn .response (s.up.responseRun + 1) frame
    else s.startReturn .notice 0 notice
  | none, notice :: _ => s.startReturn .notice 0 notice
  | none, [] => s

/-- The meaning of RETURN_TRANSMISSION (R138): the lane free, no restart condition, and something to send. -/
def execReturnTransmission (s : State) : Host.Outcome State Fault Refusal :=
  if s.pins.reset = false ∧ s.up.returnLane = .free ∧ s.up.restartCondition = false then .next s.arbitrateReturn
  else .next s

/-- The hold of a frame in DECIDING. -/
def Lane.heldSymbols : Lane → List Symbol
  | .idle => []
  | .lead _ _ => []
  | .deciding _ _ _ held => held
  | .request _ _ _ => []
  | .store _ _ _ _ _ => []
  | .pass _ _ => []
  | .ignore _ => []

/-- The claimed length of the frame in reception, once its lead is complete (R126). -/
def Lane.claimed : Lane → Option Nat
  | .idle => none
  | .lead _ _ => none
  | .deciding _ bytes _ _ => some (leadLength bytes)
  | .request _ claimed _ => some claimed
  | .store _ claimed _ _ _ => some claimed
  | .pass _ claimed => some claimed
  | .ignore claimed => claimed

/-- The restart begins (R137, R172): the agent in RESTARTING, the restart condition, and the frame in reception lost uncounted.
IGNORE keeps the claimed length that a complete lead has given (R126; log 22). -/
def State.beginRestart (s : State) : State :=
  let s1 := s.freeReception
  let s2 := (s1.setAgent { s1.agent with state := .restarting }).setUp { s1.up with restartCondition := true }
  if s.up.lane = .idle then s2 else (s2.setLane (.ignore s.up.lane.claimed)).takeHeld s.up.lane.heldSymbols

/-- The return lane free again after its frame's end delimiter (R138). -/
def State.freeReturnLane (s : State) : State :=
  s.setUp { s.up with
    returnLane := .free
    line :=
      match s.up.line with
      | .idle => .idle
      | .carrying frame => .ended frame
      | .ended frame => .ended frame
      | .aborted => .aborted }

/-- A response's return completion, which begins a restart when it is the RESTART response: the last in the queue,
since no request is taken in RESTART_PENDING (R138, R140, R172; log 19). -/
def State.completeResponse (s : State) : State :=
  let s1 := s.freeReturnLane.setAgent { s.agent with responses := s.agent.responses.tail }
  if s.agent.state = .restartPending ∧ s.agent.responses.tail = [] then s1.beginRestart else s1

/-- The meaning of RETURN_COMPLETION (R138). -/
def execReturnCompletion (s : State) : Host.Outcome State Fault Refusal :=
  if s.pins.reset then .next s
  else
    match s.up.returnLane with
    | .free => .next s
    | .response => .next s.completeResponse
    | .notice => .next (s.freeReturnLane.setNotices { s.notices with queue := s.notices.queue.tail })

end Sys2Proof.Machine
end

