-- ==== Sys2Proof/Machine/Dispatch.lean ====
section
/-! DEFINITION. Dispatch: one arm per constructor of Instr, each one direct call of its meaning. -/
namespace Sys2Proof.Machine

/-- A command's or event's effect on everything but the queue of those that wait. -/
def exec (i : Instr) (s : State) : Host.Outcome State Fault Refusal :=
  match i with
  | .openFlow args => Sys2Proof.Machine.execOpen args s
  | .hold args => Sys2Proof.Machine.execHold args s
  | .release args => Sys2Proof.Machine.execRelease args s
  | .close args => Sys2Proof.Machine.execClose args s
  | .flush args => Sys2Proof.Machine.execFlush args s
  | .setFlow args => Sys2Proof.Machine.execSetFlow args s
  | .readFlow args => Sys2Proof.Machine.execReadFlow args s
  | .setPool args => Sys2Proof.Machine.execSetPool args s
  | .readPool args => Sys2Proof.Machine.execReadPool args s
  | .writeMatch args => Sys2Proof.Machine.execWriteMatch args s
  | .readMatch args => Sys2Proof.Machine.execReadMatch args s
  | .setDefault args => Sys2Proof.Machine.execSetDefault args s
  | .setEpoch args => Sys2Proof.Machine.execSetEpoch args s
  | .stage args => Sys2Proof.Machine.execStage args s
  | .unstage args => Sys2Proof.Machine.execUnstage args s
  | .adopt args => Sys2Proof.Machine.execAdopt args s
  | .readProfile args => Sys2Proof.Machine.execReadProfile args s
  | .setRelease args => Sys2Proof.Machine.execSetRelease args s
  | .resume args => Sys2Proof.Machine.execResume args s
  | .setGroup args => Sys2Proof.Machine.execSetGroup args s
  | .setTop args => Sys2Proof.Machine.execSetTop args s
  | .setHoldLimit args => Sys2Proof.Machine.execSetHoldLimit args s
  | .readStatus args => Sys2Proof.Machine.execReadStatus args s
  | .readCounters args => Sys2Proof.Machine.execReadCounters args s
  | .restart args => Sys2Proof.Machine.execRestart args s
  | .ackNotice args => Sys2Proof.Machine.execAckNotice args s
  | .setNotice args => Sys2Proof.Machine.execSetNotice args s
  | .unknownCommand code args => Sys2Proof.Machine.execUnknownCommand code args s
  | .startDelimiter => Sys2Proof.Machine.execStartDelimiter s
  | .receiveByte b => Sys2Proof.Machine.execReceiveByte b s
  | .leadEvent b => Sys2Proof.Machine.execLeadEvent b s
  | .classification => Sys2Proof.Machine.execClassification s
  | .admission => Sys2Proof.Machine.execAdmission s
  | .reservation => Sys2Proof.Machine.execReservation s
  | .endDelimiter => Sys2Proof.Machine.execEndDelimiter s
  | .abortDelimiter => Sys2Proof.Machine.execAbortDelimiter s
  | .take => Sys2Proof.Machine.execTake s
  | .returnTransmission => Sys2Proof.Machine.execReturnTransmission s
  | .returnCompletion => Sys2Proof.Machine.execReturnCompletion s
  | .reinitialisation => Sys2Proof.Machine.execReinitialisation s
  | .epochExpiry => Sys2Proof.Machine.execEpochExpiry s
  | .replenishment flow => Sys2Proof.Machine.execReplenishment flow s
  | .agingSweep flow => Sys2Proof.Machine.execAgingSweep flow s
  | .profileStep flow => Sys2Proof.Machine.execProfileStep flow s
  | .lifetimeExpiry flow => Sys2Proof.Machine.execLifetimeExpiry flow s
  | .flushStep flow => Sys2Proof.Machine.execFlushStep flow s
  | .selection => Sys2Proof.Machine.execSelection s
  | .transmissionCompletion => Sys2Proof.Machine.execTransmissionCompletion s
  | .quenchAssertion => Sys2Proof.Machine.execQuenchAssertion s
  | .quenchDeassertion => Sys2Proof.Machine.execQuenchDeassertion s
  | .dholdAssertion => Sys2Proof.Machine.execDholdAssertion s
  | .dholdDeassertion => Sys2Proof.Machine.execDholdDeassertion s
  | .holdTick => Sys2Proof.Machine.execHoldTick s
  | .holdStuck => Sys2Proof.Machine.execHoldStuck s
  | .noticeOccurrence kind scope => Sys2Proof.Machine.execNoticeOccurrence kind scope s
  | .firstBuild => Sys2Proof.Machine.execFirstBuild s
  | .repeatTick kind scope => Sys2Proof.Machine.execRepeatTick kind scope s
  | .repeatDue kind scope => Sys2Proof.Machine.execRepeatDue kind scope s
  | .repeatBuild => Sys2Proof.Machine.execRepeatBuild s
  | .resetAssertion => Sys2Proof.Machine.execResetAssertion s
  | .resetRelease straps => Sys2Proof.Machine.execResetRelease straps s

end Sys2Proof.Machine
end

