-- ==== Sys2Proof/Machine/Step.lean ====
section
/-! DEFINITION. The step: the command or event at the front of the queue is taken; with nothing waiting the part idles (log 2). -/
namespace Sys2Proof.Machine

/-- One step of the part (log 2). -/
def step (s : State) : Host.Outcome State Fault Refusal :=
  match s.pending with
  | [] => .next s
  | c :: rest => exec c { s with pending := rest }

/-- The state with the command that a word spells put at the front of the queue; no word spells one, so it is the state itself (log 21). -/
def State.withFetchWord (s : State) (nbits w : Nat) : State :=
  match decodeTableWord nbits w with
  | none => s
  | some c => { s with pending := c :: s.pending }

end Sys2Proof.Machine
end

