-- ==== Sys2Proof/Safety.lean ====
section
/-! DEFINITION. What the statements are written with: the invariants the spec gives the part's state, and the next states that several rules share. -/
namespace Sys2Proof.Machine

/-! ## Next states that several rules share -/

/-- The state after the agent has recorded a result for the command it is executing (R163, R164, R166). -/
def State.answered (s : State) (code : Byte) (status : Status) (data : List Byte) : State :=
  s.setAgent (s.agent.finish s.up.ownTag { code := code, status := status, data := data } false)

/-- The scheduler with the run ended if the flow holds it (R118). -/
def Scheduler.without (c : Scheduler) (f : FlowId) : Scheduler :=
  { c with run := c.run.filter fun run => decide (run.holder ≠ f) }

/-- The Notice Unit with one more reported condition (R177). -/
def NoticeUnit.reporting (n : NoticeUnit) (k : NoticeKind) (f : FlowId) : NoticeUnit :=
  { n with reports := n.reports ++ [itemOf k f] }

/-- The state after a flow's entry into DISABLED, its untaken replenishment removed (R8, R69; log 4). -/
def State.disabledAt (s : State) (f : FlowId) : State :=
  { s with
    flows := s.flows.set f
      { s.flow f with
        state := .disabled
        staged := none
        adoptPending := false
        due := { (s.flow f).due with replenishment := false } }
    scheduler := s.scheduler.without f
    notices := s.notices.reporting .flowClosed f }

/-- The state after the swap of a profile into a flow (R70, R90, R91). -/
def State.swappedAt (s : State) (f : FlowId) (p : Profile) : State :=
  { s with
    flows := s.flows.set f
      { s.flow f with
        state := stateAfterSwap (s.flow f).state
        active := p
        staged := none
        adoptPending := false
        remaining := p.lifetime
        credit := min (s.flow f).credit p.burstCap }
    scheduler := s.scheduler.without f
    notices := s.notices.reporting .stageTaken f }

/-- The state after a frame has been closed in error: the lane IDLE, the frame and its one error counted, and INGRESS_ERROR reported (R131, R132, R134, R135). -/
def State.closedWith (s : State) (e : IngressError) : State :=
  { s with
    up := { s.up.countError e with lane := .idle, framesReceived := s.up.framesReceived + 1 }
    notices := s.notices.reporting .ingressError 0 }

/-- The state after a frame has been closed without error: the lane IDLE and the frame counted (R131, R133, R134). -/
def State.closedQuietly (s : State) : State :=
  { s with up := { s.up with lane := .idle, framesReceived := s.up.framesReceived + 1 } }

/-- The lead and body of a notice (R178, R189, R195). -/
def noticeFrame (destination ownTag : Tag) (kind : NoticeKind) (scope : FlowId) (number : BitVec 16) (marker : Bool)
    (count : Nat) : List Byte :=
  bytes16 destination.toNat ++ bytes16 ownTag.toNat ++ [0x40#8, 0x00#8] ++ bytes16 number.toNat ++ bytes16 24 ++
    bytes16 0 ++ [BitVec.ofNat 8 (kindCode kind), BitVec.ofNat 8 marker.toNat] ++ bytes16 scope.val ++
    bytes16 number.toNat ++ bytes16 count

/-- The state of a flow that is in the return state of a flush (R10, R11). -/
def ReturnState.toFlowState : ReturnState → FlowState
  | .active => .active
  | .held cause => .held cause
  | .draining => .draining

/-- The argument length of each command code (R191). -/
def argumentLength (code : Byte) : Option Nat :=
  match code.toNat with
  | 0x01 => some 18
  | 0x02 => some 2
  | 0x03 => some 2
  | 0x04 => some 2
  | 0x05 => some 2
  | 0x06 => some 10
  | 0x07 => some 2
  | 0x08 => some 4
  | 0x09 => some 0
  | 0x0A => some 33
  | 0x0B => some 1
  | 0x0C => some 3
  | 0x0D => some 2
  | 0x0E => some 18
  | 0x0F => some 2
  | 0x10 => some 2
  | 0x11 => some 2
  | 0x12 => some 1
  | 0x13 => some 0
  | 0x14 => some 4
  | 0x15 => some 2
  | 0x16 => some 2
  | 0x17 => some 0
  | 0x18 => some 3
  | 0x19 => some 0
  | 0x1A => some 5
  | 0x1B => some 6
  | _ => none

/-- A command as a request body carries it (R190). -/
def Command.encode (c : Command) : List Byte := [c.code] ++ bytes8 c.args.length ++ c.args

/-- A request body (R190). -/
def encodeRequest (stopOnError : Bool) (commands : List Command) : List Byte :=
  bytesBool stopOnError ++ bytes8 commands.length ++ commands.flatMap Command.encode

/-! ## Distances around a ring (R106, R107) -/

/-- How far a flow stands from the start of a ring whose pointer is given: 0 for the first, 255 for the last (R106). -/
def flowDistance (pointer f : FlowId) : Nat := (f.val + 255 - pointer.val) % 256

/-- How far a group stands from the start of the top ring: 0 for the first, 7 for the last (R107). -/
def groupDistance (pointer g : Fin 8) : Nat := (g.val + 7 - pointer.val) % 8

/-- A group holds a candidate (R105). -/
def State.groupWaits (s : State) (g : Fin 8) : Prop := ∃ f, s.candidateIn (.ring g) f = true

/-- The group and the flow at which arbitration arrives: the nearest waiting group, and its nearest candidate (R106, R107). -/
def State.nearest (s : State) (g : Fin 8) (f : FlowId) : Prop :=
  s.candidateIn (.ring g) f = true ∧
    (∀ g', s.groupWaits g' → groupDistance s.scheduler.topPointer g ≤ groupDistance s.scheduler.topPointer g') ∧
    ∀ f', s.candidateIn (.ring g) f' = true →
      flowDistance s.scheduler.groups[g].pointer f ≤ flowDistance s.scheduler.groups[g].pointer f'

/-! ## Invariants -/

/-- Frame memory is in canonical form (log 10). -/
def State.memoryCanonical (s : State) : Prop := Memory.wf s.store.mem = true

/-- The remaining lifetime fits the active profile (R86): from 1 to a lifetime that is not 0, and 0 under a lifetime of 0. -/
def Flow.lifetimeFits (x : Flow) : Prop :=
  (x.active.lifetime = 0 → x.remaining = 0) ∧
    (x.active.lifetime ≠ 0 → 1 ≤ x.remaining ∧ x.remaining ≤ x.active.lifetime)

/-- The flow is ACTIVE, or will be ACTIVE again with its remaining lifetime as it stands (R5, R6, R11). -/
def Flow.countsOn (x : Flow) : Prop :=
  x.state = .active ∨ x.state = .held .ordered ∨ x.state = .flushing .active ∨ x.state = .flushing (.held .ordered)

/-- A flow's record, credit and profiles are legal (R1, R67, R84, R86). -/
def Flow.legal (x : Flow) : Prop :=
  x.queuedFrames = x.queue.length ∧
    x.active.good = true ∧ (∀ p, x.staged = some p → p.good = true) ∧
    Config.creditFloor ≤ x.credit ∧ x.credit ≤ x.active.burstCap ∧
    (x.adoptPending = true → x.staged ≠ none) ∧
    (x.state = .disabled → x.staged = none) ∧
    (x.countsOn → x.lifetimeFits)

/-- The run, if there is one, is legal (R104): its holder releases and is not express, 1 to 64 frames remain, and release is allowed. -/
def State.runLegal (s : State) : Prop :=
  ∀ run, s.scheduler.run = some run →
    (s.flow run.holder).releasing = true ∧ (s.flow run.holder).group ≠ .express ∧
      1 ≤ run.remaining ∧ run.remaining ≤ 64 ∧ s.releaseAllowed = true

/-- Every flow and the run are legal. -/
def State.flowsLegal (s : State) : Prop := (∀ f, (s.flow f).legal) ∧ s.runLegal

/-- An item's occurrence count fits its state (R176). -/
def NoticeItem.legal (x : NoticeItem) : Prop :=
  x.count ≤ 65535 ∧
    match x.state with
    | .clear => x.count = 0
    | .raised => 1 ≤ x.count
    | .sent again _ _ _ => x.count = 0 ↔ again = false

/-- The items, the raised list, the repeat list and the notice queue agree (R176). -/
def NoticeUnit.legal (n : NoticeUnit) : Prop :=
  (∀ i : ItemId, n.items[i].legal) ∧
    n.raisedList.Nodup ∧ (∀ i : ItemId, i ∈ n.raisedList ↔ n.items[i].state = .raised) ∧
    n.repeatList.Nodup ∧ (∀ i : ItemId, i ∈ n.repeatList → n.items[i].isSent = true) ∧
    n.queue.length ≤ 16

/-- The agent is EXECUTING (R156). -/
def AgentState.isExecuting : AgentState → Bool
  | .idle => false
  | .executing _ => true
  | .restartPending => false
  | .restarting => false

/-- The response queue fits the agent's state (R158): ready entries, and a claimed one at the tail while a request is executed. -/
def Agent.entriesFit (a : Agent) : Prop :=
  a.responses.length ≤ 4 ∧
    ∃ frames : List (List Byte),
      a.responses = frames.map ResponseEntry.ready ++ (if a.state.isExecuting then [ResponseEntry.claimed] else [])

/-- The return lane, its queues, the agent and the restart condition agree (R137 to R140, R158, R172, R173). -/
def State.returnsAgree (s : State) : Prop :=
  s.agent.entriesFit ∧ s.up.responseRun ≤ 2 ∧
    (s.up.returnLane = .response → s.agent.headReady ≠ none) ∧
    (s.up.returnLane = .notice → s.notices.queue ≠ []) ∧
    (s.agent.state = .restartPending → s.agent.responses ≠ []) ∧
    (s.agent.state = .restarting → s.agent.responses = [] ∧ s.up.returnLane = .free) ∧
    (s.up.restartCondition = true ↔ s.agent.state = .restarting)

/-- The record and body free lists hold exactly the free records and bodies, each once (R29, R38). -/
def FrameStore.listsAgree (st : FrameStore) : Prop :=
  st.freeRecords.Nodup ∧ (∀ r : RecordId, r ∈ st.freeRecords ↔ st.records[r] = none) ∧
    st.freeBodies.Nodup ∧ ∀ b : BodyId, b ∈ st.freeBodies ↔ st.bodies[b] = none

/-- The pause condition agrees with the free-block count and the watermarks (R39, R40). -/
def FrameStore.pauseAgrees (st : FrameStore) : Prop :=
  st.pauseMark ≤ st.resumeMark ∧ st.resumeMark ≤ 2048 ∧
    (st.pauseCondition = true → st.freeBlocks.length < st.resumeMark) ∧
    (st.pauseCondition = false → st.pauseMark ≤ st.freeBlocks.length)

/-- The own tag lies in F000h to F0FFh (R136). -/
def State.ownTagInRange (s : State) : Prop := 0xF000 ≤ s.up.ownTag.toNat ∧ s.up.ownTag.toNat ≤ 0xF0FF

/-- A match entry lies in the ranges of R44 and the checks of R57. -/
def MatchEntry.inRange (e : MatchEntry) : Prop :=
  e.lengthMin ≤ e.lengthMax ∧ e.lengthMax ≤ 2048 ∧
    match e.action with
    | .discard => True
    | .queue _ _ => True
    | .mirror f g _ => f ≠ g

/-- Every match entry in the table lies in its ranges (R57). -/
def State.tableInRange (s : State) : Prop := ∀ i : Fin 64, s.classifier.entries[i].inRange

/-- The periods lie in 10 to 65535 (R63). -/
def State.periodsInRange (s : State) : Prop :=
  10 ≤ s.pacing.periodInForce ∧ s.pacing.periodInForce ≤ 65535 ∧
    10 ≤ s.pacing.nextPeriod ∧ s.pacing.nextPeriod ≤ 65535

/-! ### Blocks, records, queues and the frame in reception (R1, R3, R14, R26 to R30, R38) -/

/-- The blocks a live body holds: its chain, then its pending blocks (R26, R27). -/
def FrameStore.blocksOf (st : FrameStore) (b : BodyId) : List BlockId :=
  match st.bodies[b] with
  | none => []
  | some body => st.chain body ++ body.pendingBlocks

/-- Every block stands once, on the block free list or with one live body (R26, R29, R38). -/
def FrameStore.blocksAgree (st : FrameStore) : Prop :=
  ∀ k : BlockId, st.freeBlocks.count k + ∑ b : BodyId, (st.blocksOf b).count k = 1

/-- A body's length, block count and chain fit each other (R27). -/
def FrameStore.bodyFits (st : FrameStore) (body : Body) : Prop :=
  16 ≤ body.length ∧ body.length ≤ 2048 ∧ body.blockCount = (body.length + 127) / 128 ∧
    match body.state with
    | .filling linked pending =>
      1 ≤ linked ∧ (st.chain body).length = linked ∧ linked + pending.length = body.blockCount
    | .stored => (st.chain body).length = body.blockCount

/-- The frame records whose body field names a body (R28). -/
def FrameStore.sharers (st : FrameStore) (b : BodyId) : Finset RecordId :=
  Finset.univ.filter fun r => (st.records[r]).map FrameRecord.body = some b

/-- Every body's share count is the number of records that name it, 1 or 2, and none names a free body (R38). -/
def FrameStore.sharesAgree (st : FrameStore) : Prop :=
  (∀ b : BodyId, st.bodies[b] = none → st.sharers b = ∅) ∧
    ∀ (b : BodyId) (body : Body), st.bodies[b] = some body →
      (st.sharers b).card = body.share ∧ 1 ≤ body.share ∧ body.share ≤ 2

/-- A flow's queue holds exactly its QUEUED records, each once, with their count and their bytes; the limits lie in their ranges
and hold what is queued; and a DISABLED flow's queue is empty (R1, R8, R14). -/
def State.queueAgrees (s : State) (f : FlowId) : Prop :=
  let x := s.flow f
  x.queue.Nodup ∧
    (∀ r, r ∈ x.queue ↔ ∃ fr stamp, s.store.records[r] = some fr ∧ fr.state = .queued stamp ∧ fr.flow = f) ∧
    x.queuedFrames = x.queue.length ∧ x.queuedBytes = (x.queue.map s.store.recordLength).sum ∧
    1 ≤ x.frameLimit ∧ x.frameLimit ≤ 1024 ∧ 16 ≤ x.byteLimit ∧ x.byteLimit ≤ 262144 ∧
    x.queuedFrames ≤ x.frameLimit ∧ x.queuedBytes ≤ x.byteLimit ∧
    (x.state = .disabled → x.queue = [])

/-- Every flow's queue agrees with its records and its limits. -/
def State.queuesAgree (s : State) : Prop := ∀ f, s.queueAgrees f

/-- The records reserved for the frame in reception, primary first (R28). -/
def Lane.reservedRecords : Lane → List RecordId
  | .idle => []
  | .lead _ _ => []
  | .deciding _ _ _ _ => []
  | .request _ _ _ => []
  | .store _ _ _ records _ => records
  | .pass _ _ => []
  | .ignore _ => []

/-- The FILLING body of the frame in reception (R27, R126). -/
def Lane.fillingBody : Lane → Option BodyId
  | .idle => none
  | .lead _ _ => none
  | .deciding _ _ _ _ => none
  | .request _ _ _ => none
  | .store _ _ b _ _ => some b
  | .pass _ _ => none
  | .ignore _ => none

/-- The claimed length of the frame in reception while it may still be stored. -/
def Lane.storedLength : Lane → Nat
  | .idle => 0
  | .lead _ _ => 0
  | .deciding _ bytes _ _ => num16At bytes 8
  | .request _ _ _ => 0
  | .store _ claimed _ _ _ => claimed
  | .pass _ _ => 0
  | .ignore _ => 0

/-- The flows whose admission decisions are still to come (R20). -/
def Deciding.undecided : Deciding → List FlowId
  | .classify => []
  | .admitting todo _ _ => todo
  | .reserve _ _ => []

/-- The grants of admission recorded against the frame in reception before its reservation (R3, R18). -/
def Deciding.grants : Deciding → List Grant
  | .classify => []
  | .admitting _ granted _ => granted
  | .reserve granted _ => granted

/-- The flows of the frame in reception whose admission decisions are still to come (R20). -/
def Lane.undecided : Lane → List FlowId
  | .idle => []
  | .lead _ _ => []
  | .deciding _ _ phase _ => phase.undecided
  | .request _ _ _ => []
  | .store _ _ _ _ _ => []
  | .pass _ _ => []
  | .ignore _ => []

/-- The grant that a RESERVED record carries: its flow and the admission generation (R28). -/
def FrameStore.grantOf (st : FrameStore) (r : RecordId) : Option Grant :=
  match st.records[r] with
  | none => none
  | some fr =>
    match fr.state with
    | .reserved generation => some { flow := fr.flow, generation := generation }
    | .queued _ => none
    | .inTransmission => none

/-- The grants recorded against the frame in reception, before its reservation or by it (R3, R18, R30). -/
def State.grants (s : State) : List Grant :=
  match s.up.lane with
  | .idle => []
  | .lead _ _ => []
  | .deciding _ _ phase _ => phase.grants
  | .request _ _ _ => []
  | .store _ _ _ records _ => records.filterMap s.store.grantOf
  | .pass _ _ => []
  | .ignore _ => []

/-- The commands a slot of the management queue may still bring: eight at most when a request waits in it (R155, R161). -/
def Slot.commandsLeft : Slot → Nat
  | .free => 0
  | .filling _ => 0
  | .waiting _ => 8

/-- The commands that may still run before another request has been received (R3). -/
def Agent.commandsLeft (a : Agent) : Nat :=
  (match a.state with
    | .idle => 0
    | .executing x => x.commands.length - x.index
    | .restartPending => 0
    | .restarting => 0) +
    ∑ k : SlotId, (a.slots[k]).commandsLeft

/-- A grant is kept: as long as the opening in which it was made lasts, the frame fits; and the openings since the grant with
the commands that may still run are at most 40, so that the generation does not come round to the grant's again (R3, R14). -/
def State.grantKept (s : State) (length : Nat) (g : Grant) : Prop :=
  let x := s.flow g.flow
  (x.generation - g.generation).toNat + s.agent.commandsLeft ≤ 40 ∧
    (x.generation = g.generation → x.state ≠ .disabled → x.fits length = true)

/-- The frame in reception agrees with what is stored of it (R27, R30, R32, R126 to R129). -/
def State.receptionAgrees (s : State) : Prop :=
  match s.up.lane with
  | .idle => True
  | .lead rx bytes => rx.actual = bytes.length ∧ bytes.length < 12
  | .deciding rx bytes phase _ =>
    rx.actual = 12 ∧ 16 ≤ num16At bytes 8 ∧ num16At bytes 8 ≤ 2048 ∧
      ∀ granted label, phase = .reserve granted label → granted ≠ []
  | .request _ _ _ => True
  | .store rx claimed b records _ =>
    ∃ body linked pending, s.store.bodies[b] = some body ∧ body.state = .filling linked pending ∧
      body.length = claimed ∧ (pending = [] ∨ rx.actual ≤ 128 * linked) ∧
      records.Nodup ∧ records.length = body.share ∧
      ∀ r ∈ records, (s.store.records[r]).map FrameRecord.body = some b
  | .pass _ _ => True
  | .ignore _ => True

/-- The store, the flows' queues, the frame in reception and the frame in transmission agree: blocks, bodies and records are each
in one place (R26 to R29, R38), queues hold their records within their limits (R1, R8, R14), RESERVED records and a FILLING body
belong to the frame in reception (R27, R28), and its grants are to different flows and are kept (R3, R14, R18, R57). -/
structure State.FramesAgree (s : State) : Prop where
  lists : s.store.listsAgree
  blocks : s.store.blocksAgree
  bodies : ∀ (b : BodyId) (body : Body), s.store.bodies[b] = some body → s.store.bodyFits body
  shares : s.store.sharesAgree
  queues : s.queuesAgree
  sending : ∀ t, s.down.sending = some t → ∃ fr, s.store.records[t.record] = some fr ∧ fr.state = .inTransmission
  reserved : ∀ r : RecordId, r ∈ s.up.lane.reservedRecords ↔
    ∃ fr generation, s.store.records[r] = some fr ∧ fr.state = .reserved generation
  filling : ∀ (b : BodyId) (body : Body), s.store.bodies[b] = some body →
    (body.state ≠ .stored ↔ s.up.lane.fillingBody = some b)
  reception : s.receptionAgrees
  grantsApart : (s.grants.map Grant.flow ++ s.up.lane.undecided).Nodup
  grantsFew : s.grants.length + s.up.lane.undecided.length ≤ 2
  grantsKept : ∀ g ∈ s.grants, s.grantKept s.up.lane.storedLength g
  requests : ∀ x, s.agent.state = .executing x → x.commands.length ≤ 8
  table : s.tableInRange

end Sys2Proof.Machine
end

