-- ==== Sys2Proof/Certificates/Slice0/Obligations.lean ====
section
/-! DEFINITION. The statements for the provers. Each says its rule of spec/ in its docstring; a clause that is the model's own choice names its log entry. -/
section Statements

open Sys2Proof Sys2Proof.Machine

/-! ## The queue and the step (logs 1 to 3) -/

/-- A step runs the command or event at the front of the queue on the state with the queue's rest (log 2).
With nothing waiting the part idles, the model's choice (log 2). -/
def Obligations.StepTakesTheFrontOfTheQueue : Prop :=
  (∀ (c : Instr) (s : State) (rest : List Instr),
    s.pending = c :: rest → step s = exec c { s with pending := rest }) ∧
  ∀ s : State, s.pending = [] → step s = .next s

/-- Every command and event answers a next state, since the part keeps running through every error it meets (00_scope.md,
Functional overview), and leaves the queue of those that wait as it was (log 2). -/
def Obligations.EveryEventCompletesAndKeepsTheQueue : Prop :=
  ∀ (c : Instr) (s : State), ∃ t, exec c s = .next t ∧ t.pending = s.pending

/-- A management command is taken exactly when it is the next command of the request in execution, and is otherwise left
alone, the model's reading (log 3).
An unknown code answers BAD_COMMAND, and a wrong argument length BAD_ARGUMENT, with no data and no block reached (R163). -/
def Obligations.CommandsAreTakenInTurnAndChecked : Prop :=
  (∀ (code : Byte) (args : List Byte) (s : State),
    (s.commandDue code args = true ↔
      s.pins.reset = false ∧ ∃ x, s.agent.state = .executing x ∧ x.stop = false ∧
        x.commands[x.index]? = some { code := code, args := args }) ∧
    (s.commandDue code args = false → exec (commandRow code args) s = .next s)) ∧
  ∀ (code : Byte) (args : List Byte) (s : State), s.commandDue code args = true →
    (argumentLength code = none →
      exec (.unknownCommand code args) s = .next (s.answered code .badCommand [])) ∧
    ∀ n, argumentLength code = some n → args.length ≠ n →
      exec (commandRow code args) s = .next (s.answered code .badArgument [])

/-! ## The agent (R157 to R174) -/

/-- A result is recorded and the next command waits; or, at the last command or under the stop-on-error flag, the commands
left are NOT_ATTEMPTED, and the response is placed and stored with the request's key (R164, R166). -/
def Obligations.AResultIsRecordedOrEndsTheRequest : Prop :=
  ∀ (s : State) (x : Execution) (code : Byte) (status : Status) (data : List Byte),
    s.agent.state = .executing x → x.stop = false →
    let result : CommandResult := { code := code, status := status, data := data }
    let left := x.commands.drop (x.index + 1)
    let all := x.results ++ [result] ++ left.map fun c => { code := c.code, status := .notAttempted, data := [] }
    let response := buildResponse x.request s.up.ownTag (overallStatus all) all
    (left ≠ [] ∧ (x.stopOnError = false ∨ status = .ok) →
      s.answered code status data =
        { s with agent := { s.agent with
          state := .executing { x with index := x.index + 1, results := x.results ++ [result] } } }) ∧
    (left = [] ∨ x.stopOnError = true ∧ status ≠ .ok →
      s.answered code status data =
        { s with agent := { s.agent with
          state := .idle
          responses := s.agent.responses.map (readyClaimed response)
          replay := some
            { source := leadSource x.request, sequence := leadSequence x.request, response := response } } })

/-- A response's lead and body, byte by byte, from the request it answers (R165, R189, R190). -/
def Obligations.ResponsesAreBuiltFromTheirRequests : Prop :=
  (∀ (request : List Byte) (ownTag : Tag) (overall : Status) (results : List CommandResult),
    buildResponse request ownTag overall results =
      bytes16 (num16At request 2) ++ bytes16 ownTag.toNat ++
        [BitVec.ofNat 8 (3 * 16 + byteAt request 4 % 16), request.getD 5 0#8] ++
        bytes16 (num16At request 6) ++
        bytes16 (12 + (2 + (results.map fun r => 3 + r.data.length).sum) + 4) ++
        bytes16 (num16At request 10) ++
        [BitVec.ofNat 8 (statusCode overall), BitVec.ofNat 8 results.length] ++
        results.flatMap fun r =>
          [r.code, BitVec.ofNat 8 (statusCode r.status), BitVec.ofNat 8 r.data.length] ++ r.data) ∧
    ∀ results : List CommandResult,
      ((∀ r ∈ results, r.status = .ok) → overallStatus results = .ok) ∧
      ∀ (before : List CommandResult) (r : CommandResult) (after : List CommandResult),
        results = before ++ r :: after → (∀ q ∈ before, q.status = .ok) → r.status ≠ .ok →
          overallStatus results = r.status

/-- A take frees the oldest request's slot, claims an entry, and answers a replay, a malformed request, or begins execution
(R157, R160 to R163). -/
def Obligations.ATakeReplaysRefusesOrExecutes : Prop :=
  ∀ (s : State) (slot : SlotId) (others : List SlotId) (frame : List Byte),
    s.pins.reset = false → s.agent.state = .idle → s.agent.responses.length < 4 →
    s.agent.waitOrder = slot :: others → s.agent.slots[slot] = .waiting frame →
    let request := frame.take (frame.length - 4)
    let claimed : Agent :=
      { s.agent with
        slots := s.agent.slots.set slot .free
        waitOrder := others
        taken := s.agent.taken + 1 }
    let key : Tag × Tag := (leadSource request, leadSequence request)
    (∀ m, s.agent.replay = some m → key = (m.source, m.sequence) →
      exec .take s = .next { s with agent := { claimed with
        responses := s.agent.responses.map (readyClaimed m.response) ++ [.ready m.response]
        replayed := s.agent.replayed + 1 } }) ∧
    ((∀ m, s.agent.replay = some m → key ≠ (m.source, m.sequence)) →
      (parseBody (request.drop 12) = none →
        exec .take s = .next { s with agent := { claimed with
          responses :=
            s.agent.responses.map (readyClaimed (buildResponse request s.up.ownTag .malformed [])) ++
              [.ready (buildResponse request s.up.ownTag .malformed [])]
          replay := some
            { source := leadSource request, sequence := leadSequence request,
              response := buildResponse request s.up.ownTag .malformed [] }
          malformed := s.agent.malformed + 1 } }) ∧
      ∀ stopOnError commands, parseBody (request.drop 12) = some (stopOnError, commands) →
        exec .take s = .next { s with agent := { claimed with
          responses := s.agent.responses ++ [.claimed]
          state := .executing
            { request := request, commands := commands, stopOnError := stopOnError, index := 0, results := [],
              stop := false } } })

/-- Every request body of one to eight well-formed commands is read back as exactly those commands (R161, R190, R191).
A request body that is read is exactly the encoding of what was read, with one to eight commands (R161). -/
def Obligations.RequestsAreReadBackAsTheirCommands : Prop :=
  (∀ (stopOnError : Bool) (rows : List Instr) (commands : List Command),
    (∀ i ∈ rows, i.wellFormed = true) →
    rows.map commandCode = commands.map (fun c => some (c.code, c.args)) →
    1 ≤ commands.length → commands.length ≤ 8 →
      parseBody (encodeRequest stopOnError commands) = some (stopOnError, commands) ∧
        commands.map (fun c => commandRow c.code c.args) = rows) ∧
  ∀ (body : List Byte) (stopOnError : Bool) (commands : List Command),
    parseBody body = some (stopOnError, commands) →
      body = encodeRequest stopOnError commands ∧ 1 ≤ commands.length ∧ commands.length ≤ 8

/-- RESTART with no arguments ends the request, leaves later commands NOT_ATTEMPTED, places its response and makes the agent
RESTART_PENDING; nothing else changes (R171). -/
def Obligations.RestartWaitsForItsResponse : Prop :=
  ∀ (s : State) (x : Execution), s.commandDue 0x19#8 [] = true → s.agent.state = .executing x →
    let all := x.results ++ [{ code := 0x19#8, status := .ok, data := [] }] ++
      (x.commands.drop (x.index + 1)).map fun c => { code := c.code, status := .notAttempted, data := [] }
    let response := buildResponse x.request s.up.ownTag (overallStatus all) all
    exec (.restart []) s = .next { s with agent := { s.agent with
      state := .restartPending
      responses := s.agent.responses.map (readyClaimed response)
      replay := some
        { source := leadSource x.request, sequence := leadSequence x.request, response := response } } }

/-- READ_STATUS answers OK with the sixteen bytes of its result and changes nothing else (R169, R191).
READ_COUNTERS answers OK with the counters of its scope as read, and with the clear argument sets them to 0 (R170, R191, R24). -/
def Obligations.StatusAndCountersAreReported : Prop :=
  (∀ s : State, s.commandDue 0x17#8 [] = true →
    exec (.readStatus []) s = .next (s.answered 0x17#8 .ok
      (bytes16 s.up.ownTag.toNat ++ bytes16 s.pacing.epochCounter.toNat ++ bytes16 s.store.freeBlocks.length ++
        bytesBool s.store.pauseCondition ++
        bytesBool (s.store.pauseCondition || s.up.restartCondition || s.pins.reset) ++
        bytesBool s.scheduler.releaseEnable ++ bytesBool s.scheduler.quenchFlag ++
        bytesBool s.pins.quench ++ bytesBool s.pins.dhold ++ bytes32 s.agent.restartCount.toNat))) ∧
  ∀ (s : State) (args : List Byte), s.commandDue 0x18#8 args = true → args.length = 3 →
    (0x104 < num16At args 0 ∨ 1 < byteAt args 2 →
      exec (.readCounters args) s = .next (s.answered 0x18#8 .badArgument [])) ∧
    ∀ clear : Bool, byteAt args 2 = clear.toNat →
      (∀ f : FlowId, f.val = num16At args 0 →
        exec (.readCounters args) s = .next
          ((if clear then s.setFlow f { s.flow f with counters :=
              { acceptedFrames := 0#32, acceptedBytes := 0#32, releasedFrames := 0#32, releasedBytes := 0#32,
                limit := 0#32, head := 0#32, closed := 0#32, flushed := 0#32, stale := 0#32, pool := 0#32 } }
            else s).answered 0x18#8 .ok
              (bytes32 (s.flow f).counters.acceptedFrames.toNat ++ bytes32 (s.flow f).counters.acceptedBytes.toNat ++
                bytes32 (s.flow f).counters.releasedFrames.toNat ++ bytes32 (s.flow f).counters.releasedBytes.toNat ++
                bytes32 (s.flow f).counters.limit.toNat ++ bytes32 (s.flow f).counters.head.toNat ++
                bytes32 (s.flow f).counters.closed.toNat ++ bytes32 (s.flow f).counters.flushed.toNat ++
                bytes32 (s.flow f).counters.stale.toNat ++ bytes32 (s.flow f).counters.pool.toNat))) ∧
      (num16At args 0 = 0x100 →
        exec (.readCounters args) s = .next
          ((if clear then { s with classifier := { s.classifier with noMatch := 0#32 } } else s).answered 0x18#8 .ok
            (bytes32 s.classifier.noMatch.toNat))) ∧
      (num16At args 0 = 0x101 →
        exec (.readCounters args) s = .next
          ((if clear then { s with up := { s.up with
              framesReceived := 0#32, leadErrors := 0#32, lengthErrors := 0#32, checkErrors := 0#32, aborts := 0#32 } }
            else s).answered 0x18#8 .ok
              (bytes32 s.up.framesReceived.toNat ++ bytes32 s.up.leadErrors.toNat ++
                bytes32 s.up.lengthErrors.toNat ++ bytes32 s.up.checkErrors.toNat ++ bytes32 s.up.aborts.toNat))) ∧
      (num16At args 0 = 0x102 →
        exec (.readCounters args) s = .next
          ((if clear then { s with down := { s.down with framesSent := 0#32, bytesSent := 0#32 } } else s).answered
            0x18#8 .ok (bytes32 s.down.framesSent.toNat ++ bytes32 s.down.bytesSent.toNat))) ∧
      (num16At args 0 = 0x103 →
        exec (.readCounters args) s = .next
          ((if clear then { s with agent := { s.agent with
              taken := 0#32, lost := 0#32, replayed := 0#32, malformed := 0#32 } }
            else s).answered 0x18#8 .ok
              (bytes32 s.agent.taken.toNat ++ bytes32 s.agent.lost.toNat ++ bytes32 s.agent.replayed.toNat ++
                bytes32 s.agent.malformed.toNat))) ∧
      (num16At args 0 = 0x104 →
        exec (.readCounters args) s = .next
          ((if clear then { s with notices := { s.notices with
              built := 0#32, repeats := 0#32, acks := 0#32, staleAcks := 0#32 } }
            else s).answered 0x18#8 .ok
              (bytes32 s.notices.built.toNat ++ bytes32 s.notices.repeats.toNat ++ bytes32 s.notices.acks.toNat ++
                bytes32 s.notices.staleAcks.toNat)))

/-! ## Flows (R1 to R25) -/

/-- Which states accept frames and which release them (R2). -/
def Obligations.FlowStatesAcceptAndRelease : Prop :=
  ∀ x : Flow,
    (x.accepting = true ↔ x.state = .active ∨ ∃ cause, x.state = .held cause) ∧
    (x.releasing = true ↔ x.state = .active ∨ x.state = .draining)

/-- OPEN makes a DISABLED flow ACTIVE under the carried profile, with its generation incremented, its lifetime loaded and its
credit at 0; a bad profile or flow number is BAD_ARGUMENT, and every other state BAD_STATE (R3, R4, R13). -/
def Obligations.OpenOpensADisabledFlow : Prop :=
  ∀ (s : State) (args : List Byte), s.commandDue 0x01#8 args = true → args.length = 18 →
    (255 < num16At args 0 ∨ decodeProfile (args.drop 2) = none →
      exec (.openFlow args) s = .next (s.answered 0x01#8 .badArgument [])) ∧
    ∀ (f : FlowId) (p : Profile), f.val = num16At args 0 → decodeProfile (args.drop 2) = some p →
      ((s.flow f).state = .disabled →
        exec (.openFlow args) s = .next
          ((s.setFlow f { s.flow f with
            state := .active, generation := (s.flow f).generation + 1, active := p, remaining := p.lifetime,
            credit := 0 }).answered 0x01#8 .ok [])) ∧
      ((s.flow f).state ≠ .disabled →
        exec (.openFlow args) s = .next (s.answered 0x01#8 .badState []))

/-- HOLD makes an ACTIVE flow HELD(ORDERED) and ends its run (R5).
RELEASE makes a HELD flow ACTIVE, and reloads its remaining lifetime after an expired hold alone (R6). -/
def Obligations.HoldAndReleaseStopAndResumeAFlow : Prop :=
  (∀ (s : State) (args : List Byte) (f : FlowId), s.commandDue 0x02#8 args = true → args.length = 2 →
    f.val = num16At args 0 → (s.flow f).state = .active →
      exec (.hold args) s = .next
        ({ s with
          flows := s.flows.set f { s.flow f with state := .held .ordered }
          scheduler := s.scheduler.without f }.answered 0x02#8 .ok [])) ∧
  ∀ (s : State) (args : List Byte) (f : FlowId), s.commandDue 0x03#8 args = true → args.length = 2 →
    f.val = num16At args 0 →
      ((s.flow f).state = .held .expired →
        exec (.release args) s = .next
          ((s.setFlow f { s.flow f with state := .active, remaining := (s.flow f).active.lifetime }).answered
            0x03#8 .ok [])) ∧
      ((s.flow f).state = .held .ordered →
        exec (.release args) s = .next
          ((s.setFlow f { s.flow f with state := .active }).answered 0x03#8 .ok []))

/-- CLOSE takes an ACTIVE or HELD flow into DISABLED when it is empty with nothing in transmission, and into DRAINING
otherwise (R7, R8). That this entry into DISABLED removes a replenishment not yet taken is the model's choice: R69 says so of a
completed drain (log 4, DEDUCED). -/
def Obligations.CloseDrainsOrDisables : Prop :=
  ∀ (s : State) (args : List Byte) (f : FlowId), s.commandDue 0x04#8 args = true → args.length = 2 →
    f.val = num16At args 0 → ((s.flow f).state = .active ∨ ∃ cause, (s.flow f).state = .held cause) →
      ((s.flow f).queue = [] ∧ (s.flow f).inTransmission = false →
        exec (.close args) s = .next ((s.disabledAt f).answered 0x04#8 .ok [])) ∧
      ((s.flow f).queue ≠ [] ∨ (s.flow f).inTransmission = true →
        exec (.close args) s = .next
          ((s.setFlow f { s.flow f with state := .draining }).answered 0x04#8 .ok []))

/-- FLUSH makes an ACTIVE, HELD or DRAINING flow FLUSHING with its state as return state and ends its run; on an empty queue
the flush completes in the event (R10, R11). That a flush which completes from DRAINING into DISABLED removes a replenishment
not yet taken, as a completed drain does by R69, is the model's choice (log 4, DEDUCED). -/
def Obligations.FlushStartsAFlush : Prop :=
  ∀ (s : State) (args : List Byte) (f : FlowId) (back : ReturnState), s.commandDue 0x05#8 args = true →
    args.length = 2 → f.val = num16At args 0 → (s.flow f).state = back.toFlowState →
      ((s.flow f).queue ≠ [] →
        exec (.flush args) s = .next
          ({ s with
            flows := s.flows.set f { s.flow f with state := .flushing back }
            scheduler := s.scheduler.without f }.answered 0x05#8 .ok [])) ∧
      ((s.flow f).queue = [] → back ≠ .draining ∨ (s.flow f).inTransmission = true →
        exec (.flush args) s = .next
          ({ s with scheduler := s.scheduler.without f }.answered 0x05#8 .ok [])) ∧
      ((s.flow f).queue = [] → back = .draining → (s.flow f).inTransmission = false →
        exec (.flush args) s = .next ((s.disabledAt f).answered 0x05#8 .ok []))

/-- HOLD, RELEASE, CLOSE and FLUSH answer the first failure of R13: BAD_ARGUMENT, then BUSY, then BAD_STATE. -/
def Obligations.FlowCommandsAnswerTheFirstFailure : Prop :=
  ∀ (s : State) (args : List Byte), args.length = 2 →
    (255 < num16At args 0 →
      (s.commandDue 0x02#8 args = true → exec (.hold args) s = .next (s.answered 0x02#8 .badArgument [])) ∧
      (s.commandDue 0x03#8 args = true → exec (.release args) s = .next (s.answered 0x03#8 .badArgument [])) ∧
      (s.commandDue 0x04#8 args = true → exec (.close args) s = .next (s.answered 0x04#8 .badArgument [])) ∧
      (s.commandDue 0x05#8 args = true → exec (.flush args) s = .next (s.answered 0x05#8 .badArgument []))) ∧
    ∀ f : FlowId, f.val = num16At args 0 →
      ((s.flow f).isFlushing = true →
        (s.commandDue 0x02#8 args = true → exec (.hold args) s = .next (s.answered 0x02#8 .busy [])) ∧
        (s.commandDue 0x03#8 args = true → exec (.release args) s = .next (s.answered 0x03#8 .busy [])) ∧
        (s.commandDue 0x04#8 args = true → exec (.close args) s = .next (s.answered 0x04#8 .busy [])) ∧
        (s.commandDue 0x05#8 args = true → exec (.flush args) s = .next (s.answered 0x05#8 .busy []))) ∧
      ((s.flow f).state = .disabled ∨ (s.flow f).state = .draining →
        (s.commandDue 0x02#8 args = true → exec (.hold args) s = .next (s.answered 0x02#8 .badState [])) ∧
        (s.commandDue 0x03#8 args = true → exec (.release args) s = .next (s.answered 0x03#8 .badState [])) ∧
        (s.commandDue 0x04#8 args = true → exec (.close args) s = .next (s.answered 0x04#8 .badState []))) ∧
      ((∃ cause, (s.flow f).state = .held cause) → s.commandDue 0x02#8 args = true →
        exec (.hold args) s = .next (s.answered 0x02#8 .badState [])) ∧
      ((s.flow f).state = .active → s.commandDue 0x03#8 args = true →
        exec (.release args) s = .next (s.answered 0x03#8 .badState [])) ∧
      ((s.flow f).state = .disabled → s.commandDue 0x05#8 args = true →
        exec (.flush args) s = .next (s.answered 0x05#8 .badState []))

/-- SET_FLOW checks its arguments, then the state, and sets all four fields of a DISABLED flow (R22). -/
def Obligations.SetFlowConfiguresADisabledFlow : Prop :=
  ∀ (s : State) (args : List Byte), s.commandDue 0x06#8 args = true → args.length = 10 →
    let outside := 255 < num16At args 0 ∨ 8 < byteAt args 2 ∨ num16At args 3 < 1 ∨ 1024 < num16At args 3 ∨
      num32At args 5 < 16 ∨ 262144 < num32At args 5 ∨ 1 < byteAt args 9
    (outside → exec (.setFlow args) s = .next (s.answered 0x06#8 .badArgument [])) ∧
    ∀ (f : FlowId) (g : Group) (p : AdmissionPolicy), ¬ outside → f.val = num16At args 0 →
      groupCode g = byteAt args 2 → policyCode p = byteAt args 9 →
        ((s.flow f).state = .disabled →
          exec (.setFlow args) s = .next
            ((s.setFlow f { s.flow f with
              group := g, frameLimit := num16At args 3, byteLimit := num32At args 5, policy := p }).answered
                0x06#8 .ok [])) ∧
        ((s.flow f).state ≠ .disabled →
          exec (.setFlow args) s = .next (s.answered 0x06#8 .badState []))

/-- READ_FLOW answers OK in every state with the 28 bytes of the flow's record and changes nothing else (R23, R194). -/
def Obligations.ReadFlowReportsTheRecord : Prop :=
  ∀ (s : State) (args : List Byte), s.commandDue 0x07#8 args = true → args.length = 2 →
    (255 < num16At args 0 → exec (.readFlow args) s = .next (s.answered 0x07#8 .badArgument [])) ∧
    ∀ f : FlowId, f.val = num16At args 0 →
      let x := s.flow f
      exec (.readFlow args) s = .next (s.answered 0x07#8 .ok
        ([BitVec.ofNat 8 (flowStateCode x.state), BitVec.ofNat 8 (holdCauseCode x.state),
          BitVec.ofNat 8 (returnStateCode x.state), x.generation, BitVec.ofNat 8 (groupCode x.group),
          BitVec.ofNat 8 (policyCode x.policy)] ++ bytes16 x.frameLimit ++ bytes32 x.byteLimit ++
          bytes16 x.queuedFrames ++ bytes32 x.queuedBytes ++ [BitVec.ofNat 8 x.inTransmission.toNat] ++
          bytes32 (x.credit % 4294967296).toNat ++ bytes16 x.remaining ++
          [BitVec.ofNat 8 x.staged.isSome.toNat, BitVec.ofNat 8 x.adoptPending.toNat,
            BitVec.ofNat 8 (decide (∃ run, s.scheduler.run = some run ∧ run.holder = f)).toNat]))

/-- A flush step takes the head of a FLUSHING flow and counts it FLUSHED; the step that empties the queue also completes the
flush (R11, R35).
A head removed with reason HEAD or STALE leaves the queue, is counted, releases its record, makes the pause test and reports
QUEUE_DROP; a removal that leaves the queue non-empty, or an ACTIVE, HELD or still transmitting DRAINING flow's empty, changes
nothing else; one that empties the queue of a DRAINING flow with nothing in transmission completes the drain, and one that
empties the queue of a FLUSHING flow completes the flush, to its return state or, from DRAINING with nothing in transmission,
to DISABLED (R8, R11, R17, R80). A completed drain removes a replenishment not yet taken (R69); that a flush which completes from
DRAINING into DISABLED, by flush step or by discard, removes it as well is the model's choice (log 4, DEDUCED). -/
def Obligations.HeadsLeaveByFlushOrDiscard : Prop :=
  (∀ (s : State) (f : FlowId) (back : ReturnState) (r : RecordId) (rest : List RecordId),
    s.pins.reset = false → (s.flow f).state = .flushing back → (s.flow f).queue = r :: rest →
    let x := s.flow f
    let popped : Flow :=
      { x with
        queue := rest
        queuedFrames := x.queuedFrames - 1
        queuedBytes := x.queuedBytes - s.store.recordLength r
        counters := { x.counters with flushed := x.counters.flushed + 1 } }
    let t := { s with flows := s.flows.set f popped, store := s.store.releaseRecord r }.pauseTest
    (rest ≠ [] → exec (.flushStep f) s = .next t) ∧
    (rest = [] → back ≠ .draining ∨ x.inTransmission = true →
      exec (.flushStep f) s = .next (t.setFlow f { popped with state := back.toFlowState })) ∧
    (rest = [] → back = .draining → x.inTransmission = false →
      exec (.flushStep f) s = .next (t.disabledAt f))) ∧
  ∀ (s : State) (f : FlowId) (r : RecordId) (rest : List RecordId) (why : DiscardReason) (counters : FlowCounters),
    (s.flow f).queue = r :: rest →
    let x := s.flow f
    why = .head ∧ counters = { x.counters with head := x.counters.head + 1 } ∨
      why = .stale ∧ counters = { x.counters with stale := x.counters.stale + 1 } →
    let popped : Flow :=
      { x with
        queue := rest
        queuedFrames := x.queuedFrames - 1
        queuedBytes := x.queuedBytes - s.store.recordLength r
        counters := counters }
    let t := { s with flows := s.flows.set f popped, store := s.store.releaseRecord r }.pauseTest.report .queueDrop f
    (rest ≠ [] ∨ x.state = .active ∨ (∃ cause, x.state = .held cause) ∨ x.state = .draining ∧ x.inTransmission = true →
      s.discardHead f why = t) ∧
    (rest = [] → x.state = .draining → x.inTransmission = false → s.discardHead f why = t.disabledAt f) ∧
    (∀ back, rest = [] → x.state = .flushing back → back ≠ .draining ∨ x.inTransmission = true →
      s.discardHead f why = t.setFlow f { popped with state := back.toFlowState }) ∧
    (rest = [] → x.state = .flushing .draining → x.inTransmission = false → s.discardHead f why = t.disabledAt f)

/-- Admission of a frame of length L to one flow: refused and counted by a flow that does not accept, refused LIMIT when it
cannot fit or does not fit under TAIL_DROP, granted when it fits, and granted under HEAD_DROP after heads are discarded, one
after another, until it fits, which it does at the latest when the queue is empty: the limits and the queue's numbers agree in
every state that a run reaches (R1, R14, R18, R19). -/
def Obligations.AdmissionFollowsStateLimitsAndPolicy : Prop :=
  ∀ (s : State) (f : FlowId) (length : Nat),
    let x := s.flow f
    let fits := x.queuedFrames + 1 ≤ x.frameLimit ∧ x.queuedBytes + length ≤ x.byteLimit
    let accepts := x.state = .active ∨ ∃ cause, x.state = .held cause
    let limited :=
      { s with
        flows := s.flows.set f { x with counters := { x.counters with limit := x.counters.limit + 1 } }
        notices := s.notices.reporting .queueDrop f }
    (∀ back, x.state = .flushing back →
      s.admitting f length =
        (s.setFlow f { x with counters := { x.counters with flushed := x.counters.flushed + 1 } }, false)) ∧
    (x.state = .disabled ∨ x.state = .draining →
      s.admitting f length =
        (s.setFlow f { x with counters := { x.counters with closed := x.counters.closed + 1 } }, false)) ∧
    (accepts → x.byteLimit < length → s.admitting f length = (limited, false)) ∧
    (accepts → length ≤ x.byteLimit → fits → s.admitting f length = (s, true)) ∧
    (accepts → length ≤ x.byteLimit → ¬ fits → x.policy = .tailDrop → s.admitting f length = (limited, false)) ∧
    (accepts → length ≤ x.byteLimit → ¬ fits → x.policy = .headDrop →
      ∃ n, n ≤ x.queue.length ∧
        s.admitting f length = ((fun t : State => t.discardHead f .head)^[n] s, true) ∧
        (∀ m < n, (((fun t : State => t.discardHead f .head)^[m] s).flow f).fits length = false) ∧
        ((((fun t : State => t.discardHead f .head)^[n] s).flow f).queue = [] ∨
          (((fun t : State => t.discardHead f .head)^[n] s).flow f).fits length = true) ∧
        (s.FramesAgree → (((fun t : State => t.discardHead f .head)^[n] s).flow f).fits length = true))

/-- ADMISSION decides for the next flow named, records the generation of a granting flow, and after the last flow leaves
DECIDING for PASS when none granted, or waits for the reservation (R3, R20, R129). That the held bytes and delimiters are taken
inside the event that leaves DECIDING is the model's reading of R129 (log 8, DEDUCED). -/
def Obligations.AdmissionGoesFlowByFlow : Prop :=
  ∀ (s : State) (rx : Reception) (lead : List Byte) (f : FlowId) (more : List FlowId) (granted : List Grant)
    (label : Tag) (held : List Symbol),
    s.pins.reset = false → s.up.lane = .deciding rx lead (.admitting (f :: more) granted label) held →
    let decision := s.admitting f (num16At lead 8)
    let grants := granted ++
      if decision.2 then [{ flow := f, generation := (s.flow f).generation }] else []
    (more ≠ [] →
      exec .admission s = .next (decision.1.setLane (.deciding rx lead (.admitting more grants label) held))) ∧
    (more = [] → grants = [] →
      exec .admission s = .next ((decision.1.setLane (.pass rx (num16At lead 8))).takeHeld held)) ∧
    (more = [] → grants ≠ [] →
      exec .admission s = .next (decision.1.setLane (.deciding rx lead (.reserve grants label) held)))

/-- The commit re-check of one reserved record: appended by an accepting flow of unchanged generation, counted FLUSHED by a
FLUSHING flow of unchanged generation, and counted CLOSED otherwise (R15, R21). -/
def Obligations.TheCommitRechecksEachFlow : Prop :=
  ∀ (s : State) (r : RecordId) (fr : FrameRecord) (generation : Byte),
    s.store.records[r] = some fr → fr.state = .reserved generation →
    let x := s.flow fr.flow
    let length := s.store.recordLength r
    let freed := { s.store with
      records := s.store.records.set r none, freeRecords := s.store.freeRecords ++ [r] }
    (x.accepting = true → x.generation = generation →
      s.commitRecord r =
        ({ s with
          flows := s.flows.set fr.flow
            { x with
              queue := x.queue ++ [r]
              queuedFrames := x.queuedFrames + 1
              queuedBytes := x.queuedBytes + length
              counters :=
                { x.counters with
                  acceptedFrames := x.counters.acceptedFrames + 1
                  acceptedBytes := x.counters.acceptedBytes + BitVec.ofNat 32 length } }
          store := { s.store with
            records := s.store.records.set r (some { fr with state := .queued s.pacing.epochCounter }) } }, 1)) ∧
    (x.generation = generation → x.isFlushing = true →
      s.commitRecord r =
        ({ s with
          flows := s.flows.set fr.flow { x with counters := { x.counters with flushed := x.counters.flushed + 1 } }
          store := freed }, 0)) ∧
    (x.generation ≠ generation ∨ x.state = .draining ∨ x.state = .disabled →
      s.commitRecord r =
        ({ s with
          flows := s.flows.set fr.flow { x with counters := { x.counters with closed := x.counters.closed + 1 } }
          store := freed }, 0))

/-! ## The Frame Store (R26 to R43) -/

/-- A reservation is made whole when a body, the records and the blocks are there, each taken from the head of its list, and
is refused otherwise (R30, R41). -/
def Obligations.AReservationIsWholeOrNothing : Prop :=
  ∀ (st : FrameStore) (length : Nat) (grants : List Grant), 16 ≤ length → length ≤ 2048 →
    let b := (length + 127) / 128
    (st.freeBodies = [] ∨ st.freeRecords.length < grants.length ∨ st.freeBlocks.length < b →
      st.reserve length grants = none) ∧
    ∀ (body : BodyId) (bodies : List BodyId) (first : BlockId) (pending blocks : List BlockId)
      (taken records : List RecordId),
      st.freeBodies = body :: bodies → st.freeBlocks = first :: pending ++ blocks → pending.length + 1 = b →
      st.freeRecords = taken ++ records → taken.length = grants.length →
        ∃ st' : FrameStore, st.reserve length grants = some (st', body, taken) ∧
          st'.freeBodies = bodies ∧ st'.freeBlocks = blocks ∧ st'.freeRecords = records ∧
          st'.lowWater = min st.lowWater blocks.length ∧
          st'.bodies = st.bodies.set body (some
            { state := .filling 1 pending, firstBlock := first, blockCount := b, length := length,
              share := grants.length }) ∧
          st'.links = st.links.set first .last ∧
          st'.mem = st.mem ∧ st'.pauseMark = st.pauseMark ∧ st'.resumeMark = st.resumeMark ∧
          st'.pauseCondition = st.pauseCondition ∧
          (taken.Nodup → ∀ n (hr : n < taken.length) (hg : n < grants.length),
            st'.records[taken[n]] =
              some { state := .reserved grants[n].generation, body := body, flow := grants[n].flow }) ∧
          ∀ r, r ∉ taken → st'.records[r] = st.records[r]

/-- RESERVATION made enters STORE with the lead in the first block under its chosen label and makes the pause test; refused, it
counts POOL in every granting flow and enters PASS, and makes no pause test, since a refusal changes no counts (R20, R30, R31,
R32, R39, R129). That the hold is taken inside this event, after the pause test, is the model's reading of R129 (log 8,
DEDUCED), as is the place of the pause test inside the event that changes the count (log 16, DEDUCED). -/
def Obligations.TheReservationFixesTheOutcome : Prop :=
  ∀ (s : State) (rx : Reception) (lead : List Byte) (granted : List Grant) (label : Tag) (held : List Symbol),
    s.pins.reset = false → s.up.lane = .deciding rx lead (.reserve granted label) held →
    (∀ st body records, s.store.reserve (num16At lead 8) granted = some (st, body, records) →
      exec .reservation s = .next
        (({ s with store := st.storeBytes body 0 (lead.take 10 ++ bytes16 label.toNat) }.pauseTest.setLane
          (.store rx (num16At lead 8) body records label)).takeHeld held)) ∧
    (s.store.reserve (num16At lead 8) granted = none →
      ∀ g, granted = [g] →
        exec .reservation s = .next
          (((s.setFlow g.flow { s.flow g.flow with
              counters := { (s.flow g.flow).counters with pool := (s.flow g.flow).counters.pool + 1 } }).setLane
            (.pass rx (num16At lead 8))).takeHeld held)) ∧
    (s.store.reserve (num16At lead 8) granted = none →
      ∀ g h, granted = [g, h] → g.flow ≠ h.flow →
        exec .reservation s = .next
          ((((s.setFlow g.flow { s.flow g.flow with
              counters := { (s.flow g.flow).counters with pool := (s.flow g.flow).counters.pool + 1 } }).setFlow
            h.flow { s.flow h.flow with
              counters := { (s.flow h.flow).counters with pool := (s.flow h.flow).counters.pool + 1 } }).setLane
            (.pass rx (num16At lead 8))).takeHeld held))

/-- A byte of the frame is written at its place in the chain, in the next pending block when the chain is full, and nowhere
when none is left; every other byte of memory stays as it was (R26, R32). -/
def Obligations.AByteIsStoredAtItsPlaceInTheChain : Prop :=
  ∀ (st : FrameStore) (b : BodyId) (body : Body) (linked : Nat) (pending : List BlockId) (n : Nat) (v : Byte),
    Memory.wf st.mem = true → st.bodies[b] = some body → body.state = .filling linked pending →
    (∀ block, (st.chain body)[n / 128]? = some block ∨ (st.chain body)[n / 128]? = none ∧ pending.head? = some block →
      Memory.read (st.storeByte b n v).mem (block.val * 128 + n % 128) = v ∧
        ∀ a, a ≠ block.val * 128 + n % 128 → Memory.read (st.storeByte b n v).mem a = Memory.read st.mem a) ∧
    ((st.chain body)[n / 128]? = none → pending = [] → st.storeByte b n v = st) ∧
    (∀ block, (st.chain body)[n / 128]? = some block →
      (st.storeByte b n v).bodies = st.bodies ∧ (st.storeByte b n v).links = st.links) ∧
    (∀ block rest, (st.chain body)[n / 128]? = none → pending = block :: rest →
      (st.storeByte b n v).bodies = st.bodies.set b (some { body with state := .filling (linked + 1) rest }) ∧
        (st.storeByte b n v).links[block] = .last ∧
        ∀ t, (st.chain body).getLast? = some t → t ≠ block → (st.storeByte b n v).links[t] = .next block)

/-- A released record returns to its free list, and its body loses one share or, at the last one, is freed with its blocks in
chain order (R29, R35, R36, R37).
The commit sets the body's share count to the records appended and stores it, or frees it with its blocks when there are
none; then the pause test is made (R33, R37). -/
def Obligations.SpaceIsGivenBackShareByShare : Prop :=
  (∀ (st : FrameStore) (r : RecordId) (fr : FrameRecord) (body : Body),
    st.records[r] = some fr → st.bodies[fr.body] = some body →
    (2 ≤ body.share →
      st.releaseRecord r =
        { st with
          records := st.records.set r none
          freeRecords := st.freeRecords ++ [r]
          bodies := st.bodies.set fr.body (some { body with share := body.share - 1 }) }) ∧
    (body.share = 1 → body.state = .stored →
      let chain := chainFrom st.links body.blockCount body.firstBlock
      st.releaseRecord r =
        { st with
          records := st.records.set r none
          freeRecords := st.freeRecords ++ [r]
          bodies := st.bodies.set fr.body none
          freeBodies := st.freeBodies ++ [fr.body]
          links := clearLinks st.links chain
          freeBlocks := st.freeBlocks ++ chain })) ∧
  ∀ (s : State) (b : BodyId) (records : List RecordId),
    let after := s.commitRecords records
    s.commit b records = { after.1 with store := after.1.store.settleBody b after.2 }.pauseTest ∧
    (∀ (st : FrameStore) (body : Body) (n : Nat), st.bodies[b] = some body →
      st.settleBody b (n + 1) =
        { st with bodies := st.bodies.set b (some { body with state := .stored, share := n + 1 }) } ∧
      (∀ linked pending, body.state = .filling linked pending →
        let chain := chainFrom st.links linked body.firstBlock
        st.settleBody b 0 =
          { st with
            bodies := st.bodies.set b none
            freeBodies := st.freeBodies ++ [b]
            links := clearLinks st.links chain
            freeBlocks := st.freeBlocks ++ chain ++ pending })) ∧
    (∀ (st : FrameStore) (body : Body) (linked : Nat) (pending : List BlockId),
      st.bodies[b] = some body → body.state = .filling linked pending → records.Nodup →
      (∀ r ∈ records, st.records[r] ≠ none) →
        let chain := chainFrom st.links linked body.firstBlock
        let freed := st.freeReservation b records
        freed.freeRecords = st.freeRecords ++ records ∧ (∀ r ∈ records, freed.records[r] = none) ∧
          (∀ r, r ∉ records → freed.records[r] = st.records[r]) ∧
          freed.bodies = st.bodies.set b none ∧ freed.freeBodies = st.freeBodies ++ [b] ∧
          freed.links = clearLinks st.links chain ∧ freed.freeBlocks = st.freeBlocks ++ chain ++ pending ∧
          freed.mem = st.mem) ∧
    s.commitRecords [] = (s, 0) ∧
    ∀ r rest, s.commitRecords (r :: rest) =
      (((s.commitRecord r).1.commitRecords rest).1,
        (s.commitRecord r).2 + ((s.commitRecord r).1.commitRecords rest).2)

/-- The pause test asserts the condition and reports POOL_LOW below the pause watermark, deasserts it at or above the resume
watermark, and otherwise changes nothing (R39).
SET_POOL sets both watermarks and makes the pause test in its event; a watermark above 2048 or a pause above resume is
BAD_ARGUMENT. READ_POOL reports the four counts and sets the low-water count to the free-block count (R40, R42). -/
def Obligations.WatermarksDriveThePauseCondition : Prop :=
  (∀ s : State,
    (s.store.pauseCondition = false → s.store.freeBlocks.length < s.store.pauseMark →
      s.pauseTest = { s with
        store := { s.store with pauseCondition := true }
        notices := s.notices.reporting .poolLow 0 }) ∧
    (s.store.pauseCondition = true → s.store.resumeMark ≤ s.store.freeBlocks.length →
      s.pauseTest = { s with store := { s.store with pauseCondition := false } }) ∧
    (s.store.pauseCondition = false → s.store.pauseMark ≤ s.store.freeBlocks.length → s.pauseTest = s) ∧
    (s.store.pauseCondition = true → s.store.freeBlocks.length < s.store.resumeMark → s.pauseTest = s)) ∧
  ∀ (s : State) (args : List Byte),
    (s.commandDue 0x08#8 args = true → args.length = 4 →
      (num16At args 2 < num16At args 0 ∨ 2048 < num16At args 0 ∨ 2048 < num16At args 2 →
        exec (.setPool args) s = .next (s.answered 0x08#8 .badArgument [])) ∧
      (num16At args 0 ≤ num16At args 2 → num16At args 2 ≤ 2048 →
        exec (.setPool args) s = .next
          ({ s with store := { s.store with
            pauseMark := num16At args 0, resumeMark := num16At args 2 } }.pauseTest.answered 0x08#8 .ok []))) ∧
    (s.commandDue 0x09#8 [] = true →
      exec (.readPool []) s = .next
        ({ s with store := { s.store with lowWater := s.store.freeBlocks.length } }.answered 0x09#8 .ok
          (bytes16 s.store.freeBlocks.length ++ bytes16 s.store.freeRecords.length ++
            bytes16 s.store.freeBodies.length ++ bytes16 s.store.lowWater)))

/-! ## The Classifier (R44 to R62) -/

/-- An entry matches a lead when it is valid and its seven tests pass: masked tests of dest, source, lane and label, set tests
of kind and class, and the length range (R45, R46, R47).
CLASSIFICATION takes the first entry that matches and moves its hit counter, or else the default action and moves the
no-match counter; DISCARD sends the lane to PASS, and the other actions wait for admission, primary first (R47, R48, R52,
R53, R129). That under DISCARD the held bytes and delimiters are taken inside the classification's event is the model's reading
of R129 (log 8, DEDUCED). -/
def Obligations.ClassificationTakesTheFirstMatch : Prop :=
  (∀ (e : MatchEntry) (lead : List Byte),
    e.matchesLead lead = true ↔
      e.valid = true ∧
        (∀ i < 16, e.destMask.getLsbD i = true → (field16At lead 0).getLsbD i = e.destValue.getLsbD i) ∧
        (∀ i < 16, e.sourceMask.getLsbD i = true → (field16At lead 2).getLsbD i = e.sourceValue.getLsbD i) ∧
        e.kindSet.getLsbD (byteAt lead 4 / 16) = true ∧
        e.classSet.getLsbD (byteAt lead 4 % 16) = true ∧
        (∀ i < 8, e.laneMask.getLsbD i = true → (lead.getD 5 0#8).getLsbD i = e.laneValue.getLsbD i) ∧
        (∀ i < 16, e.labelMask.getLsbD i = true → (field16At lead 10).getLsbD i = e.labelValue.getLsbD i) ∧
        e.lengthMin ≤ num16At lead 8 ∧ num16At lead 8 ≤ e.lengthMax) ∧
  ∀ (s : State) (rx : Reception) (lead : List Byte) (held : List Symbol),
    s.pins.reset = false → s.up.lane = .deciding rx lead .classify held →
    let outcome (c : Classifier) (a : MatchAction) : State :=
      match a with
      | .discard => ({ s with classifier := c }.setLane (.pass rx (num16At lead 8))).takeHeld held
      | .queue f relabel =>
        { s with classifier := c }.setLane
          (.deciding rx lead (.admitting [f] [] (relabel.getD (field16At lead 10))) held)
      | .mirror f g relabel =>
        { s with classifier := c }.setLane
          (.deciding rx lead (.admitting [f, g] [] (relabel.getD (field16At lead 10))) held)
    (∀ n : Fin 64, s.classifier.entries[n].matchesLead lead = true →
      (∀ m : Fin 64, m < n → s.classifier.entries[m].matchesLead lead = false) →
        exec .classification s = .next (outcome
          { s.classifier with hits := s.classifier.hits.set n (s.classifier.hits[n] + 1) }
          s.classifier.entries[n].action)) ∧
    ((∀ n : Fin 64, s.classifier.entries[n].matchesLead lead = false) →
      (s.classifier.defaultAction = .discard →
        exec .classification s = .next
          (outcome { s.classifier with noMatch := s.classifier.noMatch + 1 } .discard)) ∧
      ∀ f, s.classifier.defaultAction = .queue f →
        exec .classification s = .next
          (outcome { s.classifier with noMatch := s.classifier.noMatch + 1 } (.queue f none)))

/-- WRITE_MATCH replaces one entry whole and zeroes its hit counter, READ_MATCH reports one with its counter, and SET_DEFAULT
returns the default action it replaces; what they do not decode is BAD_ARGUMENT (R56, R57, R58, R59). -/
def Obligations.MatchCommandsWriteAndReport : Prop :=
  ∀ (s : State) (args : List Byte),
    (s.commandDue 0x0A#8 args = true → args.length = 33 →
      (63 < byteAt args 0 ∨ decodeEntry (args.drop 1) = none →
        exec (.writeMatch args) s = .next (s.answered 0x0A#8 .badArgument [])) ∧
      ∀ (n : Fin 64) (e : MatchEntry), n.val = byteAt args 0 → decodeEntry (args.drop 1) = some e →
        exec (.writeMatch args) s = .next
          ({ s with classifier := { s.classifier with
            entries := s.classifier.entries.set n e, hits := s.classifier.hits.set n 0#32 } }.answered 0x0A#8 .ok [])) ∧
    (s.commandDue 0x0B#8 args = true → args.length = 1 →
      (63 < byteAt args 0 → exec (.readMatch args) s = .next (s.answered 0x0B#8 .badArgument [])) ∧
      ∀ n : Fin 64, n.val = byteAt args 0 →
        exec (.readMatch args) s = .next (s.answered 0x0B#8 .ok
          (encodeEntry s.classifier.entries[n] ++ bytes32 s.classifier.hits[n].toNat))) ∧
    (s.commandDue 0x0C#8 args = true → args.length = 3 →
      let old : List Byte :=
        match s.classifier.defaultAction with
        | .discard => [0#8, 0#8, 0#8]
        | .queue g => 1#8 :: bytes16 g.val
      (1 < byteAt args 0 ∨ byteAt args 0 = 1 ∧ 255 < num16At args 1 →
        exec (.setDefault args) s = .next (s.answered 0x0C#8 .badArgument [])) ∧
      (byteAt args 0 = 0 →
        exec (.setDefault args) s = .next
          ({ s with classifier := { s.classifier with defaultAction := .discard } }.answered 0x0C#8 .ok old)) ∧
      ∀ f : FlowId, byteAt args 0 = 1 → f.val = num16At args 1 →
        exec (.setDefault args) s = .next
          ({ s with classifier := { s.classifier with defaultAction := .queue f } }.answered 0x0C#8 .ok old))

/-- Every match entry in range is read back from its 32 bytes, laid out field by field (R57, R58, R193).
Whatever match entry is read lies in the ranges of R44, and was encoded with its fields at their places (R57, R193, R196).
The fields absent under the written action are not checked: two encodings that agree outside them, a DISCARD entry's flow, mirror
flow, relabel flag and relabel value, a QUEUE entry's mirror flow, and the relabel value under a clear relabel flag, are read as
the same entry or refused alike (R56, R57, R196). -/
def Obligations.MatchEntriesAreReadBack : Prop :=
  (∀ e : MatchEntry, e.inRange →
    (encodeEntry e).length = 32 ∧ decodeEntry (encodeEntry e) = some e) ∧
  (∀ (bs : List Byte) (e : MatchEntry), bs.length = 32 → decodeEntry bs = some e →
    e.inRange ∧ byteAt bs 0 = e.valid.toNat ∧ byteAt bs 1 = actionCode e.action ∧ byteAt bs 3 = 0 ∧
      num16At bs 4 = e.destValue.toNat ∧ num16At bs 6 = e.destMask.toNat ∧
      num16At bs 8 = e.sourceValue.toNat ∧ num16At bs 10 = e.sourceMask.toNat ∧
      num16At bs 12 = e.kindSet.toNat ∧ num16At bs 14 = e.classSet.toNat ∧
      byteAt bs 16 = e.laneValue.toNat ∧ byteAt bs 17 = e.laneMask.toNat ∧
      num16At bs 18 = e.labelValue.toNat ∧ num16At bs 20 = e.labelMask.toNat ∧
      num16At bs 22 = e.lengthMin ∧ num16At bs 24 = e.lengthMax ∧
      (e.action ≠ .discard →
        num16At bs 26 = actionFlow e.action ∧ byteAt bs 2 = (actionRelabel e.action).isSome.toNat) ∧
      (∀ f g relabel, e.action = .mirror f g relabel → num16At bs 28 = g.val) ∧
      ∀ label, actionRelabel e.action = some label → num16At bs 30 = label.toNat) ∧
  ∀ bs cs : List Byte,
    (∀ i < 32, (i = 2 ∨ 26 ≤ i → byteAt bs 1 ≠ 0) → (i = 28 ∨ i = 29 → byteAt bs 1 = 2) → (30 ≤ i → byteAt bs 2 = 1) →
      byteAt cs i = byteAt bs i) →
    decodeEntry cs = decodeEntry bs

/-! ## Epochs, credit and aging (R63 to R83) -/

/-- An epoch expiry increments the epoch counter, puts the next period in force, and makes the expiry's work due; it waits for
the last expiry's work: a flow's work, the hold tick with DHOLD asserted, and the repeat tick of a SENT item. That it waits is
the order of R64, R87, R150 and R181, and the due marks are the model's form of it (R63; log 4, DEDUCED).
SET_EPOCH sets the next period and returns the period in force, which it keeps; a period below 10 is BAD_ARGUMENT (R65). -/
def Obligations.EpochsExpireAndTakeTheNextPeriod : Prop :=
  (∀ s : State, s.pins.reset = false →
    ((∀ f, (s.flow f).expiryDone = true) → (s.down.holdTickDue = true → s.pins.dhold = false) →
      (∀ i : ItemId, s.notices.items[i].expiryDone = true) →
      ∃ (flows : Vector Flow 256) (items : Vector NoticeItem 1029),
        exec .epochExpiry s = .next { s with
          pacing :=
            { periodInForce := s.pacing.nextPeriod, nextPeriod := s.pacing.nextPeriod,
              epochCounter := s.pacing.epochCounter + 1 }
          flows := flows
          down := { s.down with holdTickDue := true }
          notices := { s.notices with items := items } } ∧
        (∀ f : FlowId, flows[f] =
          { s.flow f with due := { replenishment := true, sweep := true, step := true } }) ∧
        ∀ i : ItemId, items[i] = { s.notices.items[i] with tickDue := true }) ∧
    ((∃ f, (s.flow f).expiryDone = false) ∨ s.down.holdTickDue = true ∧ s.pins.dhold = true ∨
        (∃ i : ItemId, s.notices.items[i].isSent = true ∧ s.notices.items[i].tickDue = true) →
      exec .epochExpiry s = .next s)) ∧
  ∀ (s : State) (args : List Byte), s.commandDue 0x0D#8 args = true → args.length = 2 →
    (num16At args 0 < 10 → exec (.setEpoch args) s = .next (s.answered 0x0D#8 .badArgument [])) ∧
    (10 ≤ num16At args 0 →
      exec (.setEpoch args) s = .next
        ({ s with pacing := { s.pacing with nextPeriod := num16At args 0 } }.answered 0x0D#8 .ok
          (bytes16 s.pacing.periodInForce)))

/-- A replenishment adds the rate of the active profile, held at its burst cap, to the credit of a flow that is not DISABLED;
a DISABLED flow has none (R64, R68). A replenishment that has been taken is not taken again, and a flow that becomes DISABLED
before its replenishment has none left to take, whatever opens it again in that epoch (R69; that this holds of every entry into
DISABLED and not of a completed drain alone is log 4, DEDUCED).
The discipline decides which heads are eligible and what a release debits (R71, R73). -/
def Obligations.CreditIsReplenishedJudgedAndDebited : Prop :=
  (∀ (s : State) (f : FlowId), s.pins.reset = false → (s.flow f).due.replenishment = true →
    let taken := { (s.flow f).due with replenishment := false }
    ((s.flow f).state ≠ .disabled →
      exec (.replenishment f) s = .next (s.setFlow f
        { s.flow f with
          credit :=
            if (s.flow f).credit + (s.flow f).active.rate > (s.flow f).active.burstCap
            then (s.flow f).active.burstCap else (s.flow f).credit + (s.flow f).active.rate
          due := taken })) ∧
    ((s.flow f).state = .disabled →
      exec (.replenishment f) s = .next (s.setFlow f { s.flow f with due := taken }))) ∧
  (∀ (s : State) (f : FlowId), (s.flow f).due.replenishment = false → exec (.replenishment f) s = .next s) ∧
  (∀ (s : State) (f : FlowId), ((s.disabledAt f).flow f).due.replenishment = false) ∧
  ∀ (credit : Int) (length : Nat),
    eligible .none credit length = true ∧
    (eligible .loose credit length = true ↔ 0 < credit) ∧
    (eligible .strict credit length = true ↔ (length : Int) ≤ credit) ∧
    debited .none credit length = credit ∧
    (-131072 ≤ credit - length →
      debited .loose credit length = credit - length ∧ debited .strict credit length = credit - length) ∧
    (credit - length ≤ -131072 →
      debited .loose credit length = -131072 ∧ debited .strict credit length = -131072)

/-- A QUEUED record is stale exactly when the age limit is not 0 and its residence, the epoch counter less its arrival stamp
modulo 65536, exceeds it (R76).
An aging sweep removes the stale heads of a flow, one after another, until the head is not stale or the queue is empty; a
DISABLED flow has none (R64, R77, R78). -/
def Obligations.ASweepRemovesTheStaleHeads : Prop :=
  (∀ (s : State) (limit : Nat) (r : RecordId) (fr : FrameRecord) (stamp : BitVec 16),
    s.store.records[r] = some fr → fr.state = .queued stamp →
    (s.stale limit r = true ↔
      limit ≠ 0 ∧ limit < (s.pacing.epochCounter.toNat + 65536 - stamp.toNat) % 65536)) ∧
  ∀ (s : State) (f : FlowId), s.pins.reset = false → (s.flow f).due.sweep = true →
    let s0 := s.setFlow f { s.flow f with due := { (s.flow f).due with sweep := false } }
    ((s.flow f).state = .disabled → exec (.agingSweep f) s = .next s0) ∧
    ((s.flow f).state ≠ .disabled →
      ∃ n, n ≤ (s.flow f).queue.length ∧
        exec (.agingSweep f) s = .next ((fun t : State => t.discardHead f .stale)^[n] s0) ∧
        (∀ m < n, ∃ r rest,
          (((fun t : State => t.discardHead f .stale)^[m] s0).flow f).queue = r :: rest ∧
            ((fun t : State => t.discardHead f .stale)^[m] s0).stale
              (((fun t : State => t.discardHead f .stale)^[m] s0).flow f).active.ageLimit r = true) ∧
        ∀ r rest, (((fun t : State => t.discardHead f .stale)^[n] s0).flow f).queue = r :: rest →
          ((fun t : State => t.discardHead f .stale)^[n] s0).stale
            (((fun t : State => t.discardHead f .stale)^[n] s0).flow f).active.ageLimit r = false)

/-! ## Profiles (R84 to R103) -/

/-- An encoded profile is read exactly when it is the 16-byte encoding of a profile in its ranges (R84, R192, R196). -/
def Obligations.ProfilesAreReadBack : Prop :=
  (∀ p : Profile, p.good = true → (encodeProfile p).length = 16 ∧ decodeProfile (encodeProfile p) = some p) ∧
    ∀ (bs : List Byte) (p : Profile), bs.length = 16 → decodeProfile bs = some p →
      p.good = true ∧ encodeProfile p = bs

/-- STAGE loads an empty slot, UNSTAGE empties a loaded one and clears adopt-pending, ADOPT sets adopt-pending on a loaded one;
the first failing check of R95 gives the refusal (R95, R96, R98, R99).
READ_PROFILE answers OK in every state with both profiles, an empty slot as sixteen zero bytes, and changes nothing else
(R101, R191, R196). -/
def Obligations.StagingCommandsActOnTheSlot : Prop :=
  (∀ (s : State) (args : List Byte),
    (s.commandDue 0x0E#8 args = true → args.length = 18 →
      (255 < num16At args 0 ∨ decodeProfile (args.drop 2) = none →
        exec (.stage args) s = .next (s.answered 0x0E#8 .badArgument [])) ∧
      ∀ (f : FlowId) (p : Profile), f.val = num16At args 0 → decodeProfile (args.drop 2) = some p →
        ((s.flow f).state = .disabled → exec (.stage args) s = .next (s.answered 0x0E#8 .badState [])) ∧
        ((s.flow f).state ≠ .disabled → (s.flow f).staged ≠ none →
          exec (.stage args) s = .next (s.answered 0x0E#8 .slotFull [])) ∧
        ((s.flow f).state ≠ .disabled → (s.flow f).staged = none →
          exec (.stage args) s = .next
            ((s.setFlow f { s.flow f with staged := some p }).answered 0x0E#8 .ok []))) ∧
    (s.commandDue 0x0F#8 args = true → args.length = 2 →
      (255 < num16At args 0 → exec (.unstage args) s = .next (s.answered 0x0F#8 .badArgument [])) ∧
      ∀ f : FlowId, f.val = num16At args 0 →
        ((s.flow f).staged = none → exec (.unstage args) s = .next (s.answered 0x0F#8 .slotEmpty [])) ∧
        ((s.flow f).staged ≠ none →
          exec (.unstage args) s = .next
            ((s.setFlow f { s.flow f with staged := none, adoptPending := false }).answered 0x0F#8 .ok []))) ∧
    (s.commandDue 0x10#8 args = true → args.length = 2 →
      (255 < num16At args 0 → exec (.adopt args) s = .next (s.answered 0x10#8 .badArgument [])) ∧
      ∀ f : FlowId, f.val = num16At args 0 →
        ((s.flow f).staged = none → exec (.adopt args) s = .next (s.answered 0x10#8 .slotEmpty [])) ∧
        ((s.flow f).staged ≠ none →
          exec (.adopt args) s = .next
            ((s.setFlow f { s.flow f with adoptPending := true }).answered 0x10#8 .ok [])))) ∧
  ∀ (s : State) (args : List Byte), s.commandDue 0x11#8 args = true → args.length = 2 →
    (255 < num16At args 0 → exec (.readProfile args) s = .next (s.answered 0x11#8 .badArgument [])) ∧
    ∀ f : FlowId, f.val = num16At args 0 →
      ((s.flow f).staged = none →
        exec (.readProfile args) s = .next (s.answered 0x11#8 .ok
          (encodeProfile (s.flow f).active ++ [0#8] ++ List.replicate 16 0#8 ++ bytes16 (s.flow f).remaining ++
            bytesBool (s.flow f).adoptPending))) ∧
      ∀ p, (s.flow f).staged = some p →
        exec (.readProfile args) s = .next (s.answered 0x11#8 .ok
          (encodeProfile (s.flow f).active ++ [1#8] ++ encodeProfile p ++ bytes16 (s.flow f).remaining ++
            bytesBool (s.flow f).adoptPending))

/-- The profile step by the table of R87: a swap under adopt-pending or in an expired hold with the slot loaded, a countdown in
ACTIVE, and otherwise no change (R87, R88, R90, R91). That PROFILE_STEP and LIFETIME_EXPIRY are one event under two rows when
the step expires the profile is the model's reading of R88 (log 5, DEDUCED).
A swap leaves the state as it was but for an expired hold, held or flushing, which becomes ACTIVE (R9, R91). -/
def Obligations.AProfileStepFollowsItsTable : Prop :=
  (∀ (s : State) (f : FlowId), s.pins.reset = false → (s.flow f).due.step = true →
    let x := s.flow f
    let y : Flow := { x with due := { x.due with step := false } }
    let s0 := s.setFlow f y
    let expiredHold := x.state = .held .expired ∨ x.state = .flushing (.held .expired)
    (x.state = .disabled → exec (.profileStep f) s = .next s0) ∧
    (∀ p, x.state ≠ .disabled → x.adoptPending = true → x.staged = some p →
      exec (.profileStep f) s = .next (s0.swappedAt f p)) ∧
    (∀ p, expiredHold → x.staged = some p → exec (.profileStep f) s = .next (s0.swappedAt f p)) ∧
    (expiredHold → x.staged = none → exec (.profileStep f) s = .next s0) ∧
    (x.state ≠ .active → ¬ expiredHold → x.adoptPending = false → exec (.profileStep f) s = .next s0) ∧
    (x.state = .active → x.adoptPending = false → x.active.lifetime = 0 →
      exec (.profileStep f) s = .next s0) ∧
    (x.state = .active → x.adoptPending = false → x.active.lifetime ≠ 0 → 1 < x.remaining →
      exec (.profileStep f) s = .next (s0.setFlow f { y with remaining := x.remaining - 1 })) ∧
    (x.state = .active → x.adoptPending = false → x.active.lifetime ≠ 0 → x.remaining ≤ 1 →
      exec (.profileStep f) s = exec (.lifetimeExpiry f) s)) ∧
  stateAfterSwap (.held .expired) = .active ∧
    stateAfterSwap (.flushing (.held .expired)) = .flushing .active ∧
    ∀ fs, fs ≠ .held .expired → fs ≠ .flushing (.held .expired) → stateAfterSwap fs = fs

/-- The step in which an ACTIVE profile expires: a loaded slot is swapped in; with an empty one REPEAT reloads the lifetime,
HOLD makes the flow HELD(EXPIRED), and CLOSE closes it as R7 does (R9, R88, R89). That the row LIFETIME_EXPIRY is this profile
step and takes its mark is the model's reading (log 5, DEDUCED). That CLOSE of an empty flow with nothing in transmission, which
enters DISABLED at once, removes a replenishment not yet taken, as a completed drain does by R69, is the model's choice (log 4,
DEDUCED). -/
def Obligations.AnExpiredProfileIsFollowedUp : Prop :=
  ∀ (s : State) (f : FlowId), s.pins.reset = false → (s.flow f).due.step = true → (s.flow f).state = .active →
    (s.flow f).adoptPending = false → (s.flow f).active.lifetime ≠ 0 → (s.flow f).remaining ≤ 1 →
    let x := s.flow f
    let y : Flow := { x with due := { x.due with step := false } }
    let s0 := s.setFlow f y
    (∀ p, x.staged = some p → exec (.lifetimeExpiry f) s = .next (s0.swappedAt f p)) ∧
    (x.staged = none → x.active.expireAction = .repeat →
      exec (.lifetimeExpiry f) s = .next (s0.setFlow f { y with remaining := x.active.lifetime })) ∧
    (x.staged = none → x.active.expireAction = .hold →
      exec (.lifetimeExpiry f) s = .next
        { s with
          flows := s.flows.set f { y with state := .held .expired, remaining := 0 }
          scheduler := s.scheduler.without f
          notices := s.notices.reporting .flowHeld f }) ∧
    (x.staged = none → x.active.expireAction = .close → x.queue ≠ [] ∨ x.inTransmission = true →
      exec (.lifetimeExpiry f) s = .next (s0.setFlow f { y with state := .draining, remaining := 0 })) ∧
    (x.staged = none → x.active.expireAction = .close → x.queue = [] → x.inTransmission = false →
      exec (.lifetimeExpiry f) s = .next ((s0.setFlow f { y with remaining := 0 }).disabledAt f))

/-! ## Release (R104 to R125) -/

/-- A released head leaves its queue for Port D: its flow is debited and flagged, its record is IN_TRANSMISSION, and the port
sends the stored lead and body with a fresh check (R16, R73, R112, R143, R144). -/
def Obligations.AReleasedHeadGoesToPortD : Prop :=
  ∀ (s : State) (f : FlowId) (r : RecordId) (rest : List RecordId) (fr : FrameRecord) (body : Body),
    (s.flow f).queue = r :: rest → s.store.records[r] = some fr → s.store.bodies[fr.body] = some body →
    let x := s.flow f
    let stored := ((s.store.chain body).flatMap fun block =>
      (List.range 128).map fun o => Memory.read s.store.mem (block.val * 128 + o)).take (body.length - 4)
    s.releaseHead f =
      { s with
        flows := s.flows.set f
          { x with
            queue := rest
            queuedFrames := x.queuedFrames - 1
            queuedBytes := x.queuedBytes - body.length
            inTransmission := true
            credit := debited x.active.discipline x.credit body.length }
        store := { s.store with records := s.store.records.set r (some { fr with state := .inTransmission }) }
        down := { s.down with
          sending := some { record := r, flow := f, body := fr.body, length := body.length }
          line := .carrying (stored ++ checkOf stored) } }

/-- A selection that is due grants the lowest-numbered express candidate one frame and leaves the run as it stands (R109,
R111, R116).
With no express candidate a holder that qualifies is released one frame of its run: in BLOCK without a credit judgement, in
DEMAND as a candidate; the run ends at 0 frames remaining (R111, R115). -/
def Obligations.ASelectionServesExpressThenTheRun : Prop :=
  (∀ (s : State) (f : FlowId), s.pins.reset = false → s.selectionDue = true →
    s.agingCheck.candidateIn .express f = true →
    (∀ g, g < f → s.agingCheck.candidateIn .express g = false) →
      exec .selection s = .next (s.agingCheck.releaseHead f)) ∧
  ∀ (s : State) (run : Run), s.pins.reset = false → s.selectionDue = true →
    (∀ g, s.agingCheck.candidateIn .express g = false) → s.agingCheck.scheduler.run = some run →
    0 < run.remaining →
    (run.mode = .block ∧ (s.agingCheck.flow run.holder).releasing = true ∧
        (s.agingCheck.flow run.holder).queue ≠ [] ∨
      run.mode = .demand ∧ s.agingCheck.candidate run.holder = true) →
      exec .selection s = .next
        ({ s.agingCheck with scheduler := { s.agingCheck.scheduler with
          run := if run.remaining = 1 then none else some { run with remaining := run.remaining - 1 } } }.releaseHead
            run.holder)

/-- With no express candidate and no run that qualifies, arbitration grants the nearest candidate of the nearest waiting group,
rotates the ROTATING pointers, starts the run of R114 less its first frame, and releases the head; with nobody waiting nothing
is released (R106, R107, R108, R111, R114). -/
def Obligations.ASelectionArbitratesAroundTheRings : Prop :=
  ∀ s : State, s.pins.reset = false → s.selectionDue = true →
    (∀ g, s.agingCheck.candidateIn .express g = false) →
    (∀ run, s.agingCheck.scheduler.run = some run → s.agingCheck.qualifies run = false) →
    let a : State := { s.agingCheck with scheduler := { s.agingCheck.scheduler with run := none } }
    ((∀ g, ¬ a.groupWaits g) → exec .selection s = .next a) ∧
    ∀ (g : Fin 8) (f : FlowId), a.nearest g f →
      let x := a.flow f
      let frames :=
        match x.active.releaseMode with
        | .single => 1
        | .block => min x.active.runLength x.queuedFrames
        | .demand => x.active.runLength
      let run : Option Run :=
        if frames ≤ 1 then none
        else
          match x.active.releaseMode with
          | .single => none
          | .block => some { holder := f, mode := .block, remaining := frames - 1 }
          | .demand => some { holder := f, mode := .demand, remaining := frames - 1 }
      exec .selection s = .next
        ({ a with scheduler := { a.scheduler with
          topPointer := if a.scheduler.topPolicy = RingPolicy.rotating then g else a.scheduler.topPointer
          groups := a.scheduler.groups.set g
            { a.scheduler.groups[g] with
              pointer :=
                if a.scheduler.groups[g].policy = RingPolicy.rotating then f else a.scheduler.groups[g].pointer }
          run := run } }.releaseHead f)

/-- A selection is taken only while Port D is free, DHOLD deasserted, release allowed, no restart under way, and a run or a
candidate is there (R105, R110, R117, R119); RESET held is the model's reading (log 12).
A selection's aging check removes, in ascending flow number, the stale heads of every flow in ACTIVE or DRAINING, and of
no other flow (R79). -/
def Obligations.SelectionsAreTakenInTurnAndAgeHeads : Prop :=
  (∀ s : State,
    (s.down.sending ≠ none ∨ s.pins.dhold = true ∨ s.scheduler.releaseEnable = false ∨
        s.scheduler.quenchFlag = true ∨ s.up.restartCondition = true ∨ s.pins.reset = true ∨
        s.scheduler.run = none ∧ (∀ f, s.candidate f = false) →
      exec .selection s = .next s) ∧
    ∀ f, s.candidate f = true ↔
      ((s.flow f).state = .active ∨ (s.flow f).state = .draining) ∧
        (∃ r rest, (s.flow f).queue = r :: rest ∧
          eligible (s.flow f).active.discipline (s.flow f).credit (s.store.recordLength r) = true) ∧
        s.scheduler.releaseEnable = true ∧ s.scheduler.quenchFlag = false) ∧
  ∀ s : State,
    s.agingCheck = (List.finRange 256).foldl
      (fun t f => if (t.flow f).state = .active ∨ (t.flow f).state = .draining
        then (fun u : State => u.removeStale f (u.flow f).queue.length) t else t) s

/-- SET_RELEASE sets the release enable, and disabling ends the run; RESUME clears the quench flag unless the QUENCH pin is
asserted (R120, R122).
SET_GROUP and SET_TOP set a ring's policy and pointer and return the old ones; what lies out of range is BAD_ARGUMENT; the
run is not touched (R123, R124). -/
def Obligations.ReleaseAndRingCommandsAreSet : Prop :=
  (∀ (s : State) (args : List Byte),
    (s.commandDue 0x12#8 args = true → args.length = 1 →
      (1 < byteAt args 0 → exec (.setRelease args) s = .next (s.answered 0x12#8 .badArgument [])) ∧
      (byteAt args 0 = 0 →
        exec (.setRelease args) s = .next
          ({ s with scheduler := { s.scheduler with releaseEnable := false, run := none } }.answered
            0x12#8 .ok [])) ∧
      (byteAt args 0 = 1 →
        exec (.setRelease args) s = .next
          ({ s with scheduler := { s.scheduler with releaseEnable := true } }.answered 0x12#8 .ok []))) ∧
    (s.commandDue 0x13#8 [] = true →
      (s.pins.quench = true → exec (.resume []) s = .next (s.answered 0x13#8 .badState [])) ∧
      (s.pins.quench = false →
        exec (.resume []) s = .next
          ({ s with scheduler := { s.scheduler with quenchFlag := false } }.answered 0x13#8 .ok [])))) ∧
  ∀ (s : State) (args : List Byte),
    (s.commandDue 0x14#8 args = true → args.length = 4 →
      (7 < byteAt args 0 ∨ 1 < byteAt args 1 ∨ 255 < num16At args 2 →
        exec (.setGroup args) s = .next (s.answered 0x14#8 .badArgument [])) ∧
      ∀ (g : Fin 8) (p : RingPolicy) (f : FlowId),
        g.val = byteAt args 0 → ringPolicyCode p = byteAt args 1 → f.val = num16At args 2 →
          exec (.setGroup args) s = .next
            ({ s with scheduler := { s.scheduler with
              groups := s.scheduler.groups.set g { policy := p, pointer := f } } }.answered 0x14#8 .ok
                (BitVec.ofNat 8 (ringPolicyCode s.scheduler.groups[g].policy) ::
                  bytes16 s.scheduler.groups[g].pointer.val))) ∧
    (s.commandDue 0x15#8 args = true → args.length = 2 →
      (1 < byteAt args 0 ∨ 7 < byteAt args 1 →
        exec (.setTop args) s = .next (s.answered 0x15#8 .badArgument [])) ∧
      ∀ (p : RingPolicy) (g : Fin 8), ringPolicyCode p = byteAt args 0 → g.val = byteAt args 1 →
        exec (.setTop args) s = .next
          ({ s with scheduler := { s.scheduler with topPolicy := p, topPointer := g } }.answered 0x15#8 .ok
            [BitVec.ofNat 8 (ringPolicyCode s.scheduler.topPolicy),
              BitVec.ofNat 8 s.scheduler.topPointer.val]))

/-- An assertion of QUENCH sets the flag, ends the run and reports QUENCHED, again at each assertion; a deassertion changes the
level alone (R121). While RESET is held only the level changes, the model's reading (log 12).
DHOLD changes its level, zeroes the hold timer and clears the stuck flag at each assertion and each deassertion, and
changes nothing else (R149, R150). -/
def Obligations.QuenchAndDholdPinsActAtTheirChanges : Prop :=
  (∀ s : State,
    (s.pins.quench = false → s.pins.reset = false →
      exec .quenchAssertion s = .next
        { s with
          pins := { s.pins with quench := true }
          scheduler := { s.scheduler with quenchFlag := true, run := none }
          notices := s.notices.reporting .quenched 0 }) ∧
    (s.pins.quench = false → s.pins.reset = true →
      exec .quenchAssertion s = .next { s with pins := { s.pins with quench := true } }) ∧
    (s.pins.quench = true → exec .quenchAssertion s = .next s) ∧
    exec .quenchDeassertion s = .next { s with pins := { s.pins with quench := false } }) ∧
  ∀ s : State,
    (s.pins.dhold = false →
      exec .dholdAssertion s = .next
        { s with pins := { s.pins with dhold := true }, down := { s.down with holdTimer := 0, stuck := false } } ∧
      exec .dholdDeassertion s = .next s) ∧
    (s.pins.dhold = true →
      exec .dholdDeassertion s = .next
        { s with pins := { s.pins with dhold := false }, down := { s.down with holdTimer := 0, stuck := false } } ∧
      exec .dholdAssertion s = .next s)

/-! ## Port D (R142 to R154) -/

/-- A completion counts the frame at its flow and at the port, clears the flag, releases the record with the pause test, frees
the port, and completes a drain, which removes a replenishment not yet taken (R8, R16, R36, R69, R145, R148). -/
def Obligations.ACompletionFreesPortD : Prop :=
  ∀ (s : State) (sent : Transmission) (frame : List Byte), s.pins.reset = false → s.down.sending = some sent →
    s.down.line = .carrying frame →
    let x := s.flow sent.flow
    let t := { s with
      flows := s.flows.set sent.flow
        { x with
          inTransmission := false
          counters := { x.counters with
            releasedFrames := x.counters.releasedFrames + 1
            releasedBytes := x.counters.releasedBytes + BitVec.ofNat 32 sent.length } }
      store := s.store.releaseRecord sent.record
      down := { s.down with
        sending := none
        framesSent := s.down.framesSent + 1
        bytesSent := s.down.bytesSent + BitVec.ofNat 32 sent.length
        line := .ended frame } }.pauseTest
    (x.state = .draining ∧ x.queue = [] →
      exec .transmissionCompletion s = .next (t.disabledAt sent.flow)) ∧
    (x.state ≠ .draining ∨ x.queue ≠ [] → exec .transmissionCompletion s = .next t)

/-- A hold tick counts an asserted DHOLD, held at 65535, and reports HOLD_STUCK once when the count reaches a limit that is not
0; a deasserted DHOLD counts nothing (R150, R151). That the row HOLD_STUCK is the hold tick at which it is reported, under a
second row, is the model's reading of R151 (log 5, DEDUCED).
SET_HOLD_LIMIT sets the limit, returns the old one, and reports at once an assertion that already stands at the new one
(R152). -/
def Obligations.HoldTicksAndLimitsReportOnce : Prop :=
  (∀ s : State, s.pins.reset = false → s.down.holdTickDue = true →
    let timer := min (s.down.holdTimer + 1) 65535
    let reached := s.down.holdLimit ≠ 0 ∧ s.down.holdLimit ≤ timer ∧ s.down.stuck = false
    (s.pins.dhold = false →
      exec .holdTick s = .next { s with down := { s.down with holdTickDue := false } } ∧
        exec .holdStuck s = .next s) ∧
    (s.pins.dhold = true → ¬ reached →
      exec .holdTick s = .next { s with down := { s.down with holdTickDue := false, holdTimer := timer } } ∧
        exec .holdStuck s = .next s) ∧
    (s.pins.dhold = true → reached →
      exec .holdTick s = .next
        { s with
          down := { s.down with holdTickDue := false, holdTimer := timer, stuck := true }
          notices := s.notices.reporting .holdStuck 0 } ∧
        exec .holdStuck s = exec .holdTick s)) ∧
  ∀ (s : State) (args : List Byte), s.commandDue 0x16#8 args = true → args.length = 2 →
    let limit := num16At args 0
    let reached := s.pins.dhold = true ∧ s.down.stuck = false ∧ limit ≠ 0 ∧ limit ≤ s.down.holdTimer
    (reached →
      exec (.setHoldLimit args) s = .next
        ({ s with
          down := { s.down with holdLimit := limit, stuck := true }
          notices := s.notices.reporting .holdStuck 0 }.answered 0x16#8 .ok (bytes16 s.down.holdLimit))) ∧
    (¬ reached →
      exec (.setHoldLimit args) s = .next
        ({ s with down := { s.down with holdLimit := limit } }.answered 0x16#8 .ok (bytes16 s.down.holdLimit)))


/-! ## The receive lane (R126 to R137) -/

/-- A start delimiter opens a frame, and closes an open one as an abort delimiter does; an end delimiter closes a runt, a frame
with a length or check error, or a good one; an abort delimiter closes an abort; outside a frame both are ignored; in
DECIDING all are held; under the restart condition nothing is counted (R34, R126, R129, R131 to R135, R137). -/
def Obligations.DelimitersOpenAndCloseFrames : Prop :=
  ∀ s : State, s.pins.reset = false →
    let opened : Lane := .lead { actual := 0, crc := 0xFFFFFFFF#32, tail := [] } []
    (s.up.lane = .idle →
      exec .startDelimiter s = .next (s.setLane opened) ∧ exec .endDelimiter s = .next s ∧
        exec .abortDelimiter s = .next s) ∧
    (∀ rx lead phase held, s.up.lane = .deciding rx lead phase held →
      exec .startDelimiter s = .next (s.setLane (.deciding rx lead phase (held ++ [.start]))) ∧
        exec .endDelimiter s = .next (s.setLane (.deciding rx lead phase (held ++ [.endMark]))) ∧
        exec .abortDelimiter s = .next (s.setLane (.deciding rx lead phase (held ++ [.abort])))) ∧
    (s.up.lane ≠ .idle → s.up.lane.decidingParts = none →
      ∃ t, exec .abortDelimiter s = .next t ∧ exec .startDelimiter s = .next (t.setLane opened)) ∧
    (s.up.restartCondition = true → (∃ claimed, s.up.lane = .ignore claimed) ∨ (∃ rx bytes, s.up.lane = .lead rx bytes) →
      exec .endDelimiter s = .next (s.setLane .idle) ∧ exec .abortDelimiter s = .next (s.setLane .idle)) ∧
    (s.up.restartCondition = false →
      (∀ rx bytes, s.up.lane = .lead rx bytes →
        exec .endDelimiter s = .next (s.closedWith .lead) ∧
          exec .abortDelimiter s = .next (s.closedWith .abort)) ∧
      (∀ claimed, s.up.lane = .ignore claimed →
        exec .endDelimiter s = .next s.closedQuietly ∧ exec .abortDelimiter s = .next s.closedQuietly) ∧
      (∀ rx claimed, s.up.lane = .pass rx claimed →
        exec .abortDelimiter s = .next (s.closedWith .abort) ∧
        (rx.actual ≠ claimed → exec .endDelimiter s = .next (s.closedWith .length)) ∧
        (rx.actual = claimed → rx.checkGood = false → exec .endDelimiter s = .next (s.closedWith .check)) ∧
        (rx.actual = claimed → rx.checkGood = true → exec .endDelimiter s = .next s.closedQuietly)) ∧
      (∀ rx claimed slot, s.up.lane = .request rx claimed slot →
        let t := { s with agent := { s.agent with slots := s.agent.slots.set slot .free } }
        exec .abortDelimiter s = .next (t.closedWith .abort) ∧
        (rx.actual ≠ claimed → exec .endDelimiter s = .next (t.closedWith .length)) ∧
        (rx.actual = claimed → rx.checkGood = false → exec .endDelimiter s = .next (t.closedWith .check)) ∧
        ∀ bytes, rx.actual = claimed → rx.checkGood = true → s.agent.slots[slot] = .filling bytes →
          exec .endDelimiter s = .next
            { s with agent := { s.agent with
              slots := s.agent.slots.set slot (.waiting bytes)
              waitOrder := s.agent.waitOrder ++ [slot] } }.closedQuietly) ∧
      ∀ rx claimed body records label, s.up.lane = .store rx claimed body records label →
        let t := { s with store := s.store.freeReservation body records }.pauseTest
        exec .abortDelimiter s = .next (t.closedWith .abort) ∧
        (rx.actual ≠ claimed → exec .endDelimiter s = .next (t.closedWith .length)) ∧
        (rx.actual = claimed → rx.checkGood = false → exec .endDelimiter s = .next (t.closedWith .check)) ∧
        (rx.actual = claimed → rx.checkGood = true →
          exec .endDelimiter s = .next (s.closedQuietly.commit body records))) ∧
    ∀ u : UpstreamPort,
      u.countError .lead = { u with leadErrors := u.leadErrors + 1 } ∧
        u.countError .length = { u with lengthErrors := u.lengthErrors + 1 } ∧
        u.countError .check = { u with checkErrors := u.checkErrors + 1 } ∧
        u.countError .abort = { u with aborts := u.aborts + 1 }

/-- The twelfth byte is the lead event: a length error, a request with or without a slot, or traffic for classification; every
other byte is taken by the lane state; what is held is taken as on arrival. That RECEIVE_BYTE of a twelfth byte is the
LEAD_EVENT is the model's reading (log 7), and the slot claimed is the lowest free one, its choice (log 13). IGNORE keeps the
claimed length alone of the frame's fields (R126 to R130, R137). -/
def Obligations.LeadsAreRoutedAndBytesAreTaken : Prop :=
  ∀ (s : State) (b : Byte), s.pins.reset = false →
    (∀ rx bytes, s.up.lane = .lead rx bytes →
      let lead := bytes ++ [b]
      let length := num16At lead 8
      let toAgent := byteAt lead 4 / 16 = 2 ∧ field16At lead 0 = s.up.ownTag
      (bytes.length < 11 → exec (.receiveByte b) s = .next (s.setLane (.lead (rx.take b) lead))) ∧
      (bytes.length = 11 →
        exec (.receiveByte b) s = exec (.leadEvent b) s ∧
        (s.up.restartCondition = true → exec (.leadEvent b) s = .next (s.setLane (.ignore (some length)))) ∧
        (s.up.restartCondition = false → length < 16 ∨ 2048 < length →
          exec (.leadEvent b) s = .next
            { s with
              up := { s.up with leadErrors := s.up.leadErrors + 1, lane := .ignore (some length) }
              notices := s.notices.reporting .ingressError 0 }) ∧
        (s.up.restartCondition = false → 16 ≤ length → length ≤ 2048 → ¬ toAgent →
          exec (.leadEvent b) s = .next (s.setLane (.deciding (rx.take b) lead .classify []))) ∧
        (s.up.restartCondition = false → 16 ≤ length → toAgent →
          (length ≤ 512 → ∀ slot : SlotId, s.agent.slots[slot] = .free →
            (∀ other : SlotId, other < slot → s.agent.slots[other] ≠ .free) →
              exec (.leadEvent b) s = .next
                ({ s with agent := { s.agent with
                  slots := s.agent.slots.set slot (.filling lead) } }.setLane
                    (.request (rx.take b) length slot))) ∧
          (512 < length ∧ length ≤ 2048 ∨
              length ≤ 512 ∧ (∀ slot : SlotId, s.agent.slots[slot] ≠ .free) →
            exec (.leadEvent b) s = .next
              { s with
                up := { s.up with lane := .ignore (some length) }
                agent := { s.agent with lost := s.agent.lost + 1 }
                notices := s.notices.reporting .mgmtLost 0 })))) ∧
    (∀ rx lead phase held, s.up.lane = .deciding rx lead phase held →
      exec (.receiveByte b) s = .next (s.setLane (.deciding rx lead phase (held ++ [.byte b])))) ∧
    (∀ rx claimed slot, s.up.lane = .request rx claimed slot →
      (∀ bytes, rx.actual < claimed → s.agent.slots[slot] = .filling bytes →
        exec (.receiveByte b) s = .next
          ({ s with agent := { s.agent with
            slots := s.agent.slots.set slot (.filling (bytes ++ [b])) } }.setLane
              (.request (rx.take b) claimed slot))) ∧
      (claimed ≤ rx.actual →
        exec (.receiveByte b) s = .next (s.setLane (.request (rx.take b) claimed slot)))) ∧
    (∀ rx claimed body records label, s.up.lane = .store rx claimed body records label →
      exec (.receiveByte b) s = .next
        ({ s with store := s.store.storeByte body rx.actual b }.setLane
          (.store (rx.take b) claimed body records label))) ∧
    (∀ rx claimed, s.up.lane = .pass rx claimed →
      exec (.receiveByte b) s = .next (s.setLane (.pass (rx.take b) claimed))) ∧
    (s.up.lane = .idle ∨ (∃ claimed, s.up.lane = .ignore claimed) → exec (.receiveByte b) s = .next s) ∧
    s.takeHeld [] = s ∧
    ∀ held,
      (∀ t, exec .startDelimiter s = .next t → s.takeHeld (.start :: held) = t.takeHeld held) ∧
      (∀ t, exec (.receiveByte b) s = .next t → s.takeHeld (.byte b :: held) = t.takeHeld held) ∧
      (∀ t, exec .endDelimiter s = .next t → s.takeHeld (.endMark :: held) = t.takeHeld held) ∧
      ∀ t, exec .abortDelimiter s = .next t → s.takeHeld (.abort :: held) = t.takeHeld held

/-- The port counts a frame's bytes up to 2049, and its check is good exactly when the last four bytes are the check of the
bytes before them; the check of the bytes 31h to 39h is CBF43926h, sent least significant byte first (R126, R132, R188). -/
def Obligations.TheCheckCoversAllButTheLastFour : Prop :=
  checkOf [0x31#8, 0x32#8, 0x33#8, 0x34#8, 0x35#8, 0x36#8, 0x37#8, 0x38#8, 0x39#8] =
      [0x26#8, 0x39#8, 0xF4#8, 0xCB#8] ∧
    ∀ bytes : List Byte,
      let rx := bytes.foldl Reception.take { actual := 0, crc := 0xFFFFFFFF#32, tail := [] }
      rx.actual = min bytes.length 2049 ∧
        (4 ≤ bytes.length →
          (rx.checkGood = true ↔ bytes.drop (bytes.length - 4) = checkOf (bytes.take (bytes.length - 4))))

/-! ## The return lane and the resets (R136 to R141, R153, R172, R173) -/

/-- A return transmission starts with the frame the arbiter's table chooses, followed by its check; a completion removes it from
its queue; the completion of the RESTART response begins the restart (R138, R139, R140, R172). That a completion leaves the lane
free and the next transmission, which R138 starts at once, is an event of its own is the model's reading (log 9, DEDUCED), as
is that the RESTART response is the one whose completion empties the queue in RESTART_PENDING (log 19, DEDUCED). The frame lost at
the start of the restart keeps in IGNORE the claimed length that its complete lead has given (R126, R137); that a frame lost in
LEAD has none there, its twelfth byte being passed over, is the model's reading (log 22, DEDUCED). -/
def Obligations.TheReturnLaneServesItsTwoQueues : Prop :=
  ∀ s : State, s.pins.reset = false →
    (s.up.returnLane = .free → s.up.restartCondition = false →
      (∀ frame, s.agent.headReady = some frame → s.notices.queue = [] →
        exec .returnTransmission s = .next { s with up := { s.up with
          returnLane := .response, responseRun := min (s.up.responseRun + 1) 2,
          line := .carrying (frame ++ checkOf frame) } }) ∧
      (∀ frame, s.agent.headReady = some frame → s.notices.queue ≠ [] → s.up.responseRun < 2 →
        exec .returnTransmission s = .next { s with up := { s.up with
          returnLane := .response, responseRun := s.up.responseRun + 1,
          line := .carrying (frame ++ checkOf frame) } }) ∧
      (∀ notice rest, s.notices.queue = notice :: rest → s.agent.headReady = none ∨ s.up.responseRun = 2 →
        exec .returnTransmission s = .next { s with up := { s.up with
          returnLane := .notice, responseRun := 0, line := .carrying (notice ++ checkOf notice) } }) ∧
      (s.agent.headReady = none → s.notices.queue = [] → exec .returnTransmission s = .next s)) ∧
    (s.up.returnLane ≠ .free ∨ s.up.restartCondition = true → exec .returnTransmission s = .next s) ∧
    (∀ frame, s.up.line = .carrying frame → s.up.returnLane = .notice →
      exec .returnCompletion s = .next
        { s with
          up := { s.up with returnLane := .free, line := .ended frame }
          notices := { s.notices with queue := s.notices.queue.tail } }) ∧
    ∀ frame, s.up.line = .carrying frame → s.up.returnLane = .response →
      let freed : State :=
        { s with
          up := { s.up with returnLane := .free, line := .ended frame }
          agent := { s.agent with responses := s.agent.responses.tail } }
      (s.agent.state ≠ .restartPending ∨ s.agent.responses.tail ≠ [] →
        exec .returnCompletion s = .next freed) ∧
      (s.agent.state = .restartPending → s.agent.responses.tail = [] →
        let begun (t : State) (lane : Lane) : State :=
          { t with
            up := { t.up with restartCondition := true, lane := lane }
            agent := { t.agent with state := .restarting } }
        (s.up.lane = .idle → exec .returnCompletion s = .next (begun freed .idle)) ∧
        (∀ rx bytes, s.up.lane = .lead rx bytes → exec .returnCompletion s = .next (begun freed (.ignore none))) ∧
        (∀ rx claimed, s.up.lane = .pass rx claimed →
          exec .returnCompletion s = .next (begun freed (.ignore (some claimed)))) ∧
        (∀ claimed, s.up.lane = .ignore claimed →
          exec .returnCompletion s = .next (begun freed (.ignore claimed))) ∧
        (∀ rx lead phase held, s.up.lane = .deciding rx lead phase held →
          exec .returnCompletion s = .next ((begun freed (.ignore (some (num16At lead 8)))).takeHeld held)) ∧
        (∀ rx claimed slot, s.up.lane = .request rx claimed slot →
          exec .returnCompletion s = .next
            (begun { freed with agent := { freed.agent with
              slots := s.agent.slots.set slot .free } } (.ignore (some claimed)))) ∧
        ∀ rx claimed body records label, s.up.lane = .store rx claimed body records label →
          exec .returnCompletion s = .next
            (begun { freed with store := s.store.freeReservation body records }.pauseTest (.ignore (some claimed))))

/-- RESET aborts what both output lanes carry; its release gives every block its power-on values, with the own tag from the
straps and the quench flag from the QUENCH level; re-initialisation gives every block its restart values, keeping the quench
flag, the own tag and the replay memory, and counts the restart (R25, R43, R62, R83, R85, R103, R125, R136, R140, R141, R153,
R154, R173, R174, R187, R198). The model's own in this: that memory has nothing listed after either reset (log 10, DESIGN CHOICE,
unsafe); that State.reset has QUENCH and DHOLD deasserted, the straps at 0 and so the own tag F000h (log 11, DESIGN CHOICE,
unsafe); and that both output lanes are free from the assertion of RESET on, while the rest of the part is replaced at the
release (log 12, DEDUCED). -/
def Obligations.ResetsGiveEveryBlockItsValues : Prop :=
  let profile : Profile :=
    { discipline := .none, rate := 0, burstCap := 0, releaseMode := .single, runLength := 1, ageLimit := 0,
      lifetime := 0, expireAction := .hold }
  let flow : Flow :=
    { state := .disabled, generation := 0#8, queue := [], queuedFrames := 0, queuedBytes := 0, frameLimit := 64,
      byteLimit := 32768, policy := .tailDrop, group := .ring 0, inTransmission := false,
      counters :=
        { acceptedFrames := 0#32, acceptedBytes := 0#32, releasedFrames := 0#32, releasedBytes := 0#32,
          limit := 0#32, head := 0#32, closed := 0#32, flushed := 0#32, stale := 0#32, pool := 0#32 },
      credit := 0, active := profile, staged := none, remaining := 0, adoptPending := false,
      due := { replenishment := false, sweep := false, step := false } }
  let store : FrameStore :=
    { mem := [], links := Vector.replicate 2048 .absent, freeBlocks := List.finRange 2048,
      bodies := Vector.replicate 1024 none, freeBodies := List.finRange 1024,
      records := Vector.replicate 1024 none, freeRecords := List.finRange 1024, pauseMark := 256,
      resumeMark := 512, pauseCondition := false, lowWater := 2048 }
  let classifier : Classifier :=
    { entries := Vector.replicate 64
        { valid := false, destValue := 0#16, destMask := 0#16, sourceValue := 0#16, sourceMask := 0#16,
          kindSet := 0#16, classSet := 0#16, laneValue := 0#8, laneMask := 0#8, labelValue := 0#16,
          labelMask := 0#16, lengthMin := 0, lengthMax := 0, action := .discard },
      hits := Vector.replicate 64 0#32, defaultAction := .discard, noMatch := 0#32 }
  let notices : NoticeUnit :=
    { items := Vector.replicate 1029 { state := .clear, count := 0, tickDue := false }, raisedList := [],
      repeatList := [], queue := [], numberCounter := 0#16, destination := 0#16, enables := 0x1FF#9,
      interval := 10000, built := 0#32, repeats := 0#32, acks := 0#32, staleAcks := 0#32, reports := [] }
  let part (quench : Bool) (ownTag : Tag) (upLine downLine : LaneOut) (replay : Option Replay) (restarts : Counter)
      (pins : Pins) (pending : List Instr) : State :=
    { flows := Vector.replicate 256 flow, store := store, classifier := classifier,
      pacing := { periodInForce := 100, nextPeriod := 100, epochCounter := 0#16 },
      scheduler :=
        { topPolicy := .fixed, topPointer := 7,
          groups := Vector.replicate 8 { policy := .fixed, pointer := 255 }, run := none, releaseEnable := true,
          quenchFlag := quench },
      up :=
        { lane := .idle, framesReceived := 0#32, leadErrors := 0#32, lengthErrors := 0#32, checkErrors := 0#32,
          aborts := 0#32, ownTag := ownTag, restartCondition := false, returnLane := .free, responseRun := 0,
          line := upLine },
      down :=
        { sending := none, framesSent := 0#32, bytesSent := 0#32, holdLimit := 1000, holdTimer := 0,
          stuck := false, holdTickDue := false, line := downLine },
      agent :=
        { state := .idle, slots := Vector.replicate 4 .free, waitOrder := [], responses := [], replay := replay,
          taken := 0#32, lost := 0#32, replayed := 0#32, malformed := 0#32, restartCount := restarts },
      notices := notices, pins := pins, pending := pending }
  State.reset =
      part false 0xF000#16 .idle .idle none 0#32
        { reset := false, quench := false, dhold := false, straps := 0#8 } [] ∧
    ∀ s : State,
      (s.pins.reset = false →
        exec .resetAssertion s = .next
          { s with
            pins := { s.pins with reset := true }
            down := { s.down with
              sending := none, line := if s.down.sending = none then .idle else .aborted }
            up := { s.up with
              returnLane := .free, line := if s.up.returnLane = .free then .idle else .aborted } }) ∧
      (s.pins.reset = true → ∀ straps : Byte,
        exec (.resetRelease straps) s = .next
          (part s.pins.quench (BitVec.ofNat 16 (0xF000 + straps.toNat)) .idle .idle none 0#32
            { s.pins with reset := false, straps := straps } s.pending)) ∧
      (s.pins.reset = false → s.agent.state = .restarting → s.down.sending = none →
        exec .reinitialisation s = .next
          (part s.scheduler.quenchFlag s.up.ownTag s.up.line s.down.line s.agent.replay
            (s.agent.restartCount + 1) s.pins s.pending)) ∧
      (s.agent.state ≠ .restarting ∨ s.down.sending ≠ none → s.pins.reset = false →
        exec .reinitialisation s = .next s)

/-! ## Notices (R176 to R187) -/

/-- An occurrence is taken by the kind's enable and the item's state; a first build sends the oldest raised item under the next
number; a repeat build sends the head of the repeat list again under its own number (R177, R178, R179, R182). That a reported
condition waits until its occurrence is taken is the model's reading (log 6). -/
def Obligations.OccurrencesRaiseItemsAndBuildsSendThem : Prop :=
  ∀ s : State, s.pins.reset = false →
    let n := s.notices
    (∀ (kind : NoticeKind) (scope : FlowId), (kind.perFlow = true ∨ scope = 0) →
      let i := itemOf kind scope
      let left := { n with reports := n.reports.erase i }
      (i ∉ n.reports → exec (.noticeOccurrence kind scope) s = .next s) ∧
      (i ∈ n.reports →
        (n.enables.getLsbD (kindCode kind) = false →
          exec (.noticeOccurrence kind scope) s = .next { s with notices := left }) ∧
        (n.enables.getLsbD (kindCode kind) = true →
          (n.items[i].state = .clear →
            exec (.noticeOccurrence kind scope) s = .next { s with notices := { left with
              items := n.items.set i { n.items[i] with state := .raised, count := 1 }
              raisedList := n.raisedList ++ [i] } }) ∧
          (n.items[i].state = .raised →
            exec (.noticeOccurrence kind scope) s = .next { s with notices := { left with
              items := n.items.set i { n.items[i] with count := min (n.items[i].count + 1) 65535 } } }) ∧
          ∀ again number sentCount epochs, n.items[i].state = .sent again number sentCount epochs →
            exec (.noticeOccurrence kind scope) s = .next { s with notices := { left with
              items := n.items.set i
                { n.items[i] with
                  state := .sent true number sentCount epochs
                  count := min (n.items[i].count + 1) 65535 } } }))) ∧
    (n.destination ≠ 0#16 → n.queue.length < 16 → n.repeatList = [] →
      ∀ (kind : NoticeKind) (scope : FlowId) (rest : List ItemId), (kind.perFlow = true ∨ scope = 0) →
        n.raisedList = itemOf kind scope :: rest →
        let i := itemOf kind scope
        let number := n.numberCounter + 1
        exec .firstBuild s = .next { s with notices := { n with
          items := n.items.set i
            { n.items[i] with state := .sent false number n.items[i].count 0, count := 0 }
          raisedList := rest
          numberCounter := number
          queue := n.queue ++ [noticeFrame n.destination s.up.ownTag kind scope number false n.items[i].count]
          built := n.built + 1 } }) ∧
    (n.destination ≠ 0#16 → n.queue.length < 16 →
      ∀ (kind : NoticeKind) (scope : FlowId) (rest : List ItemId) (again : Bool) (number : BitVec 16)
        (sentCount epochs : Nat), (kind.perFlow = true ∨ scope = 0) →
        n.repeatList = itemOf kind scope :: rest →
        n.items[itemOf kind scope].state = .sent again number sentCount epochs →
        let i := itemOf kind scope
        exec .repeatBuild s = .next { s with notices := { n with
          items := n.items.set i { n.items[i] with state := .sent again number sentCount 0 }
          repeatList := rest
          queue := n.queue ++ [noticeFrame n.destination s.up.ownTag kind scope number true sentCount]
          repeats := n.repeats + 1 } }) ∧
    (n.destination = 0#16 ∨ 16 ≤ n.queue.length →
      exec .firstBuild s = .next s ∧ exec .repeatBuild s = .next s) ∧
    (n.repeatList ≠ [] ∨ n.raisedList = [] → exec .firstBuild s = .next s) ∧
    (n.repeatList = [] → exec .repeatBuild s = .next s)

/-- ACK_NOTICE accepts the number outstanding, which clears or re-raises the item, and refuses every other with STALE_ACK;
SET_NOTICE sets its three fields, silences the kinds it disables, and judges the repeats anew (R180, R183, R184, R196). -/
def Obligations.NoticeCommandsAcknowledgeAndConfigure : Prop :=
  ∀ (s : State) (args : List Byte),
    let n := s.notices
    (s.commandDue 0x1A#8 args = true → args.length = 5 →
      (8 < byteAt args 0 ∨ 255 < num16At args 1 ∨ 4 ≤ byteAt args 0 ∧ num16At args 1 ≠ 0 →
        exec (.ackNotice args) s = .next (s.answered 0x1A#8 .badArgument [])) ∧
      ∀ (kind : NoticeKind) (scope : FlowId), kindCode kind = byteAt args 0 → scope.val = num16At args 1 →
        (kind.perFlow = true ∨ scope = 0) →
        let i := itemOf kind scope
        let given := field16At args 3
        let stale := { s with notices := { n with staleAcks := n.staleAcks + 1 } }.answered 0x1A#8 .staleAck []
        (n.items[i].state = .clear ∨ n.items[i].state = .raised → exec (.ackNotice args) s = .next stale) ∧
        ∀ again number sentCount epochs, n.items[i].state = .sent again number sentCount epochs →
          (number ≠ given → exec (.ackNotice args) s = .next stale) ∧
          (number = given → again = true →
            exec (.ackNotice args) s = .next
              ({ s with notices := { n with
                items := n.items.set i { n.items[i] with state := .raised }
                raisedList := n.raisedList ++ [i]
                repeatList := n.repeatList.filter fun j => decide (j ≠ i)
                acks := n.acks + 1 } }.answered 0x1A#8 .ok [])) ∧
          (number = given → again = false →
            exec (.ackNotice args) s = .next
              ({ s with notices := { n with
                items := n.items.set i { n.items[i] with state := .clear, count := 0 }
                repeatList := n.repeatList.filter fun j => decide (j ≠ i)
                acks := n.acks + 1 } }.answered 0x1A#8 .ok []))) ∧
    (s.commandDue 0x1B#8 args = true → args.length = 6 →
      (512 ≤ num16At args 2 → exec (.setNotice args) s = .next (s.answered 0x1B#8 .badArgument [])) ∧
      (num16At args 2 < 512 →
        let enables := BitVec.ofNat 9 (num16At args 2)
        let interval := num16At args 4
        let silenced (i : ItemId) : Prop :=
          n.enables.getLsbD (kindCode (itemKind i)) = true ∧ enables.getLsbD (kindCode (itemKind i)) = false
        ∃ (items : Vector NoticeItem 1029) (raisedList repeatList : List ItemId),
          exec (.setNotice args) s = .next
            ({ s with notices := { n with
              items := items, raisedList := raisedList, repeatList := repeatList,
              destination := field16At args 0, enables := enables, interval := interval } }.answered 0x1B#8 .ok
                (bytes16 n.destination.toNat ++ bytes16 n.enables.toNat ++ bytes16 n.interval)) ∧
          (∀ i : ItemId, ¬ silenced i ∨ n.items[i].state = .clear → items[i] = n.items[i]) ∧
          (∀ i : ItemId, silenced i → n.items[i].state = .raised →
            items[i] = { n.items[i] with state := .clear, count := 0 }) ∧
          (∀ (i : ItemId) (again : Bool) (number : BitVec 16) (sentCount epochs : Nat), silenced i →
            n.items[i].state = .sent again number sentCount epochs →
              items[i] = { n.items[i] with state := .sent false number sentCount epochs, count := 0 }) ∧
          raisedList.Sublist n.raisedList ∧ (∀ i, i ∈ raisedList ↔ i ∈ n.raisedList ∧ ¬ silenced i) ∧
          ∃ kept added : List ItemId, repeatList = kept ++ added ∧ kept.Sublist n.repeatList ∧
            added.Pairwise (· < ·) ∧
            (∀ i, i ∈ kept ↔ i ∈ n.repeatList ∧
              ∃ epochs, items[i].epochsSent = some epochs ∧ interval ≠ 0 ∧ interval ≤ epochs) ∧
            ∀ i, i ∈ added ↔ i ∉ n.repeatList ∧
              ∃ epochs, items[i].epochsSent = some epochs ∧ interval ≠ 0 ∧ interval ≤ epochs))

/-- A repeat tick adds one to the epochs since sent of a SENT item, held at 65535, and puts the item on the repeat list once they
reach an interval that is not 0; an item not SENT has no tick (R181). That the row REPEAT_DUE is the tick at which that happens,
under a second row, is the model's reading of R181 (log 5, DEDUCED). -/
def Obligations.ARepeatTickCountsAndComesDue : Prop :=
  ∀ (s : State) (kind : NoticeKind) (scope : FlowId), s.pins.reset = false →
    (kind.perFlow = true ∨ scope = 0) → s.notices.items[itemOf kind scope].tickDue = true →
    let n := s.notices
    let i := itemOf kind scope
    (n.items[i].state = .clear ∨ n.items[i].state = .raised →
      exec (.repeatTick kind scope) s = .next { s with notices := { n with
        items := n.items.set i { n.items[i] with tickDue := false } } } ∧
      exec (.repeatDue kind scope) s = .next s) ∧
    ∀ again number sentCount epochs, n.items[i].state = .sent again number sentCount epochs →
      let counted := min (epochs + 1) 65535
      let items := n.items.set i { n.items[i] with state := .sent again number sentCount counted, tickDue := false }
      let comesDue := n.interval ≠ 0 ∧ n.interval ≤ counted ∧ i ∉ n.repeatList
      (comesDue →
        exec (.repeatTick kind scope) s = .next { s with notices := { n with
          items := items, repeatList := n.repeatList ++ [i] } } ∧
        exec (.repeatDue kind scope) s = exec (.repeatTick kind scope) s) ∧
      (¬ comesDue →
        exec (.repeatTick kind scope) s = .next { s with notices := { n with items := items } } ∧
        exec (.repeatDue kind scope) s = .next s)

/-! ## Codes (R190, R191, R192, R194) -/

/-- The codes of the tables: statuses, flow states, hold causes, return states, groups, policies, disciplines, release modes,
expire actions, match actions and notice kinds; and the row each command code stands for (R189 to R194). -/
def Obligations.CodesAreThoseOfTheTables : Prop :=
  [Status.ok, .badCommand, .badArgument, .badState, .busy, .slotFull, .slotEmpty, .staleAck, .notAttempted,
      .malformed].map statusCode = [0, 1, 2, 3, 4, 5, 6, 7, 8, 9] ∧
    [FlowState.disabled, .active, .held .expired, .held .ordered, .draining, .flushing .active,
      .flushing (.held .expired), .flushing (.held .ordered), .flushing .draining].map
        (fun fs => (flowStateCode fs, holdCauseCode fs, returnStateCode fs)) =
      [(0, 0, 0), (1, 0, 0), (2, 1, 0), (2, 2, 0), (3, 0, 0), (4, 0, 1), (4, 0, 2), (4, 0, 3), (4, 0, 4)] ∧
    (∀ g : Fin 8, groupCode (.ring g) = g.val) ∧ groupCode .express = 8 ∧
    [AdmissionPolicy.tailDrop, .headDrop].map policyCode = [0, 1] ∧
    [RingPolicy.fixed, .rotating].map ringPolicyCode = [0, 1] ∧
    [Discipline.none, .loose, .strict].map disciplineCode = [0, 1, 2] ∧
    [ReleaseMode.single, .block, .demand].map releaseModeCode = [0, 1, 2] ∧
    [ExpireAction.hold, .repeat, .close].map expireActionCode = [0, 1, 2] ∧
    (∀ (f g : FlowId) (label : Option Tag), [MatchAction.discard, .queue f label, .mirror f g label].map actionCode =
      [0, 1, 2]) ∧
    [NoticeKind.stageTaken, .flowHeld, .flowClosed, .queueDrop, .poolLow, .ingressError, .mgmtLost, .holdStuck,
      .quenched].map kindCode = [0, 1, 2, 3, 4, 5, 6, 7, 8] ∧
    ∀ args : List Byte,
      ((List.range 29).map fun n => commandRow (BitVec.ofNat 8 n) args) =
        [.unknownCommand 0x00#8 args, .openFlow args, .hold args, .release args, .close args, .flush args,
          .setFlow args, .readFlow args, .setPool args, .readPool args, .writeMatch args, .readMatch args,
          .setDefault args, .setEpoch args, .stage args, .unstage args, .adopt args, .readProfile args,
          .setRelease args, .resume args, .setGroup args, .setTop args, .setHoldLimit args, .readStatus args,
          .readCounters args, .restart args, .ackNotice args, .setNotice args, .unknownCommand 0x1C#8 args]

/-! ## Memory and the invariants -/

/-- Frame memory is written by the frame in reception alone: a byte received in STORE changes no byte but that of its place in the
chain, a reservation changes none outside the blocks it takes, and nothing else but the two resets changes any byte (R26, R32,
R43); what the resets leave there is the model's choice (log 10, DESIGN CHOICE, unsafe). -/
def Obligations.MemoryIsWrittenByReceptionAlone : Prop :=
  ∀ (c : Instr) (s t : State), Memory.wf s.store.mem = true → exec c s = .next t →
    ((∀ b, c ≠ .receiveByte b) → c ≠ .reservation → (∀ straps, c ≠ .resetRelease straps) → c ≠ .reinitialisation →
      ∀ a, Memory.read t.store.mem a = Memory.read s.store.mem a) ∧
    (∀ b rx claimed body records label, c = .receiveByte b → s.up.lane = .store rx claimed body records label →
      ∀ a, (∀ block, s.store.byteBlock body rx.actual = some block → a ≠ block.val * 128 + rx.actual % 128) →
        Memory.read t.store.mem a = Memory.read s.store.mem a) ∧
    (∀ b, c = .receiveByte b → (∀ rx claimed body records label, s.up.lane ≠ .store rx claimed body records label) →
      ∀ a, Memory.read t.store.mem a = Memory.read s.store.mem a) ∧
    (∀ rx lead granted label held, c = .reservation → s.up.lane = .deciding rx lead (.reserve granted label) held →
      ∀ a, (∀ block ∈ s.store.freeBlocks.take ((num16At lead 8 + 127) / 128), a / 128 ≠ block.val) →
        Memory.read t.store.mem a = Memory.read s.store.mem a)

/-- The state right after power-on reset meets every invariant that the statements below keep. -/
def Obligations.ResetMeetsEveryInvariant : Prop :=
  State.reset.memoryCanonical ∧ State.reset.flowsLegal ∧ State.reset.notices.legal ∧ State.reset.returnsAgree ∧
    State.reset.store.listsAgree ∧ State.reset.store.pauseAgrees ∧ State.reset.ownTagInRange ∧
    State.reset.tableInRange ∧ State.reset.periodsInRange ∧ State.reset.FramesAgree

/-- Every step keeps frame memory in its canonical form (log 10). -/
def Obligations.EveryStepKeepsMemoryCanonical : Prop :=
  ∀ s t : State, s.memoryCanonical → step s = .next t → t.memoryCanonical

/-- Every step keeps every flow's record, credit and profiles legal, and the run with them: the credit between its floor and the
burst cap, the profiles in their ranges, a DISABLED flow with an empty slot, the lifetime in its profile's, and the run's
holder releasing, not express, with 1 to 64 frames remaining (R1, R67, R84, R86, R104).
Where the store, the queues and the frames on their way agree, every step also keeps every flow's queue: exactly the QUEUED
records of the flow, each once, their count and the sum of their bytes as the flow's numbers, both within the flow's limits and
the limits in 1 to 1024 and 16 to 262144, and empty in DISABLED (R1, R8, R14, R28). -/
def Obligations.EveryStepKeepsFlowsAndTheRunLegal : Prop :=
  ∀ s t : State, step s = .next t →
    (s.flowsLegal → t.flowsLegal) ∧ (s.FramesAgree → t.queuesAgree)

/-- Every step keeps the notice items and lists in agreement: the raised list holds exactly the RAISED items, each once, every
item on the repeat list is SENT, each count fits its state, and the notice queue holds at most 16 (R176). -/
def Obligations.EveryStepKeepsTheNoticesInAgreement : Prop :=
  ∀ s t : State, s.notices.legal → step s = .next t → t.notices.legal

/-- Every step keeps the response queue, the return lane, the agent and the restart condition in agreement: at most four entries,
one claimed at the tail exactly while a request is executed, the lane sending a head that is there, and the restart condition
holding exactly in RESTARTING, with the response queue empty (R137 to R140, R158, R172, R173). -/
def Obligations.EveryStepKeepsTheReturnsInAgreement : Prop :=
  ∀ s t : State, s.returnsAgree → step s = .next t → t.returnsAgree

/-- Every step keeps the record and body free lists exact, so that free and used records and bodies add up to 1024 each; the
pause condition in agreement with the watermarks; and the own tag, the match table and the periods in their ranges (R29, R38,
R39, R40, R57, R63, R136).
Every step also keeps the store, the queues, the frame in reception and the frame in transmission in agreement: every block once
on the block free list or with one body, so that free, chained and pending blocks add up to 2048; every body's share count the
number of records that name it, 1 or 2; and every record in its queue, in reception, or in transmission (R26 to R30, R38). -/
def Obligations.EveryStepKeepsTheStoreAndRegistersInAgreement : Prop :=
  (∀ s t : State, step s = .next t →
    (s.store.listsAgree → t.store.listsAgree) ∧ (s.store.pauseAgrees → t.store.pauseAgrees) ∧
      (s.ownTagInRange → t.ownTagInRange) ∧ (s.tableInRange → t.tableInRange) ∧
      (s.periodsInRange → t.periodsInRange) ∧ (s.FramesAgree → t.FramesAgree)) ∧
    (∀ st : FrameStore, st.listsAgree →
      st.freeRecords.length + (Finset.univ.filter fun r : RecordId => st.records[r] ≠ none).card = 1024 ∧
        st.freeBodies.length + (Finset.univ.filter fun b : BodyId => st.bodies[b] ≠ none).card = 1024) ∧
    (∀ st : FrameStore, st.blocksAgree →
      st.freeBlocks.Nodup ∧ (∀ b, (st.blocksOf b).Nodup ∧ ∀ k ∈ st.blocksOf b, k ∉ st.freeBlocks) ∧
        st.freeBlocks.length + ∑ b : BodyId, (st.blocksOf b).length = 2048) ∧
    ∀ (st : FrameStore) (b : BodyId) (body : Body), st.sharesAgree → st.bodies[b] = some body →
      (Finset.univ.filter fun r : RecordId => (st.records[r]).map FrameRecord.body = some b).card = body.share ∧
        1 ≤ body.share ∧ body.share ≤ 2

end Statements
end

