-- ==== Sys2Proof/Laws/State.lean ====
section
/-! SUPPORT. Reading a part of State after another has been replaced: one lemma per setter and field, true by rfl, and the flow read back after a flow has been replaced. -/
namespace Sys2Proof.Machine

variable (s : State)

/-! ## After setFlow -/

@[simp] theorem State.setFlow_flows (f : FlowId) (x : Flow) : (s.setFlow f x).flows = s.flows.set f x := rfl
@[simp] theorem State.setFlow_store (f : FlowId) (x : Flow) : (s.setFlow f x).store = s.store := rfl
@[simp] theorem State.setFlow_classifier (f : FlowId) (x : Flow) : (s.setFlow f x).classifier = s.classifier := rfl
@[simp] theorem State.setFlow_pacing (f : FlowId) (x : Flow) : (s.setFlow f x).pacing = s.pacing := rfl
@[simp] theorem State.setFlow_scheduler (f : FlowId) (x : Flow) : (s.setFlow f x).scheduler = s.scheduler := rfl
@[simp] theorem State.setFlow_up (f : FlowId) (x : Flow) : (s.setFlow f x).up = s.up := rfl
@[simp] theorem State.setFlow_down (f : FlowId) (x : Flow) : (s.setFlow f x).down = s.down := rfl
@[simp] theorem State.setFlow_agent (f : FlowId) (x : Flow) : (s.setFlow f x).agent = s.agent := rfl
@[simp] theorem State.setFlow_notices (f : FlowId) (x : Flow) : (s.setFlow f x).notices = s.notices := rfl
@[simp] theorem State.setFlow_pins (f : FlowId) (x : Flow) : (s.setFlow f x).pins = s.pins := rfl
@[simp] theorem State.setFlow_pending (f : FlowId) (x : Flow) : (s.setFlow f x).pending = s.pending := rfl

/-! ## After setStore -/

@[simp] theorem State.setStore_flows (x : FrameStore) : (s.setStore x).flows = s.flows := rfl
@[simp] theorem State.setStore_store (x : FrameStore) : (s.setStore x).store = x := rfl
@[simp] theorem State.setStore_classifier (x : FrameStore) : (s.setStore x).classifier = s.classifier := rfl
@[simp] theorem State.setStore_pacing (x : FrameStore) : (s.setStore x).pacing = s.pacing := rfl
@[simp] theorem State.setStore_scheduler (x : FrameStore) : (s.setStore x).scheduler = s.scheduler := rfl
@[simp] theorem State.setStore_up (x : FrameStore) : (s.setStore x).up = s.up := rfl
@[simp] theorem State.setStore_down (x : FrameStore) : (s.setStore x).down = s.down := rfl
@[simp] theorem State.setStore_agent (x : FrameStore) : (s.setStore x).agent = s.agent := rfl
@[simp] theorem State.setStore_notices (x : FrameStore) : (s.setStore x).notices = s.notices := rfl
@[simp] theorem State.setStore_pins (x : FrameStore) : (s.setStore x).pins = s.pins := rfl
@[simp] theorem State.setStore_pending (x : FrameStore) : (s.setStore x).pending = s.pending := rfl
@[simp] theorem State.setStore_flow (x : FrameStore) (g : FlowId) : (s.setStore x).flow g = s.flow g := rfl

/-! ## After setClassifier -/

@[simp] theorem State.setClassifier_flows (x : Classifier) : (s.setClassifier x).flows = s.flows := rfl
@[simp] theorem State.setClassifier_store (x : Classifier) : (s.setClassifier x).store = s.store := rfl
@[simp] theorem State.setClassifier_classifier (x : Classifier) : (s.setClassifier x).classifier = x := rfl
@[simp] theorem State.setClassifier_pacing (x : Classifier) : (s.setClassifier x).pacing = s.pacing := rfl
@[simp] theorem State.setClassifier_scheduler (x : Classifier) : (s.setClassifier x).scheduler = s.scheduler := rfl
@[simp] theorem State.setClassifier_up (x : Classifier) : (s.setClassifier x).up = s.up := rfl
@[simp] theorem State.setClassifier_down (x : Classifier) : (s.setClassifier x).down = s.down := rfl
@[simp] theorem State.setClassifier_agent (x : Classifier) : (s.setClassifier x).agent = s.agent := rfl
@[simp] theorem State.setClassifier_notices (x : Classifier) : (s.setClassifier x).notices = s.notices := rfl
@[simp] theorem State.setClassifier_pins (x : Classifier) : (s.setClassifier x).pins = s.pins := rfl
@[simp] theorem State.setClassifier_pending (x : Classifier) : (s.setClassifier x).pending = s.pending := rfl
@[simp] theorem State.setClassifier_flow (x : Classifier) (g : FlowId) : (s.setClassifier x).flow g = s.flow g := rfl

/-! ## After setPacing -/

@[simp] theorem State.setPacing_flows (x : Pacing) : (s.setPacing x).flows = s.flows := rfl
@[simp] theorem State.setPacing_store (x : Pacing) : (s.setPacing x).store = s.store := rfl
@[simp] theorem State.setPacing_classifier (x : Pacing) : (s.setPacing x).classifier = s.classifier := rfl
@[simp] theorem State.setPacing_pacing (x : Pacing) : (s.setPacing x).pacing = x := rfl
@[simp] theorem State.setPacing_scheduler (x : Pacing) : (s.setPacing x).scheduler = s.scheduler := rfl
@[simp] theorem State.setPacing_up (x : Pacing) : (s.setPacing x).up = s.up := rfl
@[simp] theorem State.setPacing_down (x : Pacing) : (s.setPacing x).down = s.down := rfl
@[simp] theorem State.setPacing_agent (x : Pacing) : (s.setPacing x).agent = s.agent := rfl
@[simp] theorem State.setPacing_notices (x : Pacing) : (s.setPacing x).notices = s.notices := rfl
@[simp] theorem State.setPacing_pins (x : Pacing) : (s.setPacing x).pins = s.pins := rfl
@[simp] theorem State.setPacing_pending (x : Pacing) : (s.setPacing x).pending = s.pending := rfl
@[simp] theorem State.setPacing_flow (x : Pacing) (g : FlowId) : (s.setPacing x).flow g = s.flow g := rfl

/-! ## After setScheduler -/

@[simp] theorem State.setScheduler_flows (x : Scheduler) : (s.setScheduler x).flows = s.flows := rfl
@[simp] theorem State.setScheduler_store (x : Scheduler) : (s.setScheduler x).store = s.store := rfl
@[simp] theorem State.setScheduler_classifier (x : Scheduler) : (s.setScheduler x).classifier = s.classifier := rfl
@[simp] theorem State.setScheduler_pacing (x : Scheduler) : (s.setScheduler x).pacing = s.pacing := rfl
@[simp] theorem State.setScheduler_scheduler (x : Scheduler) : (s.setScheduler x).scheduler = x := rfl
@[simp] theorem State.setScheduler_up (x : Scheduler) : (s.setScheduler x).up = s.up := rfl
@[simp] theorem State.setScheduler_down (x : Scheduler) : (s.setScheduler x).down = s.down := rfl
@[simp] theorem State.setScheduler_agent (x : Scheduler) : (s.setScheduler x).agent = s.agent := rfl
@[simp] theorem State.setScheduler_notices (x : Scheduler) : (s.setScheduler x).notices = s.notices := rfl
@[simp] theorem State.setScheduler_pins (x : Scheduler) : (s.setScheduler x).pins = s.pins := rfl
@[simp] theorem State.setScheduler_pending (x : Scheduler) : (s.setScheduler x).pending = s.pending := rfl
@[simp] theorem State.setScheduler_flow (x : Scheduler) (g : FlowId) : (s.setScheduler x).flow g = s.flow g := rfl

/-! ## After setUp -/

@[simp] theorem State.setUp_flows (x : UpstreamPort) : (s.setUp x).flows = s.flows := rfl
@[simp] theorem State.setUp_store (x : UpstreamPort) : (s.setUp x).store = s.store := rfl
@[simp] theorem State.setUp_classifier (x : UpstreamPort) : (s.setUp x).classifier = s.classifier := rfl
@[simp] theorem State.setUp_pacing (x : UpstreamPort) : (s.setUp x).pacing = s.pacing := rfl
@[simp] theorem State.setUp_scheduler (x : UpstreamPort) : (s.setUp x).scheduler = s.scheduler := rfl
@[simp] theorem State.setUp_up (x : UpstreamPort) : (s.setUp x).up = x := rfl
@[simp] theorem State.setUp_down (x : UpstreamPort) : (s.setUp x).down = s.down := rfl
@[simp] theorem State.setUp_agent (x : UpstreamPort) : (s.setUp x).agent = s.agent := rfl
@[simp] theorem State.setUp_notices (x : UpstreamPort) : (s.setUp x).notices = s.notices := rfl
@[simp] theorem State.setUp_pins (x : UpstreamPort) : (s.setUp x).pins = s.pins := rfl
@[simp] theorem State.setUp_pending (x : UpstreamPort) : (s.setUp x).pending = s.pending := rfl
@[simp] theorem State.setUp_flow (x : UpstreamPort) (g : FlowId) : (s.setUp x).flow g = s.flow g := rfl

/-! ## After setLane -/

@[simp] theorem State.setLane_flows (l : Lane) : (s.setLane l).flows = s.flows := rfl
@[simp] theorem State.setLane_store (l : Lane) : (s.setLane l).store = s.store := rfl
@[simp] theorem State.setLane_classifier (l : Lane) : (s.setLane l).classifier = s.classifier := rfl
@[simp] theorem State.setLane_pacing (l : Lane) : (s.setLane l).pacing = s.pacing := rfl
@[simp] theorem State.setLane_scheduler (l : Lane) : (s.setLane l).scheduler = s.scheduler := rfl
@[simp] theorem State.setLane_up (l : Lane) : (s.setLane l).up = { s.up with lane := l } := rfl
@[simp] theorem State.setLane_down (l : Lane) : (s.setLane l).down = s.down := rfl
@[simp] theorem State.setLane_agent (l : Lane) : (s.setLane l).agent = s.agent := rfl
@[simp] theorem State.setLane_notices (l : Lane) : (s.setLane l).notices = s.notices := rfl
@[simp] theorem State.setLane_pins (l : Lane) : (s.setLane l).pins = s.pins := rfl
@[simp] theorem State.setLane_pending (l : Lane) : (s.setLane l).pending = s.pending := rfl
@[simp] theorem State.setLane_flow (l : Lane) (g : FlowId) : (s.setLane l).flow g = s.flow g := rfl

/-! ## After setDown -/

@[simp] theorem State.setDown_flows (x : DownstreamPort) : (s.setDown x).flows = s.flows := rfl
@[simp] theorem State.setDown_store (x : DownstreamPort) : (s.setDown x).store = s.store := rfl
@[simp] theorem State.setDown_classifier (x : DownstreamPort) : (s.setDown x).classifier = s.classifier := rfl
@[simp] theorem State.setDown_pacing (x : DownstreamPort) : (s.setDown x).pacing = s.pacing := rfl
@[simp] theorem State.setDown_scheduler (x : DownstreamPort) : (s.setDown x).scheduler = s.scheduler := rfl
@[simp] theorem State.setDown_up (x : DownstreamPort) : (s.setDown x).up = s.up := rfl
@[simp] theorem State.setDown_down (x : DownstreamPort) : (s.setDown x).down = x := rfl
@[simp] theorem State.setDown_agent (x : DownstreamPort) : (s.setDown x).agent = s.agent := rfl
@[simp] theorem State.setDown_notices (x : DownstreamPort) : (s.setDown x).notices = s.notices := rfl
@[simp] theorem State.setDown_pins (x : DownstreamPort) : (s.setDown x).pins = s.pins := rfl
@[simp] theorem State.setDown_pending (x : DownstreamPort) : (s.setDown x).pending = s.pending := rfl
@[simp] theorem State.setDown_flow (x : DownstreamPort) (g : FlowId) : (s.setDown x).flow g = s.flow g := rfl

/-! ## After setAgent -/

@[simp] theorem State.setAgent_flows (x : Agent) : (s.setAgent x).flows = s.flows := rfl
@[simp] theorem State.setAgent_store (x : Agent) : (s.setAgent x).store = s.store := rfl
@[simp] theorem State.setAgent_classifier (x : Agent) : (s.setAgent x).classifier = s.classifier := rfl
@[simp] theorem State.setAgent_pacing (x : Agent) : (s.setAgent x).pacing = s.pacing := rfl
@[simp] theorem State.setAgent_scheduler (x : Agent) : (s.setAgent x).scheduler = s.scheduler := rfl
@[simp] theorem State.setAgent_up (x : Agent) : (s.setAgent x).up = s.up := rfl
@[simp] theorem State.setAgent_down (x : Agent) : (s.setAgent x).down = s.down := rfl
@[simp] theorem State.setAgent_agent (x : Agent) : (s.setAgent x).agent = x := rfl
@[simp] theorem State.setAgent_notices (x : Agent) : (s.setAgent x).notices = s.notices := rfl
@[simp] theorem State.setAgent_pins (x : Agent) : (s.setAgent x).pins = s.pins := rfl
@[simp] theorem State.setAgent_pending (x : Agent) : (s.setAgent x).pending = s.pending := rfl
@[simp] theorem State.setAgent_flow (x : Agent) (g : FlowId) : (s.setAgent x).flow g = s.flow g := rfl

/-! ## After setNotices -/

@[simp] theorem State.setNotices_flows (x : NoticeUnit) : (s.setNotices x).flows = s.flows := rfl
@[simp] theorem State.setNotices_store (x : NoticeUnit) : (s.setNotices x).store = s.store := rfl
@[simp] theorem State.setNotices_classifier (x : NoticeUnit) : (s.setNotices x).classifier = s.classifier := rfl
@[simp] theorem State.setNotices_pacing (x : NoticeUnit) : (s.setNotices x).pacing = s.pacing := rfl
@[simp] theorem State.setNotices_scheduler (x : NoticeUnit) : (s.setNotices x).scheduler = s.scheduler := rfl
@[simp] theorem State.setNotices_up (x : NoticeUnit) : (s.setNotices x).up = s.up := rfl
@[simp] theorem State.setNotices_down (x : NoticeUnit) : (s.setNotices x).down = s.down := rfl
@[simp] theorem State.setNotices_agent (x : NoticeUnit) : (s.setNotices x).agent = s.agent := rfl
@[simp] theorem State.setNotices_notices (x : NoticeUnit) : (s.setNotices x).notices = x := rfl
@[simp] theorem State.setNotices_pins (x : NoticeUnit) : (s.setNotices x).pins = s.pins := rfl
@[simp] theorem State.setNotices_pending (x : NoticeUnit) : (s.setNotices x).pending = s.pending := rfl
@[simp] theorem State.setNotices_flow (x : NoticeUnit) (g : FlowId) : (s.setNotices x).flow g = s.flow g := rfl

/-! ## After setPins -/

@[simp] theorem State.setPins_flows (x : Pins) : (s.setPins x).flows = s.flows := rfl
@[simp] theorem State.setPins_store (x : Pins) : (s.setPins x).store = s.store := rfl
@[simp] theorem State.setPins_classifier (x : Pins) : (s.setPins x).classifier = s.classifier := rfl
@[simp] theorem State.setPins_pacing (x : Pins) : (s.setPins x).pacing = s.pacing := rfl
@[simp] theorem State.setPins_scheduler (x : Pins) : (s.setPins x).scheduler = s.scheduler := rfl
@[simp] theorem State.setPins_up (x : Pins) : (s.setPins x).up = s.up := rfl
@[simp] theorem State.setPins_down (x : Pins) : (s.setPins x).down = s.down := rfl
@[simp] theorem State.setPins_agent (x : Pins) : (s.setPins x).agent = s.agent := rfl
@[simp] theorem State.setPins_notices (x : Pins) : (s.setPins x).notices = s.notices := rfl
@[simp] theorem State.setPins_pins (x : Pins) : (s.setPins x).pins = x := rfl
@[simp] theorem State.setPins_pending (x : Pins) : (s.setPins x).pending = s.pending := rfl
@[simp] theorem State.setPins_flow (x : Pins) (g : FlowId) : (s.setPins x).flow g = s.flow g := rfl

/-! ## The flow read back -/

@[simp] theorem State.flow_setFlow_same (f : FlowId) (x : Flow) : (s.setFlow f x).flow f = x := by
  simp [State.flow, State.setFlow]

theorem State.flow_setFlow_of_ne (f g : FlowId) (x : Flow) (h : f ≠ g) : (s.setFlow f x).flow g = s.flow g := by
  have h' : f.val ≠ g.val := fun e => h (Fin.ext e)
  simp [State.flow, State.setFlow, h']

theorem State.flow_setFlow (f g : FlowId) (x : Flow) :
    (s.setFlow f x).flow g = if f = g then x else s.flow g := by
  split
  · next h => subst h; simp
  · next h => exact s.flow_setFlow_of_ne f g x h

@[simp] theorem State.setFlow_setFlow (f : FlowId) (x y : Flow) : (s.setFlow f x).setFlow f y = s.setFlow f y := by
  simp [State.setFlow]

@[simp] theorem State.setFlow_flow (f : FlowId) : s.setFlow f (s.flow f) = s := by
  cases s
  simp [State.setFlow, State.flow]

end Sys2Proof.Machine
end

