-- ==== Sys2Proof/Laws/Frames.lean ====
section
/-! SUPPORT. What each shared operation leaves alone: one lemma per operation and field of State that it never changes. -/
namespace Sys2Proof.Machine

variable (s : State)

/-! ## Reports and the pause test -/

@[simp] theorem State.report_flows (k : NoticeKind) (f : FlowId) : (s.report k f).flows = s.flows := rfl
@[simp] theorem State.report_store (k : NoticeKind) (f : FlowId) : (s.report k f).store = s.store := rfl
@[simp] theorem State.report_classifier (k : NoticeKind) (f : FlowId) : (s.report k f).classifier = s.classifier := rfl
@[simp] theorem State.report_pacing (k : NoticeKind) (f : FlowId) : (s.report k f).pacing = s.pacing := rfl
@[simp] theorem State.report_scheduler (k : NoticeKind) (f : FlowId) : (s.report k f).scheduler = s.scheduler := rfl
@[simp] theorem State.report_up (k : NoticeKind) (f : FlowId) : (s.report k f).up = s.up := rfl
@[simp] theorem State.report_down (k : NoticeKind) (f : FlowId) : (s.report k f).down = s.down := rfl
@[simp] theorem State.report_agent (k : NoticeKind) (f : FlowId) : (s.report k f).agent = s.agent := rfl
@[simp] theorem State.report_pins (k : NoticeKind) (f : FlowId) : (s.report k f).pins = s.pins := rfl
@[simp] theorem State.report_pending (k : NoticeKind) (f : FlowId) : (s.report k f).pending = s.pending := rfl
@[simp] theorem State.report_flow (k : NoticeKind) (f : FlowId) (g : FlowId) : (s.report k f).flow g = s.flow g := rfl
@[simp] theorem State.reportGlobal_flows (k : NoticeKind) : (s.reportGlobal k).flows = s.flows := rfl
@[simp] theorem State.reportGlobal_store (k : NoticeKind) : (s.reportGlobal k).store = s.store := rfl
@[simp] theorem State.reportGlobal_classifier (k : NoticeKind) : (s.reportGlobal k).classifier = s.classifier := rfl
@[simp] theorem State.reportGlobal_pacing (k : NoticeKind) : (s.reportGlobal k).pacing = s.pacing := rfl
@[simp] theorem State.reportGlobal_scheduler (k : NoticeKind) : (s.reportGlobal k).scheduler = s.scheduler := rfl
@[simp] theorem State.reportGlobal_up (k : NoticeKind) : (s.reportGlobal k).up = s.up := rfl
@[simp] theorem State.reportGlobal_down (k : NoticeKind) : (s.reportGlobal k).down = s.down := rfl
@[simp] theorem State.reportGlobal_agent (k : NoticeKind) : (s.reportGlobal k).agent = s.agent := rfl
@[simp] theorem State.reportGlobal_pins (k : NoticeKind) : (s.reportGlobal k).pins = s.pins := rfl
@[simp] theorem State.reportGlobal_pending (k : NoticeKind) : (s.reportGlobal k).pending = s.pending := rfl
@[simp] theorem State.reportGlobal_flow (k : NoticeKind) (g : FlowId) : (s.reportGlobal k).flow g = s.flow g := rfl
@[simp] theorem State.pauseTest_flows : s.pauseTest.flows = s.flows := by
  unfold State.pauseTest; repeat' split
  all_goals rfl
@[simp] theorem State.pauseTest_classifier : s.pauseTest.classifier = s.classifier := by
  unfold State.pauseTest; repeat' split
  all_goals rfl
@[simp] theorem State.pauseTest_pacing : s.pauseTest.pacing = s.pacing := by
  unfold State.pauseTest; repeat' split
  all_goals rfl
@[simp] theorem State.pauseTest_scheduler : s.pauseTest.scheduler = s.scheduler := by
  unfold State.pauseTest; repeat' split
  all_goals rfl
@[simp] theorem State.pauseTest_up : s.pauseTest.up = s.up := by
  unfold State.pauseTest; repeat' split
  all_goals rfl
@[simp] theorem State.pauseTest_down : s.pauseTest.down = s.down := by
  unfold State.pauseTest; repeat' split
  all_goals rfl
@[simp] theorem State.pauseTest_agent : s.pauseTest.agent = s.agent := by
  unfold State.pauseTest; repeat' split
  all_goals rfl
@[simp] theorem State.pauseTest_pins : s.pauseTest.pins = s.pins := by
  unfold State.pauseTest; repeat' split
  all_goals rfl
@[simp] theorem State.pauseTest_pending : s.pauseTest.pending = s.pending := by
  unfold State.pauseTest; repeat' split
  all_goals rfl
@[simp] theorem State.pauseTest_flow  (g : FlowId) : s.pauseTest.flow g = s.flow g := by simp [State.flow]

/-! ## Runs and flow states -/

@[simp] theorem Flow.disabled_state (x : Flow) : x.disabled.state = .disabled := rfl
@[simp] theorem Flow.disabled_generation (x : Flow) : x.disabled.generation = x.generation := rfl
@[simp] theorem Flow.disabled_queue (x : Flow) : x.disabled.queue = x.queue := rfl
@[simp] theorem Flow.disabled_queuedFrames (x : Flow) : x.disabled.queuedFrames = x.queuedFrames := rfl
@[simp] theorem Flow.disabled_queuedBytes (x : Flow) : x.disabled.queuedBytes = x.queuedBytes := rfl
@[simp] theorem Flow.disabled_frameLimit (x : Flow) : x.disabled.frameLimit = x.frameLimit := rfl
@[simp] theorem Flow.disabled_byteLimit (x : Flow) : x.disabled.byteLimit = x.byteLimit := rfl
@[simp] theorem Flow.disabled_policy (x : Flow) : x.disabled.policy = x.policy := rfl
@[simp] theorem Flow.disabled_group (x : Flow) : x.disabled.group = x.group := rfl
@[simp] theorem Flow.disabled_inTransmission (x : Flow) : x.disabled.inTransmission = x.inTransmission := rfl
@[simp] theorem Flow.disabled_counters (x : Flow) : x.disabled.counters = x.counters := rfl
@[simp] theorem Flow.disabled_credit (x : Flow) : x.disabled.credit = x.credit := rfl
@[simp] theorem Flow.disabled_active (x : Flow) : x.disabled.active = x.active := rfl
@[simp] theorem Flow.disabled_remaining (x : Flow) : x.disabled.remaining = x.remaining := rfl
@[simp] theorem Flow.disabled_staged (x : Flow) : x.disabled.staged = none := rfl
@[simp] theorem Flow.disabled_adoptPending (x : Flow) : x.disabled.adoptPending = false := rfl
@[simp] theorem Flow.disabled_due (x : Flow) : x.disabled.due = { x.due with replenishment := false } := rfl
@[simp] theorem State.endRun_flows : s.endRun.flows = s.flows := rfl
@[simp] theorem State.endRun_store : s.endRun.store = s.store := rfl
@[simp] theorem State.endRun_classifier : s.endRun.classifier = s.classifier := rfl
@[simp] theorem State.endRun_pacing : s.endRun.pacing = s.pacing := rfl
@[simp] theorem State.endRun_up : s.endRun.up = s.up := rfl
@[simp] theorem State.endRun_down : s.endRun.down = s.down := rfl
@[simp] theorem State.endRun_agent : s.endRun.agent = s.agent := rfl
@[simp] theorem State.endRun_notices : s.endRun.notices = s.notices := rfl
@[simp] theorem State.endRun_pins : s.endRun.pins = s.pins := rfl
@[simp] theorem State.endRun_pending : s.endRun.pending = s.pending := rfl
@[simp] theorem State.endRun_flow  (g : FlowId) : s.endRun.flow g = s.flow g := rfl
@[simp] theorem State.endRunOf_flows (f : FlowId) : (s.endRunOf f).flows = s.flows := by
  unfold State.endRunOf; split <;> rfl
@[simp] theorem State.endRunOf_store (f : FlowId) : (s.endRunOf f).store = s.store := by
  unfold State.endRunOf; split <;> rfl
@[simp] theorem State.endRunOf_classifier (f : FlowId) : (s.endRunOf f).classifier = s.classifier := by
  unfold State.endRunOf; split <;> rfl
@[simp] theorem State.endRunOf_pacing (f : FlowId) : (s.endRunOf f).pacing = s.pacing := by
  unfold State.endRunOf; split <;> rfl
@[simp] theorem State.endRunOf_up (f : FlowId) : (s.endRunOf f).up = s.up := by
  unfold State.endRunOf; split <;> rfl
@[simp] theorem State.endRunOf_down (f : FlowId) : (s.endRunOf f).down = s.down := by
  unfold State.endRunOf; split <;> rfl
@[simp] theorem State.endRunOf_agent (f : FlowId) : (s.endRunOf f).agent = s.agent := by
  unfold State.endRunOf; split <;> rfl
@[simp] theorem State.endRunOf_notices (f : FlowId) : (s.endRunOf f).notices = s.notices := by
  unfold State.endRunOf; split <;> rfl
@[simp] theorem State.endRunOf_pins (f : FlowId) : (s.endRunOf f).pins = s.pins := by
  unfold State.endRunOf; split <;> rfl
@[simp] theorem State.endRunOf_pending (f : FlowId) : (s.endRunOf f).pending = s.pending := by
  unfold State.endRunOf; split <;> rfl
@[simp] theorem State.endRunOf_flow (f : FlowId) (g : FlowId) : (s.endRunOf f).flow g = s.flow g := by simp [State.flow]
@[simp] theorem State.modifyFlow_store (f : FlowId) (x : Flow → Flow) : (s.modifyFlow f x).store = s.store := rfl
@[simp] theorem State.modifyFlow_classifier (f : FlowId) (x : Flow → Flow) : (s.modifyFlow f x).classifier = s.classifier := rfl
@[simp] theorem State.modifyFlow_pacing (f : FlowId) (x : Flow → Flow) : (s.modifyFlow f x).pacing = s.pacing := rfl
@[simp] theorem State.modifyFlow_scheduler (f : FlowId) (x : Flow → Flow) : (s.modifyFlow f x).scheduler = s.scheduler := rfl
@[simp] theorem State.modifyFlow_up (f : FlowId) (x : Flow → Flow) : (s.modifyFlow f x).up = s.up := rfl
@[simp] theorem State.modifyFlow_down (f : FlowId) (x : Flow → Flow) : (s.modifyFlow f x).down = s.down := rfl
@[simp] theorem State.modifyFlow_agent (f : FlowId) (x : Flow → Flow) : (s.modifyFlow f x).agent = s.agent := rfl
@[simp] theorem State.modifyFlow_notices (f : FlowId) (x : Flow → Flow) : (s.modifyFlow f x).notices = s.notices := rfl
@[simp] theorem State.modifyFlow_pins (f : FlowId) (x : Flow → Flow) : (s.modifyFlow f x).pins = s.pins := rfl
@[simp] theorem State.modifyFlow_pending (f : FlowId) (x : Flow → Flow) : (s.modifyFlow f x).pending = s.pending := rfl
@[simp] theorem State.setFlowState_store (f : FlowId) (x : FlowState) : (s.setFlowState f x).store = s.store := rfl
@[simp] theorem State.setFlowState_classifier (f : FlowId) (x : FlowState) : (s.setFlowState f x).classifier = s.classifier := rfl
@[simp] theorem State.setFlowState_pacing (f : FlowId) (x : FlowState) : (s.setFlowState f x).pacing = s.pacing := rfl
@[simp] theorem State.setFlowState_scheduler (f : FlowId) (x : FlowState) : (s.setFlowState f x).scheduler = s.scheduler := rfl
@[simp] theorem State.setFlowState_up (f : FlowId) (x : FlowState) : (s.setFlowState f x).up = s.up := rfl
@[simp] theorem State.setFlowState_down (f : FlowId) (x : FlowState) : (s.setFlowState f x).down = s.down := rfl
@[simp] theorem State.setFlowState_agent (f : FlowId) (x : FlowState) : (s.setFlowState f x).agent = s.agent := rfl
@[simp] theorem State.setFlowState_notices (f : FlowId) (x : FlowState) : (s.setFlowState f x).notices = s.notices := rfl
@[simp] theorem State.setFlowState_pins (f : FlowId) (x : FlowState) : (s.setFlowState f x).pins = s.pins := rfl
@[simp] theorem State.setFlowState_pending (f : FlowId) (x : FlowState) : (s.setFlowState f x).pending = s.pending := rfl
@[simp] theorem State.enterDisabled_store (f : FlowId) : (s.enterDisabled f).store = s.store := by
  simp [State.enterDisabled]
@[simp] theorem State.enterDisabled_classifier (f : FlowId) : (s.enterDisabled f).classifier = s.classifier := by
  simp [State.enterDisabled]
@[simp] theorem State.enterDisabled_pacing (f : FlowId) : (s.enterDisabled f).pacing = s.pacing := by
  simp [State.enterDisabled]
@[simp] theorem State.enterDisabled_up (f : FlowId) : (s.enterDisabled f).up = s.up := by
  simp [State.enterDisabled]
@[simp] theorem State.enterDisabled_down (f : FlowId) : (s.enterDisabled f).down = s.down := by
  simp [State.enterDisabled]
@[simp] theorem State.enterDisabled_agent (f : FlowId) : (s.enterDisabled f).agent = s.agent := by
  simp [State.enterDisabled]
@[simp] theorem State.enterDisabled_pins (f : FlowId) : (s.enterDisabled f).pins = s.pins := by
  simp [State.enterDisabled]
@[simp] theorem State.enterDisabled_pending (f : FlowId) : (s.enterDisabled f).pending = s.pending := by
  simp [State.enterDisabled]
@[simp] theorem State.closeFlow_store (f : FlowId) : (s.closeFlow f).store = s.store := by
  unfold State.closeFlow; split <;> simp
@[simp] theorem State.closeFlow_classifier (f : FlowId) : (s.closeFlow f).classifier = s.classifier := by
  unfold State.closeFlow; split <;> simp
@[simp] theorem State.closeFlow_pacing (f : FlowId) : (s.closeFlow f).pacing = s.pacing := by
  unfold State.closeFlow; split <;> simp
@[simp] theorem State.closeFlow_up (f : FlowId) : (s.closeFlow f).up = s.up := by
  unfold State.closeFlow; split <;> simp
@[simp] theorem State.closeFlow_down (f : FlowId) : (s.closeFlow f).down = s.down := by
  unfold State.closeFlow; split <;> simp
@[simp] theorem State.closeFlow_agent (f : FlowId) : (s.closeFlow f).agent = s.agent := by
  unfold State.closeFlow; split <;> simp
@[simp] theorem State.closeFlow_pins (f : FlowId) : (s.closeFlow f).pins = s.pins := by
  unfold State.closeFlow; split <;> simp
@[simp] theorem State.closeFlow_pending (f : FlowId) : (s.closeFlow f).pending = s.pending := by
  unfold State.closeFlow; split <;> simp
@[simp] theorem State.completeFlush_store (f : FlowId) (back : ReturnState) : (s.completeFlush f back).store = s.store := by
  unfold State.completeFlush; repeat' split
  all_goals simp
@[simp] theorem State.completeFlush_classifier (f : FlowId) (back : ReturnState) : (s.completeFlush f back).classifier = s.classifier := by
  unfold State.completeFlush; repeat' split
  all_goals simp
@[simp] theorem State.completeFlush_pacing (f : FlowId) (back : ReturnState) : (s.completeFlush f back).pacing = s.pacing := by
  unfold State.completeFlush; repeat' split
  all_goals simp
@[simp] theorem State.completeFlush_up (f : FlowId) (back : ReturnState) : (s.completeFlush f back).up = s.up := by
  unfold State.completeFlush; repeat' split
  all_goals simp
@[simp] theorem State.completeFlush_down (f : FlowId) (back : ReturnState) : (s.completeFlush f back).down = s.down := by
  unfold State.completeFlush; repeat' split
  all_goals simp
@[simp] theorem State.completeFlush_agent (f : FlowId) (back : ReturnState) : (s.completeFlush f back).agent = s.agent := by
  unfold State.completeFlush; repeat' split
  all_goals simp
@[simp] theorem State.completeFlush_pins (f : FlowId) (back : ReturnState) : (s.completeFlush f back).pins = s.pins := by
  unfold State.completeFlush; repeat' split
  all_goals simp
@[simp] theorem State.completeFlush_pending (f : FlowId) (back : ReturnState) : (s.completeFlush f back).pending = s.pending := by
  unfold State.completeFlush; repeat' split
  all_goals simp
@[simp] theorem State.settleFlow_store (f : FlowId) : (s.settleFlow f).store = s.store := by
  unfold State.settleFlow; repeat' split
  all_goals simp
@[simp] theorem State.settleFlow_classifier (f : FlowId) : (s.settleFlow f).classifier = s.classifier := by
  unfold State.settleFlow; repeat' split
  all_goals simp
@[simp] theorem State.settleFlow_pacing (f : FlowId) : (s.settleFlow f).pacing = s.pacing := by
  unfold State.settleFlow; repeat' split
  all_goals simp
@[simp] theorem State.settleFlow_up (f : FlowId) : (s.settleFlow f).up = s.up := by
  unfold State.settleFlow; repeat' split
  all_goals simp
@[simp] theorem State.settleFlow_down (f : FlowId) : (s.settleFlow f).down = s.down := by
  unfold State.settleFlow; repeat' split
  all_goals simp
@[simp] theorem State.settleFlow_agent (f : FlowId) : (s.settleFlow f).agent = s.agent := by
  unfold State.settleFlow; repeat' split
  all_goals simp
@[simp] theorem State.settleFlow_pins (f : FlowId) : (s.settleFlow f).pins = s.pins := by
  unfold State.settleFlow; repeat' split
  all_goals simp
@[simp] theorem State.settleFlow_pending (f : FlowId) : (s.settleFlow f).pending = s.pending := by
  unfold State.settleFlow; repeat' split
  all_goals simp
@[simp] theorem State.settleDrain_store (f : FlowId) : (s.settleDrain f).store = s.store := by
  unfold State.settleDrain; split <;> simp
@[simp] theorem State.settleDrain_classifier (f : FlowId) : (s.settleDrain f).classifier = s.classifier := by
  unfold State.settleDrain; split <;> simp
@[simp] theorem State.settleDrain_pacing (f : FlowId) : (s.settleDrain f).pacing = s.pacing := by
  unfold State.settleDrain; split <;> simp
@[simp] theorem State.settleDrain_up (f : FlowId) : (s.settleDrain f).up = s.up := by
  unfold State.settleDrain; split <;> simp
@[simp] theorem State.settleDrain_down (f : FlowId) : (s.settleDrain f).down = s.down := by
  unfold State.settleDrain; split <;> simp
@[simp] theorem State.settleDrain_agent (f : FlowId) : (s.settleDrain f).agent = s.agent := by
  unfold State.settleDrain; split <;> simp
@[simp] theorem State.settleDrain_pins (f : FlowId) : (s.settleDrain f).pins = s.pins := by
  unfold State.settleDrain; split <;> simp
@[simp] theorem State.settleDrain_pending (f : FlowId) : (s.settleDrain f).pending = s.pending := by
  unfold State.settleDrain; split <;> simp
@[simp] theorem State.startFlush_store (f : FlowId) (back : ReturnState) : (s.startFlush f back).store = s.store := by
  simp [State.startFlush]
@[simp] theorem State.startFlush_classifier (f : FlowId) (back : ReturnState) : (s.startFlush f back).classifier = s.classifier := by
  simp [State.startFlush]
@[simp] theorem State.startFlush_pacing (f : FlowId) (back : ReturnState) : (s.startFlush f back).pacing = s.pacing := by
  simp [State.startFlush]
@[simp] theorem State.startFlush_up (f : FlowId) (back : ReturnState) : (s.startFlush f back).up = s.up := by
  simp [State.startFlush]
@[simp] theorem State.startFlush_down (f : FlowId) (back : ReturnState) : (s.startFlush f back).down = s.down := by
  simp [State.startFlush]
@[simp] theorem State.startFlush_agent (f : FlowId) (back : ReturnState) : (s.startFlush f back).agent = s.agent := by
  simp [State.startFlush]
@[simp] theorem State.startFlush_pins (f : FlowId) (back : ReturnState) : (s.startFlush f back).pins = s.pins := by
  simp [State.startFlush]
@[simp] theorem State.startFlush_pending (f : FlowId) (back : ReturnState) : (s.startFlush f back).pending = s.pending := by
  simp [State.startFlush]

/-! ## Head removals, aging and admission -/

@[simp] theorem State.countDiscard_store (f : FlowId) (why : DiscardReason) : (s.countDiscard f why).store = s.store := rfl
@[simp] theorem State.countDiscard_classifier (f : FlowId) (why : DiscardReason) : (s.countDiscard f why).classifier = s.classifier := rfl
@[simp] theorem State.countDiscard_pacing (f : FlowId) (why : DiscardReason) : (s.countDiscard f why).pacing = s.pacing := rfl
@[simp] theorem State.countDiscard_scheduler (f : FlowId) (why : DiscardReason) : (s.countDiscard f why).scheduler = s.scheduler := rfl
@[simp] theorem State.countDiscard_up (f : FlowId) (why : DiscardReason) : (s.countDiscard f why).up = s.up := rfl
@[simp] theorem State.countDiscard_down (f : FlowId) (why : DiscardReason) : (s.countDiscard f why).down = s.down := rfl
@[simp] theorem State.countDiscard_agent (f : FlowId) (why : DiscardReason) : (s.countDiscard f why).agent = s.agent := rfl
@[simp] theorem State.countDiscard_notices (f : FlowId) (why : DiscardReason) : (s.countDiscard f why).notices = s.notices := rfl
@[simp] theorem State.countDiscard_pins (f : FlowId) (why : DiscardReason) : (s.countDiscard f why).pins = s.pins := rfl
@[simp] theorem State.countDiscard_pending (f : FlowId) (why : DiscardReason) : (s.countDiscard f why).pending = s.pending := rfl
@[simp] theorem State.reportRemoval_flows (f : FlowId) (why : DiscardReason) : (s.reportRemoval f why).flows = s.flows := by
  unfold State.reportRemoval; split <;> rfl
@[simp] theorem State.reportRemoval_store (f : FlowId) (why : DiscardReason) : (s.reportRemoval f why).store = s.store := by
  unfold State.reportRemoval; split <;> rfl
@[simp] theorem State.reportRemoval_classifier (f : FlowId) (why : DiscardReason) : (s.reportRemoval f why).classifier = s.classifier := by
  unfold State.reportRemoval; split <;> rfl
@[simp] theorem State.reportRemoval_pacing (f : FlowId) (why : DiscardReason) : (s.reportRemoval f why).pacing = s.pacing := by
  unfold State.reportRemoval; split <;> rfl
@[simp] theorem State.reportRemoval_scheduler (f : FlowId) (why : DiscardReason) : (s.reportRemoval f why).scheduler = s.scheduler := by
  unfold State.reportRemoval; split <;> rfl
@[simp] theorem State.reportRemoval_up (f : FlowId) (why : DiscardReason) : (s.reportRemoval f why).up = s.up := by
  unfold State.reportRemoval; split <;> rfl
@[simp] theorem State.reportRemoval_down (f : FlowId) (why : DiscardReason) : (s.reportRemoval f why).down = s.down := by
  unfold State.reportRemoval; split <;> rfl
@[simp] theorem State.reportRemoval_agent (f : FlowId) (why : DiscardReason) : (s.reportRemoval f why).agent = s.agent := by
  unfold State.reportRemoval; split <;> rfl
@[simp] theorem State.reportRemoval_pins (f : FlowId) (why : DiscardReason) : (s.reportRemoval f why).pins = s.pins := by
  unfold State.reportRemoval; split <;> rfl
@[simp] theorem State.reportRemoval_pending (f : FlowId) (why : DiscardReason) : (s.reportRemoval f why).pending = s.pending := by
  unfold State.reportRemoval; split <;> rfl
@[simp] theorem State.reportRemoval_flow (f : FlowId) (why : DiscardReason) (g : FlowId) : (s.reportRemoval f why).flow g = s.flow g := by simp [State.flow]
@[simp] theorem State.discardHead_classifier (f : FlowId) (why : DiscardReason) : (s.discardHead f why).classifier = s.classifier := by
  unfold State.discardHead; split <;> simp
@[simp] theorem State.discardHead_pacing (f : FlowId) (why : DiscardReason) : (s.discardHead f why).pacing = s.pacing := by
  unfold State.discardHead; split <;> simp
@[simp] theorem State.discardHead_up (f : FlowId) (why : DiscardReason) : (s.discardHead f why).up = s.up := by
  unfold State.discardHead; split <;> simp
@[simp] theorem State.discardHead_down (f : FlowId) (why : DiscardReason) : (s.discardHead f why).down = s.down := by
  unfold State.discardHead; split <;> simp
@[simp] theorem State.discardHead_agent (f : FlowId) (why : DiscardReason) : (s.discardHead f why).agent = s.agent := by
  unfold State.discardHead; split <;> simp
@[simp] theorem State.discardHead_pins (f : FlowId) (why : DiscardReason) : (s.discardHead f why).pins = s.pins := by
  unfold State.discardHead; split <;> simp
@[simp] theorem State.discardHead_pending (f : FlowId) (why : DiscardReason) : (s.discardHead f why).pending = s.pending := by
  unfold State.discardHead; split <;> simp
@[simp] theorem State.removeStale_classifier (f : FlowId) (n : Nat) : (s.removeStale f n).classifier = s.classifier := by
  induction n generalizing s with
  | zero => rfl
  | succ n ih => unfold State.removeStale; repeat' split
                 all_goals simp [*]
@[simp] theorem State.removeStale_pacing (f : FlowId) (n : Nat) : (s.removeStale f n).pacing = s.pacing := by
  induction n generalizing s with
  | zero => rfl
  | succ n ih => unfold State.removeStale; repeat' split
                 all_goals simp [*]
@[simp] theorem State.removeStale_up (f : FlowId) (n : Nat) : (s.removeStale f n).up = s.up := by
  induction n generalizing s with
  | zero => rfl
  | succ n ih => unfold State.removeStale; repeat' split
                 all_goals simp [*]
@[simp] theorem State.removeStale_down (f : FlowId) (n : Nat) : (s.removeStale f n).down = s.down := by
  induction n generalizing s with
  | zero => rfl
  | succ n ih => unfold State.removeStale; repeat' split
                 all_goals simp [*]
@[simp] theorem State.removeStale_agent (f : FlowId) (n : Nat) : (s.removeStale f n).agent = s.agent := by
  induction n generalizing s with
  | zero => rfl
  | succ n ih => unfold State.removeStale; repeat' split
                 all_goals simp [*]
@[simp] theorem State.removeStale_pins (f : FlowId) (n : Nat) : (s.removeStale f n).pins = s.pins := by
  induction n generalizing s with
  | zero => rfl
  | succ n ih => unfold State.removeStale; repeat' split
                 all_goals simp [*]
@[simp] theorem State.removeStale_pending (f : FlowId) (n : Nat) : (s.removeStale f n).pending = s.pending := by
  induction n generalizing s with
  | zero => rfl
  | succ n ih => unfold State.removeStale; repeat' split
                 all_goals simp [*]
@[simp] theorem State.ageFlow_classifier (f : FlowId) : (s.ageFlow f).classifier = s.classifier := by
  simp [State.ageFlow]
@[simp] theorem State.ageFlow_pacing (f : FlowId) : (s.ageFlow f).pacing = s.pacing := by
  simp [State.ageFlow]
@[simp] theorem State.ageFlow_up (f : FlowId) : (s.ageFlow f).up = s.up := by
  simp [State.ageFlow]
@[simp] theorem State.ageFlow_down (f : FlowId) : (s.ageFlow f).down = s.down := by
  simp [State.ageFlow]
@[simp] theorem State.ageFlow_agent (f : FlowId) : (s.ageFlow f).agent = s.agent := by
  simp [State.ageFlow]
@[simp] theorem State.ageFlow_pins (f : FlowId) : (s.ageFlow f).pins = s.pins := by
  simp [State.ageFlow]
@[simp] theorem State.ageFlow_pending (f : FlowId) : (s.ageFlow f).pending = s.pending := by
  simp [State.ageFlow]
@[simp] theorem State.makeRoom_classifier (f : FlowId) (length n : Nat) : (s.makeRoom f length n).classifier = s.classifier := by
  induction n generalizing s with
  | zero => rfl
  | succ n ih => unfold State.makeRoom; repeat' split
                 all_goals simp [*]
@[simp] theorem State.makeRoom_pacing (f : FlowId) (length n : Nat) : (s.makeRoom f length n).pacing = s.pacing := by
  induction n generalizing s with
  | zero => rfl
  | succ n ih => unfold State.makeRoom; repeat' split
                 all_goals simp [*]
@[simp] theorem State.makeRoom_up (f : FlowId) (length n : Nat) : (s.makeRoom f length n).up = s.up := by
  induction n generalizing s with
  | zero => rfl
  | succ n ih => unfold State.makeRoom; repeat' split
                 all_goals simp [*]
@[simp] theorem State.makeRoom_down (f : FlowId) (length n : Nat) : (s.makeRoom f length n).down = s.down := by
  induction n generalizing s with
  | zero => rfl
  | succ n ih => unfold State.makeRoom; repeat' split
                 all_goals simp [*]
@[simp] theorem State.makeRoom_agent (f : FlowId) (length n : Nat) : (s.makeRoom f length n).agent = s.agent := by
  induction n generalizing s with
  | zero => rfl
  | succ n ih => unfold State.makeRoom; repeat' split
                 all_goals simp [*]
@[simp] theorem State.makeRoom_pins (f : FlowId) (length n : Nat) : (s.makeRoom f length n).pins = s.pins := by
  induction n generalizing s with
  | zero => rfl
  | succ n ih => unfold State.makeRoom; repeat' split
                 all_goals simp [*]
@[simp] theorem State.makeRoom_pending (f : FlowId) (length n : Nat) : (s.makeRoom f length n).pending = s.pending := by
  induction n generalizing s with
  | zero => rfl
  | succ n ih => unfold State.makeRoom; repeat' split
                 all_goals simp [*]
@[simp] theorem State.refuseLimit_store (f : FlowId) : (s.refuseLimit f).store = s.store := rfl
@[simp] theorem State.refuseLimit_classifier (f : FlowId) : (s.refuseLimit f).classifier = s.classifier := rfl
@[simp] theorem State.refuseLimit_pacing (f : FlowId) : (s.refuseLimit f).pacing = s.pacing := rfl
@[simp] theorem State.refuseLimit_scheduler (f : FlowId) : (s.refuseLimit f).scheduler = s.scheduler := rfl
@[simp] theorem State.refuseLimit_up (f : FlowId) : (s.refuseLimit f).up = s.up := rfl
@[simp] theorem State.refuseLimit_down (f : FlowId) : (s.refuseLimit f).down = s.down := rfl
@[simp] theorem State.refuseLimit_agent (f : FlowId) : (s.refuseLimit f).agent = s.agent := rfl
@[simp] theorem State.refuseLimit_pins (f : FlowId) : (s.refuseLimit f).pins = s.pins := rfl
@[simp] theorem State.refuseLimit_pending (f : FlowId) : (s.refuseLimit f).pending = s.pending := rfl
@[simp] theorem State.admit_classifier (f : FlowId) (length : Nat) : (s.admitting f length).1.classifier = s.classifier := by
  unfold State.admitting; simp only []; repeat' split
  all_goals simp
@[simp] theorem State.admit_pacing (f : FlowId) (length : Nat) : (s.admitting f length).1.pacing = s.pacing := by
  unfold State.admitting; simp only []; repeat' split
  all_goals simp
@[simp] theorem State.admit_up (f : FlowId) (length : Nat) : (s.admitting f length).1.up = s.up := by
  unfold State.admitting; simp only []; repeat' split
  all_goals simp
@[simp] theorem State.admit_down (f : FlowId) (length : Nat) : (s.admitting f length).1.down = s.down := by
  unfold State.admitting; simp only []; repeat' split
  all_goals simp
@[simp] theorem State.admit_agent (f : FlowId) (length : Nat) : (s.admitting f length).1.agent = s.agent := by
  unfold State.admitting; simp only []; repeat' split
  all_goals simp
@[simp] theorem State.admit_pins (f : FlowId) (length : Nat) : (s.admitting f length).1.pins = s.pins := by
  unfold State.admitting; simp only []; repeat' split
  all_goals simp
@[simp] theorem State.admit_pending (f : FlowId) (length : Nat) : (s.admitting f length).1.pending = s.pending := by
  unfold State.admitting; simp only []; repeat' split
  all_goals simp

/-! ## The commit and the reservation -/

@[simp] theorem State.appendRecord_classifier (f : FlowId) (r : RecordId) : (s.appendRecord f r).classifier = s.classifier := rfl
@[simp] theorem State.appendRecord_pacing (f : FlowId) (r : RecordId) : (s.appendRecord f r).pacing = s.pacing := rfl
@[simp] theorem State.appendRecord_scheduler (f : FlowId) (r : RecordId) : (s.appendRecord f r).scheduler = s.scheduler := rfl
@[simp] theorem State.appendRecord_up (f : FlowId) (r : RecordId) : (s.appendRecord f r).up = s.up := rfl
@[simp] theorem State.appendRecord_down (f : FlowId) (r : RecordId) : (s.appendRecord f r).down = s.down := rfl
@[simp] theorem State.appendRecord_agent (f : FlowId) (r : RecordId) : (s.appendRecord f r).agent = s.agent := rfl
@[simp] theorem State.appendRecord_notices (f : FlowId) (r : RecordId) : (s.appendRecord f r).notices = s.notices := rfl
@[simp] theorem State.appendRecord_pins (f : FlowId) (r : RecordId) : (s.appendRecord f r).pins = s.pins := rfl
@[simp] theorem State.appendRecord_pending (f : FlowId) (r : RecordId) : (s.appendRecord f r).pending = s.pending := rfl
@[simp] theorem State.commitRecord_classifier (r : RecordId) : (s.commitRecord r).1.classifier = s.classifier := by
  unfold State.commitRecord; simp only []; repeat' split
  all_goals simp
@[simp] theorem State.commitRecord_pacing (r : RecordId) : (s.commitRecord r).1.pacing = s.pacing := by
  unfold State.commitRecord; simp only []; repeat' split
  all_goals simp
@[simp] theorem State.commitRecord_scheduler (r : RecordId) : (s.commitRecord r).1.scheduler = s.scheduler := by
  unfold State.commitRecord; simp only []; repeat' split
  all_goals simp
@[simp] theorem State.commitRecord_up (r : RecordId) : (s.commitRecord r).1.up = s.up := by
  unfold State.commitRecord; simp only []; repeat' split
  all_goals simp
@[simp] theorem State.commitRecord_down (r : RecordId) : (s.commitRecord r).1.down = s.down := by
  unfold State.commitRecord; simp only []; repeat' split
  all_goals simp
@[simp] theorem State.commitRecord_agent (r : RecordId) : (s.commitRecord r).1.agent = s.agent := by
  unfold State.commitRecord; simp only []; repeat' split
  all_goals simp
@[simp] theorem State.commitRecord_notices (r : RecordId) : (s.commitRecord r).1.notices = s.notices := by
  unfold State.commitRecord; simp only []; repeat' split
  all_goals simp
@[simp] theorem State.commitRecord_pins (r : RecordId) : (s.commitRecord r).1.pins = s.pins := by
  unfold State.commitRecord; simp only []; repeat' split
  all_goals simp
@[simp] theorem State.commitRecord_pending (r : RecordId) : (s.commitRecord r).1.pending = s.pending := by
  unfold State.commitRecord; simp only []; repeat' split
  all_goals simp
@[simp] theorem State.commitRecords_classifier (rs : List RecordId) : (s.commitRecords rs).1.classifier = s.classifier := by
  induction rs generalizing s with
  | nil => rfl
  | cons r rs ih => simp [State.commitRecords, ih]
@[simp] theorem State.commitRecords_pacing (rs : List RecordId) : (s.commitRecords rs).1.pacing = s.pacing := by
  induction rs generalizing s with
  | nil => rfl
  | cons r rs ih => simp [State.commitRecords, ih]
@[simp] theorem State.commitRecords_scheduler (rs : List RecordId) : (s.commitRecords rs).1.scheduler = s.scheduler := by
  induction rs generalizing s with
  | nil => rfl
  | cons r rs ih => simp [State.commitRecords, ih]
@[simp] theorem State.commitRecords_up (rs : List RecordId) : (s.commitRecords rs).1.up = s.up := by
  induction rs generalizing s with
  | nil => rfl
  | cons r rs ih => simp [State.commitRecords, ih]
@[simp] theorem State.commitRecords_down (rs : List RecordId) : (s.commitRecords rs).1.down = s.down := by
  induction rs generalizing s with
  | nil => rfl
  | cons r rs ih => simp [State.commitRecords, ih]
@[simp] theorem State.commitRecords_agent (rs : List RecordId) : (s.commitRecords rs).1.agent = s.agent := by
  induction rs generalizing s with
  | nil => rfl
  | cons r rs ih => simp [State.commitRecords, ih]
@[simp] theorem State.commitRecords_notices (rs : List RecordId) : (s.commitRecords rs).1.notices = s.notices := by
  induction rs generalizing s with
  | nil => rfl
  | cons r rs ih => simp [State.commitRecords, ih]
@[simp] theorem State.commitRecords_pins (rs : List RecordId) : (s.commitRecords rs).1.pins = s.pins := by
  induction rs generalizing s with
  | nil => rfl
  | cons r rs ih => simp [State.commitRecords, ih]
@[simp] theorem State.commitRecords_pending (rs : List RecordId) : (s.commitRecords rs).1.pending = s.pending := by
  induction rs generalizing s with
  | nil => rfl
  | cons r rs ih => simp [State.commitRecords, ih]
@[simp] theorem State.commit_classifier (b : BodyId) (records : List RecordId) : (s.commit b records).classifier = s.classifier := by
  simp [State.commit]
@[simp] theorem State.commit_pacing (b : BodyId) (records : List RecordId) : (s.commit b records).pacing = s.pacing := by
  simp [State.commit]
@[simp] theorem State.commit_scheduler (b : BodyId) (records : List RecordId) : (s.commit b records).scheduler = s.scheduler := by
  simp [State.commit]
@[simp] theorem State.commit_up (b : BodyId) (records : List RecordId) : (s.commit b records).up = s.up := by
  simp [State.commit]
@[simp] theorem State.commit_down (b : BodyId) (records : List RecordId) : (s.commit b records).down = s.down := by
  simp [State.commit]
@[simp] theorem State.commit_agent (b : BodyId) (records : List RecordId) : (s.commit b records).agent = s.agent := by
  simp [State.commit]
@[simp] theorem State.commit_pins (b : BodyId) (records : List RecordId) : (s.commit b records).pins = s.pins := by
  simp [State.commit]
@[simp] theorem State.commit_pending (b : BodyId) (records : List RecordId) : (s.commit b records).pending = s.pending := by
  simp [State.commit]
@[simp] theorem State.poolDiscard_store (gs : List Grant) : (s.poolDiscard gs).store = s.store := by
  induction gs generalizing s with
  | nil => rfl
  | cons g gs ih => simp [State.poolDiscard, ih]
@[simp] theorem State.poolDiscard_classifier (gs : List Grant) : (s.poolDiscard gs).classifier = s.classifier := by
  induction gs generalizing s with
  | nil => rfl
  | cons g gs ih => simp [State.poolDiscard, ih]
@[simp] theorem State.poolDiscard_pacing (gs : List Grant) : (s.poolDiscard gs).pacing = s.pacing := by
  induction gs generalizing s with
  | nil => rfl
  | cons g gs ih => simp [State.poolDiscard, ih]
@[simp] theorem State.poolDiscard_scheduler (gs : List Grant) : (s.poolDiscard gs).scheduler = s.scheduler := by
  induction gs generalizing s with
  | nil => rfl
  | cons g gs ih => simp [State.poolDiscard, ih]
@[simp] theorem State.poolDiscard_up (gs : List Grant) : (s.poolDiscard gs).up = s.up := by
  induction gs generalizing s with
  | nil => rfl
  | cons g gs ih => simp [State.poolDiscard, ih]
@[simp] theorem State.poolDiscard_down (gs : List Grant) : (s.poolDiscard gs).down = s.down := by
  induction gs generalizing s with
  | nil => rfl
  | cons g gs ih => simp [State.poolDiscard, ih]
@[simp] theorem State.poolDiscard_agent (gs : List Grant) : (s.poolDiscard gs).agent = s.agent := by
  induction gs generalizing s with
  | nil => rfl
  | cons g gs ih => simp [State.poolDiscard, ih]
@[simp] theorem State.poolDiscard_notices (gs : List Grant) : (s.poolDiscard gs).notices = s.notices := by
  induction gs generalizing s with
  | nil => rfl
  | cons g gs ih => simp [State.poolDiscard, ih]
@[simp] theorem State.poolDiscard_pins (gs : List Grant) : (s.poolDiscard gs).pins = s.pins := by
  induction gs generalizing s with
  | nil => rfl
  | cons g gs ih => simp [State.poolDiscard, ih]
@[simp] theorem State.poolDiscard_pending (gs : List Grant) : (s.poolDiscard gs).pending = s.pending := by
  induction gs generalizing s with
  | nil => rfl
  | cons g gs ih => simp [State.poolDiscard, ih]

/-! ## Profile steps -/

@[simp] theorem State.swap_store (f : FlowId) : (s.swap f).store = s.store := by
  unfold State.swap; split <;> simp
@[simp] theorem State.swap_classifier (f : FlowId) : (s.swap f).classifier = s.classifier := by
  unfold State.swap; split <;> simp
@[simp] theorem State.swap_pacing (f : FlowId) : (s.swap f).pacing = s.pacing := by
  unfold State.swap; split <;> simp
@[simp] theorem State.swap_up (f : FlowId) : (s.swap f).up = s.up := by
  unfold State.swap; split <;> simp
@[simp] theorem State.swap_down (f : FlowId) : (s.swap f).down = s.down := by
  unfold State.swap; split <;> simp
@[simp] theorem State.swap_agent (f : FlowId) : (s.swap f).agent = s.agent := by
  unfold State.swap; split <;> simp
@[simp] theorem State.swap_pins (f : FlowId) : (s.swap f).pins = s.pins := by
  unfold State.swap; split <;> simp
@[simp] theorem State.swap_pending (f : FlowId) : (s.swap f).pending = s.pending := by
  unfold State.swap; split <;> simp
@[simp] theorem State.expireFlow_store (f : FlowId) : (s.expireFlow f).store = s.store := by
  unfold State.expireFlow; simp only []; split <;> simp
@[simp] theorem State.expireFlow_classifier (f : FlowId) : (s.expireFlow f).classifier = s.classifier := by
  unfold State.expireFlow; simp only []; split <;> simp
@[simp] theorem State.expireFlow_pacing (f : FlowId) : (s.expireFlow f).pacing = s.pacing := by
  unfold State.expireFlow; simp only []; split <;> simp
@[simp] theorem State.expireFlow_up (f : FlowId) : (s.expireFlow f).up = s.up := by
  unfold State.expireFlow; simp only []; split <;> simp
@[simp] theorem State.expireFlow_down (f : FlowId) : (s.expireFlow f).down = s.down := by
  unfold State.expireFlow; simp only []; split <;> simp
@[simp] theorem State.expireFlow_agent (f : FlowId) : (s.expireFlow f).agent = s.agent := by
  unfold State.expireFlow; simp only []; split <;> simp
@[simp] theorem State.expireFlow_pins (f : FlowId) : (s.expireFlow f).pins = s.pins := by
  unfold State.expireFlow; simp only []; split <;> simp
@[simp] theorem State.expireFlow_pending (f : FlowId) : (s.expireFlow f).pending = s.pending := by
  unfold State.expireFlow; simp only []; split <;> simp
@[simp] theorem State.countDown_store (f : FlowId) : (s.countDown f).store = s.store := by
  unfold State.countDown; repeat' split
  all_goals simp
@[simp] theorem State.countDown_classifier (f : FlowId) : (s.countDown f).classifier = s.classifier := by
  unfold State.countDown; repeat' split
  all_goals simp
@[simp] theorem State.countDown_pacing (f : FlowId) : (s.countDown f).pacing = s.pacing := by
  unfold State.countDown; repeat' split
  all_goals simp
@[simp] theorem State.countDown_up (f : FlowId) : (s.countDown f).up = s.up := by
  unfold State.countDown; repeat' split
  all_goals simp
@[simp] theorem State.countDown_down (f : FlowId) : (s.countDown f).down = s.down := by
  unfold State.countDown; repeat' split
  all_goals simp
@[simp] theorem State.countDown_agent (f : FlowId) : (s.countDown f).agent = s.agent := by
  unfold State.countDown; repeat' split
  all_goals simp
@[simp] theorem State.countDown_pins (f : FlowId) : (s.countDown f).pins = s.pins := by
  unfold State.countDown; repeat' split
  all_goals simp
@[simp] theorem State.countDown_pending (f : FlowId) : (s.countDown f).pending = s.pending := by
  unfold State.countDown; repeat' split
  all_goals simp
@[simp] theorem State.profileStep_store (f : FlowId) : (s.profileStep f).store = s.store := by
  unfold State.profileStep; repeat' split
  all_goals simp
@[simp] theorem State.profileStep_classifier (f : FlowId) : (s.profileStep f).classifier = s.classifier := by
  unfold State.profileStep; repeat' split
  all_goals simp
@[simp] theorem State.profileStep_pacing (f : FlowId) : (s.profileStep f).pacing = s.pacing := by
  unfold State.profileStep; repeat' split
  all_goals simp
@[simp] theorem State.profileStep_up (f : FlowId) : (s.profileStep f).up = s.up := by
  unfold State.profileStep; repeat' split
  all_goals simp
@[simp] theorem State.profileStep_down (f : FlowId) : (s.profileStep f).down = s.down := by
  unfold State.profileStep; repeat' split
  all_goals simp
@[simp] theorem State.profileStep_agent (f : FlowId) : (s.profileStep f).agent = s.agent := by
  unfold State.profileStep; repeat' split
  all_goals simp
@[simp] theorem State.profileStep_pins (f : FlowId) : (s.profileStep f).pins = s.pins := by
  unfold State.profileStep; repeat' split
  all_goals simp
@[simp] theorem State.profileStep_pending (f : FlowId) : (s.profileStep f).pending = s.pending := by
  unfold State.profileStep; repeat' split
  all_goals simp
@[simp] theorem State.takeProfileStep_store (f : FlowId) : (s.takeProfileStep f).store = s.store := by
  simp [State.takeProfileStep]
@[simp] theorem State.takeProfileStep_classifier (f : FlowId) : (s.takeProfileStep f).classifier = s.classifier := by
  simp [State.takeProfileStep]
@[simp] theorem State.takeProfileStep_pacing (f : FlowId) : (s.takeProfileStep f).pacing = s.pacing := by
  simp [State.takeProfileStep]
@[simp] theorem State.takeProfileStep_up (f : FlowId) : (s.takeProfileStep f).up = s.up := by
  simp [State.takeProfileStep]
@[simp] theorem State.takeProfileStep_down (f : FlowId) : (s.takeProfileStep f).down = s.down := by
  simp [State.takeProfileStep]
@[simp] theorem State.takeProfileStep_agent (f : FlowId) : (s.takeProfileStep f).agent = s.agent := by
  simp [State.takeProfileStep]
@[simp] theorem State.takeProfileStep_pins (f : FlowId) : (s.takeProfileStep f).pins = s.pins := by
  simp [State.takeProfileStep]
@[simp] theorem State.takeProfileStep_pending (f : FlowId) : (s.takeProfileStep f).pending = s.pending := by
  simp [State.takeProfileStep]

/-! ## The selection -/

@[simp] theorem State.grant_flows (k : Fin 8) (f : FlowId) : (s.grant k f).flows = s.flows := rfl
@[simp] theorem State.grant_store (k : Fin 8) (f : FlowId) : (s.grant k f).store = s.store := rfl
@[simp] theorem State.grant_classifier (k : Fin 8) (f : FlowId) : (s.grant k f).classifier = s.classifier := rfl
@[simp] theorem State.grant_pacing (k : Fin 8) (f : FlowId) : (s.grant k f).pacing = s.pacing := rfl
@[simp] theorem State.grant_up (k : Fin 8) (f : FlowId) : (s.grant k f).up = s.up := rfl
@[simp] theorem State.grant_down (k : Fin 8) (f : FlowId) : (s.grant k f).down = s.down := rfl
@[simp] theorem State.grant_agent (k : Fin 8) (f : FlowId) : (s.grant k f).agent = s.agent := rfl
@[simp] theorem State.grant_notices (k : Fin 8) (f : FlowId) : (s.grant k f).notices = s.notices := rfl
@[simp] theorem State.grant_pins (k : Fin 8) (f : FlowId) : (s.grant k f).pins = s.pins := rfl
@[simp] theorem State.grant_pending (k : Fin 8) (f : FlowId) : (s.grant k f).pending = s.pending := rfl
@[simp] theorem State.grant_flow (k : Fin 8) (f : FlowId) (g : FlowId) : (s.grant k f).flow g = s.flow g := rfl
@[simp] theorem State.releaseHead_classifier (f : FlowId) : (s.releaseHead f).classifier = s.classifier := by
  unfold State.releaseHead; repeat' split
  all_goals simp
@[simp] theorem State.releaseHead_pacing (f : FlowId) : (s.releaseHead f).pacing = s.pacing := by
  unfold State.releaseHead; repeat' split
  all_goals simp
@[simp] theorem State.releaseHead_scheduler (f : FlowId) : (s.releaseHead f).scheduler = s.scheduler := by
  unfold State.releaseHead; repeat' split
  all_goals simp
@[simp] theorem State.releaseHead_up (f : FlowId) : (s.releaseHead f).up = s.up := by
  unfold State.releaseHead; repeat' split
  all_goals simp
@[simp] theorem State.releaseHead_agent (f : FlowId) : (s.releaseHead f).agent = s.agent := by
  unfold State.releaseHead; repeat' split
  all_goals simp
@[simp] theorem State.releaseHead_notices (f : FlowId) : (s.releaseHead f).notices = s.notices := by
  unfold State.releaseHead; repeat' split
  all_goals simp
@[simp] theorem State.releaseHead_pins (f : FlowId) : (s.releaseHead f).pins = s.pins := by
  unfold State.releaseHead; repeat' split
  all_goals simp
@[simp] theorem State.releaseHead_pending (f : FlowId) : (s.releaseHead f).pending = s.pending := by
  unfold State.releaseHead; repeat' split
  all_goals simp
@[simp] theorem State.agingFold_classifier (fs : List FlowId) : (fs.foldl (fun t f => if (t.flow f).releasing then t.ageFlow f else t) s).classifier = s.classifier := by
  induction fs generalizing s with
  | nil => rfl
  | cons f fs ih => simp only [List.foldl_cons, ih]; split <;> simp
@[simp] theorem State.agingFold_pacing (fs : List FlowId) : (fs.foldl (fun t f => if (t.flow f).releasing then t.ageFlow f else t) s).pacing = s.pacing := by
  induction fs generalizing s with
  | nil => rfl
  | cons f fs ih => simp only [List.foldl_cons, ih]; split <;> simp
@[simp] theorem State.agingFold_up (fs : List FlowId) : (fs.foldl (fun t f => if (t.flow f).releasing then t.ageFlow f else t) s).up = s.up := by
  induction fs generalizing s with
  | nil => rfl
  | cons f fs ih => simp only [List.foldl_cons, ih]; split <;> simp
@[simp] theorem State.agingFold_down (fs : List FlowId) : (fs.foldl (fun t f => if (t.flow f).releasing then t.ageFlow f else t) s).down = s.down := by
  induction fs generalizing s with
  | nil => rfl
  | cons f fs ih => simp only [List.foldl_cons, ih]; split <;> simp
@[simp] theorem State.agingFold_agent (fs : List FlowId) : (fs.foldl (fun t f => if (t.flow f).releasing then t.ageFlow f else t) s).agent = s.agent := by
  induction fs generalizing s with
  | nil => rfl
  | cons f fs ih => simp only [List.foldl_cons, ih]; split <;> simp
@[simp] theorem State.agingFold_pins (fs : List FlowId) : (fs.foldl (fun t f => if (t.flow f).releasing then t.ageFlow f else t) s).pins = s.pins := by
  induction fs generalizing s with
  | nil => rfl
  | cons f fs ih => simp only [List.foldl_cons, ih]; split <;> simp
@[simp] theorem State.agingFold_pending (fs : List FlowId) : (fs.foldl (fun t f => if (t.flow f).releasing then t.ageFlow f else t) s).pending = s.pending := by
  induction fs generalizing s with
  | nil => rfl
  | cons f fs ih => simp only [List.foldl_cons, ih]; split <;> simp
@[simp] theorem State.agingCheck_classifier : s.agingCheck.classifier = s.classifier := by
  exact State.agingFold_classifier s allFlows
@[simp] theorem State.agingCheck_pacing : s.agingCheck.pacing = s.pacing := by
  exact State.agingFold_pacing s allFlows
@[simp] theorem State.agingCheck_up : s.agingCheck.up = s.up := by
  exact State.agingFold_up s allFlows
@[simp] theorem State.agingCheck_down : s.agingCheck.down = s.down := by
  exact State.agingFold_down s allFlows
@[simp] theorem State.agingCheck_agent : s.agingCheck.agent = s.agent := by
  exact State.agingFold_agent s allFlows
@[simp] theorem State.agingCheck_pins : s.agingCheck.pins = s.pins := by
  exact State.agingFold_pins s allFlows
@[simp] theorem State.agingCheck_pending : s.agingCheck.pending = s.pending := by
  exact State.agingFold_pending s allFlows
@[simp] theorem State.arbitrate_classifier : s.arbitrate.classifier = s.classifier := by
  unfold State.arbitrate; split <;> simp
@[simp] theorem State.arbitrate_pacing : s.arbitrate.pacing = s.pacing := by
  unfold State.arbitrate; split <;> simp
@[simp] theorem State.arbitrate_up : s.arbitrate.up = s.up := by
  unfold State.arbitrate; split <;> simp
@[simp] theorem State.arbitrate_agent : s.arbitrate.agent = s.agent := by
  unfold State.arbitrate; split <;> simp
@[simp] theorem State.arbitrate_notices : s.arbitrate.notices = s.notices := by
  unfold State.arbitrate; split <;> simp
@[simp] theorem State.arbitrate_pins : s.arbitrate.pins = s.pins := by
  unfold State.arbitrate; split <;> simp
@[simp] theorem State.arbitrate_pending : s.arbitrate.pending = s.pending := by
  unfold State.arbitrate; split <;> simp
@[simp] theorem State.choose_classifier : s.choose.classifier = s.classifier := by
  unfold State.choose; repeat' split
  all_goals simp
@[simp] theorem State.choose_pacing : s.choose.pacing = s.pacing := by
  unfold State.choose; repeat' split
  all_goals simp
@[simp] theorem State.choose_up : s.choose.up = s.up := by
  unfold State.choose; repeat' split
  all_goals simp
@[simp] theorem State.choose_agent : s.choose.agent = s.agent := by
  unfold State.choose; repeat' split
  all_goals simp
@[simp] theorem State.choose_notices : s.choose.notices = s.notices := by
  unfold State.choose; repeat' split
  all_goals simp
@[simp] theorem State.choose_pins : s.choose.pins = s.pins := by
  unfold State.choose; repeat' split
  all_goals simp
@[simp] theorem State.choose_pending : s.choose.pending = s.pending := by
  unfold State.choose; repeat' split
  all_goals simp
@[simp] theorem State.quenchOn_flows : s.quenchOn.flows = s.flows := rfl
@[simp] theorem State.quenchOn_store : s.quenchOn.store = s.store := rfl
@[simp] theorem State.quenchOn_classifier : s.quenchOn.classifier = s.classifier := rfl
@[simp] theorem State.quenchOn_pacing : s.quenchOn.pacing = s.pacing := rfl
@[simp] theorem State.quenchOn_up : s.quenchOn.up = s.up := rfl
@[simp] theorem State.quenchOn_down : s.quenchOn.down = s.down := rfl
@[simp] theorem State.quenchOn_agent : s.quenchOn.agent = s.agent := rfl
@[simp] theorem State.quenchOn_pins : s.quenchOn.pins = s.pins := rfl
@[simp] theorem State.quenchOn_pending : s.quenchOn.pending = s.pending := rfl
@[simp] theorem State.quenchOn_flow  (g : FlowId) : s.quenchOn.flow g = s.flow g := rfl
@[simp] theorem State.stuckTest_flows : s.stuckTest.flows = s.flows := by
  unfold State.stuckTest; split <;> rfl
@[simp] theorem State.stuckTest_store : s.stuckTest.store = s.store := by
  unfold State.stuckTest; split <;> rfl
@[simp] theorem State.stuckTest_classifier : s.stuckTest.classifier = s.classifier := by
  unfold State.stuckTest; split <;> rfl
@[simp] theorem State.stuckTest_pacing : s.stuckTest.pacing = s.pacing := by
  unfold State.stuckTest; split <;> rfl
@[simp] theorem State.stuckTest_scheduler : s.stuckTest.scheduler = s.scheduler := by
  unfold State.stuckTest; split <;> rfl
@[simp] theorem State.stuckTest_up : s.stuckTest.up = s.up := by
  unfold State.stuckTest; split <;> rfl
@[simp] theorem State.stuckTest_agent : s.stuckTest.agent = s.agent := by
  unfold State.stuckTest; split <;> rfl
@[simp] theorem State.stuckTest_pins : s.stuckTest.pins = s.pins := by
  unfold State.stuckTest; split <;> rfl
@[simp] theorem State.stuckTest_pending : s.stuckTest.pending = s.pending := by
  unfold State.stuckTest; split <;> rfl
@[simp] theorem State.stuckTest_flow  (g : FlowId) : s.stuckTest.flow g = s.flow g := by simp [State.flow]
@[simp] theorem State.takeHoldTick_flows : s.takeHoldTick.flows = s.flows := by
  unfold State.takeHoldTick; split <;> simp
@[simp] theorem State.takeHoldTick_store : s.takeHoldTick.store = s.store := by
  unfold State.takeHoldTick; split <;> simp
@[simp] theorem State.takeHoldTick_classifier : s.takeHoldTick.classifier = s.classifier := by
  unfold State.takeHoldTick; split <;> simp
@[simp] theorem State.takeHoldTick_pacing : s.takeHoldTick.pacing = s.pacing := by
  unfold State.takeHoldTick; split <;> simp
@[simp] theorem State.takeHoldTick_scheduler : s.takeHoldTick.scheduler = s.scheduler := by
  unfold State.takeHoldTick; split <;> simp
@[simp] theorem State.takeHoldTick_up : s.takeHoldTick.up = s.up := by
  unfold State.takeHoldTick; split <;> simp
@[simp] theorem State.takeHoldTick_agent : s.takeHoldTick.agent = s.agent := by
  unfold State.takeHoldTick; split <;> simp
@[simp] theorem State.takeHoldTick_pins : s.takeHoldTick.pins = s.pins := by
  unfold State.takeHoldTick; split <;> simp
@[simp] theorem State.takeHoldTick_pending : s.takeHoldTick.pending = s.pending := by
  unfold State.takeHoldTick; split <;> simp
@[simp] theorem State.takeHoldTick_flow  (g : FlowId) : s.takeHoldTick.flow g = s.flow g := by simp [State.flow]

/-! ## The receive lane -/

@[simp] theorem State.ingressError_flows (e : IngressError) : (s.ingressError e).flows = s.flows := by
  unfold State.ingressError; split <;> rfl
@[simp] theorem State.ingressError_store (e : IngressError) : (s.ingressError e).store = s.store := by
  unfold State.ingressError; split <;> rfl
@[simp] theorem State.ingressError_classifier (e : IngressError) : (s.ingressError e).classifier = s.classifier := by
  unfold State.ingressError; split <;> rfl
@[simp] theorem State.ingressError_pacing (e : IngressError) : (s.ingressError e).pacing = s.pacing := by
  unfold State.ingressError; split <;> rfl
@[simp] theorem State.ingressError_scheduler (e : IngressError) : (s.ingressError e).scheduler = s.scheduler := by
  unfold State.ingressError; split <;> rfl
@[simp] theorem State.ingressError_down (e : IngressError) : (s.ingressError e).down = s.down := by
  unfold State.ingressError; split <;> rfl
@[simp] theorem State.ingressError_agent (e : IngressError) : (s.ingressError e).agent = s.agent := by
  unfold State.ingressError; split <;> rfl
@[simp] theorem State.ingressError_pins (e : IngressError) : (s.ingressError e).pins = s.pins := by
  unfold State.ingressError; split <;> rfl
@[simp] theorem State.ingressError_pending (e : IngressError) : (s.ingressError e).pending = s.pending := by
  unfold State.ingressError; split <;> rfl
@[simp] theorem State.ingressError_flow (e : IngressError) (g : FlowId) : (s.ingressError e).flow g = s.flow g := by simp [State.flow]
@[simp] theorem State.countReceived_flows : s.countReceived.flows = s.flows := by
  unfold State.countReceived; split <;> rfl
@[simp] theorem State.countReceived_store : s.countReceived.store = s.store := by
  unfold State.countReceived; split <;> rfl
@[simp] theorem State.countReceived_classifier : s.countReceived.classifier = s.classifier := by
  unfold State.countReceived; split <;> rfl
@[simp] theorem State.countReceived_pacing : s.countReceived.pacing = s.pacing := by
  unfold State.countReceived; split <;> rfl
@[simp] theorem State.countReceived_scheduler : s.countReceived.scheduler = s.scheduler := by
  unfold State.countReceived; split <;> rfl
@[simp] theorem State.countReceived_down : s.countReceived.down = s.down := by
  unfold State.countReceived; split <;> rfl
@[simp] theorem State.countReceived_agent : s.countReceived.agent = s.agent := by
  unfold State.countReceived; split <;> rfl
@[simp] theorem State.countReceived_notices : s.countReceived.notices = s.notices := by
  unfold State.countReceived; split <;> rfl
@[simp] theorem State.countReceived_pins : s.countReceived.pins = s.pins := by
  unfold State.countReceived; split <;> rfl
@[simp] theorem State.countReceived_pending : s.countReceived.pending = s.pending := by
  unfold State.countReceived; split <;> rfl
@[simp] theorem State.countReceived_flow  (g : FlowId) : s.countReceived.flow g = s.flow g := by simp [State.flow]
@[simp] theorem State.setSlot_flows (k : SlotId) (x : Slot) : (s.setSlot k x).flows = s.flows := rfl
@[simp] theorem State.setSlot_store (k : SlotId) (x : Slot) : (s.setSlot k x).store = s.store := rfl
@[simp] theorem State.setSlot_classifier (k : SlotId) (x : Slot) : (s.setSlot k x).classifier = s.classifier := rfl
@[simp] theorem State.setSlot_pacing (k : SlotId) (x : Slot) : (s.setSlot k x).pacing = s.pacing := rfl
@[simp] theorem State.setSlot_scheduler (k : SlotId) (x : Slot) : (s.setSlot k x).scheduler = s.scheduler := rfl
@[simp] theorem State.setSlot_up (k : SlotId) (x : Slot) : (s.setSlot k x).up = s.up := rfl
@[simp] theorem State.setSlot_down (k : SlotId) (x : Slot) : (s.setSlot k x).down = s.down := rfl
@[simp] theorem State.setSlot_notices (k : SlotId) (x : Slot) : (s.setSlot k x).notices = s.notices := rfl
@[simp] theorem State.setSlot_pins (k : SlotId) (x : Slot) : (s.setSlot k x).pins = s.pins := rfl
@[simp] theorem State.setSlot_pending (k : SlotId) (x : Slot) : (s.setSlot k x).pending = s.pending := rfl
@[simp] theorem State.setSlot_flow (k : SlotId) (x : Slot) (g : FlowId) : (s.setSlot k x).flow g = s.flow g := rfl
@[simp] theorem State.freeReception_flows : s.freeReception.flows = s.flows := by
  unfold State.freeReception; split <;> simp
@[simp] theorem State.freeReception_classifier : s.freeReception.classifier = s.classifier := by
  unfold State.freeReception; split <;> simp
@[simp] theorem State.freeReception_pacing : s.freeReception.pacing = s.pacing := by
  unfold State.freeReception; split <;> simp
@[simp] theorem State.freeReception_scheduler : s.freeReception.scheduler = s.scheduler := by
  unfold State.freeReception; split <;> simp
@[simp] theorem State.freeReception_up : s.freeReception.up = s.up := by
  unfold State.freeReception; split <;> simp
@[simp] theorem State.freeReception_down : s.freeReception.down = s.down := by
  unfold State.freeReception; split <;> simp
@[simp] theorem State.freeReception_pins : s.freeReception.pins = s.pins := by
  unfold State.freeReception; split <;> simp
@[simp] theorem State.freeReception_pending : s.freeReception.pending = s.pending := by
  unfold State.freeReception; split <;> simp
@[simp] theorem State.freeReception_flow  (g : FlowId) : s.freeReception.flow g = s.flow g := by simp [State.flow]
@[simp] theorem State.closeBad_flows (e : IngressError) : (s.closeBad e).flows = s.flows := by
  simp [State.closeBad]
@[simp] theorem State.closeBad_classifier (e : IngressError) : (s.closeBad e).classifier = s.classifier := by
  simp [State.closeBad]
@[simp] theorem State.closeBad_pacing (e : IngressError) : (s.closeBad e).pacing = s.pacing := by
  simp [State.closeBad]
@[simp] theorem State.closeBad_scheduler (e : IngressError) : (s.closeBad e).scheduler = s.scheduler := by
  simp [State.closeBad]
@[simp] theorem State.closeBad_down (e : IngressError) : (s.closeBad e).down = s.down := by
  simp [State.closeBad]
@[simp] theorem State.closeBad_pins (e : IngressError) : (s.closeBad e).pins = s.pins := by
  simp [State.closeBad]
@[simp] theorem State.closeBad_pending (e : IngressError) : (s.closeBad e).pending = s.pending := by
  simp [State.closeBad]
@[simp] theorem State.closeBad_flow (e : IngressError) (g : FlowId) : (s.closeBad e).flow g = s.flow g := by simp [State.flow]
@[simp] theorem State.closeIgnored_flows : s.closeIgnored.flows = s.flows := by
  simp [State.closeIgnored]
@[simp] theorem State.closeIgnored_store : s.closeIgnored.store = s.store := by
  simp [State.closeIgnored]
@[simp] theorem State.closeIgnored_classifier : s.closeIgnored.classifier = s.classifier := by
  simp [State.closeIgnored]
@[simp] theorem State.closeIgnored_pacing : s.closeIgnored.pacing = s.pacing := by
  simp [State.closeIgnored]
@[simp] theorem State.closeIgnored_scheduler : s.closeIgnored.scheduler = s.scheduler := by
  simp [State.closeIgnored]
@[simp] theorem State.closeIgnored_down : s.closeIgnored.down = s.down := by
  simp [State.closeIgnored]
@[simp] theorem State.closeIgnored_agent : s.closeIgnored.agent = s.agent := by
  simp [State.closeIgnored]
@[simp] theorem State.closeIgnored_notices : s.closeIgnored.notices = s.notices := by
  simp [State.closeIgnored]
@[simp] theorem State.closeIgnored_pins : s.closeIgnored.pins = s.pins := by
  simp [State.closeIgnored]
@[simp] theorem State.closeIgnored_pending : s.closeIgnored.pending = s.pending := by
  simp [State.closeIgnored]
@[simp] theorem State.closeIgnored_flow  (g : FlowId) : s.closeIgnored.flow g = s.flow g := by simp [State.flow]
@[simp] theorem State.closeGood_classifier : s.closeGood.classifier = s.classifier := by
  unfold State.closeGood; simp only []; split <;> simp
@[simp] theorem State.closeGood_pacing : s.closeGood.pacing = s.pacing := by
  unfold State.closeGood; simp only []; split <;> simp
@[simp] theorem State.closeGood_scheduler : s.closeGood.scheduler = s.scheduler := by
  unfold State.closeGood; simp only []; split <;> simp
@[simp] theorem State.closeGood_down : s.closeGood.down = s.down := by
  unfold State.closeGood; simp only []; split <;> simp
@[simp] theorem State.closeGood_pins : s.closeGood.pins = s.pins := by
  unfold State.closeGood; simp only []; split <;> simp
@[simp] theorem State.closeGood_pending : s.closeGood.pending = s.pending := by
  unfold State.closeGood; simp only []; split <;> simp
@[simp] theorem State.closeTested_classifier (rx : Reception) (claimed : Nat) : (s.closeTested rx claimed).classifier = s.classifier := by
  unfold State.closeTested; repeat' split
  all_goals simp
@[simp] theorem State.closeTested_pacing (rx : Reception) (claimed : Nat) : (s.closeTested rx claimed).pacing = s.pacing := by
  unfold State.closeTested; repeat' split
  all_goals simp
@[simp] theorem State.closeTested_scheduler (rx : Reception) (claimed : Nat) : (s.closeTested rx claimed).scheduler = s.scheduler := by
  unfold State.closeTested; repeat' split
  all_goals simp
@[simp] theorem State.closeTested_down (rx : Reception) (claimed : Nat) : (s.closeTested rx claimed).down = s.down := by
  unfold State.closeTested; repeat' split
  all_goals simp
@[simp] theorem State.closeTested_pins (rx : Reception) (claimed : Nat) : (s.closeTested rx claimed).pins = s.pins := by
  unfold State.closeTested; repeat' split
  all_goals simp
@[simp] theorem State.closeTested_pending (rx : Reception) (claimed : Nat) : (s.closeTested rx claimed).pending = s.pending := by
  unfold State.closeTested; repeat' split
  all_goals simp
@[simp] theorem State.loseRequest_flows (bytes : List Byte) : (s.loseRequest bytes).flows = s.flows := rfl
@[simp] theorem State.loseRequest_store (bytes : List Byte) : (s.loseRequest bytes).store = s.store := rfl
@[simp] theorem State.loseRequest_classifier (bytes : List Byte) : (s.loseRequest bytes).classifier = s.classifier := rfl
@[simp] theorem State.loseRequest_pacing (bytes : List Byte) : (s.loseRequest bytes).pacing = s.pacing := rfl
@[simp] theorem State.loseRequest_scheduler (bytes : List Byte) : (s.loseRequest bytes).scheduler = s.scheduler := rfl
@[simp] theorem State.loseRequest_down (bytes : List Byte) : (s.loseRequest bytes).down = s.down := rfl
@[simp] theorem State.loseRequest_pins (bytes : List Byte) : (s.loseRequest bytes).pins = s.pins := rfl
@[simp] theorem State.loseRequest_pending (bytes : List Byte) : (s.loseRequest bytes).pending = s.pending := rfl
@[simp] theorem State.loseRequest_flow (bytes : List Byte) (g : FlowId) : (s.loseRequest bytes).flow g = s.flow g := rfl
@[simp] theorem State.routeRequest_flows (rx : Reception) (bytes : List Byte) : (s.routeRequest rx bytes).flows = s.flows := by
  unfold State.routeRequest; repeat' split
  all_goals simp
@[simp] theorem State.routeRequest_store (rx : Reception) (bytes : List Byte) : (s.routeRequest rx bytes).store = s.store := by
  unfold State.routeRequest; repeat' split
  all_goals simp
@[simp] theorem State.routeRequest_classifier (rx : Reception) (bytes : List Byte) : (s.routeRequest rx bytes).classifier = s.classifier := by
  unfold State.routeRequest; repeat' split
  all_goals simp
@[simp] theorem State.routeRequest_pacing (rx : Reception) (bytes : List Byte) : (s.routeRequest rx bytes).pacing = s.pacing := by
  unfold State.routeRequest; repeat' split
  all_goals simp
@[simp] theorem State.routeRequest_scheduler (rx : Reception) (bytes : List Byte) : (s.routeRequest rx bytes).scheduler = s.scheduler := by
  unfold State.routeRequest; repeat' split
  all_goals simp
@[simp] theorem State.routeRequest_down (rx : Reception) (bytes : List Byte) : (s.routeRequest rx bytes).down = s.down := by
  unfold State.routeRequest; repeat' split
  all_goals simp
@[simp] theorem State.routeRequest_pins (rx : Reception) (bytes : List Byte) : (s.routeRequest rx bytes).pins = s.pins := by
  unfold State.routeRequest; repeat' split
  all_goals simp
@[simp] theorem State.routeRequest_pending (rx : Reception) (bytes : List Byte) : (s.routeRequest rx bytes).pending = s.pending := by
  unfold State.routeRequest; repeat' split
  all_goals simp
@[simp] theorem State.routeRequest_flow (rx : Reception) (bytes : List Byte) (g : FlowId) : (s.routeRequest rx bytes).flow g = s.flow g := by simp [State.flow]
@[simp] theorem State.leadArrived_flows (rx : Reception) (bytes : List Byte) : (s.leadArrived rx bytes).flows = s.flows := by
  unfold State.leadArrived; repeat' split
  all_goals simp
@[simp] theorem State.leadArrived_store (rx : Reception) (bytes : List Byte) : (s.leadArrived rx bytes).store = s.store := by
  unfold State.leadArrived; repeat' split
  all_goals simp
@[simp] theorem State.leadArrived_classifier (rx : Reception) (bytes : List Byte) : (s.leadArrived rx bytes).classifier = s.classifier := by
  unfold State.leadArrived; repeat' split
  all_goals simp
@[simp] theorem State.leadArrived_pacing (rx : Reception) (bytes : List Byte) : (s.leadArrived rx bytes).pacing = s.pacing := by
  unfold State.leadArrived; repeat' split
  all_goals simp
@[simp] theorem State.leadArrived_scheduler (rx : Reception) (bytes : List Byte) : (s.leadArrived rx bytes).scheduler = s.scheduler := by
  unfold State.leadArrived; repeat' split
  all_goals simp
@[simp] theorem State.leadArrived_down (rx : Reception) (bytes : List Byte) : (s.leadArrived rx bytes).down = s.down := by
  unfold State.leadArrived; repeat' split
  all_goals simp
@[simp] theorem State.leadArrived_pins (rx : Reception) (bytes : List Byte) : (s.leadArrived rx bytes).pins = s.pins := by
  unfold State.leadArrived; repeat' split
  all_goals simp
@[simp] theorem State.leadArrived_pending (rx : Reception) (bytes : List Byte) : (s.leadArrived rx bytes).pending = s.pending := by
  unfold State.leadArrived; repeat' split
  all_goals simp
@[simp] theorem State.leadArrived_flow (rx : Reception) (bytes : List Byte) (g : FlowId) : (s.leadArrived rx bytes).flow g = s.flow g := by simp [State.flow]
@[simp] theorem State.holdSymbol_flows (x : Symbol) : (s.holdSymbol x).flows = s.flows := by
  unfold State.holdSymbol; split <;> simp
@[simp] theorem State.holdSymbol_store (x : Symbol) : (s.holdSymbol x).store = s.store := by
  unfold State.holdSymbol; split <;> simp
@[simp] theorem State.holdSymbol_classifier (x : Symbol) : (s.holdSymbol x).classifier = s.classifier := by
  unfold State.holdSymbol; split <;> simp
@[simp] theorem State.holdSymbol_pacing (x : Symbol) : (s.holdSymbol x).pacing = s.pacing := by
  unfold State.holdSymbol; split <;> simp
@[simp] theorem State.holdSymbol_scheduler (x : Symbol) : (s.holdSymbol x).scheduler = s.scheduler := by
  unfold State.holdSymbol; split <;> simp
@[simp] theorem State.holdSymbol_down (x : Symbol) : (s.holdSymbol x).down = s.down := by
  unfold State.holdSymbol; split <;> simp
@[simp] theorem State.holdSymbol_agent (x : Symbol) : (s.holdSymbol x).agent = s.agent := by
  unfold State.holdSymbol; split <;> simp
@[simp] theorem State.holdSymbol_notices (x : Symbol) : (s.holdSymbol x).notices = s.notices := by
  unfold State.holdSymbol; split <;> simp
@[simp] theorem State.holdSymbol_pins (x : Symbol) : (s.holdSymbol x).pins = s.pins := by
  unfold State.holdSymbol; split <;> simp
@[simp] theorem State.holdSymbol_pending (x : Symbol) : (s.holdSymbol x).pending = s.pending := by
  unfold State.holdSymbol; split <;> simp
@[simp] theorem State.holdSymbol_flow (x : Symbol) (g : FlowId) : (s.holdSymbol x).flow g = s.flow g := by simp [State.flow]
@[simp] theorem State.takeAbort_flows : s.takeAbort.flows = s.flows := by
  unfold State.takeAbort; split <;> simp
@[simp] theorem State.takeAbort_classifier : s.takeAbort.classifier = s.classifier := by
  unfold State.takeAbort; split <;> simp
@[simp] theorem State.takeAbort_pacing : s.takeAbort.pacing = s.pacing := by
  unfold State.takeAbort; split <;> simp
@[simp] theorem State.takeAbort_scheduler : s.takeAbort.scheduler = s.scheduler := by
  unfold State.takeAbort; split <;> simp
@[simp] theorem State.takeAbort_down : s.takeAbort.down = s.down := by
  unfold State.takeAbort; split <;> simp
@[simp] theorem State.takeAbort_pins : s.takeAbort.pins = s.pins := by
  unfold State.takeAbort; split <;> simp
@[simp] theorem State.takeAbort_pending : s.takeAbort.pending = s.pending := by
  unfold State.takeAbort; split <;> simp
@[simp] theorem State.takeAbort_flow  (g : FlowId) : s.takeAbort.flow g = s.flow g := by simp [State.flow]
@[simp] theorem State.takeStart_flows : s.takeStart.flows = s.flows := by
  unfold State.takeStart; split <;> simp
@[simp] theorem State.takeStart_classifier : s.takeStart.classifier = s.classifier := by
  unfold State.takeStart; split <;> simp
@[simp] theorem State.takeStart_pacing : s.takeStart.pacing = s.pacing := by
  unfold State.takeStart; split <;> simp
@[simp] theorem State.takeStart_scheduler : s.takeStart.scheduler = s.scheduler := by
  unfold State.takeStart; split <;> simp
@[simp] theorem State.takeStart_down : s.takeStart.down = s.down := by
  unfold State.takeStart; split <;> simp
@[simp] theorem State.takeStart_pins : s.takeStart.pins = s.pins := by
  unfold State.takeStart; split <;> simp
@[simp] theorem State.takeStart_pending : s.takeStart.pending = s.pending := by
  unfold State.takeStart; split <;> simp
@[simp] theorem State.takeStart_flow  (g : FlowId) : s.takeStart.flow g = s.flow g := by simp [State.flow]
@[simp] theorem State.takeLeadByte_flows (rx : Reception) (bytes : List Byte) (b : Byte) : (s.takeLeadByte rx bytes b).flows = s.flows := by
  unfold State.takeLeadByte; split <;> simp
@[simp] theorem State.takeLeadByte_store (rx : Reception) (bytes : List Byte) (b : Byte) : (s.takeLeadByte rx bytes b).store = s.store := by
  unfold State.takeLeadByte; split <;> simp
@[simp] theorem State.takeLeadByte_classifier (rx : Reception) (bytes : List Byte) (b : Byte) : (s.takeLeadByte rx bytes b).classifier = s.classifier := by
  unfold State.takeLeadByte; split <;> simp
@[simp] theorem State.takeLeadByte_pacing (rx : Reception) (bytes : List Byte) (b : Byte) : (s.takeLeadByte rx bytes b).pacing = s.pacing := by
  unfold State.takeLeadByte; split <;> simp
@[simp] theorem State.takeLeadByte_scheduler (rx : Reception) (bytes : List Byte) (b : Byte) : (s.takeLeadByte rx bytes b).scheduler = s.scheduler := by
  unfold State.takeLeadByte; split <;> simp
@[simp] theorem State.takeLeadByte_down (rx : Reception) (bytes : List Byte) (b : Byte) : (s.takeLeadByte rx bytes b).down = s.down := by
  unfold State.takeLeadByte; split <;> simp
@[simp] theorem State.takeLeadByte_pins (rx : Reception) (bytes : List Byte) (b : Byte) : (s.takeLeadByte rx bytes b).pins = s.pins := by
  unfold State.takeLeadByte; split <;> simp
@[simp] theorem State.takeLeadByte_pending (rx : Reception) (bytes : List Byte) (b : Byte) : (s.takeLeadByte rx bytes b).pending = s.pending := by
  unfold State.takeLeadByte; split <;> simp
@[simp] theorem State.takeLeadByte_flow (rx : Reception) (bytes : List Byte) (b : Byte) (g : FlowId) : (s.takeLeadByte rx bytes b).flow g = s.flow g := by simp [State.flow]
@[simp] theorem State.takeByte_flows (b : Byte) : (s.takeByte b).flows = s.flows := by
  unfold State.takeByte; simp only []; repeat' split
  all_goals simp
@[simp] theorem State.takeByte_classifier (b : Byte) : (s.takeByte b).classifier = s.classifier := by
  unfold State.takeByte; simp only []; repeat' split
  all_goals simp
@[simp] theorem State.takeByte_pacing (b : Byte) : (s.takeByte b).pacing = s.pacing := by
  unfold State.takeByte; simp only []; repeat' split
  all_goals simp
@[simp] theorem State.takeByte_scheduler (b : Byte) : (s.takeByte b).scheduler = s.scheduler := by
  unfold State.takeByte; simp only []; repeat' split
  all_goals simp
@[simp] theorem State.takeByte_down (b : Byte) : (s.takeByte b).down = s.down := by
  unfold State.takeByte; simp only []; repeat' split
  all_goals simp
@[simp] theorem State.takeByte_pins (b : Byte) : (s.takeByte b).pins = s.pins := by
  unfold State.takeByte; simp only []; repeat' split
  all_goals simp
@[simp] theorem State.takeByte_pending (b : Byte) : (s.takeByte b).pending = s.pending := by
  unfold State.takeByte; simp only []; repeat' split
  all_goals simp
@[simp] theorem State.takeByte_flow (b : Byte) (g : FlowId) : (s.takeByte b).flow g = s.flow g := by simp [State.flow]
@[simp] theorem State.takeEnd_classifier : s.takeEnd.classifier = s.classifier := by
  unfold State.takeEnd; split <;> simp
@[simp] theorem State.takeEnd_pacing : s.takeEnd.pacing = s.pacing := by
  unfold State.takeEnd; split <;> simp
@[simp] theorem State.takeEnd_scheduler : s.takeEnd.scheduler = s.scheduler := by
  unfold State.takeEnd; split <;> simp
@[simp] theorem State.takeEnd_down : s.takeEnd.down = s.down := by
  unfold State.takeEnd; split <;> simp
@[simp] theorem State.takeEnd_pins : s.takeEnd.pins = s.pins := by
  unfold State.takeEnd; split <;> simp
@[simp] theorem State.takeEnd_pending : s.takeEnd.pending = s.pending := by
  unfold State.takeEnd; split <;> simp
@[simp] theorem State.takeSymbol_classifier (x : Symbol) : (s.takeSymbol x).classifier = s.classifier := by
  unfold State.takeSymbol; split <;> simp
@[simp] theorem State.takeSymbol_pacing (x : Symbol) : (s.takeSymbol x).pacing = s.pacing := by
  unfold State.takeSymbol; split <;> simp
@[simp] theorem State.takeSymbol_scheduler (x : Symbol) : (s.takeSymbol x).scheduler = s.scheduler := by
  unfold State.takeSymbol; split <;> simp
@[simp] theorem State.takeSymbol_down (x : Symbol) : (s.takeSymbol x).down = s.down := by
  unfold State.takeSymbol; split <;> simp
@[simp] theorem State.takeSymbol_pins (x : Symbol) : (s.takeSymbol x).pins = s.pins := by
  unfold State.takeSymbol; split <;> simp
@[simp] theorem State.takeSymbol_pending (x : Symbol) : (s.takeSymbol x).pending = s.pending := by
  unfold State.takeSymbol; split <;> simp
@[simp] theorem State.takeHeld_classifier (xs : List Symbol) : (s.takeHeld xs).classifier = s.classifier := by
  induction xs generalizing s with
  | nil => rfl
  | cons x xs ih => simp [State.takeHeld, ih]
@[simp] theorem State.takeHeld_pacing (xs : List Symbol) : (s.takeHeld xs).pacing = s.pacing := by
  induction xs generalizing s with
  | nil => rfl
  | cons x xs ih => simp [State.takeHeld, ih]
@[simp] theorem State.takeHeld_scheduler (xs : List Symbol) : (s.takeHeld xs).scheduler = s.scheduler := by
  induction xs generalizing s with
  | nil => rfl
  | cons x xs ih => simp [State.takeHeld, ih]
@[simp] theorem State.takeHeld_down (xs : List Symbol) : (s.takeHeld xs).down = s.down := by
  induction xs generalizing s with
  | nil => rfl
  | cons x xs ih => simp [State.takeHeld, ih]
@[simp] theorem State.takeHeld_pins (xs : List Symbol) : (s.takeHeld xs).pins = s.pins := by
  induction xs generalizing s with
  | nil => rfl
  | cons x xs ih => simp [State.takeHeld, ih]
@[simp] theorem State.takeHeld_pending (xs : List Symbol) : (s.takeHeld xs).pending = s.pending := by
  induction xs generalizing s with
  | nil => rfl
  | cons x xs ih => simp [State.takeHeld, ih]
@[simp] theorem State.leaveDeciding_classifier (lane : Lane) (held : List Symbol) : (s.leaveDeciding lane held).classifier = s.classifier := by
  simp [State.leaveDeciding]
@[simp] theorem State.leaveDeciding_pacing (lane : Lane) (held : List Symbol) : (s.leaveDeciding lane held).pacing = s.pacing := by
  simp [State.leaveDeciding]
@[simp] theorem State.leaveDeciding_scheduler (lane : Lane) (held : List Symbol) : (s.leaveDeciding lane held).scheduler = s.scheduler := by
  simp [State.leaveDeciding]
@[simp] theorem State.leaveDeciding_down (lane : Lane) (held : List Symbol) : (s.leaveDeciding lane held).down = s.down := by
  simp [State.leaveDeciding]
@[simp] theorem State.leaveDeciding_pins (lane : Lane) (held : List Symbol) : (s.leaveDeciding lane held).pins = s.pins := by
  simp [State.leaveDeciding]
@[simp] theorem State.leaveDeciding_pending (lane : Lane) (held : List Symbol) : (s.leaveDeciding lane held).pending = s.pending := by
  simp [State.leaveDeciding]
@[simp] theorem State.classify_pacing (rx : Reception) (bytes : List Byte) (held : List Symbol) : (s.classify rx bytes held).pacing = s.pacing := by
  unfold State.classify; simp only []; split <;> simp
@[simp] theorem State.classify_scheduler (rx : Reception) (bytes : List Byte) (held : List Symbol) : (s.classify rx bytes held).scheduler = s.scheduler := by
  unfold State.classify; simp only []; split <;> simp
@[simp] theorem State.classify_down (rx : Reception) (bytes : List Byte) (held : List Symbol) : (s.classify rx bytes held).down = s.down := by
  unfold State.classify; simp only []; split <;> simp
@[simp] theorem State.classify_pins (rx : Reception) (bytes : List Byte) (held : List Symbol) : (s.classify rx bytes held).pins = s.pins := by
  unfold State.classify; simp only []; split <;> simp
@[simp] theorem State.classify_pending (rx : Reception) (bytes : List Byte) (held : List Symbol) : (s.classify rx bytes held).pending = s.pending := by
  unfold State.classify; simp only []; split <;> simp
@[simp] theorem State.decideAdmission_classifier (rx : Reception) (bytes : List Byte) (f : FlowId) (rest : List FlowId) (granted : List Grant) (label : Tag)
    (held : List Symbol) : (s.decideAdmission rx bytes f rest granted label held).classifier = s.classifier := by
  unfold State.decideAdmission; simp only []; repeat' split
  all_goals simp
@[simp] theorem State.decideAdmission_pacing (rx : Reception) (bytes : List Byte) (f : FlowId) (rest : List FlowId) (granted : List Grant) (label : Tag)
    (held : List Symbol) : (s.decideAdmission rx bytes f rest granted label held).pacing = s.pacing := by
  unfold State.decideAdmission; simp only []; repeat' split
  all_goals simp
@[simp] theorem State.decideAdmission_down (rx : Reception) (bytes : List Byte) (f : FlowId) (rest : List FlowId) (granted : List Grant) (label : Tag)
    (held : List Symbol) : (s.decideAdmission rx bytes f rest granted label held).down = s.down := by
  unfold State.decideAdmission; simp only []; repeat' split
  all_goals simp
@[simp] theorem State.decideAdmission_pins (rx : Reception) (bytes : List Byte) (f : FlowId) (rest : List FlowId) (granted : List Grant) (label : Tag)
    (held : List Symbol) : (s.decideAdmission rx bytes f rest granted label held).pins = s.pins := by
  unfold State.decideAdmission; simp only []; repeat' split
  all_goals simp
@[simp] theorem State.decideAdmission_pending (rx : Reception) (bytes : List Byte) (f : FlowId) (rest : List FlowId) (granted : List Grant) (label : Tag)
    (held : List Symbol) : (s.decideAdmission rx bytes f rest granted label held).pending = s.pending := by
  unfold State.decideAdmission; simp only []; repeat' split
  all_goals simp
@[simp] theorem State.decideReservation_classifier (rx : Reception) (bytes : List Byte) (granted : List Grant) (label : Tag) (held : List Symbol) : (s.decideReservation rx bytes granted label held).classifier = s.classifier := by
  unfold State.decideReservation; split <;> simp
@[simp] theorem State.decideReservation_pacing (rx : Reception) (bytes : List Byte) (granted : List Grant) (label : Tag) (held : List Symbol) : (s.decideReservation rx bytes granted label held).pacing = s.pacing := by
  unfold State.decideReservation; split <;> simp
@[simp] theorem State.decideReservation_scheduler (rx : Reception) (bytes : List Byte) (granted : List Grant) (label : Tag) (held : List Symbol) : (s.decideReservation rx bytes granted label held).scheduler = s.scheduler := by
  unfold State.decideReservation; split <;> simp
@[simp] theorem State.decideReservation_down (rx : Reception) (bytes : List Byte) (granted : List Grant) (label : Tag) (held : List Symbol) : (s.decideReservation rx bytes granted label held).down = s.down := by
  unfold State.decideReservation; split <;> simp
@[simp] theorem State.decideReservation_pins (rx : Reception) (bytes : List Byte) (granted : List Grant) (label : Tag) (held : List Symbol) : (s.decideReservation rx bytes granted label held).pins = s.pins := by
  unfold State.decideReservation; split <;> simp
@[simp] theorem State.decideReservation_pending (rx : Reception) (bytes : List Byte) (granted : List Grant) (label : Tag) (held : List Symbol) : (s.decideReservation rx bytes granted label held).pending = s.pending := by
  unfold State.decideReservation; split <;> simp
@[simp] theorem State.startReturn_flows (which : ReturnLane) (run : Nat) (frame : List Byte) : (s.startReturn which run frame).flows = s.flows := rfl
@[simp] theorem State.startReturn_store (which : ReturnLane) (run : Nat) (frame : List Byte) : (s.startReturn which run frame).store = s.store := rfl
@[simp] theorem State.startReturn_classifier (which : ReturnLane) (run : Nat) (frame : List Byte) : (s.startReturn which run frame).classifier = s.classifier := rfl
@[simp] theorem State.startReturn_pacing (which : ReturnLane) (run : Nat) (frame : List Byte) : (s.startReturn which run frame).pacing = s.pacing := rfl
@[simp] theorem State.startReturn_scheduler (which : ReturnLane) (run : Nat) (frame : List Byte) : (s.startReturn which run frame).scheduler = s.scheduler := rfl
@[simp] theorem State.startReturn_down (which : ReturnLane) (run : Nat) (frame : List Byte) : (s.startReturn which run frame).down = s.down := rfl
@[simp] theorem State.startReturn_agent (which : ReturnLane) (run : Nat) (frame : List Byte) : (s.startReturn which run frame).agent = s.agent := rfl
@[simp] theorem State.startReturn_notices (which : ReturnLane) (run : Nat) (frame : List Byte) : (s.startReturn which run frame).notices = s.notices := rfl
@[simp] theorem State.startReturn_pins (which : ReturnLane) (run : Nat) (frame : List Byte) : (s.startReturn which run frame).pins = s.pins := rfl
@[simp] theorem State.startReturn_pending (which : ReturnLane) (run : Nat) (frame : List Byte) : (s.startReturn which run frame).pending = s.pending := rfl
@[simp] theorem State.startReturn_flow (which : ReturnLane) (run : Nat) (frame : List Byte) (g : FlowId) : (s.startReturn which run frame).flow g = s.flow g := rfl
@[simp] theorem State.arbitrateReturn_flows : s.arbitrateReturn.flows = s.flows := by
  unfold State.arbitrateReturn; repeat' split
  all_goals simp
@[simp] theorem State.arbitrateReturn_store : s.arbitrateReturn.store = s.store := by
  unfold State.arbitrateReturn; repeat' split
  all_goals simp
@[simp] theorem State.arbitrateReturn_classifier : s.arbitrateReturn.classifier = s.classifier := by
  unfold State.arbitrateReturn; repeat' split
  all_goals simp
@[simp] theorem State.arbitrateReturn_pacing : s.arbitrateReturn.pacing = s.pacing := by
  unfold State.arbitrateReturn; repeat' split
  all_goals simp
@[simp] theorem State.arbitrateReturn_scheduler : s.arbitrateReturn.scheduler = s.scheduler := by
  unfold State.arbitrateReturn; repeat' split
  all_goals simp
@[simp] theorem State.arbitrateReturn_down : s.arbitrateReturn.down = s.down := by
  unfold State.arbitrateReturn; repeat' split
  all_goals simp
@[simp] theorem State.arbitrateReturn_agent : s.arbitrateReturn.agent = s.agent := by
  unfold State.arbitrateReturn; repeat' split
  all_goals simp
@[simp] theorem State.arbitrateReturn_notices : s.arbitrateReturn.notices = s.notices := by
  unfold State.arbitrateReturn; repeat' split
  all_goals simp
@[simp] theorem State.arbitrateReturn_pins : s.arbitrateReturn.pins = s.pins := by
  unfold State.arbitrateReturn; repeat' split
  all_goals simp
@[simp] theorem State.arbitrateReturn_pending : s.arbitrateReturn.pending = s.pending := by
  unfold State.arbitrateReturn; repeat' split
  all_goals simp
@[simp] theorem State.arbitrateReturn_flow  (g : FlowId) : s.arbitrateReturn.flow g = s.flow g := by simp [State.flow]
@[simp] theorem State.freeReturnLane_flows : s.freeReturnLane.flows = s.flows := rfl
@[simp] theorem State.freeReturnLane_store : s.freeReturnLane.store = s.store := rfl
@[simp] theorem State.freeReturnLane_classifier : s.freeReturnLane.classifier = s.classifier := rfl
@[simp] theorem State.freeReturnLane_pacing : s.freeReturnLane.pacing = s.pacing := rfl
@[simp] theorem State.freeReturnLane_scheduler : s.freeReturnLane.scheduler = s.scheduler := rfl
@[simp] theorem State.freeReturnLane_down : s.freeReturnLane.down = s.down := rfl
@[simp] theorem State.freeReturnLane_agent : s.freeReturnLane.agent = s.agent := rfl
@[simp] theorem State.freeReturnLane_notices : s.freeReturnLane.notices = s.notices := rfl
@[simp] theorem State.freeReturnLane_pins : s.freeReturnLane.pins = s.pins := rfl
@[simp] theorem State.freeReturnLane_pending : s.freeReturnLane.pending = s.pending := rfl
@[simp] theorem State.freeReturnLane_flow  (g : FlowId) : s.freeReturnLane.flow g = s.flow g := rfl
@[simp] theorem State.beginRestart_classifier : s.beginRestart.classifier = s.classifier := by
  unfold State.beginRestart; simp only []; split <;> simp
@[simp] theorem State.beginRestart_pacing : s.beginRestart.pacing = s.pacing := by
  unfold State.beginRestart; simp only []; split <;> simp
@[simp] theorem State.beginRestart_scheduler : s.beginRestart.scheduler = s.scheduler := by
  unfold State.beginRestart; simp only []; split <;> simp
@[simp] theorem State.beginRestart_down : s.beginRestart.down = s.down := by
  unfold State.beginRestart; simp only []; split <;> simp
@[simp] theorem State.beginRestart_pins : s.beginRestart.pins = s.pins := by
  unfold State.beginRestart; simp only []; split <;> simp
@[simp] theorem State.beginRestart_pending : s.beginRestart.pending = s.pending := by
  unfold State.beginRestart; simp only []; split <;> simp
@[simp] theorem State.completeResponse_classifier : s.completeResponse.classifier = s.classifier := by
  unfold State.completeResponse; simp only []; split <;> simp
@[simp] theorem State.completeResponse_pacing : s.completeResponse.pacing = s.pacing := by
  unfold State.completeResponse; simp only []; split <;> simp
@[simp] theorem State.completeResponse_scheduler : s.completeResponse.scheduler = s.scheduler := by
  unfold State.completeResponse; simp only []; split <;> simp
@[simp] theorem State.completeResponse_down : s.completeResponse.down = s.down := by
  unfold State.completeResponse; simp only []; split <;> simp
@[simp] theorem State.completeResponse_pins : s.completeResponse.pins = s.pins := by
  unfold State.completeResponse; simp only []; split <;> simp
@[simp] theorem State.completeResponse_pending : s.completeResponse.pending = s.pending := by
  unfold State.completeResponse; simp only []; split <;> simp

end Sys2Proof.Machine
end

