-- ==== Sys2Proof/Laws/Commands.lean ====
section
/-! SUPPORT. How a management command is answered: what each check of its arguments gives, and what its record leaves alone. -/
namespace Sys2Proof.Machine

/-! ## The record of a result -/

theorem takeCommand_due {code : Byte} {args : List Byte} {s : State} (run : State → Answer)
    (h : s.commandDue code args = true) :
    takeCommand code args run s = .next ((run s).finish code false) := by
  simp [takeCommand, h]

theorem takeCommand_of_not_due {code : Byte} {args : List Byte} {s : State} (run : State → Answer)
    (h : s.commandDue code args = false) : takeCommand code args run s = .next s := by
  simp [takeCommand, h]

@[simp] theorem finish_answerOk (s : State) (code : Byte) (data : List Byte) :
    (answerOk s data).finish code false = s.answered code .ok data := rfl

@[simp] theorem finish_refuse (s : State) (code : Byte) (st : Status) :
    (refuse s st).finish code false = s.answered code st [] := rfl

theorem ofLength_of_eq {n : Nat} {args : List Byte} (s : State) (run : Answer) (h : args.length = n) :
    ofLength n args s run = run := by
  simp [ofLength, h]

theorem ofLength_of_ne {n : Nat} {args : List Byte} (s : State) (run : Answer) (h : args.length ≠ n) :
    ofLength n args s run = refuse s .badArgument := by
  simp [ofLength, h]

/-- A command is due exactly when the agent is executing a request whose next command it is (R163). -/
theorem commandDue_iff (s : State) (code : Byte) (args : List Byte) :
    s.commandDue code args = true ↔
      s.pins.reset = false ∧ ∃ x, s.agent.state = .executing x ∧ x.stop = false ∧
        x.commands[x.index]? = some { code := code, args := args } := by
  unfold State.commandDue
  split <;> simp_all [and_assoc]

section Answered

variable (s : State) (code : Byte) (status : Status) (data : List Byte)

@[simp] theorem State.answered_flows : (s.answered code status data).flows = s.flows := rfl
@[simp] theorem State.answered_store : (s.answered code status data).store = s.store := rfl
@[simp] theorem State.answered_classifier : (s.answered code status data).classifier = s.classifier := rfl
@[simp] theorem State.answered_pacing : (s.answered code status data).pacing = s.pacing := rfl
@[simp] theorem State.answered_scheduler : (s.answered code status data).scheduler = s.scheduler := rfl
@[simp] theorem State.answered_up : (s.answered code status data).up = s.up := rfl
@[simp] theorem State.answered_down : (s.answered code status data).down = s.down := rfl
@[simp] theorem State.answered_notices : (s.answered code status data).notices = s.notices := rfl
@[simp] theorem State.answered_pins : (s.answered code status data).pins = s.pins := rfl
@[simp] theorem State.answered_pending : (s.answered code status data).pending = s.pending := rfl
@[simp] theorem State.answered_flow (g : FlowId) : (s.answered code status data).flow g = s.flow g := rfl
@[simp] theorem State.answered_agent :
    (s.answered code status data).agent =
      s.agent.finish s.up.ownTag { code := code, status := status, data := data } false := rfl

end Answered

/-! ## Numbers at an offset -/

theorem byteAt_lt (bs : List Byte) (i : Nat) : byteAt bs i < 256 := (bs.getD i 0#8).isLt

theorem num16At_lt (bs : List Byte) (i : Nat) : num16At bs i < 65536 := by
  have := byteAt_lt bs i
  have := byteAt_lt bs (i + 1)
  unfold num16At
  omega

theorem num32At_lt (bs : List Byte) (i : Nat) : num32At bs i < 4294967296 := by
  have := num16At_lt bs i
  have := num16At_lt bs (i + 2)
  unfold num32At
  omega

/-! ## Arguments that name things (R196) -/

theorem flowOf_val (f : FlowId) : flowOf f.val = some f := by simp [flowOf]

theorem flowAt_of_val {args : List Byte} {i : Nat} {f : FlowId} (h : f.val = num16At args i) :
    flowAt args i = some f := by
  simp [flowAt, ← h, flowOf_val]

theorem flowAt_of_lt {args : List Byte} {i : Nat} (h : 255 < num16At args i) : flowAt args i = none := by
  simp [flowAt, flowOf, show ¬ num16At args i < 256 by omega]

theorem groupOf_groupCode (g : Group) : groupOf (groupCode g) = some g := by
  cases g with
  | ring g => simp [groupOf, groupCode]
  | express => rfl

theorem groupOf_of_lt {n : Nat} (h : 8 < n) : groupOf n = none := by
  simp [groupOf, show ¬ n < 8 by omega, show n ≠ 8 by omega]

theorem policyOf_policyCode (p : AdmissionPolicy) : policyOf (policyCode p) = some p := by cases p <;> rfl

theorem policyOf_of_lt {n : Nat} (h : 1 < n) : policyOf n = none := by
  obtain ⟨m, rfl⟩ : ∃ m, n = m + 2 := ⟨n - 2, by omega⟩
  rfl

theorem ringPolicyOf_ringPolicyCode (p : RingPolicy) : ringPolicyOf (ringPolicyCode p) = some p := by cases p <;> rfl

theorem ringPolicyOf_of_lt {n : Nat} (h : 1 < n) : ringPolicyOf n = none := by
  obtain ⟨m, rfl⟩ : ∃ m, n = m + 2 := ⟨n - 2, by omega⟩
  rfl

theorem ringGroupOf_val (g : Fin 8) : ringGroupOf g.val = some g := by simp [ringGroupOf]

theorem ringGroupOf_of_lt {n : Nat} (h : 7 < n) : ringGroupOf n = none := by
  simp [ringGroupOf, show ¬ n < 8 by omega]

theorem matchIndexOf_val (i : Fin 64) : matchIndexOf i.val = some i := by simp [matchIndexOf]

theorem matchIndexOf_of_lt {n : Nat} (h : 63 < n) : matchIndexOf n = none := by
  simp [matchIndexOf, show ¬ n < 64 by omega]

theorem boolOf_toNat (b : Bool) : boolOf b.toNat = some b := by cases b <;> rfl

theorem boolOf_of_lt {n : Nat} (h : 1 < n) : boolOf n = none := by
  obtain ⟨m, rfl⟩ : ∃ m, n = m + 2 := ⟨n - 2, by omega⟩
  rfl

theorem kindOf_kindCode (k : NoticeKind) : kindOf (kindCode k) = some k := by cases k <;> rfl

theorem kindOf_of_lt {n : Nat} (h : 8 < n) : kindOf n = none := by
  obtain ⟨m, rfl⟩ : ∃ m, n = m + 9 := ⟨n - 9, by omega⟩
  rfl

end Sys2Proof.Machine
end

