-- ==== Sys2Proof/Laws/Ops.lean ====
section
/-! SUPPORT. What each shared operation does, said once: the next states that meanings share, and the item a kind and scope name. -/
namespace Sys2Proof.Machine

/-- Ending a flow's run leaves the scheduler without it (R118). -/
theorem State.endRunOf_eq (s : State) (f : FlowId) :
    s.endRunOf f = { s with scheduler := s.scheduler.without f } := by
  obtain ⟨flows, store, classifier, pacing, ⟨topPolicy, topPointer, groups, run, releaseEnable, quenchFlag⟩, up, down,
    agent, notices, pins, pending⟩ := s
  cases run with
  | none => rfl
  | some run =>
    by_cases hf : run.holder = f <;>
      simp [State.endRunOf, State.holdsRun, Scheduler.without, hf, State.endRun, State.setScheduler, Option.filter]

@[simp] theorem State.endRunOf_scheduler (s : State) (f : FlowId) :
    (s.endRunOf f).scheduler = s.scheduler.without f := by
  rw [State.endRunOf_eq]

theorem State.report_eq (s : State) (k : NoticeKind) (f : FlowId) :
    s.report k f = { s with notices := s.notices.reporting k f } := rfl

theorem State.reportGlobal_eq (s : State) (k : NoticeKind) :
    s.reportGlobal k = { s with notices := s.notices.reporting k 0 } := rfl

@[simp] theorem State.report_notices (s : State) (k : NoticeKind) (f : FlowId) :
    (s.report k f).notices = s.notices.reporting k f := rfl

@[simp] theorem State.reportGlobal_notices (s : State) (k : NoticeKind) :
    (s.reportGlobal k).notices = s.notices.reporting k 0 := rfl

/-- Entry into DISABLED (R8). -/
theorem State.enterDisabled_eq (s : State) (f : FlowId) : s.enterDisabled f = s.disabledAt f := by
  rw [State.enterDisabled, State.endRunOf_eq, State.report_eq]
  rfl

/-- A swap (R90, R91). -/
theorem State.swap_eq (s : State) (f : FlowId) (p : Profile) (h : (s.flow f).staged = some p) :
    s.swap f = s.swappedAt f p := by
  simp only [State.swap, h, State.endRunOf_eq, State.report_eq]
  rfl

theorem State.swap_of_empty (s : State) (f : FlowId) (h : (s.flow f).staged = none) : s.swap f = s := by
  simp [State.swap, h]

/-- Closing a flow (R7). -/
theorem State.closeFlow_eq (s : State) (f : FlowId) :
    s.closeFlow f =
      if (s.flow f).queue = [] ∧ (s.flow f).inTransmission = false then s.disabledAt f
      else s.setFlow f { s.flow f with state := .draining } := by
  simp only [State.closeFlow, State.enterDisabled_eq, Bool.and_eq_true, Bool.not_eq_true', List.isEmpty_iff]
  rfl

@[simp] theorem State.modifyFlow_flow_same (s : State) (f : FlowId) (g : Flow → Flow) :
    (s.modifyFlow f g).flow f = g (s.flow f) := by
  simp [State.modifyFlow]

theorem State.modifyFlow_flow_of_ne (s : State) (f h : FlowId) (g : Flow → Flow) (hn : f ≠ h) :
    (s.modifyFlow f g).flow h = s.flow h := s.flow_setFlow_of_ne f h _ hn

/-- A flow holds the run exactly when the run names it (R104). -/
theorem State.holdsRun_iff (s : State) (f : FlowId) :
    s.holdsRun f = true ↔ ∃ run, s.scheduler.run = some run ∧ run.holder = f := by
  unfold State.holdsRun
  split <;> simp_all

/-- A flow whose queue is not empty neither drains nor completes a flush (R8, R11). -/
theorem State.settleFlow_of_queue {s : State} {f : FlowId} (h : (s.flow f).queue ≠ []) : s.settleFlow f = s := by
  simp [State.settleFlow, List.isEmpty_iff, h]

/-- The flush of an emptied flow is completed (R11). -/
theorem State.settleFlow_of_flushing {s : State} {f : FlowId} {back : ReturnState} (h : (s.flow f).queue = [])
    (h' : (s.flow f).state = .flushing back) : s.settleFlow f = s.completeFlush f back := by
  simp [State.settleFlow, h, h']

/-- A completed flush takes the flow back to its return state, unless a drain is complete with it (R11). -/
theorem State.completeFlush_eq (s : State) (f : FlowId) (back : ReturnState) :
    s.completeFlush f back =
      if back = .draining ∧ (s.flow f).inTransmission = false then s.disabledAt f
      else s.setFlow f { s.flow f with state := back.toFlowState } := by
  cases back with
  | active => rfl
  | held cause => rfl
  | draining =>
    by_cases h : (s.flow f).inTransmission = true
    · rw [State.completeFlush, if_pos h, if_neg (by simp [h])]; rfl
    · rw [State.completeFlush, if_neg h, if_pos ⟨rfl, by simpa using h⟩, State.enterDisabled_eq]

/-- A scheduler with no run is the scheduler with its run ended. -/
theorem State.endRun_of_none (s : State) (h : s.scheduler.run = none) : s.endRun = s := by
  obtain ⟨flows, store, classifier, pacing, ⟨topPolicy, topPointer, groups, run, releaseEnable, quenchFlag⟩, up, down,
    agent, notices, pins, pending⟩ := s
  subst h
  rfl

/-- When HOLD_STUCK is reported (R151, R152). -/
theorem stuckReports_iff (dhold stuck : Bool) (limit timer : Nat) :
    stuckReports dhold stuck limit timer = true ↔
      dhold = true ∧ stuck = false ∧ limit ≠ 0 ∧ limit ≤ timer := by
  simp [stuckReports, and_assoc]

/-- When a flow is a candidate (R105). -/
theorem State.candidate_of_queue (s : State) (f : FlowId) (r : RecordId) (rest : List RecordId)
    (h : (s.flow f).queue = r :: rest) :
    s.candidate f =
      ((s.flow f).releasing && eligible (s.flow f).active.discipline (s.flow f).credit (s.store.recordLength r) &&
        s.releaseAllowed) := by
  simp [State.candidate, h]

theorem State.candidate_of_empty (s : State) (f : FlowId) (h : (s.flow f).queue = []) : s.candidate f = false := by
  simp [State.candidate, h]

theorem Flow.releasing_iff (x : Flow) : x.releasing = true ↔ x.state = .active ∨ x.state = .draining := by
  unfold Flow.releasing
  cases x.state <;> simp

/-! ## The pause test (R39) -/

@[simp] theorem State.pauseTest_mem (s : State) : s.pauseTest.store.mem = s.store.mem := by
  unfold State.pauseTest
  repeat' split
  all_goals rfl

@[simp] theorem State.pauseTest_links (s : State) : s.pauseTest.store.links = s.store.links := by
  unfold State.pauseTest
  repeat' split
  all_goals rfl

@[simp] theorem State.pauseTest_freeBlocks (s : State) : s.pauseTest.store.freeBlocks = s.store.freeBlocks := by
  unfold State.pauseTest
  repeat' split
  all_goals rfl

@[simp] theorem State.pauseTest_bodies (s : State) : s.pauseTest.store.bodies = s.store.bodies := by
  unfold State.pauseTest
  repeat' split
  all_goals rfl

@[simp] theorem State.pauseTest_freeBodies (s : State) : s.pauseTest.store.freeBodies = s.store.freeBodies := by
  unfold State.pauseTest
  repeat' split
  all_goals rfl

@[simp] theorem State.pauseTest_records (s : State) : s.pauseTest.store.records = s.store.records := by
  unfold State.pauseTest
  repeat' split
  all_goals rfl

@[simp] theorem State.pauseTest_freeRecords (s : State) : s.pauseTest.store.freeRecords = s.store.freeRecords := by
  unfold State.pauseTest
  repeat' split
  all_goals rfl

@[simp] theorem State.pauseTest_pauseMark (s : State) : s.pauseTest.store.pauseMark = s.store.pauseMark := by
  unfold State.pauseTest
  repeat' split
  all_goals rfl

@[simp] theorem State.pauseTest_resumeMark (s : State) : s.pauseTest.store.resumeMark = s.store.resumeMark := by
  unfold State.pauseTest
  repeat' split
  all_goals rfl

/-- After the pause test the condition agrees with the watermarks, if the pause watermark is not above the resume one (R39). -/
theorem State.pauseTest_agrees (s : State) (h : s.store.pauseMark ≤ s.store.resumeMark)
    (h' : s.store.resumeMark ≤ 2048) : s.pauseTest.store.pauseAgrees := by
  unfold State.pauseTest FrameStore.pauseAsserts FrameStore.pauseDeasserts
  cases hc : s.store.pauseCondition
  · by_cases hl : s.store.freeBlocks.length < s.store.pauseMark
    · simp [hl, FrameStore.pauseAgrees, State.setStore, h, h', State.reportGlobal_eq]; omega
    · simp [hl, FrameStore.pauseAgrees, h, h', hc]; omega
  · by_cases hl : s.store.resumeMark ≤ s.store.freeBlocks.length
    · simp [hl, FrameStore.pauseAgrees, State.setStore, h, h']; omega
    · simp [hl, FrameStore.pauseAgrees, h, h', hc]; omega

/-! ## The first of an ascending list -/

/-- The first number that passes a test is the one found. -/
theorem find_finRange {n : Nat} (p : Fin n → Bool) (k : Fin n) (hk : p k = true) (h : ∀ m, m < k → p m = false) :
    (List.finRange n).find? p = some k := by
  rw [List.find?_eq_some_iff_append]
  refine ⟨hk, (List.finRange n).take k.val, (List.finRange n).drop (k.val + 1), ?_, ?_⟩
  · conv_lhs => rw [← List.take_append_drop k.val (List.finRange n)]
    congr 1
    rw [List.drop_eq_getElem_cons (by simp)]
    simp
  · intro a ha
    rw [List.mem_take_iff_getElem] at ha
    obtain ⟨i, hi, rfl⟩ := ha
    simp only [List.getElem_finRange, Bool.not_eq_true']
    apply h
    simp only [List.length_finRange, Fin.lt_def, Fin.val_cast] at hi ⊢
    omega

/-! ## Items (R176) -/

theorem itemKind_itemOf (k : NoticeKind) (scope : FlowId) : itemKind (itemOf k scope) = k := by
  obtain ⟨f, hf⟩ := scope
  cases k <;> simp only [itemKind, itemOf]
  case stageTaken => simp [hf]
  case flowHeld => simp [show ¬ 256 + f < 256 by omega, show 256 + f < 512 by omega]
  case flowClosed => simp [show ¬ 512 + f < 256 by omega, show ¬ 512 + f < 512 by omega, show 512 + f < 768 by omega]
  case queueDrop =>
    simp [show ¬ 768 + f < 256 by omega, show ¬ 768 + f < 512 by omega, show ¬ 768 + f < 768 by omega,
      show 768 + f < 1024 by omega]
  all_goals rfl

theorem itemScope_itemOf (k : NoticeKind) (scope : FlowId) (h : k.perFlow = true ∨ scope = 0) :
    itemScope (itemOf k scope) = scope.val := by
  obtain ⟨f, hf⟩ := scope
  cases k
  case stageTaken => change (if f < 1024 then f % 256 else 0) = f; rw [if_pos (by omega)]; omega
  case flowHeld => change (if 256 + f < 1024 then (256 + f) % 256 else 0) = f; rw [if_pos (by omega)]; omega
  case flowClosed => change (if 512 + f < 1024 then (512 + f) % 256 else 0) = f; rw [if_pos (by omega)]; omega
  case queueDrop => change (if 768 + f < 1024 then (768 + f) % 256 else 0) = f; rw [if_pos (by omega)]; omega
  all_goals exact (congrArg Fin.val (h.resolve_left (by simp [NoticeKind.perFlow]))).symm

theorem scopeSuits_iff (k : NoticeKind) (scope : FlowId) :
    scopeSuits k scope = true ↔ k.perFlow = true ∨ scope = 0 := by
  simp [scopeSuits]

end Sys2Proof.Machine
end

