-- ==== Sys2Proof/Laws/CommandFrames.lean ====
section
/-! SUPPORT. What each management command leaves alone at its owning block: one lemma per command and field of State that it never changes. -/
namespace Sys2Proof.Machine

variable (args : List Byte) (s : State)

@[simp] theorem commandOpen_store : (commandOpen args s).state.store = s.store := by
  simp only [commandOpen, ofLength]
  repeat' split
  all_goals simp [answerOk, refuse]

@[simp] theorem commandOpen_classifier : (commandOpen args s).state.classifier = s.classifier := by
  simp only [commandOpen, ofLength]
  repeat' split
  all_goals simp [answerOk, refuse]

@[simp] theorem commandOpen_pacing : (commandOpen args s).state.pacing = s.pacing := by
  simp only [commandOpen, ofLength]
  repeat' split
  all_goals simp [answerOk, refuse]

@[simp] theorem commandOpen_scheduler : (commandOpen args s).state.scheduler = s.scheduler := by
  simp only [commandOpen, ofLength]
  repeat' split
  all_goals simp [answerOk, refuse]

@[simp] theorem commandOpen_up : (commandOpen args s).state.up = s.up := by
  simp only [commandOpen, ofLength]
  repeat' split
  all_goals simp [answerOk, refuse]

@[simp] theorem commandOpen_down : (commandOpen args s).state.down = s.down := by
  simp only [commandOpen, ofLength]
  repeat' split
  all_goals simp [answerOk, refuse]

@[simp] theorem commandOpen_agent : (commandOpen args s).state.agent = s.agent := by
  simp only [commandOpen, ofLength]
  repeat' split
  all_goals simp [answerOk, refuse]

@[simp] theorem commandOpen_notices : (commandOpen args s).state.notices = s.notices := by
  simp only [commandOpen, ofLength]
  repeat' split
  all_goals simp [answerOk, refuse]

@[simp] theorem commandOpen_pins : (commandOpen args s).state.pins = s.pins := by
  simp only [commandOpen, ofLength]
  repeat' split
  all_goals simp [answerOk, refuse]

@[simp] theorem commandOpen_pending : (commandOpen args s).state.pending = s.pending := by
  simp only [commandOpen, ofLength]
  repeat' split
  all_goals simp [answerOk, refuse]

@[simp] theorem commandHold_store : (commandHold args s).state.store = s.store := by
  simp only [commandHold, ofLength]
  repeat' split
  all_goals simp [answerOk, refuse]

@[simp] theorem commandHold_classifier : (commandHold args s).state.classifier = s.classifier := by
  simp only [commandHold, ofLength]
  repeat' split
  all_goals simp [answerOk, refuse]

@[simp] theorem commandHold_pacing : (commandHold args s).state.pacing = s.pacing := by
  simp only [commandHold, ofLength]
  repeat' split
  all_goals simp [answerOk, refuse]

@[simp] theorem commandHold_up : (commandHold args s).state.up = s.up := by
  simp only [commandHold, ofLength]
  repeat' split
  all_goals simp [answerOk, refuse]

@[simp] theorem commandHold_down : (commandHold args s).state.down = s.down := by
  simp only [commandHold, ofLength]
  repeat' split
  all_goals simp [answerOk, refuse]

@[simp] theorem commandHold_agent : (commandHold args s).state.agent = s.agent := by
  simp only [commandHold, ofLength]
  repeat' split
  all_goals simp [answerOk, refuse]

@[simp] theorem commandHold_notices : (commandHold args s).state.notices = s.notices := by
  simp only [commandHold, ofLength]
  repeat' split
  all_goals simp [answerOk, refuse]

@[simp] theorem commandHold_pins : (commandHold args s).state.pins = s.pins := by
  simp only [commandHold, ofLength]
  repeat' split
  all_goals simp [answerOk, refuse]

@[simp] theorem commandHold_pending : (commandHold args s).state.pending = s.pending := by
  simp only [commandHold, ofLength]
  repeat' split
  all_goals simp [answerOk, refuse]

@[simp] theorem commandRelease_store : (commandRelease args s).state.store = s.store := by
  simp only [commandRelease, ofLength]
  repeat' split
  all_goals simp [answerOk, refuse]

@[simp] theorem commandRelease_classifier : (commandRelease args s).state.classifier = s.classifier := by
  simp only [commandRelease, ofLength]
  repeat' split
  all_goals simp [answerOk, refuse]

@[simp] theorem commandRelease_pacing : (commandRelease args s).state.pacing = s.pacing := by
  simp only [commandRelease, ofLength]
  repeat' split
  all_goals simp [answerOk, refuse]

@[simp] theorem commandRelease_scheduler : (commandRelease args s).state.scheduler = s.scheduler := by
  simp only [commandRelease, ofLength]
  repeat' split
  all_goals simp [answerOk, refuse]

@[simp] theorem commandRelease_up : (commandRelease args s).state.up = s.up := by
  simp only [commandRelease, ofLength]
  repeat' split
  all_goals simp [answerOk, refuse]

@[simp] theorem commandRelease_down : (commandRelease args s).state.down = s.down := by
  simp only [commandRelease, ofLength]
  repeat' split
  all_goals simp [answerOk, refuse]

@[simp] theorem commandRelease_agent : (commandRelease args s).state.agent = s.agent := by
  simp only [commandRelease, ofLength]
  repeat' split
  all_goals simp [answerOk, refuse]

@[simp] theorem commandRelease_notices : (commandRelease args s).state.notices = s.notices := by
  simp only [commandRelease, ofLength]
  repeat' split
  all_goals simp [answerOk, refuse]

@[simp] theorem commandRelease_pins : (commandRelease args s).state.pins = s.pins := by
  simp only [commandRelease, ofLength]
  repeat' split
  all_goals simp [answerOk, refuse]

@[simp] theorem commandRelease_pending : (commandRelease args s).state.pending = s.pending := by
  simp only [commandRelease, ofLength]
  repeat' split
  all_goals simp [answerOk, refuse]

@[simp] theorem commandClose_store : (commandClose args s).state.store = s.store := by
  simp only [commandClose, ofLength]
  repeat' split
  all_goals simp [answerOk, refuse]

@[simp] theorem commandClose_classifier : (commandClose args s).state.classifier = s.classifier := by
  simp only [commandClose, ofLength]
  repeat' split
  all_goals simp [answerOk, refuse]

@[simp] theorem commandClose_pacing : (commandClose args s).state.pacing = s.pacing := by
  simp only [commandClose, ofLength]
  repeat' split
  all_goals simp [answerOk, refuse]

@[simp] theorem commandClose_up : (commandClose args s).state.up = s.up := by
  simp only [commandClose, ofLength]
  repeat' split
  all_goals simp [answerOk, refuse]

@[simp] theorem commandClose_down : (commandClose args s).state.down = s.down := by
  simp only [commandClose, ofLength]
  repeat' split
  all_goals simp [answerOk, refuse]

@[simp] theorem commandClose_agent : (commandClose args s).state.agent = s.agent := by
  simp only [commandClose, ofLength]
  repeat' split
  all_goals simp [answerOk, refuse]

@[simp] theorem commandClose_pins : (commandClose args s).state.pins = s.pins := by
  simp only [commandClose, ofLength]
  repeat' split
  all_goals simp [answerOk, refuse]

@[simp] theorem commandClose_pending : (commandClose args s).state.pending = s.pending := by
  simp only [commandClose, ofLength]
  repeat' split
  all_goals simp [answerOk, refuse]

@[simp] theorem commandFlush_store : (commandFlush args s).state.store = s.store := by
  simp only [commandFlush, ofLength]
  repeat' split
  all_goals simp [answerOk, refuse]

@[simp] theorem commandFlush_classifier : (commandFlush args s).state.classifier = s.classifier := by
  simp only [commandFlush, ofLength]
  repeat' split
  all_goals simp [answerOk, refuse]

@[simp] theorem commandFlush_pacing : (commandFlush args s).state.pacing = s.pacing := by
  simp only [commandFlush, ofLength]
  repeat' split
  all_goals simp [answerOk, refuse]

@[simp] theorem commandFlush_up : (commandFlush args s).state.up = s.up := by
  simp only [commandFlush, ofLength]
  repeat' split
  all_goals simp [answerOk, refuse]

@[simp] theorem commandFlush_down : (commandFlush args s).state.down = s.down := by
  simp only [commandFlush, ofLength]
  repeat' split
  all_goals simp [answerOk, refuse]

@[simp] theorem commandFlush_agent : (commandFlush args s).state.agent = s.agent := by
  simp only [commandFlush, ofLength]
  repeat' split
  all_goals simp [answerOk, refuse]

@[simp] theorem commandFlush_pins : (commandFlush args s).state.pins = s.pins := by
  simp only [commandFlush, ofLength]
  repeat' split
  all_goals simp [answerOk, refuse]

@[simp] theorem commandFlush_pending : (commandFlush args s).state.pending = s.pending := by
  simp only [commandFlush, ofLength]
  repeat' split
  all_goals simp [answerOk, refuse]

@[simp] theorem commandSetFlow_store : (commandSetFlow args s).state.store = s.store := by
  simp only [commandSetFlow, ofLength]
  repeat' split
  all_goals simp [answerOk, refuse]

@[simp] theorem commandSetFlow_classifier : (commandSetFlow args s).state.classifier = s.classifier := by
  simp only [commandSetFlow, ofLength]
  repeat' split
  all_goals simp [answerOk, refuse]

@[simp] theorem commandSetFlow_pacing : (commandSetFlow args s).state.pacing = s.pacing := by
  simp only [commandSetFlow, ofLength]
  repeat' split
  all_goals simp [answerOk, refuse]

@[simp] theorem commandSetFlow_scheduler : (commandSetFlow args s).state.scheduler = s.scheduler := by
  simp only [commandSetFlow, ofLength]
  repeat' split
  all_goals simp [answerOk, refuse]

@[simp] theorem commandSetFlow_up : (commandSetFlow args s).state.up = s.up := by
  simp only [commandSetFlow, ofLength]
  repeat' split
  all_goals simp [answerOk, refuse]

@[simp] theorem commandSetFlow_down : (commandSetFlow args s).state.down = s.down := by
  simp only [commandSetFlow, ofLength]
  repeat' split
  all_goals simp [answerOk, refuse]

@[simp] theorem commandSetFlow_agent : (commandSetFlow args s).state.agent = s.agent := by
  simp only [commandSetFlow, ofLength]
  repeat' split
  all_goals simp [answerOk, refuse]

@[simp] theorem commandSetFlow_notices : (commandSetFlow args s).state.notices = s.notices := by
  simp only [commandSetFlow, ofLength]
  repeat' split
  all_goals simp [answerOk, refuse]

@[simp] theorem commandSetFlow_pins : (commandSetFlow args s).state.pins = s.pins := by
  simp only [commandSetFlow, ofLength]
  repeat' split
  all_goals simp [answerOk, refuse]

@[simp] theorem commandSetFlow_pending : (commandSetFlow args s).state.pending = s.pending := by
  simp only [commandSetFlow, ofLength]
  repeat' split
  all_goals simp [answerOk, refuse]

@[simp] theorem commandReadFlow_state : (commandReadFlow args s).state = s := by
  simp only [commandReadFlow, ofLength]
  repeat' split
  all_goals rfl

@[simp] theorem commandSetPool_flows : (commandSetPool args s).state.flows = s.flows := by
  simp only [commandSetPool, ofLength]
  repeat' split
  all_goals simp [answerOk, refuse]

@[simp] theorem commandSetPool_classifier : (commandSetPool args s).state.classifier = s.classifier := by
  simp only [commandSetPool, ofLength]
  repeat' split
  all_goals simp [answerOk, refuse]

@[simp] theorem commandSetPool_pacing : (commandSetPool args s).state.pacing = s.pacing := by
  simp only [commandSetPool, ofLength]
  repeat' split
  all_goals simp [answerOk, refuse]

@[simp] theorem commandSetPool_scheduler : (commandSetPool args s).state.scheduler = s.scheduler := by
  simp only [commandSetPool, ofLength]
  repeat' split
  all_goals simp [answerOk, refuse]

@[simp] theorem commandSetPool_up : (commandSetPool args s).state.up = s.up := by
  simp only [commandSetPool, ofLength]
  repeat' split
  all_goals simp [answerOk, refuse]

@[simp] theorem commandSetPool_down : (commandSetPool args s).state.down = s.down := by
  simp only [commandSetPool, ofLength]
  repeat' split
  all_goals simp [answerOk, refuse]

@[simp] theorem commandSetPool_agent : (commandSetPool args s).state.agent = s.agent := by
  simp only [commandSetPool, ofLength]
  repeat' split
  all_goals simp [answerOk, refuse]

@[simp] theorem commandSetPool_pins : (commandSetPool args s).state.pins = s.pins := by
  simp only [commandSetPool, ofLength]
  repeat' split
  all_goals simp [answerOk, refuse]

@[simp] theorem commandSetPool_pending : (commandSetPool args s).state.pending = s.pending := by
  simp only [commandSetPool, ofLength]
  repeat' split
  all_goals simp [answerOk, refuse]

@[simp] theorem commandReadPool_flows : (commandReadPool args s).state.flows = s.flows := by
  simp only [commandReadPool, ofLength]
  repeat' split
  all_goals simp [answerOk, refuse]

@[simp] theorem commandReadPool_classifier : (commandReadPool args s).state.classifier = s.classifier := by
  simp only [commandReadPool, ofLength]
  repeat' split
  all_goals simp [answerOk, refuse]

@[simp] theorem commandReadPool_pacing : (commandReadPool args s).state.pacing = s.pacing := by
  simp only [commandReadPool, ofLength]
  repeat' split
  all_goals simp [answerOk, refuse]

@[simp] theorem commandReadPool_scheduler : (commandReadPool args s).state.scheduler = s.scheduler := by
  simp only [commandReadPool, ofLength]
  repeat' split
  all_goals simp [answerOk, refuse]

@[simp] theorem commandReadPool_up : (commandReadPool args s).state.up = s.up := by
  simp only [commandReadPool, ofLength]
  repeat' split
  all_goals simp [answerOk, refuse]

@[simp] theorem commandReadPool_down : (commandReadPool args s).state.down = s.down := by
  simp only [commandReadPool, ofLength]
  repeat' split
  all_goals simp [answerOk, refuse]

@[simp] theorem commandReadPool_agent : (commandReadPool args s).state.agent = s.agent := by
  simp only [commandReadPool, ofLength]
  repeat' split
  all_goals simp [answerOk, refuse]

@[simp] theorem commandReadPool_notices : (commandReadPool args s).state.notices = s.notices := by
  simp only [commandReadPool, ofLength]
  repeat' split
  all_goals simp [answerOk, refuse]

@[simp] theorem commandReadPool_pins : (commandReadPool args s).state.pins = s.pins := by
  simp only [commandReadPool, ofLength]
  repeat' split
  all_goals simp [answerOk, refuse]

@[simp] theorem commandReadPool_pending : (commandReadPool args s).state.pending = s.pending := by
  simp only [commandReadPool, ofLength]
  repeat' split
  all_goals simp [answerOk, refuse]

@[simp] theorem commandWriteMatch_flows : (commandWriteMatch args s).state.flows = s.flows := by
  simp only [commandWriteMatch, ofLength]
  repeat' split
  all_goals simp [answerOk, refuse]

@[simp] theorem commandWriteMatch_store : (commandWriteMatch args s).state.store = s.store := by
  simp only [commandWriteMatch, ofLength]
  repeat' split
  all_goals simp [answerOk, refuse]

@[simp] theorem commandWriteMatch_pacing : (commandWriteMatch args s).state.pacing = s.pacing := by
  simp only [commandWriteMatch, ofLength]
  repeat' split
  all_goals simp [answerOk, refuse]

@[simp] theorem commandWriteMatch_scheduler : (commandWriteMatch args s).state.scheduler = s.scheduler := by
  simp only [commandWriteMatch, ofLength]
  repeat' split
  all_goals simp [answerOk, refuse]

@[simp] theorem commandWriteMatch_up : (commandWriteMatch args s).state.up = s.up := by
  simp only [commandWriteMatch, ofLength]
  repeat' split
  all_goals simp [answerOk, refuse]

@[simp] theorem commandWriteMatch_down : (commandWriteMatch args s).state.down = s.down := by
  simp only [commandWriteMatch, ofLength]
  repeat' split
  all_goals simp [answerOk, refuse]

@[simp] theorem commandWriteMatch_agent : (commandWriteMatch args s).state.agent = s.agent := by
  simp only [commandWriteMatch, ofLength]
  repeat' split
  all_goals simp [answerOk, refuse]

@[simp] theorem commandWriteMatch_notices : (commandWriteMatch args s).state.notices = s.notices := by
  simp only [commandWriteMatch, ofLength]
  repeat' split
  all_goals simp [answerOk, refuse]

@[simp] theorem commandWriteMatch_pins : (commandWriteMatch args s).state.pins = s.pins := by
  simp only [commandWriteMatch, ofLength]
  repeat' split
  all_goals simp [answerOk, refuse]

@[simp] theorem commandWriteMatch_pending : (commandWriteMatch args s).state.pending = s.pending := by
  simp only [commandWriteMatch, ofLength]
  repeat' split
  all_goals simp [answerOk, refuse]

@[simp] theorem commandReadMatch_state : (commandReadMatch args s).state = s := by
  simp only [commandReadMatch, ofLength]
  repeat' split
  all_goals rfl

@[simp] theorem commandSetDefault_flows : (commandSetDefault args s).state.flows = s.flows := by
  simp only [commandSetDefault, ofLength]
  repeat' split
  all_goals simp [answerOk, refuse]

@[simp] theorem commandSetDefault_store : (commandSetDefault args s).state.store = s.store := by
  simp only [commandSetDefault, ofLength]
  repeat' split
  all_goals simp [answerOk, refuse]

@[simp] theorem commandSetDefault_pacing : (commandSetDefault args s).state.pacing = s.pacing := by
  simp only [commandSetDefault, ofLength]
  repeat' split
  all_goals simp [answerOk, refuse]

@[simp] theorem commandSetDefault_scheduler : (commandSetDefault args s).state.scheduler = s.scheduler := by
  simp only [commandSetDefault, ofLength]
  repeat' split
  all_goals simp [answerOk, refuse]

@[simp] theorem commandSetDefault_up : (commandSetDefault args s).state.up = s.up := by
  simp only [commandSetDefault, ofLength]
  repeat' split
  all_goals simp [answerOk, refuse]

@[simp] theorem commandSetDefault_down : (commandSetDefault args s).state.down = s.down := by
  simp only [commandSetDefault, ofLength]
  repeat' split
  all_goals simp [answerOk, refuse]

@[simp] theorem commandSetDefault_agent : (commandSetDefault args s).state.agent = s.agent := by
  simp only [commandSetDefault, ofLength]
  repeat' split
  all_goals simp [answerOk, refuse]

@[simp] theorem commandSetDefault_notices : (commandSetDefault args s).state.notices = s.notices := by
  simp only [commandSetDefault, ofLength]
  repeat' split
  all_goals simp [answerOk, refuse]

@[simp] theorem commandSetDefault_pins : (commandSetDefault args s).state.pins = s.pins := by
  simp only [commandSetDefault, ofLength]
  repeat' split
  all_goals simp [answerOk, refuse]

@[simp] theorem commandSetDefault_pending : (commandSetDefault args s).state.pending = s.pending := by
  simp only [commandSetDefault, ofLength]
  repeat' split
  all_goals simp [answerOk, refuse]

@[simp] theorem commandSetEpoch_flows : (commandSetEpoch args s).state.flows = s.flows := by
  simp only [commandSetEpoch, ofLength]
  repeat' split
  all_goals simp [answerOk, refuse]

@[simp] theorem commandSetEpoch_store : (commandSetEpoch args s).state.store = s.store := by
  simp only [commandSetEpoch, ofLength]
  repeat' split
  all_goals simp [answerOk, refuse]

@[simp] theorem commandSetEpoch_classifier : (commandSetEpoch args s).state.classifier = s.classifier := by
  simp only [commandSetEpoch, ofLength]
  repeat' split
  all_goals simp [answerOk, refuse]

@[simp] theorem commandSetEpoch_scheduler : (commandSetEpoch args s).state.scheduler = s.scheduler := by
  simp only [commandSetEpoch, ofLength]
  repeat' split
  all_goals simp [answerOk, refuse]

@[simp] theorem commandSetEpoch_up : (commandSetEpoch args s).state.up = s.up := by
  simp only [commandSetEpoch, ofLength]
  repeat' split
  all_goals simp [answerOk, refuse]

@[simp] theorem commandSetEpoch_down : (commandSetEpoch args s).state.down = s.down := by
  simp only [commandSetEpoch, ofLength]
  repeat' split
  all_goals simp [answerOk, refuse]

@[simp] theorem commandSetEpoch_agent : (commandSetEpoch args s).state.agent = s.agent := by
  simp only [commandSetEpoch, ofLength]
  repeat' split
  all_goals simp [answerOk, refuse]

@[simp] theorem commandSetEpoch_notices : (commandSetEpoch args s).state.notices = s.notices := by
  simp only [commandSetEpoch, ofLength]
  repeat' split
  all_goals simp [answerOk, refuse]

@[simp] theorem commandSetEpoch_pins : (commandSetEpoch args s).state.pins = s.pins := by
  simp only [commandSetEpoch, ofLength]
  repeat' split
  all_goals simp [answerOk, refuse]

@[simp] theorem commandSetEpoch_pending : (commandSetEpoch args s).state.pending = s.pending := by
  simp only [commandSetEpoch, ofLength]
  repeat' split
  all_goals simp [answerOk, refuse]

@[simp] theorem commandStage_store : (commandStage args s).state.store = s.store := by
  simp only [commandStage, ofLength]
  repeat' split
  all_goals simp [answerOk, refuse]

@[simp] theorem commandStage_classifier : (commandStage args s).state.classifier = s.classifier := by
  simp only [commandStage, ofLength]
  repeat' split
  all_goals simp [answerOk, refuse]

@[simp] theorem commandStage_pacing : (commandStage args s).state.pacing = s.pacing := by
  simp only [commandStage, ofLength]
  repeat' split
  all_goals simp [answerOk, refuse]

@[simp] theorem commandStage_scheduler : (commandStage args s).state.scheduler = s.scheduler := by
  simp only [commandStage, ofLength]
  repeat' split
  all_goals simp [answerOk, refuse]

@[simp] theorem commandStage_up : (commandStage args s).state.up = s.up := by
  simp only [commandStage, ofLength]
  repeat' split
  all_goals simp [answerOk, refuse]

@[simp] theorem commandStage_down : (commandStage args s).state.down = s.down := by
  simp only [commandStage, ofLength]
  repeat' split
  all_goals simp [answerOk, refuse]

@[simp] theorem commandStage_agent : (commandStage args s).state.agent = s.agent := by
  simp only [commandStage, ofLength]
  repeat' split
  all_goals simp [answerOk, refuse]

@[simp] theorem commandStage_notices : (commandStage args s).state.notices = s.notices := by
  simp only [commandStage, ofLength]
  repeat' split
  all_goals simp [answerOk, refuse]

@[simp] theorem commandStage_pins : (commandStage args s).state.pins = s.pins := by
  simp only [commandStage, ofLength]
  repeat' split
  all_goals simp [answerOk, refuse]

@[simp] theorem commandStage_pending : (commandStage args s).state.pending = s.pending := by
  simp only [commandStage, ofLength]
  repeat' split
  all_goals simp [answerOk, refuse]

@[simp] theorem commandUnstage_store : (commandUnstage args s).state.store = s.store := by
  simp only [commandUnstage, ofLength]
  repeat' split
  all_goals simp [answerOk, refuse]

@[simp] theorem commandUnstage_classifier : (commandUnstage args s).state.classifier = s.classifier := by
  simp only [commandUnstage, ofLength]
  repeat' split
  all_goals simp [answerOk, refuse]

@[simp] theorem commandUnstage_pacing : (commandUnstage args s).state.pacing = s.pacing := by
  simp only [commandUnstage, ofLength]
  repeat' split
  all_goals simp [answerOk, refuse]

@[simp] theorem commandUnstage_scheduler : (commandUnstage args s).state.scheduler = s.scheduler := by
  simp only [commandUnstage, ofLength]
  repeat' split
  all_goals simp [answerOk, refuse]

@[simp] theorem commandUnstage_up : (commandUnstage args s).state.up = s.up := by
  simp only [commandUnstage, ofLength]
  repeat' split
  all_goals simp [answerOk, refuse]

@[simp] theorem commandUnstage_down : (commandUnstage args s).state.down = s.down := by
  simp only [commandUnstage, ofLength]
  repeat' split
  all_goals simp [answerOk, refuse]

@[simp] theorem commandUnstage_agent : (commandUnstage args s).state.agent = s.agent := by
  simp only [commandUnstage, ofLength]
  repeat' split
  all_goals simp [answerOk, refuse]

@[simp] theorem commandUnstage_notices : (commandUnstage args s).state.notices = s.notices := by
  simp only [commandUnstage, ofLength]
  repeat' split
  all_goals simp [answerOk, refuse]

@[simp] theorem commandUnstage_pins : (commandUnstage args s).state.pins = s.pins := by
  simp only [commandUnstage, ofLength]
  repeat' split
  all_goals simp [answerOk, refuse]

@[simp] theorem commandUnstage_pending : (commandUnstage args s).state.pending = s.pending := by
  simp only [commandUnstage, ofLength]
  repeat' split
  all_goals simp [answerOk, refuse]

@[simp] theorem commandAdopt_store : (commandAdopt args s).state.store = s.store := by
  simp only [commandAdopt, ofLength]
  repeat' split
  all_goals simp [answerOk, refuse]

@[simp] theorem commandAdopt_classifier : (commandAdopt args s).state.classifier = s.classifier := by
  simp only [commandAdopt, ofLength]
  repeat' split
  all_goals simp [answerOk, refuse]

@[simp] theorem commandAdopt_pacing : (commandAdopt args s).state.pacing = s.pacing := by
  simp only [commandAdopt, ofLength]
  repeat' split
  all_goals simp [answerOk, refuse]

@[simp] theorem commandAdopt_scheduler : (commandAdopt args s).state.scheduler = s.scheduler := by
  simp only [commandAdopt, ofLength]
  repeat' split
  all_goals simp [answerOk, refuse]

@[simp] theorem commandAdopt_up : (commandAdopt args s).state.up = s.up := by
  simp only [commandAdopt, ofLength]
  repeat' split
  all_goals simp [answerOk, refuse]

@[simp] theorem commandAdopt_down : (commandAdopt args s).state.down = s.down := by
  simp only [commandAdopt, ofLength]
  repeat' split
  all_goals simp [answerOk, refuse]

@[simp] theorem commandAdopt_agent : (commandAdopt args s).state.agent = s.agent := by
  simp only [commandAdopt, ofLength]
  repeat' split
  all_goals simp [answerOk, refuse]

@[simp] theorem commandAdopt_notices : (commandAdopt args s).state.notices = s.notices := by
  simp only [commandAdopt, ofLength]
  repeat' split
  all_goals simp [answerOk, refuse]

@[simp] theorem commandAdopt_pins : (commandAdopt args s).state.pins = s.pins := by
  simp only [commandAdopt, ofLength]
  repeat' split
  all_goals simp [answerOk, refuse]

@[simp] theorem commandAdopt_pending : (commandAdopt args s).state.pending = s.pending := by
  simp only [commandAdopt, ofLength]
  repeat' split
  all_goals simp [answerOk, refuse]

@[simp] theorem commandReadProfile_state : (commandReadProfile args s).state = s := by
  simp only [commandReadProfile, ofLength]
  repeat' split
  all_goals rfl

@[simp] theorem commandSetRelease_flows : (commandSetRelease args s).state.flows = s.flows := by
  simp only [commandSetRelease, ofLength]
  repeat' split
  all_goals simp [answerOk, refuse]

@[simp] theorem commandSetRelease_store : (commandSetRelease args s).state.store = s.store := by
  simp only [commandSetRelease, ofLength]
  repeat' split
  all_goals simp [answerOk, refuse]

@[simp] theorem commandSetRelease_classifier : (commandSetRelease args s).state.classifier = s.classifier := by
  simp only [commandSetRelease, ofLength]
  repeat' split
  all_goals simp [answerOk, refuse]

@[simp] theorem commandSetRelease_pacing : (commandSetRelease args s).state.pacing = s.pacing := by
  simp only [commandSetRelease, ofLength]
  repeat' split
  all_goals simp [answerOk, refuse]

@[simp] theorem commandSetRelease_up : (commandSetRelease args s).state.up = s.up := by
  simp only [commandSetRelease, ofLength]
  repeat' split
  all_goals simp [answerOk, refuse]

@[simp] theorem commandSetRelease_down : (commandSetRelease args s).state.down = s.down := by
  simp only [commandSetRelease, ofLength]
  repeat' split
  all_goals simp [answerOk, refuse]

@[simp] theorem commandSetRelease_agent : (commandSetRelease args s).state.agent = s.agent := by
  simp only [commandSetRelease, ofLength]
  repeat' split
  all_goals simp [answerOk, refuse]

@[simp] theorem commandSetRelease_notices : (commandSetRelease args s).state.notices = s.notices := by
  simp only [commandSetRelease, ofLength]
  repeat' split
  all_goals simp [answerOk, refuse]

@[simp] theorem commandSetRelease_pins : (commandSetRelease args s).state.pins = s.pins := by
  simp only [commandSetRelease, ofLength]
  repeat' split
  all_goals simp [answerOk, refuse]

@[simp] theorem commandSetRelease_pending : (commandSetRelease args s).state.pending = s.pending := by
  simp only [commandSetRelease, ofLength]
  repeat' split
  all_goals simp [answerOk, refuse]

@[simp] theorem commandResume_flows : (commandResume args s).state.flows = s.flows := by
  simp only [commandResume, ofLength]
  repeat' split
  all_goals simp [answerOk, refuse]

@[simp] theorem commandResume_store : (commandResume args s).state.store = s.store := by
  simp only [commandResume, ofLength]
  repeat' split
  all_goals simp [answerOk, refuse]

@[simp] theorem commandResume_classifier : (commandResume args s).state.classifier = s.classifier := by
  simp only [commandResume, ofLength]
  repeat' split
  all_goals simp [answerOk, refuse]

@[simp] theorem commandResume_pacing : (commandResume args s).state.pacing = s.pacing := by
  simp only [commandResume, ofLength]
  repeat' split
  all_goals simp [answerOk, refuse]

@[simp] theorem commandResume_up : (commandResume args s).state.up = s.up := by
  simp only [commandResume, ofLength]
  repeat' split
  all_goals simp [answerOk, refuse]

@[simp] theorem commandResume_down : (commandResume args s).state.down = s.down := by
  simp only [commandResume, ofLength]
  repeat' split
  all_goals simp [answerOk, refuse]

@[simp] theorem commandResume_agent : (commandResume args s).state.agent = s.agent := by
  simp only [commandResume, ofLength]
  repeat' split
  all_goals simp [answerOk, refuse]

@[simp] theorem commandResume_notices : (commandResume args s).state.notices = s.notices := by
  simp only [commandResume, ofLength]
  repeat' split
  all_goals simp [answerOk, refuse]

@[simp] theorem commandResume_pins : (commandResume args s).state.pins = s.pins := by
  simp only [commandResume, ofLength]
  repeat' split
  all_goals simp [answerOk, refuse]

@[simp] theorem commandResume_pending : (commandResume args s).state.pending = s.pending := by
  simp only [commandResume, ofLength]
  repeat' split
  all_goals simp [answerOk, refuse]

@[simp] theorem commandSetGroup_flows : (commandSetGroup args s).state.flows = s.flows := by
  simp only [commandSetGroup, ofLength]
  repeat' split
  all_goals simp [answerOk, refuse]

@[simp] theorem commandSetGroup_store : (commandSetGroup args s).state.store = s.store := by
  simp only [commandSetGroup, ofLength]
  repeat' split
  all_goals simp [answerOk, refuse]

@[simp] theorem commandSetGroup_classifier : (commandSetGroup args s).state.classifier = s.classifier := by
  simp only [commandSetGroup, ofLength]
  repeat' split
  all_goals simp [answerOk, refuse]

@[simp] theorem commandSetGroup_pacing : (commandSetGroup args s).state.pacing = s.pacing := by
  simp only [commandSetGroup, ofLength]
  repeat' split
  all_goals simp [answerOk, refuse]

@[simp] theorem commandSetGroup_up : (commandSetGroup args s).state.up = s.up := by
  simp only [commandSetGroup, ofLength]
  repeat' split
  all_goals simp [answerOk, refuse]

@[simp] theorem commandSetGroup_down : (commandSetGroup args s).state.down = s.down := by
  simp only [commandSetGroup, ofLength]
  repeat' split
  all_goals simp [answerOk, refuse]

@[simp] theorem commandSetGroup_agent : (commandSetGroup args s).state.agent = s.agent := by
  simp only [commandSetGroup, ofLength]
  repeat' split
  all_goals simp [answerOk, refuse]

@[simp] theorem commandSetGroup_notices : (commandSetGroup args s).state.notices = s.notices := by
  simp only [commandSetGroup, ofLength]
  repeat' split
  all_goals simp [answerOk, refuse]

@[simp] theorem commandSetGroup_pins : (commandSetGroup args s).state.pins = s.pins := by
  simp only [commandSetGroup, ofLength]
  repeat' split
  all_goals simp [answerOk, refuse]

@[simp] theorem commandSetGroup_pending : (commandSetGroup args s).state.pending = s.pending := by
  simp only [commandSetGroup, ofLength]
  repeat' split
  all_goals simp [answerOk, refuse]

@[simp] theorem commandSetTop_flows : (commandSetTop args s).state.flows = s.flows := by
  simp only [commandSetTop, ofLength]
  repeat' split
  all_goals simp [answerOk, refuse]

@[simp] theorem commandSetTop_store : (commandSetTop args s).state.store = s.store := by
  simp only [commandSetTop, ofLength]
  repeat' split
  all_goals simp [answerOk, refuse]

@[simp] theorem commandSetTop_classifier : (commandSetTop args s).state.classifier = s.classifier := by
  simp only [commandSetTop, ofLength]
  repeat' split
  all_goals simp [answerOk, refuse]

@[simp] theorem commandSetTop_pacing : (commandSetTop args s).state.pacing = s.pacing := by
  simp only [commandSetTop, ofLength]
  repeat' split
  all_goals simp [answerOk, refuse]

@[simp] theorem commandSetTop_up : (commandSetTop args s).state.up = s.up := by
  simp only [commandSetTop, ofLength]
  repeat' split
  all_goals simp [answerOk, refuse]

@[simp] theorem commandSetTop_down : (commandSetTop args s).state.down = s.down := by
  simp only [commandSetTop, ofLength]
  repeat' split
  all_goals simp [answerOk, refuse]

@[simp] theorem commandSetTop_agent : (commandSetTop args s).state.agent = s.agent := by
  simp only [commandSetTop, ofLength]
  repeat' split
  all_goals simp [answerOk, refuse]

@[simp] theorem commandSetTop_notices : (commandSetTop args s).state.notices = s.notices := by
  simp only [commandSetTop, ofLength]
  repeat' split
  all_goals simp [answerOk, refuse]

@[simp] theorem commandSetTop_pins : (commandSetTop args s).state.pins = s.pins := by
  simp only [commandSetTop, ofLength]
  repeat' split
  all_goals simp [answerOk, refuse]

@[simp] theorem commandSetTop_pending : (commandSetTop args s).state.pending = s.pending := by
  simp only [commandSetTop, ofLength]
  repeat' split
  all_goals simp [answerOk, refuse]

@[simp] theorem commandSetHoldLimit_flows : (commandSetHoldLimit args s).state.flows = s.flows := by
  simp only [commandSetHoldLimit, ofLength]
  repeat' split
  all_goals simp [answerOk, refuse]

@[simp] theorem commandSetHoldLimit_store : (commandSetHoldLimit args s).state.store = s.store := by
  simp only [commandSetHoldLimit, ofLength]
  repeat' split
  all_goals simp [answerOk, refuse]

@[simp] theorem commandSetHoldLimit_classifier : (commandSetHoldLimit args s).state.classifier = s.classifier := by
  simp only [commandSetHoldLimit, ofLength]
  repeat' split
  all_goals simp [answerOk, refuse]

@[simp] theorem commandSetHoldLimit_pacing : (commandSetHoldLimit args s).state.pacing = s.pacing := by
  simp only [commandSetHoldLimit, ofLength]
  repeat' split
  all_goals simp [answerOk, refuse]

@[simp] theorem commandSetHoldLimit_scheduler : (commandSetHoldLimit args s).state.scheduler = s.scheduler := by
  simp only [commandSetHoldLimit, ofLength]
  repeat' split
  all_goals simp [answerOk, refuse]

@[simp] theorem commandSetHoldLimit_up : (commandSetHoldLimit args s).state.up = s.up := by
  simp only [commandSetHoldLimit, ofLength]
  repeat' split
  all_goals simp [answerOk, refuse]

@[simp] theorem commandSetHoldLimit_agent : (commandSetHoldLimit args s).state.agent = s.agent := by
  simp only [commandSetHoldLimit, ofLength]
  repeat' split
  all_goals simp [answerOk, refuse]

@[simp] theorem commandSetHoldLimit_pins : (commandSetHoldLimit args s).state.pins = s.pins := by
  simp only [commandSetHoldLimit, ofLength]
  repeat' split
  all_goals simp [answerOk, refuse]

@[simp] theorem commandSetHoldLimit_pending : (commandSetHoldLimit args s).state.pending = s.pending := by
  simp only [commandSetHoldLimit, ofLength]
  repeat' split
  all_goals simp [answerOk, refuse]

@[simp] theorem commandReadStatus_state : (commandReadStatus args s).state = s := by
  simp only [commandReadStatus, ofLength]
  repeat' split
  all_goals rfl

@[simp] theorem commandAckNotice_flows : (commandAckNotice args s).state.flows = s.flows := by
  simp only [commandAckNotice, ofLength, staleAck]
  repeat' split
  all_goals simp [answerOk, refuse]

@[simp] theorem commandAckNotice_store : (commandAckNotice args s).state.store = s.store := by
  simp only [commandAckNotice, ofLength, staleAck]
  repeat' split
  all_goals simp [answerOk, refuse]

@[simp] theorem commandAckNotice_classifier : (commandAckNotice args s).state.classifier = s.classifier := by
  simp only [commandAckNotice, ofLength, staleAck]
  repeat' split
  all_goals simp [answerOk, refuse]

@[simp] theorem commandAckNotice_pacing : (commandAckNotice args s).state.pacing = s.pacing := by
  simp only [commandAckNotice, ofLength, staleAck]
  repeat' split
  all_goals simp [answerOk, refuse]

@[simp] theorem commandAckNotice_scheduler : (commandAckNotice args s).state.scheduler = s.scheduler := by
  simp only [commandAckNotice, ofLength, staleAck]
  repeat' split
  all_goals simp [answerOk, refuse]

@[simp] theorem commandAckNotice_up : (commandAckNotice args s).state.up = s.up := by
  simp only [commandAckNotice, ofLength, staleAck]
  repeat' split
  all_goals simp [answerOk, refuse]

@[simp] theorem commandAckNotice_down : (commandAckNotice args s).state.down = s.down := by
  simp only [commandAckNotice, ofLength, staleAck]
  repeat' split
  all_goals simp [answerOk, refuse]

@[simp] theorem commandAckNotice_agent : (commandAckNotice args s).state.agent = s.agent := by
  simp only [commandAckNotice, ofLength, staleAck]
  repeat' split
  all_goals simp [answerOk, refuse]

@[simp] theorem commandAckNotice_pins : (commandAckNotice args s).state.pins = s.pins := by
  simp only [commandAckNotice, ofLength, staleAck]
  repeat' split
  all_goals simp [answerOk, refuse]

@[simp] theorem commandAckNotice_pending : (commandAckNotice args s).state.pending = s.pending := by
  simp only [commandAckNotice, ofLength, staleAck]
  repeat' split
  all_goals simp [answerOk, refuse]

@[simp] theorem commandSetNotice_flows : (commandSetNotice args s).state.flows = s.flows := by
  simp only [commandSetNotice, ofLength]
  repeat' split
  all_goals simp [answerOk, refuse]

@[simp] theorem commandSetNotice_store : (commandSetNotice args s).state.store = s.store := by
  simp only [commandSetNotice, ofLength]
  repeat' split
  all_goals simp [answerOk, refuse]

@[simp] theorem commandSetNotice_classifier : (commandSetNotice args s).state.classifier = s.classifier := by
  simp only [commandSetNotice, ofLength]
  repeat' split
  all_goals simp [answerOk, refuse]

@[simp] theorem commandSetNotice_pacing : (commandSetNotice args s).state.pacing = s.pacing := by
  simp only [commandSetNotice, ofLength]
  repeat' split
  all_goals simp [answerOk, refuse]

@[simp] theorem commandSetNotice_scheduler : (commandSetNotice args s).state.scheduler = s.scheduler := by
  simp only [commandSetNotice, ofLength]
  repeat' split
  all_goals simp [answerOk, refuse]

@[simp] theorem commandSetNotice_up : (commandSetNotice args s).state.up = s.up := by
  simp only [commandSetNotice, ofLength]
  repeat' split
  all_goals simp [answerOk, refuse]

@[simp] theorem commandSetNotice_down : (commandSetNotice args s).state.down = s.down := by
  simp only [commandSetNotice, ofLength]
  repeat' split
  all_goals simp [answerOk, refuse]

@[simp] theorem commandSetNotice_agent : (commandSetNotice args s).state.agent = s.agent := by
  simp only [commandSetNotice, ofLength]
  repeat' split
  all_goals simp [answerOk, refuse]

@[simp] theorem commandSetNotice_pins : (commandSetNotice args s).state.pins = s.pins := by
  simp only [commandSetNotice, ofLength]
  repeat' split
  all_goals simp [answerOk, refuse]

@[simp] theorem commandSetNotice_pending : (commandSetNotice args s).state.pending = s.pending := by
  simp only [commandSetNotice, ofLength]
  repeat' split
  all_goals simp [answerOk, refuse]

end Sys2Proof.Machine
end

