-- ==== Sys2Proof/Laws/Memory.lean ====
section
/-! SUPPORT. Frame memory: every operation keeps the canonical form, and what a byte reads as after a write. -/
namespace Sys2Proof.Machine

/-- Every address listed is at least `a`. -/
def Memory.startsAt (a : Nat) (m : List Host.Cell) : Prop := ∀ c ∈ m, a ≤ c.1

theorem Memory.wf_cons_iff (a : Nat) (v : Byte) (m : List Host.Cell) :
    Memory.wf ((a, v) :: m) = true ↔
      a < Config.memoryBytes ∧ v ≠ Config.unwrittenByte ∧ Memory.startsAt (a + 1) m ∧ Memory.wf m = true := by
  induction m generalizing a v with
  | nil => simp [Memory.wf, Memory.startsAt]
  | cons c m ih =>
    obtain ⟨b, w⟩ := c
    rw [Memory.wf]
    simp only [Bool.and_eq_true, decide_eq_true_eq, ih b w]
    constructor
    · rintro ⟨⟨h1, h2⟩, h3, h4, h5, h6⟩
      refine ⟨by omega, h2, ?_, h3, h4, h5, h6⟩
      intro c hc
      rcases List.mem_cons.1 hc with rfl | hc
      · exact h1
      · have := h5 c hc; omega
    · rintro ⟨h1, h2, h3, h4, h5, h6, h7⟩
      exact ⟨⟨by have := h3 (b, w) (by simp); simpa using this, h2⟩, h4, h5, h6, h7⟩

theorem Memory.wf_empty : Memory.wf [] = true := rfl

theorem Memory.wf_consCell (a : Nat) (v : Byte) (m : List Host.Cell) (ha : a < Config.memoryBytes)
    (hs : Memory.startsAt (a + 1) m) (hm : Memory.wf m = true) : Memory.wf (Memory.cons a v m) = true := by
  unfold Memory.cons
  split
  · exact hm
  · next h => exact (Memory.wf_cons_iff a v m).2 ⟨ha, h, hs, hm⟩

theorem Memory.startsAt_consCell (k a : Nat) (v : Byte) (m : List Host.Cell) (hk : k ≤ a)
    (hs : Memory.startsAt k m) : Memory.startsAt k (Memory.cons a v m) := by
  unfold Memory.cons
  split
  · exact hs
  · intro c hc
    rcases List.mem_cons.1 hc with rfl | hc
    · exact hk
    · exact hs c hc

theorem Memory.startsAt_write (k a : Nat) (v : Byte) (m : List Host.Cell) (hk : k ≤ a)
    (hs : Memory.startsAt k m) : Memory.startsAt k (Memory.write m a v) := by
  induction m with
  | nil => exact Memory.startsAt_consCell k a v [] hk hs
  | cons c m ih =>
    obtain ⟨b, w⟩ := c
    have hm : Memory.startsAt k m := fun c hc => hs c (List.mem_cons_of_mem _ hc)
    unfold Memory.write
    split
    · exact Memory.startsAt_consCell k a v _ hk hs
    · split
      · exact Memory.startsAt_consCell k a v m hk hm
      · intro c hc
        rcases List.mem_cons.1 hc with rfl | hc
        · exact hs _ (by simp)
        · exact ih hm c hc

/-- A write inside frame memory keeps the canonical form. -/
theorem Memory.wf_write (m : List Host.Cell) (a : Nat) (v : Byte) (ha : a < Config.memoryBytes)
    (hm : Memory.wf m = true) : Memory.wf (Memory.write m a v) = true := by
  induction m with
  | nil => exact Memory.wf_consCell a v [] ha (by intro c hc; cases hc) rfl
  | cons c m ih =>
    obtain ⟨b, w⟩ := c
    obtain ⟨h1, h2, h3, h4⟩ := (Memory.wf_cons_iff b w m).1 hm
    unfold Memory.write
    split
    · next h =>
      refine Memory.wf_consCell a v _ ha ?_ hm
      intro c hc
      rcases List.mem_cons.1 hc with rfl | hc
      · exact h
      · have := h3 c hc; omega
    · split
      · next h => subst h; exact Memory.wf_consCell a v m ha h3 h4
      · next h h' =>
        exact (Memory.wf_cons_iff b w _).2
          ⟨h1, h2, Memory.startsAt_write (b + 1) a v m (by omega) h3, ih h4⟩

/-- An address below every one listed reads as an unwritten byte. -/
theorem Memory.read_of_startsAt (m : List Host.Cell) (a : Nat) (h : Memory.startsAt (a + 1) m) :
    Memory.read m a = Config.unwrittenByte := by
  induction m with
  | nil => rfl
  | cons c m ih =>
    obtain ⟨b, w⟩ := c
    have hb : a + 1 ≤ b := h (b, w) (by simp)
    unfold Memory.read
    rw [if_neg (by omega)]
    exact ih fun c hc => h c (List.mem_cons_of_mem _ hc)

theorem Memory.read_consCell (m : List Host.Cell) (a x : Nat) (v : Byte) (h : Memory.startsAt (a + 1) m) :
    Memory.read (Memory.cons a v m) x = if x = a then v else Memory.read m x := by
  unfold Memory.cons
  split
  · next hv =>
    subst hv
    split
    · next hx => subst hx; exact Memory.read_of_startsAt m x h
    · rfl
  · rw [Memory.read]

/-- A byte read back after a write is the byte written at its address, and as it was elsewhere. -/
theorem Memory.read_write (m : List Host.Cell) (a x : Nat) (v : Byte) (hm : Memory.wf m = true) :
    Memory.read (Memory.write m a v) x = if x = a then v else Memory.read m x := by
  induction m with
  | nil => exact Memory.read_consCell [] a x v (by intro c hc; cases hc)
  | cons c m ih =>
    obtain ⟨b, w⟩ := c
    obtain ⟨_, _, h3, h4⟩ := (Memory.wf_cons_iff b w m).1 hm
    unfold Memory.write
    split
    · next h =>
      refine Memory.read_consCell _ a x v ?_
      intro c hc
      rcases List.mem_cons.1 hc with rfl | hc
      · exact h
      · have := h3 c hc; omega
    · split
      · next h =>
        subst h
        rw [Memory.read_consCell m a x v h3]
        split
        · rfl
        · next hx => rw [Memory.read, if_neg hx]
      · next h h' =>
        rw [Memory.read, Memory.read, ih h4]
        split
        · next hx => subst hx; rw [if_neg (by omega)]
        · rfl

/-- Every address a block and an offset make lies inside frame memory (R26). -/
theorem blockAddress_lt (b : BlockId) (offset : Nat) : blockAddress b offset < Config.memoryBytes := by
  have := b.isLt
  unfold blockAddress Config.blockBytes Config.memoryBytes
  omega

theorem FrameStore.wf_writeByte (st : FrameStore) (b : BlockId) (offset : Nat) (v : Byte)
    (h : Memory.wf st.mem = true) : Memory.wf (st.writeByte b offset v).mem = true :=
  Memory.wf_write st.mem _ v (blockAddress_lt b offset) h

/-- Linking a block leaves memory alone. -/
@[simp] theorem FrameStore.extendTo_mem (st : FrameStore) (b : BodyId) (n : Nat) : (st.extendTo b n).mem = st.mem := by
  unfold FrameStore.extendTo
  repeat' split
  all_goals rfl

theorem FrameStore.wf_storeByte (st : FrameStore) (b : BodyId) (n : Nat) (v : Byte) (h : Memory.wf st.mem = true) :
    Memory.wf (st.storeByte b n v).mem = true := by
  unfold FrameStore.storeByte
  split
  · exact h
  · exact (st.extendTo b n).wf_writeByte _ n v (by simpa using h)

theorem FrameStore.wf_storeBytes (st : FrameStore) (b : BodyId) (n : Nat) (vs : List Byte)
    (h : Memory.wf st.mem = true) : Memory.wf (st.storeBytes b n vs).mem = true := by
  induction vs generalizing st n with
  | nil => exact h
  | cons v vs ih => exact ih _ _ (st.wf_storeByte b n v h)

/-- Reset memory is in canonical form. -/
theorem FrameStore.wf_reset : Memory.wf FrameStore.reset.mem = true := rfl

end Sys2Proof.Machine
end

