-- ==== Sys2Proof/Laws/Store.lean ====
section
/-! SUPPORT. The Frame Store: free lists, what each of its operations leaves alone, and the schema by which a property of the store that its operations keep is kept by every command and event. -/
namespace Sys2Proof.Machine

/-! ## Free lists (R28, R29, R38) -/

/-- The list holds exactly the numbers whose entry is free, each once. -/
def FreeList {α : Type} {n : Nat} (l : List (Fin n)) (v : Vector (Option α) n) : Prop :=
  l.Nodup ∧ ∀ r : Fin n, r ∈ l ↔ v[r] = none

theorem FrameStore.listsAgree_iff (st : FrameStore) :
    st.listsAgree ↔ FreeList st.freeRecords st.records ∧ FreeList st.freeBodies st.bodies := by
  unfold FrameStore.listsAgree FreeList
  exact ⟨fun ⟨a, b, c, d⟩ => ⟨⟨a, b⟩, c, d⟩, fun ⟨⟨a, b⟩, c, d⟩ => ⟨a, b, c, d⟩⟩

section FreeLists

variable {α : Type} {n : Nat} {l : List (Fin n)} {v : Vector (Option α) n} {r : Fin n}

theorem getElem_set_fin (v : Vector α n) (r q : Fin n) (x : α) :
    (v.set r x)[q] = if r = q then x else v[q] := by
  show (v.set r.val x)[q.val] = _
  rw [Vector.getElem_set]
  simp only [Fin.ext_iff]
  rfl

/-- An entry freed goes to the tail of the list. -/
theorem FreeList.push (h : FreeList l v) (hr : v[r] ≠ none) : FreeList (l ++ [r]) (v.set r none) := by
  refine ⟨?_, fun q => ?_⟩
  · rw [List.nodup_append]
    refine ⟨h.1, by simp, ?_⟩
    intro a ha b hb
    rw [List.mem_singleton] at hb
    subst hb
    intro hab
    subst hab
    exact hr ((h.2 a).1 ha)
  · rw [getElem_set_fin, List.mem_append, List.mem_singleton, h.2 q]
    by_cases hq : r = q
    · simp [hq]
    · rw [if_neg hq, or_iff_left fun e : q = r => hq e.symm]

/-- An entry in use may be changed. -/
theorem FreeList.setSome (h : FreeList l v) (hr : v[r] ≠ none) (x : α) : FreeList l (v.set r (some x)) := by
  refine ⟨h.1, fun q => ?_⟩
  rw [getElem_set_fin, h.2 q]
  by_cases hq : r = q
  · subst hq; rw [if_pos rfl]; exact ⟨fun e => absurd e hr, fun e => by cases e⟩
  · rw [if_neg hq]

/-- The head of the list is taken into use. -/
theorem FreeList.pop (h : FreeList (r :: l) v) (x : α) : FreeList l (v.set r (some x)) := by
  have hn := List.nodup_cons.1 h.1
  refine ⟨hn.2, fun q => ?_⟩
  have hq := h.2 q
  rw [List.mem_cons] at hq
  rw [getElem_set_fin]
  by_cases he : r = q
  · subst he; simp [hn.1]
  · simp only [he, if_false, ← hq, or_iff_right (fun e : q = r => he e.symm)]

/-- At reset every number is on the list. -/
theorem FreeList.reset (α : Type) (n : Nat) : FreeList (List.finRange n) (Vector.replicate n (none : Option α)) := by
  refine ⟨List.nodup_finRange n, fun r => ?_⟩
  show _ ↔ (Vector.replicate n (none : Option α))[r.val] = none
  simp

/-- The numbers on the list and the entries in use add up to all. -/
theorem FreeList.card (h : FreeList l v) :
    l.length + (Finset.univ.filter fun r : Fin n => v[r] ≠ none).card = n := by
  have hl : l.toFinset = Finset.univ.filter fun r : Fin n => v[r] = none := by
    ext r
    simp [h.2 r]
  have hc : (Finset.univ.filter fun r : Fin n => v[r] = none).card = l.length := by
    rw [← hl, List.toFinset_card_of_nodup h.1]
  rw [← hc]
  simpa using Finset.card_filter_add_card_filter_not (s := (Finset.univ : Finset (Fin n))) (fun r => v[r] = none)

end FreeLists

/-! ## The pause test on the store alone (R39) -/

/-- The store after the pause test. -/
def FrameStore.afterPause (st : FrameStore) : FrameStore :=
  if st.pauseAsserts then { st with pauseCondition := true }
  else if st.pauseDeasserts then { st with pauseCondition := false }
  else st

theorem State.pauseTest_store (s : State) : s.pauseTest.store = s.store.afterPause := by
  unfold State.pauseTest FrameStore.afterPause
  repeat' split
  all_goals rfl

/-- The marks are in order (R40). -/
def FrameStore.marksInOrder (st : FrameStore) : Prop := st.pauseMark ≤ st.resumeMark ∧ st.resumeMark ≤ 2048

/-- After the pause test the condition agrees with the marks in order. -/
theorem FrameStore.afterPause_agrees (st : FrameStore) (h : st.marksInOrder) : st.afterPause.pauseAgrees := by
  obtain ⟨h1, h2⟩ := h
  unfold FrameStore.afterPause FrameStore.pauseAsserts FrameStore.pauseDeasserts
  cases hc : st.pauseCondition
  · by_cases hl : st.freeBlocks.length < st.pauseMark
    · simp [hl, FrameStore.pauseAgrees, h1, h2]; omega
    · simp [hl, FrameStore.pauseAgrees, h1, h2, hc]; omega
  · by_cases hl : st.resumeMark ≤ st.freeBlocks.length
    · simp [hl, FrameStore.pauseAgrees, h1, h2]; omega
    · simp [hl, FrameStore.pauseAgrees, h1, h2, hc]; omega

/-! ## What each operation of the store changes -/

/-- Two stores with the same memory, marks, pause condition and block free list. -/
structure FrameStore.SameSpace (st st' : FrameStore) : Prop where
  mem : st'.mem = st.mem
  freeBlocks : st'.freeBlocks = st.freeBlocks
  pauseMark : st'.pauseMark = st.pauseMark
  resumeMark : st'.resumeMark = st.resumeMark
  pauseCondition : st'.pauseCondition = st.pauseCondition

/-- Two stores with the same memory and marks. -/
structure FrameStore.SameMarks (st st' : FrameStore) : Prop where
  mem : st'.mem = st.mem
  pauseMark : st'.pauseMark = st.pauseMark
  resumeMark : st'.resumeMark = st.resumeMark

theorem FrameStore.SameSpace.refl (st : FrameStore) : st.SameSpace st := ⟨rfl, rfl, rfl, rfl, rfl⟩

theorem FrameStore.SameSpace.trans {a b c : FrameStore} (h : a.SameSpace b) (h' : b.SameSpace c) : a.SameSpace c :=
  ⟨h'.1.trans h.1, h'.2.trans h.2, h'.3.trans h.3, h'.4.trans h.4, h'.5.trans h.5⟩

theorem FrameStore.SameSpace.marks {a b : FrameStore} (h : a.SameSpace b) : a.SameMarks b := ⟨h.1, h.3, h.4⟩

theorem FrameStore.SameMarks.refl (st : FrameStore) : st.SameMarks st := ⟨rfl, rfl, rfl⟩

theorem FrameStore.SameMarks.trans {a b c : FrameStore} (h : a.SameMarks b) (h' : b.SameMarks c) : a.SameMarks c :=
  ⟨h'.1.trans h.1, h'.2.trans h.2, h'.3.trans h.3⟩

theorem FrameStore.SameMarks.inOrder {a b : FrameStore} (h : a.SameMarks b) (ha : a.marksInOrder) : b.marksInOrder := by
  unfold FrameStore.marksInOrder
  rw [h.pauseMark, h.resumeMark]
  exact ha

theorem FrameStore.SameSpace.agrees {a b : FrameStore} (h : a.SameSpace b) (ha : a.pauseAgrees) : b.pauseAgrees := by
  unfold FrameStore.pauseAgrees
  rw [h.pauseMark, h.resumeMark, h.pauseCondition, h.freeBlocks]
  exact ha

theorem FrameStore.pauseAgrees.inOrder {st : FrameStore} (h : st.pauseAgrees) : st.marksInOrder := ⟨h.1, h.2.1⟩

theorem FrameStore.sameMarks_afterPause (st : FrameStore) : st.SameMarks st.afterPause := by
  unfold FrameStore.afterPause
  repeat' split
  all_goals exact ⟨rfl, rfl, rfl⟩

theorem FrameStore.sameSpace_freeRecord (st : FrameStore) (r : RecordId) : st.SameSpace (st.freeRecord r) := by
  unfold FrameStore.freeRecord
  split <;> exact ⟨rfl, rfl, rfl, rfl, rfl⟩

theorem FrameStore.sameSpace_freeRecords (rs : List RecordId) (st : FrameStore) :
    st.SameSpace (rs.foldl FrameStore.freeRecord st) := by
  induction rs generalizing st with
  | nil => exact .refl st
  | cons r rs ih => exact (st.sameSpace_freeRecord r).trans (ih _)

theorem FrameStore.sameSpace_setRecordState (st : FrameStore) (r : RecordId) (rs : RecordState) :
    st.SameSpace (st.setRecordState r rs) := by
  unfold FrameStore.setRecordState
  split <;> exact ⟨rfl, rfl, rfl, rfl, rfl⟩

theorem FrameStore.sameMarks_freeBody (st : FrameStore) (b : BodyId) : st.SameMarks (st.freeBody b) := by
  unfold FrameStore.freeBody
  split <;> exact ⟨rfl, rfl, rfl⟩

theorem FrameStore.sameMarks_dropShare (st : FrameStore) (b : BodyId) : st.SameMarks (st.dropShare b) := by
  unfold FrameStore.dropShare
  split
  · exact .refl st
  · split
    · exact st.sameMarks_freeBody b
    · exact ⟨rfl, rfl, rfl⟩

theorem FrameStore.sameMarks_releaseRecord (st : FrameStore) (r : RecordId) : st.SameMarks (st.releaseRecord r) := by
  unfold FrameStore.releaseRecord
  split
  · exact .refl st
  · exact (st.sameSpace_freeRecord r).marks.trans (FrameStore.sameMarks_dropShare _ _)

theorem FrameStore.sameMarks_settleBody (st : FrameStore) (b : BodyId) (n : Nat) : st.SameMarks (st.settleBody b n) := by
  unfold FrameStore.settleBody
  split
  · exact st.sameMarks_freeBody b
  · split <;> exact ⟨rfl, rfl, rfl⟩

theorem FrameStore.sameMarks_freeReservation (st : FrameStore) (b : BodyId) (rs : List RecordId) :
    st.SameMarks (st.freeReservation b rs) :=
  (FrameStore.sameSpace_freeRecords rs st).marks.trans (FrameStore.sameMarks_freeBody _ b)

theorem FrameStore.sameMarks_reserve {st st' : FrameStore} {length : Nat} {grants : List Grant} {b : BodyId}
    {rs : List RecordId} (h : st.reserve length grants = some (st', b, rs)) : st.SameMarks st' := by
  unfold FrameStore.reserve at h
  split at h
  · split at h
    · cases h
    · cases h
    · simp only [Option.some.injEq, Prod.mk.injEq] at h
      obtain ⟨rfl, -⟩ := h
      exact ⟨rfl, rfl, rfl⟩
  · cases h

/-- A byte stored changes neither the marks nor the free blocks. -/
theorem FrameStore.storeByte_space (st : FrameStore) (b : BodyId) (n : Nat) (v : Byte) :
    (st.storeByte b n v).freeBlocks = st.freeBlocks ∧ (st.storeByte b n v).pauseMark = st.pauseMark ∧
      (st.storeByte b n v).resumeMark = st.resumeMark ∧
      (st.storeByte b n v).pauseCondition = st.pauseCondition := by
  unfold FrameStore.storeByte
  split
  · exact ⟨rfl, rfl, rfl, rfl⟩
  · unfold FrameStore.writeByte FrameStore.extendTo
    repeat' split
    all_goals exact ⟨rfl, rfl, rfl, rfl⟩

theorem FrameStore.storeBytes_marks (vs : List Byte) (st : FrameStore) (b : BodyId) (n : Nat) :
    (st.storeBytes b n vs).pauseMark = st.pauseMark ∧ (st.storeBytes b n vs).resumeMark = st.resumeMark := by
  induction vs generalizing st n with
  | nil => exact ⟨rfl, rfl⟩
  | cons v vs ih =>
    obtain ⟨h1, h2⟩ := ih (st.storeByte b n v) (n + 1)
    obtain ⟨-, h3, h4, -⟩ := st.storeByte_space b n v
    exact ⟨h1.trans h3, h2.trans h4⟩

/-! ## The free lists under each operation -/

theorem FrameStore.lists_freeRecord {st : FrameStore} (h : st.listsAgree) (r : RecordId) :
    (st.freeRecord r).listsAgree := by
  unfold FrameStore.freeRecord
  split
  · exact h
  · next hr =>
    rw [FrameStore.listsAgree_iff] at h ⊢
    exact ⟨h.1.push (by rw [hr]; simp), h.2⟩

theorem FrameStore.lists_freeRecords (rs : List RecordId) {st : FrameStore} (h : st.listsAgree) :
    (rs.foldl FrameStore.freeRecord st).listsAgree := by
  induction rs generalizing st with
  | nil => exact h
  | cons r rs ih => exact ih (FrameStore.lists_freeRecord h r)

theorem FrameStore.lists_setRecordState {st : FrameStore} (h : st.listsAgree) (r : RecordId) (rs : RecordState) :
    (st.setRecordState r rs).listsAgree := by
  unfold FrameStore.setRecordState
  split
  · exact h
  · next hr =>
    rw [FrameStore.listsAgree_iff] at h ⊢
    exact ⟨h.1.setSome (by rw [hr]; simp) _, h.2⟩

theorem FrameStore.lists_freeBody {st : FrameStore} (h : st.listsAgree) (b : BodyId) : (st.freeBody b).listsAgree := by
  unfold FrameStore.freeBody
  split
  · exact h
  · next hb =>
    rw [FrameStore.listsAgree_iff] at h ⊢
    exact ⟨h.1, h.2.push (by rw [hb]; simp)⟩

theorem FrameStore.lists_setBody {st : FrameStore} (h : st.listsAgree) {b : BodyId} (hb : st.bodies[b] ≠ none)
    (x : Body) : FrameStore.listsAgree { st with bodies := st.bodies.set b (some x) } := by
  rw [FrameStore.listsAgree_iff] at h ⊢
  exact ⟨h.1, h.2.setSome hb x⟩

theorem FrameStore.lists_dropShare {st : FrameStore} (h : st.listsAgree) (b : BodyId) : (st.dropShare b).listsAgree := by
  unfold FrameStore.dropShare
  split
  · exact h
  · next hb =>
    split
    · exact FrameStore.lists_freeBody h b
    · exact FrameStore.lists_setBody h (by rw [hb]; simp) _

theorem FrameStore.lists_releaseRecord {st : FrameStore} (h : st.listsAgree) (r : RecordId) :
    (st.releaseRecord r).listsAgree := by
  unfold FrameStore.releaseRecord
  split
  · exact h
  · exact FrameStore.lists_dropShare (FrameStore.lists_freeRecord h r) _

theorem FrameStore.lists_settleBody {st : FrameStore} (h : st.listsAgree) (b : BodyId) (n : Nat) :
    (st.settleBody b n).listsAgree := by
  unfold FrameStore.settleBody
  split
  · exact FrameStore.lists_freeBody h b
  · split
    · exact h
    · next hb => exact FrameStore.lists_setBody h (by rw [hb]; simp) _

theorem FrameStore.lists_freeReservation {st : FrameStore} (h : st.listsAgree) (b : BodyId) (rs : List RecordId) :
    (st.freeReservation b rs).listsAgree :=
  FrameStore.lists_freeBody (FrameStore.lists_freeRecords rs h) b

theorem FrameStore.lists_storeByte {st : FrameStore} (h : st.listsAgree) (b : BodyId) (n : Nat) (v : Byte) :
    (st.storeByte b n v).listsAgree := by
  unfold FrameStore.storeByte
  split
  · exact h
  · unfold FrameStore.writeByte FrameStore.extendTo
    split
    · exact h
    · next hb =>
      repeat' split
      all_goals first
        | exact h
        | (rw [FrameStore.listsAgree_iff] at h ⊢
           exact ⟨h.1, h.2.setSome (by rw [hb]; simp) _⟩)

theorem FrameStore.lists_storeBytes (vs : List Byte) {st : FrameStore} (h : st.listsAgree) (b : BodyId) (n : Nat) :
    (st.storeBytes b n vs).listsAgree := by
  induction vs generalizing st n with
  | nil => exact h
  | cons v vs ih => exact ih (FrameStore.lists_storeByte h b n v) (n + 1)

/-- The records taken from the head of the list by a reservation. -/
theorem freeList_reserveRecords (gs : List Grant) (b : BodyId) (l : List RecordId)
    (v : Vector (Option FrameRecord) 1024) (h : FreeList l v) (hl : gs.length ≤ l.length) :
    FreeList (l.drop gs.length) (reserveRecords v b (l.take gs.length) gs) := by
  induction gs generalizing l v with
  | nil => simpa [reserveRecords] using h
  | cons g gs ih =>
    cases l with
    | nil => simp at hl
    | cons r l =>
      simp only [List.length_cons, List.drop_succ_cons, List.take_succ_cons, reserveRecords]
      exact ih l _ (h.pop _) (by simpa using hl)

theorem FrameStore.lists_reserve {st st' : FrameStore} {length : Nat} {grants : List Grant} {b : BodyId}
    {rs : List RecordId} (h : st.listsAgree) (hr : st.reserve length grants = some (st', b, rs)) : st'.listsAgree := by
  unfold FrameStore.reserve at hr
  split at hr
  · next hc =>
    split at hr
    · cases hr
    · cases hr
    · next b' bodiesLeft first rest hb _ =>
      simp only [Option.some.injEq, Prod.mk.injEq] at hr
      obtain ⟨rfl, -⟩ := hr
      rw [FrameStore.listsAgree_iff] at h ⊢
      rw [hb] at h
      exact ⟨freeList_reserveRecords grants b' _ _ h.1 hc.1, h.2.pop _⟩
  · cases hr

theorem FrameStore.reset_freeBlocks : FrameStore.reset.freeBlocks = List.finRange 2048 := by simp only [FrameStore.reset]

theorem FrameStore.reset_freeRecords : FrameStore.reset.freeRecords = List.finRange 1024 := by simp only [FrameStore.reset]

theorem FrameStore.reset_freeBodies : FrameStore.reset.freeBodies = List.finRange 1024 := by simp only [FrameStore.reset]

theorem FrameStore.reset_records : FrameStore.reset.records = Vector.replicate 1024 none := by
  simp only [FrameStore.reset]

theorem FrameStore.reset_bodies : FrameStore.reset.bodies = Vector.replicate 1024 none := by
  simp only [FrameStore.reset]

theorem FrameStore.lists_reset : FrameStore.reset.listsAgree := by
  rw [FrameStore.listsAgree_iff, FrameStore.reset_freeRecords, FrameStore.reset_freeBodies, FrameStore.reset_records,
    FrameStore.reset_bodies]
  exact ⟨FreeList.reset FrameRecord 1024, FreeList.reset Body 1024⟩

theorem FrameStore.lists_afterPause {st : FrameStore} (h : st.listsAgree) : st.afterPause.listsAgree := by
  unfold FrameStore.afterPause
  repeat' split
  all_goals exact h

/-! ## The schema -/

/-- A property of the store that every operation on it keeps but those that write memory and the resets. -/
structure StoreQuiet (P : FrameStore → Prop) : Prop where
  release : ∀ st r, P st → P (st.releaseRecord r).afterPause
  recordState : ∀ st r rs, P st → P (st.setRecordState r rs)
  freeRecord : ∀ st r, P st → P (st.freeRecord r)
  settle : ∀ st b n, P st → P (st.settleBody b n).afterPause
  freeReservation : ∀ st b rs, P st → P (st.freeReservation b rs).afterPause
  lowWater : ∀ st n, P st → P { st with lowWater := n }
  marks : ∀ st n m, P st → n ≤ m → m ≤ 2048 → P ({ st with pauseMark := n, resumeMark := m } : FrameStore).afterPause

/-- A property of the store that every operation on it keeps. -/
structure StoreInvariant (P : FrameStore → Prop) : Prop extends StoreQuiet P where
  reset : P FrameStore.reset
  storeByte : ∀ st b n v, P st → P (st.storeByte b n v)
  reserve : ∀ st st' length grants b rs bytes, P st → st.reserve length grants = some (st', b, rs) →
    P (st'.storeBytes b 0 bytes).afterPause

/-! ### What writes no memory -/

section Quiet

variable {P : FrameStore → Prop} (h : StoreQuiet P) (s : State)

include h

theorem StoreQuiet.discardHead (f : FlowId) (why : DiscardReason) (hs : P s.store) :
    P (s.discardHead f why).store := by
  unfold State.discardHead
  split
  · exact hs
  · simp only [State.settleFlow_store, State.reportRemoval_store, State.pauseTest_store, State.setStore_store,
      State.modifyFlow_store]
    exact h.release _ _ hs

theorem StoreQuiet.removeStale (f : FlowId) (n : Nat) (hs : P s.store) : P (s.removeStale f n).store := by
  induction n generalizing s with
  | zero => exact hs
  | succ n ih =>
    unfold State.removeStale
    split
    · exact hs
    · split
      · exact ih _ (h.discardHead s f .stale hs)
      · exact hs

theorem StoreQuiet.ageFlow (f : FlowId) (hs : P s.store) : P (s.ageFlow f).store := h.removeStale s f _ hs

theorem StoreQuiet.agingCheck (hs : P s.store) : P s.agingCheck.store := by
  unfold State.agingCheck
  generalize allFlows = fs
  induction fs generalizing s with
  | nil => exact hs
  | cons f fs ih =>
    rw [List.foldl_cons]
    apply ih
    split
    · exact h.ageFlow s f hs
    · exact hs

theorem StoreQuiet.makeRoom (f : FlowId) (length n : Nat) (hs : P s.store) : P (s.makeRoom f length n).store := by
  induction n generalizing s with
  | zero => exact hs
  | succ n ih =>
    unfold State.makeRoom
    split
    · exact hs
    · exact ih _ (h.discardHead s f .head hs)

theorem StoreQuiet.admitting (f : FlowId) (length : Nat) (hs : P s.store) : P (s.admitting f length).1.store := by
  unfold State.admitting
  simp only []
  repeat' split
  all_goals first
    | exact hs
    | exact h.makeRoom s f length _ hs

theorem StoreQuiet.commitRecord (r : RecordId) (hs : P s.store) : P (s.commitRecord r).1.store := by
  unfold State.commitRecord
  simp only []
  split
  · exact hs
  · split
    · split
      · exact h.recordState _ _ _ hs
      · exact h.freeRecord _ _ hs
    · exact hs
    · exact hs

theorem StoreQuiet.commitRecords (rs : List RecordId) (hs : P s.store) : P (s.commitRecords rs).1.store := by
  induction rs generalizing s with
  | nil => exact hs
  | cons r rs ih => exact ih _ (h.commitRecord s r hs)

theorem StoreQuiet.commit (b : BodyId) (rs : List RecordId) (hs : P s.store) : P (s.commit b rs).store := by
  unfold State.commit
  rw [State.pauseTest_store]
  exact h.settle _ _ _ (h.commitRecords s rs hs)

theorem StoreQuiet.releaseHead (f : FlowId) (hs : P s.store) : P (s.releaseHead f).store := by
  unfold State.releaseHead
  repeat' split
  all_goals first
    | exact hs
    | exact h.recordState _ _ _ hs

theorem StoreQuiet.arbitrate (hs : P s.store) : P s.arbitrate.store := by
  unfold State.arbitrate
  split
  · exact hs
  · exact h.releaseHead _ _ hs

theorem StoreQuiet.choose (hs : P s.store) : P s.choose.store := by
  unfold State.choose
  repeat' split
  · exact h.releaseHead _ _ hs
  · exact h.arbitrate _ hs
  · exact h.releaseHead _ _ hs
  · exact h.arbitrate _ hs

theorem StoreQuiet.freeReception (hs : P s.store) : P s.freeReception.store := by
  unfold State.freeReception
  split
  all_goals first
    | exact hs
    | (rw [State.pauseTest_store]; exact h.freeReservation _ _ _ hs)

theorem StoreQuiet.closeBad (e : IngressError) (hs : P s.store) : P (s.closeBad e).store := by
  unfold State.closeBad
  simp only [State.ingressError_store, State.countReceived_store, State.setLane_store]
  exact h.freeReception s hs

theorem StoreQuiet.closeGood (hs : P s.store) : P s.closeGood.store := by
  unfold State.closeGood
  simp only []
  split
  all_goals first
    | exact hs
    | (apply h.commit; simpa using hs)
    | simpa using hs

theorem StoreQuiet.closeTested (rx : Reception) (claimed : Nat) (hs : P s.store) :
    P (s.closeTested rx claimed).store := by
  unfold State.closeTested
  repeat' split
  · exact h.closeBad s _ hs
  · exact h.closeGood s hs
  · exact h.closeBad s _ hs

theorem StoreQuiet.takeAbort (hs : P s.store) : P s.takeAbort.store := by
  unfold State.takeAbort
  split
  all_goals first
    | exact hs
    | exact h.closeBad s _ hs
    | simpa using hs

theorem StoreQuiet.takeStart (hs : P s.store) : P s.takeStart.store := by
  unfold State.takeStart
  split
  all_goals first
    | exact h.takeAbort s hs
    | simpa using hs

theorem StoreQuiet.takeEnd (hs : P s.store) : P s.takeEnd.store := by
  unfold State.takeEnd
  split
  all_goals first
    | exact hs
    | exact h.closeBad s _ hs
    | exact h.closeTested s _ _ hs
    | simpa using hs

end Quiet

/-! ### What may write memory -/

section Schema

variable {P : FrameStore → Prop} (h : StoreInvariant P) (s : State)

include h

theorem StoreInvariant.takeByte (b : Byte) (hs : P s.store) : P (s.takeByte b).store := by
  unfold State.takeByte
  simp only []
  split
  all_goals first
    | exact h.storeByte _ _ _ _ hs
    | (split <;> simpa using hs)
    | simpa using hs

theorem StoreInvariant.takeSymbol (x : Symbol) (hs : P s.store) : P (s.takeSymbol x).store := by
  cases x
  · exact h.takeStart s hs
  · exact h.takeByte s _ hs
  · exact h.takeEnd s hs
  · exact h.takeAbort s hs

theorem StoreInvariant.takeHeld (xs : List Symbol) (hs : P s.store) : P (s.takeHeld xs).store := by
  induction xs generalizing s with
  | nil => exact hs
  | cons x xs ih => exact ih _ (h.takeSymbol s x hs)

theorem StoreInvariant.classify (rx : Reception) (bytes : List Byte) (held : List Symbol) (hs : P s.store) :
    P (s.classify rx bytes held).store := by
  unfold State.classify
  simp only []
  split
  · exact h.takeHeld _ _ hs
  · exact hs

theorem StoreInvariant.decideAdmission (rx : Reception) (bytes : List Byte) (f : FlowId) (rest : List FlowId)
    (granted : List Grant) (label : Tag) (held : List Symbol) (hs : P s.store) :
    P (s.decideAdmission rx bytes f rest granted label held).store := by
  unfold State.decideAdmission
  simp only []
  repeat' split
  · exact h.admitting s _ _ hs
  · exact h.takeHeld _ _ (h.admitting s _ _ hs)
  · exact h.admitting s _ _ hs

theorem StoreInvariant.decideReservation (rx : Reception) (bytes : List Byte) (granted : List Grant) (label : Tag)
    (held : List Symbol) (hs : P s.store) : P (s.decideReservation rx bytes granted label held).store := by
  unfold State.decideReservation
  split
  · exact h.takeHeld _ _ (by simpa using hs)
  · next hr =>
    apply h.takeHeld
    rw [State.setLane_store, State.pauseTest_store]
    exact h.reserve _ _ _ _ _ _ _ hs hr

theorem StoreInvariant.completeResponse (hs : P s.store) : P s.completeResponse.store := by
  unfold State.completeResponse State.beginRestart
  simp only []
  repeat' split
  · exact h.freeReception _ hs
  · exact h.takeHeld _ _ (h.freeReception _ hs)
  · exact hs

end Schema

/-- A command keeps a property of the state if what it does at its owning block keeps it and the record of its result does. -/
theorem takeCommand_keeps {Q : State → Prop} {code : Byte} {args : List Byte} {run : State → Answer} {s t : State}
    (hr : Q s → Q ((run s).finish code false)) (he : takeCommand code args run s = .next t) (hs : Q s) : Q t := by
  unfold takeCommand at he
  split at he <;> cases he
  · exact hr hs
  · exact hs

/-- Every command and event keeps a property of the store that its operations keep. -/
theorem StoreInvariant.exec {P : FrameStore → Prop} (h : StoreInvariant P) {c : Instr} {s t : State}
    (he : exec c s = .next t) (hs : P s.store) : P t.store := by
  have tk {code : Byte} {args : List Byte} {run : State → Answer} (hr : P (run s).state.store)
      (he : takeCommand code args run s = .next t) : P t.store :=
    takeCommand_keeps (Q := fun s => P s.store) (fun _ => hr) he hs
  cases c <;> simp only [Machine.exec] at he
  case setPool =>
    refine tk ?_ he
    simp only [commandSetPool, ofLength]
    repeat' split
    · next hm =>
      simp only [answerOk, State.pauseTest_store]
      exact h.marks _ _ _ hs hm.1 hm.2
    all_goals exact hs
  case readPool =>
    refine tk ?_ he
    simp only [commandReadPool, ofLength]
    split
    · exact h.lowWater _ _ hs
    · exact hs
  case readCounters =>
    refine tk ?_ he
    simp only [commandReadCounters, ofLength, State.clearScope]
    repeat' split
    all_goals exact hs
  case restart =>
    unfold execRestart at he
    repeat' split at he
    all_goals cases he; exact hs
  case unknownCommand =>
    unfold execUnknownCommand at he
    split at he
    · cases he; exact hs
    · exact tk hs he
  case startDelimiter =>
    unfold execStartDelimiter at he
    split at he <;> cases he
    · exact hs
    · exact h.takeStart s hs
  case receiveByte =>
    unfold execReceiveByte at he
    split at he <;> cases he
    · exact hs
    · exact h.takeByte s _ hs
  case leadEvent =>
    unfold execLeadEvent at he
    repeat' split at he
    all_goals cases he; simpa using hs
  case classification =>
    unfold execClassification at he
    repeat' split at he
    all_goals cases he
    all_goals first
      | exact hs
      | exact h.classify s _ _ _ hs
  case admission =>
    unfold execAdmission at he
    repeat' split at he
    all_goals cases he
    all_goals first
      | exact hs
      | exact h.decideAdmission s _ _ _ _ _ _ _ hs
  case reservation =>
    unfold execReservation at he
    repeat' split at he
    all_goals cases he
    all_goals first
      | exact hs
      | exact h.decideReservation s _ _ _ _ _ hs
  case endDelimiter =>
    unfold execEndDelimiter at he
    split at he <;> cases he
    · exact hs
    · exact h.takeEnd s hs
  case abortDelimiter =>
    unfold execAbortDelimiter at he
    split at he <;> cases he
    · exact hs
    · exact h.takeAbort s hs
  case take =>
    unfold execTake at he
    repeat' split at he
    all_goals cases he; exact hs
  case returnTransmission =>
    unfold execReturnTransmission at he
    split at he <;> cases he <;> simpa using hs
  case returnCompletion =>
    unfold execReturnCompletion at he
    repeat' split at he
    all_goals cases he
    · exact hs
    · exact hs
    · exact h.completeResponse s hs
    · exact hs
  case reinitialisation =>
    unfold execReinitialisation at he
    split at he <;> cases he
    · exact h.reset
    · exact hs
  case epochExpiry =>
    unfold execEpochExpiry at he
    split at he <;> cases he <;> exact hs
  case replenishment =>
    unfold execReplenishment at he
    split at he <;> cases he <;> exact hs
  case agingSweep =>
    unfold execAgingSweep at he
    simp only [] at he
    split at he <;> cases he
    · split
      · exact hs
      · exact h.ageFlow _ _ hs
    · exact hs
  case profileStep =>
    unfold execProfileStep at he
    split at he <;> cases he <;> simpa using hs
  case lifetimeExpiry =>
    unfold execLifetimeExpiry at he
    split at he <;> cases he <;> simpa using hs
  case flushStep =>
    unfold execFlushStep at he
    split at he <;> cases he
    · exact h.discardHead s _ _ hs
    · exact hs
  case selection =>
    unfold execSelection at he
    split at he <;> rw [← Host.Outcome.next.inj he]
    · have ha := h.agingCheck s hs
      exact h.choose s.agingCheck ha
    · exact hs
  case transmissionCompletion =>
    unfold execTransmissionCompletion at he
    simp only [] at he
    repeat' split at he
    all_goals cases he
    · exact hs
    · exact hs
    · rw [State.settleDrain_store, State.pauseTest_store]
      exact h.release _ _ hs
  case quenchAssertion =>
    unfold execQuenchAssertion at he
    simp only [] at he
    repeat' split at he
    all_goals cases he; exact hs
  case quenchDeassertion => cases he; exact hs
  case dholdAssertion =>
    unfold execDholdAssertion at he
    split at he <;> cases he <;> exact hs
  case dholdDeassertion =>
    unfold execDholdDeassertion at he
    split at he <;> cases he <;> exact hs
  case holdTick =>
    unfold execHoldTick at he
    split at he <;> cases he <;> simpa using hs
  case holdStuck =>
    unfold execHoldStuck at he
    split at he <;> cases he <;> simpa using hs
  case noticeOccurrence =>
    unfold execNoticeOccurrence at he
    split at he <;> cases he <;> exact hs
  case firstBuild =>
    unfold execFirstBuild at he
    repeat' split at he
    all_goals cases he; exact hs
  case repeatTick =>
    unfold execRepeatTick at he
    split at he <;> cases he <;> exact hs
  case repeatDue =>
    unfold execRepeatDue at he
    split at he <;> cases he <;> exact hs
  case repeatBuild =>
    unfold execRepeatBuild at he
    repeat' split at he
    all_goals cases he; exact hs
  case resetAssertion =>
    unfold execResetAssertion at he
    split at he <;> cases he <;> exact hs
  case resetRelease =>
    unfold execResetRelease at he
    split at he <;> cases he
    · exact h.reset
    · exact hs
  all_goals
    refine tk ?_ he
    simpa using hs

end Sys2Proof.Machine
end

