-- ==== Sys2Proof/Laws/Blocks.lean ====
section
/-! SUPPORT. The blocks of frame memory: chains and how they grow (R26, R32), and every block on the free list or with one body (R29, R38), under each operation of the Frame Store. -/
namespace Sys2Proof.Machine

/-! ## Chains (R26) -/

/-- A chain is read from the links of its own blocks. -/
theorem chainFrom_congr {l l' : Vector BlockLink 2048} (n : Nat) (b : BlockId)
    (h : ∀ k ∈ chainFrom l n b, l'[k] = l[k]) : chainFrom l' n b = chainFrom l n b := by
  induction n generalizing b with
  | zero => rfl
  | succ n ih =>
    have hb : l'[b] = l[b] := h b (by unfold chainFrom; exact List.mem_cons_self)
    unfold chainFrom at h ⊢
    rw [hb]
    congr 1
    cases hc : l[b] with
    | absent => rfl
    | last => rfl
    | next c =>
      refine ih c fun k hk => h k (List.mem_cons_of_mem _ ?_)
      rw [hc]
      exact hk

theorem chainFrom_one (l : Vector BlockLink 2048) (b : BlockId) : chainFrom l 1 b = [b] := by
  unfold chainFrom
  split <;> rfl

/-- A chain with a block linked behind its last one is longer by that block. -/
theorem chainFrom_extend {l l' : Vector BlockLink 2048} (n : Nat) (b t p : BlockId)
    (hlen : (chainFrom l (n + 1) b).length = n + 1) (hnd : (chainFrom l (n + 1) b).Nodup)
    (ht : (chainFrom l (n + 1) b).getLast? = some t) (hp : l'[t] = .next p)
    (h : ∀ k ∈ chainFrom l (n + 1) b, k ≠ t → l'[k] = l[k]) :
    chainFrom l' (n + 2) b = chainFrom l (n + 1) b ++ [p] := by
  induction n generalizing b with
  | zero =>
    rw [chainFrom_one] at ht ⊢
    simp only [List.getLast?_singleton, Option.some.injEq] at ht
    subst ht
    rw [chainFrom, hp]
    simp [chainFrom_one]
  | succ n ih =>
    cases hb : l[b] with
    | absent => rw [chainFrom, hb] at hlen; simp at hlen
    | last => rw [chainFrom, hb] at hlen; simp at hlen
    | next c =>
      have e : chainFrom l (n + 2) b = b :: chainFrom l (n + 1) c := by
        conv_lhs => rw [chainFrom, hb]
      rw [e] at hlen hnd ht h ⊢
      have hc : chainFrom l (n + 1) c ≠ [] := by
        intro h0
        rw [h0] at hlen
        simp at hlen
      rw [List.getLast?_cons_of_ne_nil hc] at ht
      have hbt : b ≠ t := by
        rintro rfl
        exact (List.nodup_cons.1 hnd).1 (List.mem_of_getLast? ht)
      rw [chainFrom, h b List.mem_cons_self hbt, hb]
      simp only [List.cons_append]
      congr 1
      exact ih c (by simpa using hlen) (List.nodup_cons.1 hnd).2 ht hp
        fun k hk => h k (List.mem_cons_of_mem _ hk)

/-- The links of blocks outside the list stay as they were. -/
theorem clearLinks_notMem (blocks : List BlockId) (links : Vector BlockLink 2048) (k : BlockId) (h : k ∉ blocks) :
    (clearLinks links blocks)[k] = links[k] := by
  unfold clearLinks
  induction blocks generalizing links with
  | nil => rfl
  | cons b blocks ih =>
    rw [List.foldl_cons, ih _ fun hk => h (List.mem_cons_of_mem _ hk), getElem_set_fin,
      if_neg fun e : b = k => h (e ▸ List.mem_cons_self)]

/-! ## Where each block stands (R26, R29, R38) -/

section Places

variable {st st' : FrameStore} (h : st.blocksAgree)

include h

theorem FrameStore.blocksAgree.nodup (b : BodyId) : (st.blocksOf b).Nodup := by
  rw [List.nodup_iff_count_le_one]
  intro k
  have h1 := h k
  have h2 := Finset.single_le_sum (f := fun b => (st.blocksOf b).count k) (fun _ _ => Nat.zero_le _) (Finset.mem_univ b)
  omega

theorem FrameStore.blocksAgree.freeNodup : st.freeBlocks.Nodup := by
  rw [List.nodup_iff_count_le_one]
  intro k
  have h1 := h k
  omega

theorem FrameStore.blocksAgree.notFree {b : BodyId} {k : BlockId} (hk : k ∈ st.blocksOf b) : k ∉ st.freeBlocks := by
  intro hf
  have h1 := h k
  have h2 := Finset.single_le_sum (f := fun b => (st.blocksOf b).count k) (fun _ _ => Nat.zero_le _) (Finset.mem_univ b)
  have h3 := List.count_pos_iff.2 hk
  have h4 := List.count_pos_iff.2 hf
  omega

theorem FrameStore.blocksAgree.apart {b c : BodyId} (hbc : b ≠ c) {k : BlockId} (hk : k ∈ st.blocksOf b) :
    k ∉ st.blocksOf c := by
  intro hc
  have h1 := h k
  have h2 := Finset.add_sum_erase Finset.univ (fun b => (st.blocksOf b).count k) (Finset.mem_univ b)
  have h3 := Finset.single_le_sum (s := Finset.univ.erase b) (f := fun b => (st.blocksOf b).count k)
    (fun _ _ => Nat.zero_le _) (Finset.mem_erase.2 ⟨Ne.symm hbc, Finset.mem_univ c⟩)
  have h4 := List.count_pos_iff.2 hk
  have h5 := List.count_pos_iff.2 hc
  omega

/-- The blocks on the free list and the blocks that bodies hold add up to all (R38). -/
theorem FrameStore.blocksAgree.total : st.freeBlocks.length + ∑ b : BodyId, (st.blocksOf b).length = 2048 := by
  have hl : ∀ l : List BlockId, ∑ k : BlockId, l.count k = l.length := fun l => by
    simpa using List.sum_toFinset_count_eq_length l ▸ (Finset.sum_subset (Finset.subset_univ l.toFinset)
      (fun k _ hk => List.count_eq_zero.2 (fun hm => hk (List.mem_toFinset.2 hm)))).symm
  calc st.freeBlocks.length + ∑ b : BodyId, (st.blocksOf b).length
      = ∑ k : BlockId, st.freeBlocks.count k + ∑ b : BodyId, ∑ k : BlockId, (st.blocksOf b).count k := by
        simp only [hl]
    _ = ∑ k : BlockId, (st.freeBlocks.count k + ∑ b : BodyId, (st.blocksOf b).count k) := by
        rw [Finset.sum_comm, Finset.sum_add_distrib]
    _ = ∑ _k : BlockId, 1 := Finset.sum_congr rfl fun k _ => h k
    _ = 2048 := by simp

end Places

theorem FrameStore.blocksOf_of_some {st : FrameStore} {b : BodyId} {body : Body} (h : st.bodies[b] = some body) :
    st.blocksOf b = st.chain body ++ body.pendingBlocks := by
  unfold FrameStore.blocksOf
  rw [h]

theorem FrameStore.blocksOf_of_none {st : FrameStore} {b : BodyId} (h : st.bodies[b] = none) : st.blocksOf b = [] := by
  unfold FrameStore.blocksOf
  rw [h]

theorem FrameStore.chain_congr {st st' : FrameStore} (body : Body)
    (h : ∀ k ∈ st.chain body, st'.links[k] = st.links[k]) : st'.chain body = st.chain body := by
  unfold FrameStore.chain at h ⊢
  split
  · next hs => rw [hs] at h; exact chainFrom_congr _ _ h
  · next hs => rw [hs] at h; exact chainFrom_congr _ _ h

/-- Every block in one place, and every body's chain of its length. -/
def FrameStore.SpaceAgrees (st : FrameStore) : Prop :=
  st.blocksAgree ∧ ∀ (b : BodyId) (body : Body), st.bodies[b] = some body → st.bodyFits body

theorem FrameStore.bodyFits_congr {st st' : FrameStore} {body : Body} (h : st.bodyFits body)
    (hc : st'.chain body = st.chain body) : st'.bodyFits body := by
  unfold FrameStore.bodyFits at h ⊢
  rw [hc]
  exact h

/-- One body changes, with blocks of its own or of the free list alone. -/
theorem FrameStore.SpaceAgrees.update {st st' : FrameStore} (h : st.SpaceAgrees) (b : BodyId)
    (hbody : ∀ c, c ≠ b → st'.bodies[c] = st.bodies[c])
    (hlink : ∀ c, c ≠ b → ∀ k ∈ st.blocksOf c, st'.links[k] = st.links[k])
    (hcount : ∀ k, st'.freeBlocks.count k + (st'.blocksOf b).count k =
      st.freeBlocks.count k + (st.blocksOf b).count k)
    (hfit : ∀ body, st'.bodies[b] = some body → st'.bodyFits body) : st'.SpaceAgrees := by
  have hchain : ∀ c body, c ≠ b → st.bodies[c] = some body → st'.chain body = st.chain body := by
    intro c body hc hb
    refine st.chain_congr body fun k hk => hlink c hc k ?_
    rw [st.blocksOf_of_some hb]
    exact List.mem_append_left _ hk
  have hof : ∀ c, c ≠ b → st'.blocksOf c = st.blocksOf c := by
    intro c hc
    cases hb : st.bodies[c] with
    | none => rw [st.blocksOf_of_none hb, st'.blocksOf_of_none ((hbody c hc).trans hb)]
    | some body =>
      rw [st.blocksOf_of_some hb, st'.blocksOf_of_some ((hbody c hc).trans hb), hchain c body hc hb]
  refine ⟨fun k => ?_, fun c body hc => ?_⟩
  · have h1 := h.1 k
    have h2 := Finset.add_sum_erase Finset.univ (fun c => (st.blocksOf c).count k) (Finset.mem_univ b)
    have h3 := Finset.add_sum_erase Finset.univ (fun c => (st'.blocksOf c).count k) (Finset.mem_univ b)
    have h4 : ∑ c ∈ Finset.univ.erase b, (st'.blocksOf c).count k = ∑ c ∈ Finset.univ.erase b, (st.blocksOf c).count k :=
      Finset.sum_congr rfl fun c hc => by rw [hof c (Finset.ne_of_mem_erase hc)]
    have h5 := hcount k
    omega
  · by_cases he : c = b
    · subst he
      exact hfit body hc
    · have hb := (hbody c he).symm.trans hc
      exact FrameStore.bodyFits_congr (h.2 c body hb) (hchain c body he hb)

/-- The bodies, the links and the block free list alone matter. -/
theorem FrameStore.SpaceAgrees.congr {st st' : FrameStore} (h : st.SpaceAgrees) (h1 : st'.bodies = st.bodies)
    (h2 : st'.links = st.links) (h3 : st'.freeBlocks = st.freeBlocks) : st'.SpaceAgrees := by
  refine h.update 0 (fun c _ => by rw [h1]) (fun c _ k _ => by rw [h2]) (fun k => ?_) (fun body hb => ?_)
  · unfold FrameStore.blocksOf FrameStore.chain
    rw [h1, h2, h3]
  · rw [h1] at hb
    exact FrameStore.bodyFits_congr (h.2 _ body hb) (by unfold FrameStore.chain; rw [h2])

theorem FrameStore.SpaceAgrees.freeBody {st : FrameStore} (h : st.SpaceAgrees) (b : BodyId) :
    (st.freeBody b).SpaceAgrees := by
  unfold FrameStore.freeBody
  split
  · exact h
  · next body hb =>
    refine h.update b (fun c hc => ?_) (fun c hc k hk => ?_) (fun k => ?_) (fun body' hb' => ?_)
    · rw [getElem_set_fin, if_neg (Ne.symm hc)]
    · refine clearLinks_notMem _ _ _ fun hm => ?_
      refine h.1.apart hc hk ?_
      rw [st.blocksOf_of_some hb]
      exact List.mem_append_left _ hm
    · rw [st.blocksOf_of_some hb, FrameStore.blocksOf_of_none (by rw [getElem_set_fin, if_pos rfl])]
      simp only [List.count_append, List.count_nil]
      omega
    · rw [getElem_set_fin, if_pos rfl] at hb'
      cases hb'

/-- A body keeps its blocks while its other fields change. -/
theorem FrameStore.SpaceAgrees.setBody {st : FrameStore} (h : st.SpaceAgrees) {b : BodyId} {body x : Body}
    (hb : st.bodies[b] = some body) (hc : st.chain x = st.chain body) (hp : x.pendingBlocks = body.pendingBlocks)
    (hfit : st.bodyFits x) : FrameStore.SpaceAgrees { st with bodies := st.bodies.set b (some x) } := by
  refine h.update b (fun c hc => by rw [getElem_set_fin, if_neg (Ne.symm hc)]) (fun _ _ _ _ => rfl) (fun k => ?_)
    (fun body' hb' => ?_)
  · rw [st.blocksOf_of_some hb,
      FrameStore.blocksOf_of_some (st := { st with bodies := st.bodies.set b (some x) }) (by rw [getElem_set_fin, if_pos rfl]),
      hp]
    change _ + (st.chain x ++ body.pendingBlocks).count k = _
    rw [hc]
  · rw [getElem_set_fin, if_pos rfl] at hb'
    cases hb'
    exact hfit

theorem FrameStore.SpaceAgrees.dropShare {st : FrameStore} (h : st.SpaceAgrees) (b : BodyId) :
    (st.dropShare b).SpaceAgrees := by
  unfold FrameStore.dropShare
  split
  · exact h
  · next body hb =>
    split
    · exact h.freeBody b
    · exact h.setBody hb rfl rfl (h.2 b body hb)

theorem FrameStore.SpaceAgrees.freeRecord {st : FrameStore} (h : st.SpaceAgrees) (r : RecordId) :
    (st.freeRecord r).SpaceAgrees := by
  unfold FrameStore.freeRecord
  split
  · exact h
  · exact h.congr rfl rfl rfl

theorem FrameStore.SpaceAgrees.freeRecords (rs : List RecordId) {st : FrameStore} (h : st.SpaceAgrees) :
    (rs.foldl FrameStore.freeRecord st).SpaceAgrees := by
  induction rs generalizing st with
  | nil => exact h
  | cons r rs ih => exact ih (h.freeRecord r)

theorem FrameStore.SpaceAgrees.setRecordState {st : FrameStore} (h : st.SpaceAgrees) (r : RecordId) (rs : RecordState) :
    (st.setRecordState r rs).SpaceAgrees := by
  unfold FrameStore.setRecordState
  split
  · exact h
  · exact h.congr rfl rfl rfl

theorem FrameStore.SpaceAgrees.releaseRecord {st : FrameStore} (h : st.SpaceAgrees) (r : RecordId) :
    (st.releaseRecord r).SpaceAgrees := by
  unfold FrameStore.releaseRecord
  split
  · exact h
  · exact (h.freeRecord r).dropShare _

theorem FrameStore.SpaceAgrees.freeReservation {st : FrameStore} (h : st.SpaceAgrees) (b : BodyId) (rs : List RecordId) :
    (st.freeReservation b rs).SpaceAgrees := (h.freeRecords rs).freeBody b

theorem FrameStore.SpaceAgrees.afterPause {st : FrameStore} (h : st.SpaceAgrees) : st.afterPause.SpaceAgrees := by
  unfold FrameStore.afterPause
  repeat' split
  all_goals exact h

/-- A full FILLING body is STORED, or any body freed, at a commit (R33). -/
theorem FrameStore.SpaceAgrees.settleBody {st : FrameStore} (h : st.SpaceAgrees) {b : BodyId} {body : Body} {linked : Nat}
    (hb : st.bodies[b] = some body) (hs : body.state = .filling linked []) (n : Nat) : (st.settleBody b n).SpaceAgrees := by
  unfold FrameStore.settleBody
  split
  · exact h.freeBody b
  · rw [hb]
    have hf := h.2 b body hb
    have hl : linked = body.blockCount := by
      have := hf.2.2.2
      rw [hs] at this
      simpa using this.2.2
    have hc : st.chain { body with state := .stored, share := n } = st.chain body := by
      unfold FrameStore.chain
      rw [hs, hl]
    refine h.setBody hb hc (by unfold Body.pendingBlocks; rw [hs]) ⟨hf.1, hf.2.1, hf.2.2.1, ?_⟩
    have := hf.2.2.2
    rw [hs] at this
    rw [hc, this.2.1, hl]

/-- A reservation takes its blocks from the free list, whole (R30). -/
theorem FrameStore.SpaceAgrees.reserve {st st' : FrameStore} {length : Nat} {grants : List Grant} {b : BodyId}
    {rs : List RecordId} (h : st.SpaceAgrees) (hl : st.listsAgree) (h16 : 16 ≤ length) (h2048 : length ≤ 2048)
    (hr : st.reserve length grants = some (st', b, rs)) : st'.SpaceAgrees := by
  unfold FrameStore.reserve at hr
  split at hr
  · next hc =>
    split at hr
    · cases hr
    · cases hr
    · next b' left head rest hfb hfr =>
      simp only [Option.some.injEq, Prod.mk.injEq] at hr
      obtain ⟨rfl, rfl, -⟩ := hr
      have hnone : st.bodies[b'] = none := (hl.2.2.2 b').1 (hfb ▸ List.mem_cons_self)
      have hfirst : head ∈ st.freeBlocks := List.mem_of_mem_take (hfr ▸ List.mem_cons_self)
      have hlen : rest.length + 1 = blocksFor length := by
        have := congrArg List.length hfr
        rw [List.length_take, min_eq_left hc.2] at this
        simpa using this.symm
      obtain ⟨new, hnew⟩ : ∃ new : Body, new = { state := .filling 1 rest, firstBlock := head, blockCount := blocksFor length, length := length, share := grants.length } := ⟨_, rfl⟩
      rw [← hnew]
      have hget : (st.bodies.set b' (some new))[b'] = some new := by rw [getElem_set_fin, if_pos rfl]
      refine h.update b' (fun c hc' => by rw [getElem_set_fin, if_neg (Ne.symm hc')]) (fun c hc' k hk => ?_) (fun k => ?_)
        (fun body' hb' => ?_)
      · rw [getElem_set_fin, if_neg]
        rintro rfl
        exact h.1.notFree hk hfirst
      · rw [FrameStore.blocksOf_of_some (by exact hget), st.blocksOf_of_none hnone]
        have he : st.freeBlocks.count k = (head :: rest).count k + (st.freeBlocks.drop (blocksFor length)).count k := by
          rw [← hfr, ← List.count_append, List.take_append_drop]
        subst hnew
        simp only [FrameStore.chain, Body.pendingBlocks, chainFrom_one, List.count_append, List.count_nil]
        rw [he, List.count_cons, List.count_cons, List.count_nil]
        omega
      · rw [hget] at hb'
        cases hb'
        subst hnew
        refine ⟨h16, h2048, rfl, le_refl 1, ?_, ?_⟩
        · simp only [FrameStore.chain, chainFrom_one, List.length_singleton]
        · simpa [Nat.add_comm] using hlen
  · cases hr

/-- What storing a byte leaves of the bodies: the FILLING body with at most one more block linked (R32). -/
theorem FrameStore.extendTo_cases (st : FrameStore) (b : BodyId) (n : Nat) :
    st.extendTo b n = st ∨ ∃ body linked p rest, st.bodies[b] = some body ∧ body.state = .filling linked (p :: rest) ∧
      (st.chain body)[n / 128]? = none ∧
      st.extendTo b n = { st with
        links := linkTail st.links (st.chain body) p
        bodies := st.bodies.set b (some { body with state := .filling (linked + 1) rest }) } := by
  unfold FrameStore.extendTo
  split
  · exact .inl rfl
  · next body hb =>
    split
    · exact .inl rfl
    · next linked blocks hs =>
      split
      · exact .inl rfl
      · exact .inl rfl
      · next p rest hc => exact .inr ⟨body, linked, p, rest, hb, hs, hc, rfl⟩

theorem FrameStore.SpaceAgrees.extendTo {st : FrameStore} (h : st.SpaceAgrees) (b : BodyId) (n : Nat) :
    (st.extendTo b n).SpaceAgrees := by
  rcases st.extendTo_cases b n with he | ⟨body, linked, p, rest, hb, hs, -, he⟩
  · rw [he]; exact h
  rw [he]
  obtain ⟨f1, f2, f3, f4⟩ := h.2 b body hb
  rw [hs] at f4
  obtain ⟨g1, g2, g3⟩ := f4
  have hof : st.blocksOf b = st.chain body ++ p :: rest := by
    rw [st.blocksOf_of_some hb]
    unfold Body.pendingBlocks
    rw [hs]
  have hnd := h.1.nodup b
  rw [hof, List.nodup_append] at hnd
  have hp : p ∉ st.chain body := fun hm => hnd.2.2 p hm p List.mem_cons_self rfl
  obtain ⟨m, rfl⟩ : ∃ m, linked = m + 1 := ⟨linked - 1, by omega⟩
  have hchain : st.chain body = chainFrom st.links (m + 1) body.firstBlock := by
    unfold FrameStore.chain
    rw [hs]
  have hne : st.chain body ≠ [] := by
    intro h0
    rw [h0] at g2
    simp at g2
  obtain ⟨t, ht⟩ : ∃ t, (st.chain body).getLast? = some t := Option.ne_none_iff_exists'.1 (by simpa using hne)
  have htm : t ∈ st.chain body := List.mem_of_getLast? ht
  have hlinks : ∀ k, k ≠ t → k ≠ p → (linkTail st.links (st.chain body) p)[k] = st.links[k] := by
    intro k h1 h2
    unfold linkTail
    rw [ht]
    simp only
    rw [getElem_set_fin, if_neg (Ne.symm h2), getElem_set_fin, if_neg (Ne.symm h1)]
  have hlt : (linkTail st.links (st.chain body) p)[t] = .next p := by
    unfold linkTail
    rw [ht]
    simp only
    rw [getElem_set_fin, if_neg (by rintro rfl; exact hp htm), getElem_set_fin, if_pos rfl]
  have hnew : chainFrom (linkTail st.links (st.chain body) p) (m + 2) body.firstBlock = st.chain body ++ [p] := by
    rw [hchain] at hlinks hlt ht hnd hp ⊢
    exact chainFrom_extend m _ t p (hchain ▸ g2) hnd.1 ht hlt fun k hk hkt => hlinks k hkt (by rintro rfl; exact hp hk)
  have hget : (st.bodies.set b (some { body with state := BodyState.filling (m + 1 + 1) rest }))[b] =
      some { body with state := .filling (m + 1 + 1) rest } := by rw [getElem_set_fin, if_pos rfl]
  refine h.update b (fun c hc => by rw [getElem_set_fin, if_neg (Ne.symm hc)]) (fun c hc k hk => ?_) (fun k => ?_)
    (fun body' hb' => ?_)
  · have hk' := h.1.apart hc hk
    rw [hof] at hk'
    refine hlinks k ?_ ?_
    · rintro rfl
      exact hk' (List.mem_append_left _ htm)
    · rintro rfl
      exact hk' (List.mem_append_right _ List.mem_cons_self)
  · rw [FrameStore.blocksOf_of_some (by exact hget), hof]
    change _ + (chainFrom (linkTail st.links (st.chain body) p) (m + 2) body.firstBlock ++ rest).count k = _
    rw [hnew, List.append_assoc, List.singleton_append]
  · rw [hget] at hb'
    cases hb'
    refine ⟨f1, f2, f3, by omega, ?_, ?_⟩
    · change (chainFrom (linkTail st.links (st.chain body) p) (m + 2) body.firstBlock).length = _
      rw [hnew, List.length_append, g2]
      rfl
    · simp only [List.length_cons] at g3
      simp only
      omega

theorem FrameStore.SpaceAgrees.storeByte {st : FrameStore} (h : st.SpaceAgrees) (b : BodyId) (n : Nat) (v : Byte) :
    (st.storeByte b n v).SpaceAgrees := by
  unfold FrameStore.storeByte
  split
  · exact h
  · exact (h.extendTo b n).congr rfl rfl rfl

theorem FrameStore.SpaceAgrees.reset : FrameStore.reset.SpaceAgrees := by
  have hb : ∀ b : BodyId, FrameStore.reset.bodies[b] = none := by
    intro b
    rw [FrameStore.reset_bodies]
    show (Vector.replicate 1024 (none : Option Body))[b.val] = none
    simp
  refine ⟨fun k => ?_, fun b body h => ?_⟩
  · rw [Finset.sum_eq_zero fun b _ => by rw [FrameStore.blocksOf_of_none (hb b)]; rfl, FrameStore.reset_freeBlocks]
    rw [List.count_eq_one_of_mem (List.nodup_finRange _) (List.mem_finRange k), Nat.add_zero]
  · rw [hb] at h
    cases h

end Sys2Proof.Machine
end

