-- ==== Sys2Proof/Laws/Codings.lean ====
section
/-! SUPPORT. Codes and byte fields read back: profiles, match entries and request bodies (R190 to R193). -/
namespace Sys2Proof.Machine

theorem disciplineOf_iff (n : Nat) (d) : disciplineOf n = some d ↔ disciplineCode d = n := by
  unfold disciplineOf; split <;> cases d <;> simp_all [disciplineCode] <;> omega

theorem releaseModeOf_iff (n : Nat) (d) : releaseModeOf n = some d ↔ releaseModeCode d = n := by
  unfold releaseModeOf; split <;> cases d <;> simp_all [releaseModeCode] <;> omega

theorem expireActionOf_iff (n : Nat) (d) : expireActionOf n = some d ↔ expireActionCode d = n := by
  unfold expireActionOf; split <;> cases d <;> simp_all [expireActionCode] <;> omega

theorem boolOf_iff (n : Nat) (b : Bool) : boolOf n = some b ↔ b.toNat = n := by
  unfold boolOf; split <;> cases b <;> simp_all <;> omega

theorem flowOf_iff (n : Nat) (f : FlowId) : flowOf n = some f ↔ f.val = n := by
  unfold flowOf; split
  · simp [Fin.ext_iff]; exact eq_comm
  · have := f.isLt; simp; omega

/-- Two bytes read back as the number they were written from. -/
theorem byte_pair (a : Nat) (h : a < 65536) : (BitVec.ofNat 8 (a / 256)).toNat * 256 + (BitVec.ofNat 8 a).toNat = a := by
  simp; omega

theorem byte_toNat (b : Byte) : BitVec.ofNat 8 b.toNat = b := by simp

theorem byte_high (a b : Byte) : BitVec.ofNat 8 ((a.toNat * 256 + b.toNat) / 256) = a := by
  apply BitVec.eq_of_toNat_eq; have := a.isLt; have := b.isLt; simp; omega

theorem byte_low (a b : Byte) : BitVec.ofNat 8 (a.toNat * 256 + b.toNat) = b := by
  apply BitVec.eq_of_toNat_eq; have := a.isLt; have := b.isLt; simp; omega

theorem byte_first (a b c d : Byte) : BitVec.ofNat 8 (((a.toNat * 256 + b.toNat) * 65536 + (c.toNat * 256 + d.toNat)) / 65536 / 256) = a := by
  apply BitVec.eq_of_toNat_eq; have := a.isLt; have := b.isLt; have := c.isLt; have := d.isLt; simp; omega

theorem byte_second (a b c d : Byte) : BitVec.ofNat 8 (((a.toNat * 256 + b.toNat) * 65536 + (c.toNat * 256 + d.toNat)) / 65536) = b := by
  apply BitVec.eq_of_toNat_eq; have := a.isLt; have := b.isLt; have := c.isLt; have := d.isLt; simp; omega

theorem byte_third (a b c d : Byte) : BitVec.ofNat 8 (((a.toNat * 256 + b.toNat) * 65536 + (c.toNat * 256 + d.toNat)) / 256) = c := by
  apply BitVec.eq_of_toNat_eq; have := a.isLt; have := b.isLt; have := c.isLt; have := d.isLt; simp; omega

theorem byte_fourth (a b c d : Byte) : BitVec.ofNat 8 (((a.toNat * 256 + b.toNat) * 65536 + (c.toNat * 256 + d.toNat))) = d := by
  apply BitVec.eq_of_toNat_eq; have := a.isLt; have := b.isLt; have := c.isLt; have := d.isLt; simp; omega

theorem sixteen_bytes (bs : List Byte) (h : bs.length = 16) : ∃ a b c d e f g h i j k l m n o p, bs = [a,b,c,d,e,f,g,h,i,j,k,l,m,n,o,p] := by
  match bs, h with
  | [a,b,c,d,e,f,g,h,i,j,k,l,m,n,o,p], _ => exact ⟨a,b,c,d,e,f,g,h,i,j,k,l,m,n,o,p,rfl⟩

/-- An entry in its ranges has its action read back (R57, R58). -/
theorem decodeAction_encodeEntry (e : MatchEntry) (h : e.inRange) : decodeAction (encodeEntry e) = some e.action := by
  have e1 : byteAt (encodeEntry e) 1 = actionCode e.action := by
    cases h : e.action <;> simp [encodeEntry, byteAt, bytes8, bytesBool, h, actionCode]
  have e2 : byteAt (encodeEntry e) 2 = (actionRelabel e.action).isSome.toNat := by
    simp [encodeEntry, byteAt, bytes8, bytesBool]; cases (actionRelabel e.action).isSome <;> simp
  have e3 : num16At (encodeEntry e) 26 = actionFlow e.action := by
    have : actionFlow e.action < 65536 := by cases e.action <;> simp [actionFlow] <;> omega
    simp [encodeEntry, num16At, byteAt, bytes8, bytes16, bytesBool]; omega
  have e4 : num16At (encodeEntry e) 28 = actionMirror e.action := by
    have : actionMirror e.action < 65536 := by cases e.action <;> simp [actionMirror] <;> omega
    simp [encodeEntry, num16At, byteAt, bytes8, bytes16, bytesBool]; omega
  have e5 : field16At (encodeEntry e) 30 = (actionRelabel e.action).getD 0#16 := by
    have : ((actionRelabel e.action).getD 0#16).toNat < 65536 := ((actionRelabel e.action).getD 0#16).isLt
    apply BitVec.eq_of_toNat_eq
    simp [encodeEntry, field16At, num16At, byteAt, bytes8, bytes16, bytesBool]; omega
  have e6 : relabelOf (encodeEntry e) = some (actionRelabel e.action) := by
    unfold relabelOf; rw [e2, e5, boolOf_toNat]; cases actionRelabel e.action <;> rfl
  unfold decodeAction flowAt
  rw [e1, e3, e4, e6]
  cases ha : e.action with
  | discard => rfl
  | queue f r => simp [actionCode, actionFlow, flowOf_val, actionRelabel]
  | mirror f g r =>
    have : f ≠ g := by have := h.2.2; rw [ha] at this; exact this
    simp [actionCode, actionFlow, actionMirror, flowOf_val, actionRelabel, this]

/-- A command list is read back from its encoding (R161). -/
theorem parseCommands_encode (cs : List Command) (h : ∀ c ∈ cs, c.args.length ≤ 255) : parseCommands cs.length (cs.flatMap Command.encode) = some cs := by
  induction cs with
  | nil => rfl
  | cons c cs ih =>
    have hc := h c (by simp)
    have e : (c :: cs).flatMap Command.encode = c.code :: BitVec.ofNat 8 c.args.length :: (c.args ++ cs.flatMap Command.encode) := by
      simp [Command.encode, bytes8]
    have hl : (BitVec.ofNat 8 c.args.length).toNat = c.args.length := by simp; omega
    rw [e, List.length_cons, parseCommands, hl, if_neg (by simp)]
    simp only [List.drop_left, List.take_left, ih fun x hx => h x (by simp [hx])]

/-- What is read is the encoding of what was read (R161). -/
theorem parseCommands_sound : ∀ (n : Nat) (bs : List Byte) (cs : List Command), parseCommands n bs = some cs → bs = cs.flatMap Command.encode ∧ cs.length = n := by
  intro n
  induction n with
  | zero => intro bs cs h; cases bs <;> simp_all [parseCommands]
  | succ n ih =>
    intro bs cs h
    match bs, h with
    | [], h => simp [parseCommands] at h
    | [_], h => simp [parseCommands] at h
    | code :: len :: rest, h =>
      rw [parseCommands] at h
      split at h
      · simp at h
      · next hl =>
        split at h
        · simp at h
        · next cs' hcs =>
          simp only [Option.some.injEq] at h
          obtain ⟨h1, h2⟩ := ih _ _ hcs
          subst h
          constructor
          · have : BitVec.ofNat 8 (min len.toNat rest.length) = len := by
              rw [Nat.min_eq_left (by omega)]; simp
            simp [Command.encode, bytes8, ← h1, this]
          · simp [h2]

/-- A masked test compares the bits the mask sets (R45). -/
theorem maskedTest_iff {w : Nat} (v m f : BitVec w) : maskedTest v m f = true ↔ ∀ i < w, m.getLsbD i = true → f.getLsbD i = v.getLsbD i := by
  unfold maskedTest
  rw [decide_eq_true_eq]
  constructor
  · intro h i byte_high hm
    have := congrArg (fun b => b.getLsbD i) h
    simpa [hm] using this
  · intro h
    apply BitVec.eq_of_getLsbD_eq
    intro i byte_high
    rw [BitVec.getLsbD_and, BitVec.getLsbD_and]
    cases hm : m.getLsbD i
    · simp
    · simp [h i byte_high hm]

theorem getElem_mapAll {α : Type} {n : Nat} (g : α → α) (v : Vector α n) (i : Nat) (h : i < n) : (mapAll g v)[i] = g v[i] := by
  simp [mapAll]

end Sys2Proof.Machine
end

