-- ==== Sys2Proof/Laws/FlowLegal.lean ====
section
/-! SUPPORT. Legal flows and runs (R1, R67, R84, R86, R104) under the operations that the meanings share. -/
namespace Sys2Proof.Machine

/-! ## One flow replaced -/

theorem State.flowsLegal_congr {s t : State} (h : s.flowsLegal) (hf : t.flows = s.flows)
    (hc : t.scheduler = s.scheduler) : t.flowsLegal := by
  have e : ∀ f, t.flow f = s.flow f := fun f => by simp [State.flow, hf]
  refine ⟨fun f => by rw [e]; exact h.1 f, fun run hr => ?_⟩
  rw [hc] at hr
  have := h.2 run hr
  unfold State.releaseAllowed at *
  rw [e, hc]
  exact this

/-- A flow replaced by a legal one that still holds the run as it may. -/
theorem State.flowsLegal_setFlow {s : State} (h : s.flowsLegal) (f : FlowId) (x : Flow) (hx : x.legal)
    (hr : ∀ run, s.scheduler.run = some run → run.holder = f → x.releasing = true ∧ x.group ≠ .express) :
    (s.setFlow f x).flowsLegal := by
  constructor
  · intro g
    rw [State.flow_setFlow]
    split
    · exact hx
    · exact h.1 g
  · intro run hrun
    have hh := h.2 run hrun
    rw [State.flow_setFlow]
    split
    · next he =>
      obtain ⟨a, b⟩ := hr run hrun he.symm
      exact ⟨a, b, hh.2.2⟩
    · exact hh

/-- A flow replaced by a legal one, with its run ended. -/
theorem State.flowsLegal_without {s t : State} (h : s.flowsLegal) (f : FlowId) (x : Flow) (hx : x.legal)
    (hf : t.flows = s.flows.set f x) (hc : t.scheduler = s.scheduler.without f) : t.flowsLegal := by
  have e : ∀ g, t.flow g = (s.setFlow f x).flow g := fun g => by simp [State.flow, State.setFlow, hf]
  constructor
  · intro g
    rw [e, State.flow_setFlow]
    split
    · exact hx
    · exact h.1 g
  · intro run hr
    rw [hc, Scheduler.without] at hr
    simp only [Option.filter_eq_some_iff, decide_eq_true_eq] at hr
    obtain ⟨hr, hne⟩ := hr
    have := h.2 run hr
    unfold State.releaseAllowed at *
    rw [e, State.flow_setFlow_of_ne _ _ _ _ (fun he => hne he.symm), hc]
    exact this

/-- The run replaced by a legal one, or by none. -/
theorem State.flowsLegal_setScheduler {s : State} (h : s.flowsLegal) (c : Scheduler)
    (hr : ∀ run, c.run = some run →
      (s.flow run.holder).releasing = true ∧ (s.flow run.holder).group ≠ .express ∧ 1 ≤ run.remaining ∧
        run.remaining ≤ 64 ∧ (c.releaseEnable && !c.quenchFlag) = true) :
    (s.setScheduler c).flowsLegal := ⟨h.1, hr⟩

theorem State.flowsLegal_endRun {s : State} (h : s.flowsLegal) : s.endRun.flowsLegal :=
  s.flowsLegal_setScheduler h _ (fun run hr => by cases hr)

/-! ## Legal flows -/

theorem Flow.legal_reset : Flow.reset.legal := by
  refine ⟨rfl, by decide, fun p hp => (by cases hp), by decide, by decide, fun h => (by cases h), fun _ => rfl, ?_⟩
  rintro (h | h | h | h) <;> cases h

/-- Only the record's other fields change. -/
theorem Flow.legal_of_same {x y : Flow} (h : x.legal) (h1 : y.state = x.state) (h2 : y.queue = x.queue)
    (h3 : y.queuedFrames = x.queuedFrames) (h4 : y.credit = x.credit) (h5 : y.active = x.active)
    (h6 : y.staged = x.staged) (h7 : y.remaining = x.remaining) (h8 : y.adoptPending = x.adoptPending) : y.legal := by
  unfold Flow.legal Flow.countsOn Flow.lifetimeFits at *
  rw [h1, h2, h3, h4, h5, h6, h7, h8]
  exact h

/-- A flow in another state than DISABLED, whose lifetime counts on in the new state only if it did in the old. -/
theorem Flow.legal_setState {x : Flow} (h : x.legal) (fs : FlowState) (hd : fs ≠ .disabled)
    (hc : { x with state := fs }.countsOn → x.countsOn) : { x with state := fs }.legal :=
  ⟨h.1, h.2.1, h.2.2.1, h.2.2.2.1, h.2.2.2.2.1, h.2.2.2.2.2.1, fun e => absurd e hd, fun e => h.2.2.2.2.2.2.2 (hc e)⟩

/-- A DISABLED flow, whatever it was before (R8). -/
theorem Flow.legal_disabled {x : Flow} (h : x.legal) :
    x.disabled.legal := by
  refine ⟨h.1, h.2.1, fun p hp => (by cases hp), h.2.2.2.1, h.2.2.2.2.1, fun e => (by cases e), fun _ => rfl, ?_⟩
  rintro (e | e | e | e) <;> cases e

theorem Flow.legal_popHead {x : Flow} (h : x.legal) (length : Nat) (r : RecordId) (rest : List RecordId)
    (hq : x.queue = r :: rest) : (x.popHead length).legal := by
  refine ⟨?_, h.2⟩
  have := h.1
  simp only [Flow.popHead, hq, List.tail_cons] at this ⊢
  simp [this]

/-- A flow whose queue holds nothing is not in use by a run only through its state. -/
theorem State.notHolder {s : State} (h : s.flowsLegal) {f : FlowId} (hf : (s.flow f).releasing = false) (run : Run)
    (hr : s.scheduler.run = some run) : run.holder ≠ f := by
  intro he
  have := (h.2 run hr).1
  rw [he, hf] at this
  cases this

/-! ## Entry into DISABLED, closing and flushes -/

theorem State.flowsLegal_report {s : State} (h : s.flowsLegal) (k : NoticeKind) (f : FlowId) :
    (s.report k f).flowsLegal := State.flowsLegal_congr h rfl rfl

theorem State.flowsLegal_pauseTest {s : State} (h : s.flowsLegal) : s.pauseTest.flowsLegal :=
  State.flowsLegal_congr h (by simp) (by simp)

theorem State.flowsLegal_disabledAt {s : State} (h : s.flowsLegal) (f : FlowId) : (s.disabledAt f).flowsLegal :=
  State.flowsLegal_without h f _ (Flow.legal_disabled (h.1 f)) rfl rfl

theorem State.flowsLegal_setState {s : State} (h : s.flowsLegal) (f : FlowId) (fs : FlowState) (hd : fs ≠ .disabled)
    (hc : { s.flow f with state := fs }.countsOn → (s.flow f).countsOn)
    (hr : fs = .active ∨ fs = .draining ∨ (s.flow f).releasing = false) :
    (s.setFlow f { s.flow f with state := fs }).flowsLegal := by
  refine State.flowsLegal_setFlow h f _ (Flow.legal_setState (h.1 f) fs hd hc) (fun run hrun he => ?_)
  have hh := h.2 run hrun
  rw [he] at hh
  refine ⟨?_, hh.2.1⟩
  rcases hr with rfl | rfl | hr
  · rfl
  · rfl
  · exact absurd he (State.notHolder h hr run hrun)

theorem State.flowsLegal_completeFlush {s : State} (h : s.flowsLegal) (f : FlowId) (back : ReturnState)
    (hs : (s.flow f).state = .flushing back) : (s.completeFlush f back).flowsLegal := by
  have hr : (s.flow f).releasing = false := by simp [Flow.releasing, hs]
  rw [State.completeFlush_eq]
  split
  · exact State.flowsLegal_disabledAt h f
  · refine State.flowsLegal_setState h f _ ?_ ?_ (.inr (.inr hr))
    · cases back <;> simp [ReturnState.toFlowState]
    · intro hc
      unfold Flow.countsOn at hc ⊢
      rw [hs]
      cases back with
      | active => exact .inr (.inr (.inl rfl))
      | draining => rcases hc with e | e | e | e <;> cases e
      | held cause =>
        cases cause with
        | ordered => exact .inr (.inr (.inr rfl))
        | expired => rcases hc with e | e | e | e <;> cases e

theorem State.flowsLegal_settleFlow {s : State} (h : s.flowsLegal) (f : FlowId) : (s.settleFlow f).flowsLegal := by
  unfold State.settleFlow
  repeat' split
  all_goals first
    | exact h
    | (rw [State.enterDisabled_eq]; exact State.flowsLegal_disabledAt h f)
    | exact State.flowsLegal_completeFlush h f _ (by assumption)

theorem State.flowsLegal_settleDrain {s : State} (h : s.flowsLegal) (f : FlowId) : (s.settleDrain f).flowsLegal := by
  unfold State.settleDrain
  split
  · rw [State.enterDisabled_eq]; exact State.flowsLegal_disabledAt h f
  · exact h

theorem State.flowsLegal_startFlush {s : State} (h : s.flowsLegal) (f : FlowId) (back : ReturnState)
    (hs : (s.flow f).state = back.toFlowState) : (s.startFlush f back).flowsLegal := by
  unfold State.startFlush
  apply State.flowsLegal_settleFlow
  refine State.flowsLegal_without h f { s.flow f with state := .flushing back } ?_ ?_ ?_
  · refine Flow.legal_setState (h.1 f) _ (by simp) (fun hc => ?_)
    unfold Flow.countsOn at hc ⊢
    rw [hs]
    rcases hc with e | e | e | e
    · cases e
    · cases e
    · cases e; exact .inl rfl
    · cases e; exact .inr (.inl rfl)
  · rw [State.endRunOf_flows]; rfl
  · rw [State.endRunOf_eq]; rfl

theorem State.flowsLegal_closeFlow {s : State} (h : s.flowsLegal) (f : FlowId) : (s.closeFlow f).flowsLegal := by
  rw [State.closeFlow_eq]
  split
  · exact State.flowsLegal_disabledAt h f
  · refine State.flowsLegal_setState h f _ (by simp) ?_ (.inr (.inl rfl))
    rintro (e | e | e | e) <;> cases e

/-! ## Head removals, aging and admission -/

theorem State.flowsLegal_countDiscard {s : State} (h : s.flowsLegal) (f : FlowId) (why : DiscardReason) :
    (s.countDiscard f why).flowsLegal :=
  State.flowsLegal_setFlow h f _ (Flow.legal_of_same (h.1 f) rfl rfl rfl rfl rfl rfl rfl rfl)
    (fun run hr he => ⟨he ▸ (h.2 run hr).1, he ▸ (h.2 run hr).2.1⟩)

theorem State.flowsLegal_discardHead {s : State} (h : s.flowsLegal) (f : FlowId) (why : DiscardReason) :
    (s.discardHead f why).flowsLegal := by
  unfold State.discardHead
  split
  · exact h
  · next r rest hq =>
    apply State.flowsLegal_settleFlow
    refine State.flowsLegal_congr (s := s.modifyFlow f fun x =>
      { x.popHead (s.store.recordLength r) with counters := x.counters.discard why }) ?_ (by simp) (by simp)
    exact State.flowsLegal_setFlow h f _
      (Flow.legal_of_same (x := (s.flow f).popHead (s.store.recordLength r)) (Flow.legal_popHead (h.1 f) _ r rest hq) rfl rfl rfl rfl rfl rfl rfl rfl)
      (fun run hr he => ⟨he ▸ (h.2 run hr).1, he ▸ (h.2 run hr).2.1⟩)

theorem State.flowsLegal_removeStale {s : State} (h : s.flowsLegal) (f : FlowId) (n : Nat) :
    (s.removeStale f n).flowsLegal := by
  induction n generalizing s with
  | zero => exact h
  | succ n ih =>
    unfold State.removeStale
    repeat' split
    · exact h
    · exact ih (State.flowsLegal_discardHead h f .stale)
    · exact h

theorem State.flowsLegal_ageFlow {s : State} (h : s.flowsLegal) (f : FlowId) : (s.ageFlow f).flowsLegal :=
  State.flowsLegal_removeStale h f _

theorem State.flowsLegal_agingCheck {s : State} (h : s.flowsLegal) : s.agingCheck.flowsLegal := by
  unfold State.agingCheck
  generalize allFlows = fs
  induction fs generalizing s with
  | nil => exact h
  | cons f fs ih =>
    rw [List.foldl_cons]
    apply ih
    split
    · exact State.flowsLegal_ageFlow h f
    · exact h

theorem State.flowsLegal_makeRoom {s : State} (h : s.flowsLegal) (f : FlowId) (length n : Nat) :
    (s.makeRoom f length n).flowsLegal := by
  induction n generalizing s with
  | zero => exact h
  | succ n ih =>
    unfold State.makeRoom
    split
    · exact h
    · exact ih (State.flowsLegal_discardHead h f .head)

theorem State.flowsLegal_refuseLimit {s : State} (h : s.flowsLegal) (f : FlowId) : (s.refuseLimit f).flowsLegal :=
  State.flowsLegal_report (State.flowsLegal_countDiscard h f .limit) _ f

theorem State.flowsLegal_admit {s : State} (h : s.flowsLegal) (f : FlowId) (length : Nat) :
    (s.admitting f length).1.flowsLegal := by
  unfold State.admitting
  simp only []
  repeat' split
  all_goals first
    | exact h
    | exact State.flowsLegal_countDiscard h f _
    | exact State.flowsLegal_refuseLimit h f
    | exact State.flowsLegal_makeRoom h f _ _

theorem State.flowsLegal_poolDiscard {s : State} (h : s.flowsLegal) (gs : List Grant) :
    (s.poolDiscard gs).flowsLegal := by
  induction gs generalizing s with
  | nil => exact h
  | cons g gs ih => exact ih (State.flowsLegal_countDiscard h g.flow .pool)

/-! ## The commit -/

theorem State.flowsLegal_appendRecord {s : State} (h : s.flowsLegal) (f : FlowId) (r : RecordId) :
    (s.appendRecord f r).flowsLegal := by
  have hx := h.1 f
  refine State.flowsLegal_congr (s := s.setFlow f (((s.appendRecord f r)).flow f)) ?_ ?_ rfl
  · refine State.flowsLegal_setFlow h f _ ?_ (fun run hr he => ?_)
    · simp only [State.appendRecord, State.setStore_flow, State.modifyFlow_flow_same]
      refine ⟨?_, hx.2⟩
      have := hx.1
      simp only [List.length_append, List.length_singleton]
      omega
    · simp only [State.appendRecord, State.setStore_flow, State.modifyFlow_flow_same]
      exact ⟨he ▸ (h.2 run hr).1, he ▸ (h.2 run hr).2.1⟩
  · simp [State.appendRecord, State.modifyFlow]

theorem State.flowsLegal_commitRecord {s : State} (h : s.flowsLegal) (r : RecordId) :
    (s.commitRecord r).1.flowsLegal := by
  unfold State.commitRecord
  simp only []
  repeat' split
  all_goals first
    | exact h
    | exact State.flowsLegal_appendRecord h _ r
    | exact State.flowsLegal_congr (State.flowsLegal_countDiscard h _ _) rfl rfl

theorem State.flowsLegal_commitRecords {s : State} (h : s.flowsLegal) (rs : List RecordId) :
    (s.commitRecords rs).1.flowsLegal := by
  induction rs generalizing s with
  | nil => exact h
  | cons r rs ih => exact ih (State.flowsLegal_commitRecord h r)

theorem State.flowsLegal_commit {s : State} (h : s.flowsLegal) (b : BodyId) (rs : List RecordId) :
    (s.commit b rs).flowsLegal :=
  State.flowsLegal_pauseTest (State.flowsLegal_congr (State.flowsLegal_commitRecords h rs) rfl rfl)

/-! ## The receive lane -/

theorem State.flowsLegal_closeGood {s : State} (h : s.flowsLegal) : s.closeGood.flowsLegal := by
  unfold State.closeGood
  simp only []
  split
  all_goals first
    | exact h
    | exact State.flowsLegal_commit (State.flowsLegal_congr h (by simp) (by simp)) _ _
    | exact State.flowsLegal_congr h (by simp) (by simp)

theorem State.flowsLegal_closeTested {s : State} (h : s.flowsLegal) (rx : Reception) (claimed : Nat) :
    (s.closeTested rx claimed).flowsLegal := by
  unfold State.closeTested
  repeat' split
  · exact State.flowsLegal_congr h (by simp) (by simp)
  · exact State.flowsLegal_closeGood h
  · exact State.flowsLegal_congr h (by simp) (by simp)

theorem State.flowsLegal_takeEnd {s : State} (h : s.flowsLegal) : s.takeEnd.flowsLegal := by
  unfold State.takeEnd
  split
  all_goals first
    | exact State.flowsLegal_closeTested h _ _
    | exact State.flowsLegal_congr h (by simp) (by simp)

theorem State.flowsLegal_takeSymbol {s : State} (h : s.flowsLegal) (x : Symbol) : (s.takeSymbol x).flowsLegal := by
  cases x
  · exact State.flowsLegal_congr h (by simp [State.takeSymbol]) (by simp [State.takeSymbol])
  · exact State.flowsLegal_congr h (by simp [State.takeSymbol]) (by simp [State.takeSymbol])
  · exact State.flowsLegal_takeEnd h
  · exact State.flowsLegal_congr h (by simp [State.takeSymbol]) (by simp [State.takeSymbol])

theorem State.flowsLegal_takeHeld {s : State} (h : s.flowsLegal) (xs : List Symbol) : (s.takeHeld xs).flowsLegal := by
  induction xs generalizing s with
  | nil => exact h
  | cons x xs ih => exact ih (State.flowsLegal_takeSymbol h x)

/-! ## The profile step -/

theorem State.flowsLegal_swap {s : State} (h : s.flowsLegal) (f : FlowId) : (s.swap f).flowsLegal := by
  cases hp : (s.flow f).staged with
  | none => rw [State.swap_of_empty _ _ hp]; exact h
  | some p =>
    rw [State.swap_eq _ _ _ hp]
    refine State.flowsLegal_without h f _ ?_ rfl rfl
    obtain ⟨h1, h2, h3, h4, h5, h6, h7, h8⟩ := h.1 f
    have hg := h3 p hp
    have hd : stateAfterSwap (s.flow f).state ≠ .disabled := by
      intro hd
      have : (s.flow f).state = .disabled := by
        revert hd
        cases (s.flow f).state with
        | disabled => exact fun _ => rfl
        | active => nofun
        | draining => nofun
        | held c => cases c <;> nofun
        | flushing b => cases b with
          | held c => cases c <;> nofun
          | active => nofun
          | draining => nofun
      rw [h7 this] at hp
      cases hp
    refine ⟨h1, hg, fun q hq => (by cases hq), ?_, ?_, fun e => (by cases e), fun e => absurd e hd, fun _ => ?_⟩
    · exact le_min h4 (le_trans (by decide) (Int.natCast_nonneg _))
    · exact min_le_right _ _
    · exact ⟨fun e => e, fun e => ⟨Nat.one_le_iff_ne_zero.2 e, le_refl _⟩⟩

theorem State.flowsLegal_expireFlow {s : State} (h : s.flowsLegal) (f : FlowId) (ha : (s.flow f).state = .active)
    (hl : (s.flow f).active.lifetime ≠ 0) : (s.expireFlow f).flowsLegal := by
  obtain ⟨h1, h2, h3, h4, h5, h6, h7, h8⟩ := h.1 f
  have hrel : (s.flow f).releasing = true := by simp [Flow.releasing, ha]
  unfold State.expireFlow
  simp only []
  split
  · refine State.flowsLegal_setFlow h f _ ?_ (fun run hr he => ⟨he ▸ (h.2 run hr).1, he ▸ (h.2 run hr).2.1⟩)
    exact ⟨h1, h2, h3, h4, h5, h6, h7, fun _ => ⟨fun e => absurd e hl, fun _ => ⟨Nat.one_le_iff_ne_zero.2 hl, le_refl _⟩⟩⟩
  · apply State.flowsLegal_report
    refine State.flowsLegal_without h f { s.flow f with state := .held .expired, remaining := 0 } ?_ ?_ ?_
    · refine ⟨h1, h2, h3, h4, h5, h6, fun e => (by cases e), ?_⟩
      rintro (e | e | e | e) <;> cases e
    · rw [State.endRunOf_flows]
      simp [State.setFlowState, State.modifyFlow]
    · rw [State.endRunOf_eq]; rfl
  · rw [State.closeFlow_eq]
    split
    · refine State.flowsLegal_without h f
        { (s.flow f).disabled with remaining := 0 } ?_ ?_ rfl
      · exact ⟨h1, h2, fun p hp => (by cases hp), h4, h5, fun e => (by cases e), fun _ => rfl,
          by rintro (e | e | e | e) <;> cases e⟩
      · simp [State.disabledAt, State.modifyFlow, Flow.disabled]
    · refine State.flowsLegal_congr (s := s.setFlow f { s.flow f with state := .draining, remaining := 0 }) ?_ ?_ rfl
      · refine State.flowsLegal_setFlow h f _ ?_ (fun run hr he => ⟨rfl, he ▸ (h.2 run hr).2.1⟩)
        refine ⟨h1, h2, h3, h4, h5, h6, fun e => (by cases e), ?_⟩
        rintro (e | e | e | e) <;> cases e
      · simp [State.modifyFlow]

theorem State.flowsLegal_countDown {s : State} (h : s.flowsLegal) (f : FlowId) (ha : (s.flow f).state = .active)
    (hl : (s.flow f).active.lifetime ≠ 0) : (s.countDown f).flowsLegal := by
  obtain ⟨h1, h2, h3, h4, h5, h6, h7, h8⟩ := h.1 f
  have hfit := (h8 (.inl ha)).2 hl
  unfold State.countDown
  repeat' split
  · refine State.flowsLegal_setFlow h f _ ?_ (fun run hr he => ⟨he ▸ (h.2 run hr).1, he ▸ (h.2 run hr).2.1⟩)
    exact ⟨h1, h2, h3, h4, h5, h6, h7, fun _ => ⟨fun e => absurd e hl, fun _ => ⟨by simp only; omega, by simp only; omega⟩⟩⟩
  · exact State.flowsLegal_swap h f
  · exact State.flowsLegal_expireFlow h f ha hl

theorem State.flowsLegal_profileStep {s : State} (h : s.flowsLegal) (f : FlowId) : (s.profileStep f).flowsLegal := by
  unfold State.profileStep
  repeat' split
  all_goals first
    | exact h
    | exact State.flowsLegal_swap h f
    | exact State.flowsLegal_countDown h f (by assumption) (by assumption)

theorem State.flowsLegal_takeProfileStep {s : State} (h : s.flowsLegal) (f : FlowId) :
    (s.takeProfileStep f).flowsLegal :=
  State.flowsLegal_profileStep (State.flowsLegal_setFlow h f
    { s.flow f with due := { (s.flow f).due with step := false } }
    (Flow.legal_of_same (h.1 f) rfl rfl rfl rfl rfl rfl rfl rfl)
    (fun run hr he => ⟨he ▸ (h.2 run hr).1, he ▸ (h.2 run hr).2.1⟩)) f

/-! ## The selection -/

theorem debited_le {d : Discipline} {credit : Int} {length : Nat} {cap : Nat} (h : credit ≤ cap) :
    debited d credit length ≤ cap := by
  have : Config.creditFloor ≤ cap := le_trans (by decide) (Int.natCast_nonneg _)
  cases d
  · exact h
  · exact max_le (by omega) this
  · exact max_le (by omega) this

theorem le_debited {d : Discipline} {credit : Int} {length : Nat} (h : Config.creditFloor ≤ credit) :
    Config.creditFloor ≤ debited d credit length := by
  cases d
  · exact h
  · exact le_max_right _ _
  · exact le_max_right _ _

theorem State.flowsLegal_releaseHead {s : State} (h : s.flowsLegal) (f : FlowId) : (s.releaseHead f).flowsLegal := by
  unfold State.releaseHead
  repeat' split
  · exact h
  · exact h
  · next r rest hq _ fr _ =>
    refine State.flowsLegal_congr (s := s.modifyFlow f fun x =>
        { x.popHead (s.store.recordLength r) with
          inTransmission := true
          credit := debited x.active.discipline x.credit (s.store.recordLength r) }) ?_ (by simp) (by simp)
    refine State.flowsLegal_setFlow h f _ ?_ (fun run hr he => ⟨he ▸ (h.2 run hr).1, he ▸ (h.2 run hr).2.1⟩)
    obtain ⟨h1, h2, h3, h4, h5, h6, h7, h8⟩ := Flow.legal_popHead (h.1 f) (s.store.recordLength r) r rest hq
    exact ⟨h1, h2, h3, le_debited h4, debited_le h5, h6, h7, h8⟩

theorem State.candidate_releasing {s : State} {f : FlowId} (h : s.candidate f = true) :
    (s.flow f).releasing = true ∧ s.releaseAllowed = true := by
  cases hq : (s.flow f).queue with
  | nil => rw [State.candidate_of_empty _ _ hq] at h; cases h
  | cons r rest =>
    rw [State.candidate_of_queue _ _ _ _ hq] at h
    simp only [Bool.and_eq_true] at h
    exact ⟨h.1.1, h.2⟩

/-- What arbitration chooses is a candidate of its group (R106, R107). -/
theorem State.arbitration_spec {s : State} {g : Fin 8} {f : FlowId} (h : s.arbitration = some (g, f)) :
    (s.flow f).group = .ring g ∧ s.candidate f = true := by
  unfold State.arbitration at h
  obtain ⟨g', _, h⟩ := List.exists_of_findSome?_eq_some h
  simp only [Option.map_eq_some_iff, Prod.mk.injEq] at h
  obtain ⟨f', hf, rfl, rfl⟩ := h
  have := List.find?_some hf
  simpa [State.candidateIn] using this

theorem State.flowsLegal_arbitrate {s : State} (h : s.flowsLegal) : s.arbitrate.flowsLegal := by
  unfold State.arbitrate
  split
  · exact h
  · next g f ha =>
    apply State.flowsLegal_releaseHead
    refine State.flowsLegal_setScheduler h _ (fun run hr => ?_)
    obtain ⟨hg, hc⟩ := State.arbitration_spec ha
    obtain ⟨hrel, hal⟩ := State.candidate_releasing hc
    have hgood := (h.1 f).2.1
    simp only [Profile.good, Bool.and_eq_true, decide_eq_true_eq] at hgood
    simp only [Option.bind_eq_some_iff] at hr
    obtain ⟨start, hstart, hspend⟩ := hr
    have hs : start.holder = f ∧ start.remaining ≤ (s.flow f).active.runLength := by
      unfold Flow.startedRun at hstart
      split at hstart
      · cases hstart
      · cases hstart; exact ⟨rfl, min_le_left _ _⟩
      · cases hstart; exact ⟨rfl, le_refl _⟩
    unfold Run.spend at hspend
    split at hspend
    · cases hspend
    · cases hspend
      simp only [hs.1, hrel, hg]
      refine ⟨trivial, by simp, by omega, by omega, hal⟩

theorem State.flowsLegal_choose {s : State} (h : s.flowsLegal) : s.choose.flowsLegal := by
  unfold State.choose
  repeat' split
  · exact State.flowsLegal_releaseHead h _
  · exact State.flowsLegal_arbitrate h
  · next run hrun _ =>
    apply State.flowsLegal_releaseHead
    refine State.flowsLegal_setScheduler h _ (fun run' hr => ?_)
    have hh := h.2 run hrun
    change run.spend = some run' at hr
    unfold Run.spend at hr
    split at hr
    · cases hr
    · cases hr
      exact ⟨hh.1, hh.2.1, by simp only; omega, by simp only; omega, hh.2.2.2.2⟩
  · exact State.flowsLegal_arbitrate (State.flowsLegal_endRun h)

end Sys2Proof.Machine
end

