-- ==== Sys2Proof/Laws/HeadRemovals.lean ====
section
/-! SUPPORT. What removing head records does to a flow's queue: one removal, head drops until a frame fits (R19), and stale removals (R78). -/
namespace Sys2Proof.Machine

/-- One head removal (R17). -/
theorem State.discardHead_of_queue (s : State) (f : FlowId) (why : DiscardReason) (r : RecordId) (rest : List RecordId) (h : (s.flow f).queue = r :: rest) :
  s.discardHead f why = (({ s with flows := s.flows.set f { (s.flow f).popHead (s.store.recordLength r) with counters := (s.flow f).counters.discard why }, store := s.store.releaseRecord r }.pauseTest).reportRemoval f why).settleFlow f := by
  simp only [State.discardHead, h]; rfl

theorem State.flow_of_set (s : State) (f : FlowId) (x : Flow) (st : FrameStore) : ({ s with flows := s.flows.set f x, store := st } : State).flow f = x := by simp [State.flow]

/-- A head removal takes the queue's head. -/
theorem State.discardHead_flow_queue (s : State) (f : FlowId) (why) : ((s.discardHead f why).flow f).queue = (s.flow f).queue.tail := by
  have hsettle : ∀ t : State, ((t.settleFlow f).flow f).queue = (t.flow f).queue := by
    intro t
    unfold State.settleFlow
    repeat' split
    all_goals first | rfl | skip
    · simp [State.enterDisabled]
    · rw [State.completeFlush_eq]; split <;> simp [State.disabledAt, State.flow]
  unfold State.discardHead
  split
  · next h => simp [h]
  · next r rest h => rw [hsettle]; cases why <;> simp [State.reportRemoval, Flow.popHead, h]

theorem iterate_next (g : State → State) (n : Nat) (s : State) : g^[n+1] s = g^[n] (g s) := rfl

/-- Head removals take heads off the queue one by one. -/
theorem State.discardHead_iterate_queue (f : FlowId) (why) (n : Nat) : ∀ s : State, (((fun t : State => t.discardHead f why)^[n] s).flow f).queue = (s.flow f).queue.drop n := by
  induction n with
  | zero => intro s; rfl
  | succ n ih => intro s; rw [iterate_next, ih, State.discardHead_flow_queue, List.drop_tail]

/-- Head drops go on until the frame fits, and no further (R19). -/
theorem State.makeRoom_iterate (f : FlowId) (len : Nat) (n : Nat) : ∀ s : State, ∃ m, m ≤ n ∧ s.makeRoom f len n = (fun t : State => t.discardHead f .head)^[m] s ∧
   (∀ k < m, (((fun t : State => t.discardHead f .head)^[k] s).flow f).fits len = false) ∧ 
   (m = n ∨ (((fun t : State => t.discardHead f .head)^[m] s).flow f).fits len = true) := by
  induction n with
  | zero => intro s; exact ⟨0, le_rfl, rfl, by simp, .inl rfl⟩
  | succ n ih =>
    intro s
    unfold State.makeRoom
    by_cases hf : (s.flow f).fits len = true
    · rw [if_pos hf]; exact ⟨0, by omega, rfl, by simp, .inr hf⟩
    · rw [if_neg hf]
      obtain ⟨m, h1, h2, h3, h4⟩ := ih (s.discardHead f .head)
      refine ⟨m+1, by omega, h2, ?_, ?_⟩
      · intro k hk
        cases k with
        | zero => simpa using hf
        | succ k => exact h3 k (by omega)
      · rcases h4 with h4 | h4
        · exact .inl (by omega)
        · exact .inr h4

/-- Stale removals go on while the head is stale, and no further (R78). -/
theorem State.removeStale_iterate (f : FlowId) (n : Nat) : ∀ s : State, ∃ m, m ≤ n ∧ s.removeStale f n = (fun t : State => t.discardHead f .stale)^[m] s ∧
   (∀ k < m, ∃ r rest, (((fun t : State => t.discardHead f .stale)^[k] s).flow f).queue = r :: rest ∧ ((fun t : State => t.discardHead f .stale)^[k] s).stale (((fun t : State => t.discardHead f .stale)^[k] s).flow f).active.ageLimit r = true) ∧ 
   (m = n ∨ ∀ r rest, (((fun t : State => t.discardHead f .stale)^[m] s).flow f).queue = r :: rest → ((fun t : State => t.discardHead f .stale)^[m] s).stale (((fun t : State => t.discardHead f .stale)^[m] s).flow f).active.ageLimit r = false) := by
  induction n with
  | zero => intro s; exact ⟨0, le_rfl, rfl, by simp, .inl rfl⟩
  | succ n ih =>
    intro s
    unfold State.removeStale
    cases hq : (s.flow f).queue with
    | nil => exact ⟨0, by omega, rfl, by simp, .inr (by intro r rest h; simp [hq] at h)⟩
    | cons r rest =>
      simp only
      by_cases hf : s.stale (s.flow f).active.ageLimit r = true
      · rw [if_pos hf]
        obtain ⟨m, h1, h2, h3, h4⟩ := ih (s.discardHead f .stale)
        refine ⟨m+1, by omega, h2, ?_, ?_⟩
        · intro k hk
          cases k with
          | zero => exact ⟨r, rest, hq, hf⟩
          | succ k => exact h3 k (by omega)
        · rcases h4 with h4 | h4
          · exact .inl (by omega)
          · exact .inr h4
      · rw [if_neg hf]; refine ⟨0, by omega, rfl, by simp, .inr ?_⟩
        intro r' rest' h; simp only [Function.iterate_zero, id_eq] at h ⊢; rw [hq] at h; obtain ⟨rfl, rfl⟩ := h; simpa using hf

end Sys2Proof.Machine
end

