-- ==== Sys2Proof/Laws/Reservations.lean ====
section
/-! SUPPORT. The records of a reservation, and their release (R30, R34). -/
namespace Sys2Proof.Machine

/-- A record outside the reservation is left alone. -/
theorem reserveRecords_notMem (b : BodyId) (gs : List Grant) : ∀ (rs : List RecordId) (v : Vector (Option FrameRecord) 1024) (r : RecordId), r ∉ rs → (reserveRecords v b rs gs)[r] = v[r] := by
  induction gs with
  | nil => intro rs v r h; cases rs <;> rfl
  | cons g gs ih => 
    intro rs v r h
    cases rs with
    | nil => rfl
    | cons q qs =>
      simp only [List.mem_cons, not_or] at h
      rw [reserveRecords, ih _ _ _ h.2]
      have : q.val ≠ r.val := fun e => h.1 (Fin.ext e.symm)
      simp [this]

/-- Each record of a reservation is RESERVED for its grant (R30). -/
theorem reserveRecords_get (b : BodyId) (gs : List Grant) : ∀ (rs : List RecordId) (v : Vector (Option FrameRecord) 1024), rs.Nodup → ∀ n (h1 : n < rs.length) (h2 : n < gs.length), (reserveRecords v b rs gs)[rs[n]] = some { state := .reserved gs[n].generation, body := b, flow := gs[n].flow } := by
  induction gs with
  | nil => intro rs v h n h1 h2; simp at h2
  | cons g gs ih => 
    intro rs v h n h1 h2
    cases rs with
    | nil => simp at h1
    | cons q qs =>
      rw [List.nodup_cons] at h
      rw [reserveRecords]
      cases n with
      | zero => 
        simp only [List.getElem_cons_zero]
        rw [reserveRecords_notMem _ _ _ _ _ h.1]; simp
      | succ n => simpa using ih qs _ h.2 n (by simpa using h1) (by simpa using h2)

/-- The records of a reservation freed in order (R34). -/
theorem FrameStore.freeRecords_spec (rs : List RecordId) : ∀ st : FrameStore, rs.Nodup → (∀ r ∈ rs, st.records[r] ≠ none) →
    let fr := rs.foldl FrameStore.freeRecord st
    fr.freeRecords = st.freeRecords ++ rs ∧ (∀ r ∈ rs, fr.records[r] = none) ∧ (∀ r, r ∉ rs → fr.records[r] = st.records[r]) ∧ fr.bodies = st.bodies ∧ fr.freeBodies = st.freeBodies ∧ fr.links = st.links ∧ fr.freeBlocks = st.freeBlocks ∧ fr.mem = st.mem := by
  induction rs with
  | nil => intro st _ _; simp
  | cons q qs ih => 
    intro st hn hr
    rw [List.nodup_cons] at hn
    have hq := hr q (by simp)
    obtain ⟨fr, hfr⟩ := Option.ne_none_iff_exists'.1 hq
    have e : st.freeRecord q = { st with records := st.records.set q none, freeRecords := st.freeRecords ++ [q] } := by
      simp [FrameStore.freeRecord, hfr]
    have hset : ∀ r : RecordId, r ≠ q → (st.records.set q none)[r] = st.records[r] := by
      intro r hne
      have : q.val ≠ r.val := fun e => hne (Fin.ext e.symm)
      simp [this]
    have := ih (st.freeRecord q) hn.2 (by
      intro r hr'; rw [e]; simp only; rw [hset r (by rintro rfl; exact hn.1 hr')]; exact hr r (by simp [hr']))
    simp only [List.foldl_cons]
    obtain ⟨a1, a2, a3, a4, a5, a6, a7, a8⟩ := this
    refine ⟨?_, ?_, ?_, ?_, ?_, ?_, ?_, ?_⟩
    · rw [a1, e]; simp
    · intro r hr'
      rcases List.mem_cons.1 hr' with rfl | hr'
      · rw [a3 _ hn.1, e]; simp
      · exact a2 r hr'
    · intro r hr'
      simp only [List.mem_cons, not_or] at hr'
      rw [a3 r hr'.2, e]; exact hset r hr'.1
    · rw [a4, e]
    · rw [a5, e]
    · rw [a6, e]
    · rw [a7, e]
    · rw [a8, e]

end Sys2Proof.Machine
end

