-- ==== Sys2Proof/Laws/Sharing.lean ====
section
/-! SUPPORT. The records that name a body, and its share count (R28, R38), under each operation of the Frame Store. -/
namespace Sys2Proof.Machine

theorem FrameStore.mem_sharers {st : FrameStore} {b : BodyId} {r : RecordId} :
    r ∈ st.sharers b ↔ (st.records[r]).map FrameRecord.body = some b := by simp [FrameStore.sharers]

theorem FrameStore.mem_sharers_of_some {st : FrameStore} {r : RecordId} {fr : FrameRecord} (h : st.records[r] = some fr) :
    r ∈ st.sharers fr.body := by rw [FrameStore.mem_sharers, h]; rfl

theorem FrameStore.sharers_congr {st st' : FrameStore} (h : st'.records = st.records) (b : BodyId) :
    st'.sharers b = st.sharers b := by unfold FrameStore.sharers; rw [h]

/-- One body and its sharers change; every other body keeps its own. -/
theorem FrameStore.sharesAgree.update {st st' : FrameStore} (h : st.sharesAgree) (b : BodyId)
    (hbody : ∀ c, c ≠ b → st'.bodies[c] = st.bodies[c]) (hshare : ∀ c, c ≠ b → st'.sharers c = st.sharers c)
    (hnone : st'.bodies[b] = none → st'.sharers b = ∅)
    (hsome : ∀ body, st'.bodies[b] = some body → (st'.sharers b).card = body.share ∧ 1 ≤ body.share ∧ body.share ≤ 2) :
    st'.sharesAgree := by
  refine ⟨fun c hc => ?_, fun c body hc => ?_⟩
  · by_cases he : c = b
    · subst he; exact hnone hc
    · rw [hshare c he]; exact h.1 c ((hbody c he).symm.trans hc)
  · by_cases he : c = b
    · subst he; exact hsome body hc
    · rw [hshare c he]; exact h.2 c body ((hbody c he).symm.trans hc)

/-- The bodies' share counts and the records' bodies alone matter. -/
theorem FrameStore.sharesAgree.congr {st st' : FrameStore} (h : st.sharesAgree) (h1 : st'.bodies = st.bodies)
    (h2 : ∀ b, st'.sharers b = st.sharers b) : st'.sharesAgree := by
  refine ⟨fun b hb => ?_, fun b body hb => ?_⟩
  · rw [h2]; exact h.1 b (h1 ▸ hb)
  · rw [h2]; exact h.2 b body (h1 ▸ hb)

/-- A record that is not free names a live body (R38). -/
theorem FrameStore.sharesAgree.body {st : FrameStore} (h : st.sharesAgree) {r : RecordId} {fr : FrameRecord}
    (hr : st.records[r] = some fr) : ∃ body, st.bodies[fr.body] = some body := by
  refine Option.ne_none_iff_exists'.1 fun hb => ?_
  have := h.1 _ hb
  exact Finset.notMem_empty r (this ▸ FrameStore.mem_sharers_of_some hr)

/-- The frame length of a record is its body's length. -/
theorem FrameStore.recordLength_of {st : FrameStore} {r : RecordId} {fr : FrameRecord} {body : Body}
    (hr : st.records[r] = some fr) (hb : st.bodies[fr.body] = some body) : st.recordLength r = body.length := by
  unfold FrameStore.recordLength
  rw [hr]
  simp only
  rw [hb]

theorem FrameStore.sharers_setRecordState (st : FrameStore) (r : RecordId) (rs : RecordState) (b : BodyId) :
    (st.setRecordState r rs).sharers b = st.sharers b := by
  unfold FrameStore.setRecordState
  split
  · rfl
  · next fr hr =>
    ext q
    rw [FrameStore.mem_sharers, FrameStore.mem_sharers, getElem_set_fin]
    split
    · next he => subst he; rw [hr]; rfl
    · rfl

theorem FrameStore.sharesAgree.setRecordState {st : FrameStore} (h : st.sharesAgree) (r : RecordId) (rs : RecordState) :
    (st.setRecordState r rs).sharesAgree := by
  refine h.congr ?_ (st.sharers_setRecordState r rs)
  unfold FrameStore.setRecordState
  split <;> rfl

/-! ## What the operations leave of the bodies and records -/

theorem FrameStore.freeBody_records (st : FrameStore) (b : BodyId) : (st.freeBody b).records = st.records := by
  unfold FrameStore.freeBody
  split <;> rfl

theorem FrameStore.freeBody_bodies (st : FrameStore) (b c : BodyId) :
    (st.freeBody b).bodies[c] = if b = c then none else st.bodies[c] := by
  unfold FrameStore.freeBody
  split
  · next h =>
    split
    · next he => subst he; exact h
    · rfl
  · exact getElem_set_fin _ _ _ _

theorem FrameStore.freeRecord_bodies (st : FrameStore) (r : RecordId) : (st.freeRecord r).bodies = st.bodies := by
  unfold FrameStore.freeRecord
  split <;> rfl

theorem FrameStore.freeRecord_records (st : FrameStore) (r q : RecordId) :
    (st.freeRecord r).records[q] = if r = q then none else st.records[q] := by
  unfold FrameStore.freeRecord
  split
  · next h =>
    split
    · next he => subst he; exact h
    · rfl
  · exact getElem_set_fin _ _ _ _

theorem FrameStore.freeRecord_sharers (st : FrameStore) (r : RecordId) (b : BodyId) :
    (st.freeRecord r).sharers b = (st.sharers b).erase r := by
  ext q
  rw [Finset.mem_erase, FrameStore.mem_sharers, FrameStore.mem_sharers, FrameStore.freeRecord_records]
  by_cases h : r = q
  · subst h; simp
  · rw [if_neg h]
    exact ⟨fun hq => ⟨Ne.symm h, hq⟩, fun hq => hq.2⟩

theorem FrameStore.dropShare_records (st : FrameStore) (b : BodyId) : (st.dropShare b).records = st.records := by
  unfold FrameStore.dropShare
  repeat' split
  all_goals first | rfl | exact st.freeBody_records b

theorem FrameStore.dropShare_bodies_of_ne (st : FrameStore) {b c : BodyId} (h : b ≠ c) :
    (st.dropShare b).bodies[c] = st.bodies[c] := by
  unfold FrameStore.dropShare
  repeat' split
  · rfl
  · rw [FrameStore.freeBody_bodies, if_neg h]
  · rw [getElem_set_fin, if_neg h]

theorem FrameStore.releaseRecord_records (st : FrameStore) (r q : RecordId) :
    (st.releaseRecord r).records[q] = if r = q then none else st.records[q] := by
  unfold FrameStore.releaseRecord
  split
  · next h =>
    split
    · next he => subst he; exact h
    · rfl
  · rw [FrameStore.dropShare_records, FrameStore.freeRecord_records]

/-- A record's release changes no body but its own. -/
theorem FrameStore.releaseRecord_bodies_of_ne (st : FrameStore) {r : RecordId} {c : BodyId}
    (h : r ∉ st.sharers c) : (st.releaseRecord r).bodies[c] = st.bodies[c] := by
  unfold FrameStore.releaseRecord
  split
  · rfl
  · next fr hr =>
    rw [FrameStore.dropShare_bodies_of_ne _ (by rintro rfl; exact h (FrameStore.mem_sharers_of_some hr)),
      FrameStore.freeRecord_bodies]

/-- A record's release leaves a body that stays live as it was, but for its share count. -/
theorem FrameStore.releaseRecord_bodies (st : FrameStore) (r : RecordId) (c : BodyId) {body : Body}
    (h : (st.releaseRecord r).bodies[c] = some body) :
    ∃ old, st.bodies[c] = some old ∧ body = { old with share := body.share } := by
  unfold FrameStore.releaseRecord FrameStore.dropShare at h
  split at h
  · exact ⟨body, h, rfl⟩
  · next fr hr =>
    rw [FrameStore.freeRecord_bodies] at h
    split at h
    · rw [FrameStore.freeRecord_bodies] at h; exact ⟨body, h, rfl⟩
    · next old hold =>
      split at h
      · rw [FrameStore.freeBody_bodies, FrameStore.freeRecord_bodies] at h
        split at h
        · cases h
        · exact ⟨body, h, rfl⟩
      · rw [getElem_set_fin] at h
        split at h
        · next he =>
          cases h
          subst he
          exact ⟨old, hold, rfl⟩
        · exact ⟨body, h, rfl⟩

/-- The release of one record leaves every other record's frame length as it was. -/
theorem FrameStore.releaseRecord_length {st : FrameStore} (h : st.sharesAgree) {r q : RecordId} (hq : r ≠ q) :
    (st.releaseRecord r).recordLength q = st.recordLength q := by
  cases hr : st.records[r] with
  | none => unfold FrameStore.releaseRecord; rw [hr]
  | some fr =>
    have hrec : (st.releaseRecord r).records[q] = st.records[q] := by
      rw [FrameStore.releaseRecord_records, if_neg hq]
    cases hqr : st.records[q] with
    | none => unfold FrameStore.recordLength; rw [hrec, hqr]
    | some fq =>
      obtain ⟨body, hb⟩ := h.body hqr
      rw [st.recordLength_of hqr hb]
      suffices hs : ∃ x, (st.releaseRecord r).bodies[fq.body] = some x ∧ x.length = body.length by
        obtain ⟨x, hx, hl⟩ := hs
        rw [FrameStore.recordLength_of (hrec.trans hqr) hx, hl]
      by_cases he : fr.body = fq.body
      · have hcard := (h.2 _ body hb).1
        have h2 : 2 ≤ (st.sharers fq.body).card := by
          have h2 := Finset.card_le_card (s := {r, q}) (t := st.sharers fq.body) (by
            intro x hx
            simp only [Finset.mem_insert, Finset.mem_singleton] at hx
            rcases hx with rfl | rfl
            · exact he ▸ FrameStore.mem_sharers_of_some hr
            · exact FrameStore.mem_sharers_of_some hqr)
          rwa [Finset.card_pair hq] at h2
        have hs : ¬ body.share ≤ 1 := by omega
        refine ⟨{ body with share := body.share - 1 }, ?_, rfl⟩
        unfold FrameStore.releaseRecord FrameStore.dropShare
        rw [hr]
        simp only
        rw [FrameStore.freeRecord_bodies, he, hb]
        simp only
        rw [if_neg hs, getElem_set_fin, if_pos rfl]
      · exact ⟨body, by
          rw [FrameStore.releaseRecord_bodies_of_ne _ (by rw [FrameStore.mem_sharers, hr]; simpa using he)]; exact hb, rfl⟩

theorem FrameStore.sharesAgree.releaseRecord {st : FrameStore} (h : st.sharesAgree) (r : RecordId) :
    (st.releaseRecord r).sharesAgree := by
  cases hr : st.records[r] with
  | none => unfold FrameStore.releaseRecord; rw [hr]; exact h
  | some fr =>
    obtain ⟨body, hb⟩ := h.body hr
    obtain ⟨c1, c2, c3⟩ := h.2 _ body hb
    have hsh : ∀ c, (st.releaseRecord r).sharers c = (st.sharers c).erase r := by
      intro c
      rw [← FrameStore.freeRecord_sharers]
      refine FrameStore.sharers_congr ?_ c
      unfold FrameStore.releaseRecord
      rw [hr]
      exact FrameStore.dropShare_records _ _
    have hmem := FrameStore.mem_sharers_of_some hr
    have hcard := Finset.card_erase_of_mem hmem
    refine h.update fr.body (fun c hc => ?_) (fun c hc => ?_) (fun hn => ?_) (fun x hx => ?_)
    · exact FrameStore.releaseRecord_bodies_of_ne _ (by rw [FrameStore.mem_sharers, hr]; simpa using Ne.symm hc)
    · rw [hsh]
      exact Finset.erase_eq_of_notMem (by rw [FrameStore.mem_sharers, hr]; simpa using Ne.symm hc)
    · rw [hsh, ← Finset.card_eq_zero, hcard, c1]
      by_contra hs
      unfold FrameStore.releaseRecord FrameStore.dropShare at hn
      rw [hr] at hn
      simp only at hn
      rw [FrameStore.freeRecord_bodies, hb] at hn
      simp only at hn
      rw [if_neg (by omega), getElem_set_fin, if_pos rfl] at hn
      cases hn
    · rw [hsh, hcard, c1]
      unfold FrameStore.releaseRecord FrameStore.dropShare at hx
      rw [hr] at hx
      simp only at hx
      rw [FrameStore.freeRecord_bodies, hb] at hx
      simp only at hx
      split at hx
      · rw [FrameStore.freeBody_bodies, if_pos rfl] at hx; cases hx
      · rw [getElem_set_fin, if_pos rfl] at hx
        cases hx
        exact ⟨rfl, by change 1 ≤ body.share - 1; omega, by change body.share - 1 ≤ 2; omega⟩

/-- A body freed with all the records that name it. -/
theorem FrameStore.sharesAgree.freeReservation {st : FrameStore} (h : st.sharesAgree) {b : BodyId} {rs : List RecordId}
    (hnd : rs.Nodup) (hs : st.sharers b = rs.toFinset) : (st.freeReservation b rs).sharesAgree := by
  have hmem : ∀ r ∈ rs, r ∈ st.sharers b := fun r hr => by rw [hs]; exact List.mem_toFinset.2 hr
  obtain ⟨-, a2, a3, a4, -⟩ := FrameStore.freeRecords_spec rs st hnd (fun r hr hn => by
    have := FrameStore.mem_sharers.1 (hmem r hr)
    rw [hn] at this
    cases this)
  have hrec : (st.freeReservation b rs).records = (rs.foldl FrameStore.freeRecord st).records :=
    FrameStore.freeBody_records _ _
  refine h.update b (fun c hc => ?_) (fun c hc => ?_) (fun _ => ?_) (fun x hx => ?_)
  · unfold FrameStore.freeReservation
    rw [FrameStore.freeBody_bodies, if_neg (Ne.symm hc), a4]
  · ext q
    rw [FrameStore.mem_sharers, FrameStore.mem_sharers, hrec]
    by_cases hq : q ∈ rs
    · have := FrameStore.mem_sharers.1 (hmem q hq)
      rw [a2 q hq, this]
      simpa using Ne.symm hc
    · rw [a3 q hq]
  · ext q
    rw [FrameStore.mem_sharers, hrec]
    by_cases hq : q ∈ rs
    · rw [a2 q hq]; simp
    · rw [a3 q hq, ← FrameStore.mem_sharers, hs]
      simpa using hq
  · unfold FrameStore.freeReservation at hx
    rw [FrameStore.freeBody_bodies, if_pos rfl] at hx
    cases hx

/-! ## The reservation (R30) -/

/-- What a reservation made leaves: the records of the grants, RESERVED, and the body, FILLING, with all its blocks (R30). -/
structure FrameStore.Reserved (st st' : FrameStore) (length : Nat) (grants : List Grant) (b : BodyId) (rs : List RecordId) :
    Prop where
  nodup : rs.Nodup
  card : rs.length = grants.length
  free : ∀ r ∈ rs, st.records[r] = none
  records : ∀ n (h1 : n < rs.length) (h2 : n < grants.length),
    st'.records[rs[n]] = some { state := .reserved grants[n].generation, body := b, flow := grants[n].flow }
  others : ∀ r, r ∉ rs → st'.records[r] = st.records[r]
  noBody : st.bodies[b] = none
  bodies : ∀ c, c ≠ b → st'.bodies[c] = st.bodies[c]
  body : ∃ x pending, st'.bodies[b] = some x ∧ x.state = .filling 1 pending ∧ x.length = length ∧ x.share = grants.length

theorem FrameStore.reserved_of {st st' : FrameStore} (h : st.listsAgree) {length : Nat} {grants : List Grant} {b : BodyId}
    {rs : List RecordId} (hr : st.reserve length grants = some (st', b, rs)) : st.Reserved st' length grants b rs := by
  unfold FrameStore.reserve at hr
  split at hr
  · next hc =>
    split at hr
    · cases hr
    · cases hr
    · next b' left head rest hfb hfr =>
      simp only [Option.some.injEq, Prod.mk.injEq] at hr
      obtain ⟨rfl, rfl, rfl⟩ := hr
      have hnd : (st.freeRecords.take grants.length).Nodup := h.1.sublist (List.take_sublist _ _)
      refine ⟨hnd, by rw [List.length_take]; omega, fun r hr => (h.2.1 r).1 (List.mem_of_mem_take hr), fun n h1 h2 => ?_,
        fun r hr => ?_, (h.2.2.2 _).1 (hfb ▸ List.mem_cons_self), fun c hc' => ?_, ?_⟩
      · exact reserveRecords_get _ _ _ _ hnd n h1 h2
      · exact reserveRecords_notMem _ _ _ _ r hr
      · rw [getElem_set_fin, if_neg (Ne.symm hc')]
      · refine ⟨_, rest, by rw [getElem_set_fin, if_pos rfl], rfl, rfl, rfl⟩
  · cases hr

theorem FrameStore.Reserved.mem {st st' : FrameStore} {length : Nat} {grants : List Grant} {b : BodyId} {rs : List RecordId}
    (h : st.Reserved st' length grants b rs) {r : RecordId} (hr : r ∈ rs) :
    ∃ g ∈ grants, st'.records[r] = some { state := .reserved g.generation, body := b, flow := g.flow } := by
  obtain ⟨n, hn, rfl⟩ := List.getElem_of_mem hr
  exact ⟨grants[n]'(h.card ▸ hn), List.getElem_mem _, h.records n hn (h.card ▸ hn)⟩

theorem FrameStore.Reserved.sharers {st st' : FrameStore} {length : Nat} {grants : List Grant} {b : BodyId}
    {rs : List RecordId} (h : st.Reserved st' length grants b rs) (hs : st.sharesAgree) (c : BodyId) :
    st'.sharers c = if c = b then rs.toFinset else st.sharers c := by
  ext q
  rw [FrameStore.mem_sharers]
  by_cases hq : q ∈ rs
  · obtain ⟨g, -, hg⟩ := h.mem hq
    rw [hg]
    split
    · next he => subst he; simpa using hq
    · next he =>
      rw [FrameStore.mem_sharers, h.free q hq]
      simpa using Ne.symm he
  · rw [h.others q hq, ← FrameStore.mem_sharers]
    split
    · next he =>
      subst he
      rw [hs.1 _ h.noBody]
      simpa using hq
    · rfl

theorem FrameStore.sharesAgree.reserve {st st' : FrameStore} {length : Nat} {grants : List Grant} {b : BodyId}
    {rs : List RecordId} (h : st.sharesAgree) (hr : st.Reserved st' length grants b rs) (h1 : 1 ≤ grants.length)
    (h2 : grants.length ≤ 2) : st'.sharesAgree := by
  obtain ⟨x, pending, hx, -, -, hs⟩ := hr.body
  refine h.update b hr.bodies (fun c hc => by rw [hr.sharers h, if_neg hc]) (fun hn => ?_) (fun y hy => ?_)
  · rw [hx] at hn; cases hn
  · rw [hx] at hy
    cases hy
    rw [hr.sharers h, if_pos rfl, List.toFinset_card_of_nodup hr.nodup, hr.card, hs]
    exact ⟨rfl, h1, h2⟩

/-- The grants that the records of a reservation carry are those it was made for (R30). -/
theorem FrameStore.Reserved.grants {st st' : FrameStore} {length : Nat} {grants : List Grant} {b : BodyId}
    {rs : List RecordId} (h : st.Reserved st' length grants b rs) : rs.filterMap st'.grantOf = grants := by
  have he : rs.map st'.grantOf = grants.map some := by
    refine List.ext_getElem (by simp [h.card]) fun n h1 h2 => ?_
    rw [List.getElem_map, List.getElem_map]
    unfold FrameStore.grantOf
    rw [h.records n (by simpa using h1) (by simpa using h2)]
  calc rs.filterMap st'.grantOf = (rs.map st'.grantOf).filterMap id := by rw [List.filterMap_map]; rfl
    _ = grants := by rw [he, List.filterMap_map]; simp

/-! ## Filling (R32) -/

/-- Storing a byte leaves the records, and every body but that of the frame, as they were. -/
theorem FrameStore.storeByte_others (st : FrameStore) (b : BodyId) (n : Nat) (v : Byte) :
    (st.storeByte b n v).records = st.records ∧ ∀ c, c ≠ b → (st.storeByte b n v).bodies[c] = st.bodies[c] := by
  unfold FrameStore.storeByte
  split
  · exact ⟨rfl, fun _ _ => rfl⟩
  · unfold FrameStore.writeByte
    rcases st.extendTo_cases b n with he | ⟨body, linked, p, rest, -, -, -, he⟩
    · rw [he]; exact ⟨rfl, fun _ _ => rfl⟩
    · rw [he]
      exact ⟨rfl, fun c hc => by rw [getElem_set_fin, if_neg (Ne.symm hc)]⟩

/-- Storing byte n into a FILLING body leaves it FILLING with at least its linked blocks, and with room for byte n in its
chain or no block left to link (R32). -/
theorem FrameStore.storeByte_body {st : FrameStore} {b : BodyId} {body : Body} {linked : Nat} {pending : List BlockId}
    (hb : st.bodies[b] = some body) (hs : body.state = .filling linked pending) (hl : (st.chain body).length = linked)
    (n : Nat) (v : Byte) :
    ∃ x l p, (st.storeByte b n v).bodies[b] = some x ∧ x.state = .filling l p ∧ x.length = body.length ∧
      x.share = body.share ∧ linked ≤ l ∧ (pending = [] → p = []) ∧ (n ≤ 128 * linked → p = [] ∨ n + 1 ≤ 128 * l) := by
  unfold FrameStore.storeByte FrameStore.byteBlock
  rw [hb]
  simp only
  rw [hs]
  simp only
  cases hc : (st.chain body)[n / Config.blockBytes]? with
  | some block =>
    have hlt : n / Config.blockBytes < linked := by
      rw [← hl]
      exact (List.getElem?_eq_some_iff.1 hc).1
    have hlt' : n / 128 < linked := hlt
    have he : st.extendTo b n = st := by
      unfold FrameStore.extendTo
      rw [hb]
      simp only
      rw [hs]
      simp only
      rw [hc]
    exact ⟨body, linked, pending, by rw [he]; exact hb, hs, rfl, rfl, le_refl _, id, fun _ => .inr (by omega)⟩
  | none =>
    cases pending with
    | nil => exact ⟨body, linked, [], hb, hs, rfl, rfl, le_refl _, id, fun _ => .inl rfl⟩
    | cons p rest =>
      have he : (st.extendTo b n).bodies[b] = some { body with state := .filling (linked + 1) rest } := by
        unfold FrameStore.extendTo
        rw [hb]
        simp only
        rw [hs]
        simp only
        rw [hc]
        simp only
        rw [getElem_set_fin, if_pos rfl]
      exact ⟨_, linked + 1, rest, he, rfl, rfl, rfl, by omega, by simp, fun _ => .inr (by omega)⟩

end Sys2Proof.Machine
end

