-- ==== Sys2Proof/Laws/FramesCalm.lean ====
section
/-! SUPPORT. The agreement of the store, the queues, the frame in reception and the frame in transmission under what changes none of their frames (R1, R3, R14, R26 to R30). -/
namespace Sys2Proof.Machine

/-! ## Two stores with the same frames -/

/-- The links, bodies, records and free lists are the same; memory, watermarks, the pause condition and the low-water count may differ. -/
structure FrameStore.SameFrames (a b : FrameStore) : Prop where
  links : b.links = a.links
  freeBlocks : b.freeBlocks = a.freeBlocks
  bodies : b.bodies = a.bodies
  freeBodies : b.freeBodies = a.freeBodies
  records : b.records = a.records
  freeRecords : b.freeRecords = a.freeRecords

namespace FrameStore.SameFrames

variable {a b c : FrameStore}

theorem refl (a : FrameStore) : a.SameFrames a := ⟨rfl, rfl, rfl, rfl, rfl, rfl⟩

theorem of_eq (h : b = a) : a.SameFrames b := h ▸ refl a

theorem trans (h : a.SameFrames b) (h' : b.SameFrames c) : a.SameFrames c :=
  ⟨h'.1.trans h.1, h'.2.trans h.2, h'.3.trans h.3, h'.4.trans h.4, h'.5.trans h.5, h'.6.trans h.6⟩

theorem afterPause (a : FrameStore) : a.SameFrames a.afterPause := by
  unfold FrameStore.afterPause
  repeat' split
  all_goals exact ⟨rfl, rfl, rfl, rfl, rfl, rfl⟩

theorem lists (h : a.SameFrames b) (ha : a.listsAgree) : b.listsAgree := by
  unfold FrameStore.listsAgree at ha ⊢
  rw [h.freeRecords, h.records, h.freeBodies, h.bodies]
  exact ha

theorem space (h : a.SameFrames b) (ha : a.SpaceAgrees) : b.SpaceAgrees := ha.congr h.bodies h.links h.freeBlocks

theorem shares (h : a.SameFrames b) (ha : a.sharesAgree) : b.sharesAgree :=
  ha.congr h.bodies (FrameStore.sharers_congr h.records)

theorem recordLength (h : a.SameFrames b) : b.recordLength = a.recordLength := by
  funext r
  unfold FrameStore.recordLength
  rw [h.records, h.bodies]

theorem grantOf (h : a.SameFrames b) : b.grantOf = a.grantOf := by
  funext r
  unfold FrameStore.grantOf
  rw [h.records]

end FrameStore.SameFrames

/-! ## Flows -/

/-- The numbers of a flow's queue lie within its limits, the limits in their ranges, and a DISABLED flow's queue is empty (R8, R14). -/
def Flow.Limited (x : Flow) : Prop :=
  1 ≤ x.frameLimit ∧ x.frameLimit ≤ 1024 ∧ 16 ≤ x.byteLimit ∧ x.byteLimit ≤ 262144 ∧
    x.queuedFrames ≤ x.frameLimit ∧ x.queuedBytes ≤ x.byteLimit ∧ (x.state = .disabled → x.queue = [])

/-- The flow's queue, limits and generation stay, and it leaves or enters DISABLED only as R8 allows. -/
structure Flow.Eases (x y : Flow) : Prop where
  queue : y.queue = x.queue
  frames : y.queuedFrames = x.queuedFrames
  bytes : y.queuedBytes = x.queuedBytes
  frameLimit : y.frameLimit = x.frameLimit
  byteLimit : y.byteLimit = x.byteLimit
  generation : y.generation = x.generation
  entered : y.state = .disabled → x.state = .disabled ∨ x.queue = []
  left : x.state = .disabled → y.state = .disabled

theorem Flow.Eases.refl (x : Flow) : x.Eases x := ⟨rfl, rfl, rfl, rfl, rfl, rfl, .inl, id⟩

theorem Flow.Eases.of_eq {x y : Flow} (h : y = x) : x.Eases y := h ▸ Flow.Eases.refl x

theorem Flow.Eases.trans {x y z : Flow} (h : x.Eases y) (h' : y.Eases z) : x.Eases z :=
  ⟨h'.1.trans h.1, h'.2.trans h.2, h'.3.trans h.3, h'.4.trans h.4, h'.5.trans h.5, h'.6.trans h.6,
    fun e => (h'.entered e).elim h.entered fun hq => .inr (h.queue ▸ hq), fun e => h'.left (h.left e)⟩

theorem Flow.Eases.limited {x y : Flow} (h : x.Eases y) (hx : x.Limited) : y.Limited := by
  obtain ⟨h1, h2, h3, h4, h5, h6, h7⟩ := hx
  unfold Flow.Limited
  rw [h.frames, h.bytes, h.frameLimit, h.byteLimit, h.queue]
  exact ⟨h1, h2, h3, h4, h5, h6, fun e => (h.entered e).elim h7 id⟩

theorem Flow.Eases.fits {x y : Flow} (h : x.Eases y) (length : Nat) : y.fits length = x.fits length := by
  unfold Flow.fits
  rw [h.frames, h.bytes, h.frameLimit, h.byteLimit]

theorem State.queueAgrees.limited {s : State} {f : FlowId} (h : s.queueAgrees f) : (s.flow f).Limited := by
  obtain ⟨-, -, -, -, h⟩ := h
  exact h

/-! ## Assembling -/

/-- A state with the same frames, the same queues within legal limits, and its own frame in reception in agreement. -/
theorem State.FramesAgree.assemble {s t : State} (h : s.FramesAgree) (hst : s.store.SameFrames t.store)
    (hq : ∀ f, (t.flow f).queue = (s.flow f).queue ∧ (t.flow f).queuedFrames = (s.flow f).queuedFrames ∧
      (t.flow f).queuedBytes = (s.flow f).queuedBytes ∧ (t.flow f).Limited)
    (hsend : ∀ x, t.down.sending = some x → s.down.sending = some x)
    (hres : t.up.lane.reservedRecords = s.up.lane.reservedRecords)
    (hfill : t.up.lane.fillingBody = s.up.lane.fillingBody) (hrec : t.receptionAgrees)
    (hapart : (t.grants.map Grant.flow ++ t.up.lane.undecided).Nodup)
    (hfew : t.grants.length + t.up.lane.undecided.length ≤ 2)
    (hkept : ∀ g ∈ t.grants, t.grantKept t.up.lane.storedLength g)
    (hreq : ∀ x, t.agent.state = .executing x → x.commands.length ≤ 8) (htab : t.tableInRange) : t.FramesAgree := by
  have hsp := hst.space ⟨h.blocks, h.bodies⟩
  refine ⟨hst.lists h.lists, hsp.1, hsp.2, hst.shares h.shares, fun f => ?_, fun x hx => ?_, fun r => ?_, fun b body hb => ?_,
    hrec, hapart, hfew, hkept, hreq, htab⟩
  · obtain ⟨q1, q2, q3, q4⟩ := hq f
    obtain ⟨h1, h2, h3, h4, -⟩ := h.queues f
    unfold State.queueAgrees
    simp only
    rw [hst.recordLength, hst.records, q1, q2, q3]
    obtain ⟨l1, l2, l3, l4, l5, l6, l7⟩ := q4
    exact ⟨h1, h2, h3, h4, l1, l2, l3, l4, q2 ▸ l5, q3 ▸ l6, fun e => q1 ▸ l7 e⟩
  · rw [hst.records]
    exact h.sending x (hsend x hx)
  · rw [hres, hst.records]
    exact h.reserved r
  · rw [hst.bodies] at hb
    rw [hfill]
    exact h.filling b body hb

/-! ## Calm changes -/

/-- The frames, the queues, the lane and the agent's requests stay as they are, or grow less. -/
structure State.Calm (s t : State) : Prop where
  store : s.store.SameFrames t.store
  flows : ∀ f, (s.flow f).Eases (t.flow f)
  lane : t.up.lane = s.up.lane
  sending : ∀ x, t.down.sending = some x → s.down.sending = some x
  left : t.agent.commandsLeft ≤ s.agent.commandsLeft
  requests : (∀ x, s.agent.state = .executing x → x.commands.length ≤ 8) →
    ∀ x, t.agent.state = .executing x → x.commands.length ≤ 8
  entries : t.classifier.entries = s.classifier.entries

theorem State.Calm.refl (s : State) : s.Calm s :=
  ⟨.refl _, fun _ => .refl _, rfl, fun _ => id, le_refl _, id, rfl⟩

theorem State.Calm.trans {s t u : State} (h : s.Calm t) (h' : t.Calm u) : s.Calm u :=
  ⟨h.store.trans h'.store, fun f => (h.flows f).trans (h'.flows f), h'.lane.trans h.lane,
    fun x hx => h.sending x (h'.sending x hx), h'.left.trans h.left, fun hs => h'.requests (h.requests hs),
    h'.entries.trans h.entries⟩

theorem FrameStore.SameFrames.grants {s t : State} (h : s.store.SameFrames t.store) (hl : t.up.lane = s.up.lane) :
    t.grants = s.grants := by
  unfold State.grants
  rw [hl, h.grantOf]

theorem State.receptionAgrees_congr {s t : State} (h : s.receptionAgrees) (hst : s.store.SameFrames t.store)
    (hl : t.up.lane = s.up.lane) : t.receptionAgrees := by
  unfold State.receptionAgrees at h ⊢
  rw [hl]
  revert h
  cases s.up.lane with
  | store rx claimed b records label =>
    simp only
    rw [hst.bodies, hst.records]
    exact id
  | _ => exact id

theorem State.grantKept.eases {s t : State} {length : Nat} {g : Grant} (h : s.grantKept length g)
    (hf : (s.flow g.flow).Eases (t.flow g.flow)) (hc : t.agent.commandsLeft ≤ s.agent.commandsLeft) :
    t.grantKept length g := by
  obtain ⟨h1, h2⟩ := h
  refine ⟨?_, fun e hd => ?_⟩
  · rw [hf.generation]; omega
  · rw [hf.fits]
    exact h2 (hf.generation ▸ e) fun hs => hd (hf.left hs)

theorem State.FramesAgree.calm {s t : State} (h : s.FramesAgree) (hc : s.Calm t) : t.FramesAgree := by
  have hg := hc.store.grants hc.lane
  refine h.assemble hc.store (fun f => ?_) hc.sending (by rw [hc.lane]) (by rw [hc.lane])
    (State.receptionAgrees_congr h.reception hc.store hc.lane) ?_ ?_ (fun g hm => ?_) (hc.requests h.requests) ?_
  · have he := hc.flows f
    exact ⟨he.queue, he.frames, he.bytes, he.limited (h.queues f).limited⟩
  · rw [hg, hc.lane]; exact h.grantsApart
  · rw [hg, hc.lane]; exact h.grantsFew
  · rw [hc.lane]
    exact (h.grantsKept g (hg ▸ hm)).eases (hc.flows _) hc.left
  · intro i
    rw [hc.entries]
    exact h.table i

/-- What leaves the frames, the queues, the lane, the requests and the entries alone is calm. -/
theorem State.Calm.of_same {s t : State} (h1 : t.flows = s.flows) (h2 : s.store.SameFrames t.store)
    (h3 : t.up.lane = s.up.lane) (h4 : t.down.sending = s.down.sending) (h5 : t.agent.state = s.agent.state)
    (h6 : t.agent.slots = s.agent.slots) (h7 : t.classifier.entries = s.classifier.entries) : s.Calm t := by
  refine ⟨h2, fun f => .of_eq ?_, h3, fun x hx => h4 ▸ hx, ?_, fun hs x hx => hs x (h5 ▸ hx), h7⟩
  · unfold State.flow; rw [h1]
  · unfold Agent.commandsLeft; rw [h5, h6]

/-- One flow changes, and eases. -/
theorem State.Calm.setFlow {s : State} {f : FlowId} {x : Flow} (h : (s.flow f).Eases x) : s.Calm (s.setFlow f x) := by
  refine ⟨.refl _, fun g => ?_, rfl, fun _ => id, le_refl _, id, rfl⟩
  rw [State.flow_setFlow]
  split
  · next he => subst he; exact h
  · exact .refl _

/-! ### Reports, runs and flow states -/

variable (s : State)

theorem State.calm_report (k : NoticeKind) (f : FlowId) : s.Calm (s.report k f) :=
  .of_same rfl (.refl _) rfl rfl rfl rfl rfl

theorem State.calm_pauseTest : s.Calm s.pauseTest := by
  refine .of_same (by simp) ?_ (by simp) (by simp) (by simp) (by simp) (by simp)
  rw [State.pauseTest_store]
  exact .afterPause _

theorem State.calm_endRunOf (f : FlowId) : s.Calm (s.endRunOf f) :=
  .of_same (by simp) (.of_eq (by simp)) (by simp) (by simp) (by simp) (by simp) (by simp)

theorem State.calm_setScheduler (x : Scheduler) : s.Calm (s.setScheduler x) :=
  .of_same rfl (.refl _) rfl rfl rfl rfl rfl

theorem State.calm_setNotices (x : NoticeUnit) : s.Calm (s.setNotices x) :=
  .of_same rfl (.refl _) rfl rfl rfl rfl rfl

theorem State.calm_setFlowState (f : FlowId) (fs : FlowState) (hd : fs ≠ .disabled) (hs : (s.flow f).state ≠ .disabled) :
    s.Calm (s.setFlowState f fs) :=
  .setFlow ⟨rfl, rfl, rfl, rfl, rfl, rfl, fun e => absurd e hd, fun e => absurd e hs⟩

theorem Flow.eases_disabled {x : Flow} (h : x.queue = []) : x.Eases x.disabled :=
  ⟨rfl, rfl, rfl, rfl, rfl, rfl, fun _ => .inr h, fun _ => rfl⟩

theorem State.calm_enterDisabled (f : FlowId) (h : (s.flow f).queue = []) : s.Calm (s.enterDisabled f) :=
  ((State.Calm.setFlow (Flow.eases_disabled h)).trans (State.calm_endRunOf _ f)).trans (State.calm_report _ _ f)

theorem State.calm_closeFlow (f : FlowId) (h : (s.flow f).state ≠ .disabled) : s.Calm (s.closeFlow f) := by
  unfold State.closeFlow
  split
  · next hq =>
    simp only [Bool.and_eq_true, List.isEmpty_iff] at hq
    exact s.calm_enterDisabled f hq.1
  · exact s.calm_setFlowState f _ (by simp) h

theorem State.calm_completeFlush (f : FlowId) (back : ReturnState) (h : (s.flow f).state ≠ .disabled)
    (hq : (s.flow f).queue = []) : s.Calm (s.completeFlush f back) := by
  unfold State.completeFlush
  repeat' split
  · exact s.calm_setFlowState f _ (by simp) h
  · exact s.calm_setFlowState f _ (by simp) h
  · exact s.calm_setFlowState f _ (by simp) h
  · exact s.calm_enterDisabled f hq

theorem State.calm_settleFlow (f : FlowId) : s.Calm (s.settleFlow f) := by
  unfold State.settleFlow
  split
  · next hq =>
    have hq : (s.flow f).queue = [] := List.isEmpty_iff.1 hq
    repeat' split
    all_goals first
      | exact .refl s
      | exact s.calm_enterDisabled f hq
      | exact s.calm_completeFlush f _ (by simp [*]) hq
  · exact .refl s

theorem State.calm_settleDrain (f : FlowId) : s.Calm (s.settleDrain f) := by
  unfold State.settleDrain
  split
  · next h => exact s.calm_enterDisabled f (List.isEmpty_iff.1 h.2.1)
  · exact .refl s

theorem State.calm_startFlush (f : FlowId) (back : ReturnState) (h : (s.flow f).state ≠ .disabled) :
    s.Calm (s.startFlush f back) :=
  ((s.calm_setFlowState f _ (by simp) h).trans (State.calm_endRunOf _ f)).trans (State.calm_settleFlow _ f)

theorem State.calm_countDiscard (f : FlowId) (why : DiscardReason) : s.Calm (s.countDiscard f why) :=
  .setFlow ⟨rfl, rfl, rfl, rfl, rfl, rfl, .inl, id⟩

theorem State.calm_refuseLimit (f : FlowId) : s.Calm (s.refuseLimit f) :=
  (s.calm_countDiscard f _).trans (State.calm_report _ _ f)

theorem State.calm_poolDiscard (gs : List Grant) : s.Calm (s.poolDiscard gs) := by
  induction gs generalizing s with
  | nil => exact .refl s
  | cons g gs ih => exact (s.calm_countDiscard g.flow _).trans (ih _)

theorem State.calm_reportRemoval (f : FlowId) (why : DiscardReason) : s.Calm (s.reportRemoval f why) := by
  cases why <;> first | exact .refl s | exact s.calm_report _ _

/-! ### Profiles -/

theorem stateAfterSwap_disabled {x : FlowState} : stateAfterSwap x = .disabled ↔ x = .disabled := by
  cases x with
  | held c => cases c <;> simp [stateAfterSwap]
  | flushing b =>
    cases b with
    | held c => cases c <;> simp [stateAfterSwap]
    | _ => simp [stateAfterSwap]
  | _ => simp [stateAfterSwap]

theorem State.calm_swap (f : FlowId) : s.Calm (s.swap f) := by
  unfold State.swap
  split
  · exact .refl s
  · refine ((State.Calm.setFlow (s := s) (f := f) ?_).trans (State.calm_endRunOf _ f)).trans (State.calm_report _ _ f)
    exact ⟨rfl, rfl, rfl, rfl, rfl, rfl, fun e => .inl (stateAfterSwap_disabled.1 e), stateAfterSwap_disabled.2⟩

theorem State.calm_expireFlow (f : FlowId) (h : (s.flow f).state ≠ .disabled) : s.Calm (s.expireFlow f) := by
  have h0 : s.Calm (s.modifyFlow f fun x => { x with remaining := 0 }) :=
    .setFlow ⟨rfl, rfl, rfl, rfl, rfl, rfl, .inl, id⟩
  have h1 : ((s.modifyFlow f fun x => { x with remaining := 0 }).flow f).state ≠ .disabled := by
    simpa [State.modifyFlow] using h
  unfold State.expireFlow
  simp only []
  split
  · exact .setFlow ⟨rfl, rfl, rfl, rfl, rfl, rfl, .inl, id⟩
  · exact ((h0.trans (State.calm_setFlowState _ f _ (by simp) h1)).trans (State.calm_endRunOf _ f)).trans
      (State.calm_report _ _ f)
  · exact h0.trans (State.calm_closeFlow _ f h1)

theorem State.calm_countDown (f : FlowId) (h : (s.flow f).state ≠ .disabled) : s.Calm (s.countDown f) := by
  unfold State.countDown
  repeat' split
  · exact .setFlow ⟨rfl, rfl, rfl, rfl, rfl, rfl, .inl, id⟩
  · exact s.calm_swap f
  · exact s.calm_expireFlow f h

theorem State.calm_profileStep (f : FlowId) : s.Calm (s.profileStep f) := by
  unfold State.profileStep
  repeat' split
  all_goals first
    | exact .refl s
    | exact s.calm_swap f
    | exact s.calm_countDown f (by simp [*])

theorem State.calm_takeProfileStep (f : FlowId) : s.Calm (s.takeProfileStep f) := by
  unfold State.takeProfileStep
  refine State.Calm.trans (State.Calm.setFlow (f := f) ?_) (State.calm_profileStep _ f)
  exact ⟨rfl, rfl, rfl, rfl, rfl, rfl, .inl, id⟩

/-! ### The agent and Port D -/

theorem State.calm_stuckTest : s.Calm s.stuckTest := by
  unfold State.stuckTest
  split
  · exact .of_same rfl (.refl _) rfl rfl rfl rfl rfl
  · exact .refl s

theorem State.calm_takeHoldTick : s.Calm s.takeHoldTick := by
  unfold State.takeHoldTick
  split
  · refine State.Calm.trans (t := s.setDown { s.down with holdTickDue := false, holdTimer := holdTimerTicked s.down.holdTimer })
      ?_ (State.calm_stuckTest _)
    exact .of_same rfl (.refl _) rfl rfl rfl rfl rfl
  · exact .of_same rfl (.refl _) rfl rfl rfl rfl rfl

/-- The commands left of the request in execution. -/
def AgentState.commandsLeft : AgentState → Nat
  | .idle => 0
  | .executing x => x.commands.length - x.index
  | .restartPending => 0
  | .restarting => 0

theorem Agent.commandsLeft_eq (a : Agent) :
    a.commandsLeft = a.state.commandsLeft + ∑ k : SlotId, (a.slots[k]).commandsLeft := by
  unfold Agent.commandsLeft AgentState.commandsLeft
  cases a.state <;> rfl

/-- The agent's state after a command's result (R164). -/
theorem Agent.finish_state {a : Agent} {x : Execution} (ha : a.state = .executing x) (tag : Tag) (r : CommandResult)
    (restart : Bool) : (a.finish tag r restart).state =
      if (x.record r restart).ended then (if restart then .restartPending else .idle) else .executing (x.record r restart) := by
  unfold Agent.finish
  rw [ha]
  simp only
  split <;> rfl

/-- A command's result leaves fewer commands to run (R164). -/
theorem Agent.finish_commandsLeft {a : Agent} {x : Execution} (ha : a.state = .executing x)
    (hi : x.index < x.commands.length) (tag : Tag) (r : CommandResult) (restart : Bool) :
    (a.finish tag r restart).commandsLeft + 1 ≤ a.commandsLeft := by
  rw [Agent.commandsLeft_eq, Agent.commandsLeft_eq]
  have hs : (a.finish tag r restart).slots = a.slots := by
    unfold Agent.finish
    rw [ha]
    simp only
    split <;> rfl
  have hl : (a.finish tag r restart).state.commandsLeft + 1 ≤ a.state.commandsLeft := by
    rw [Agent.finish_state ha, ha]
    split
    · cases restart
      · change 0 + 1 ≤ x.commands.length - x.index
        omega
      · change 0 + 1 ≤ x.commands.length - x.index
        omega
    · change x.commands.length - (x.index + 1) + 1 ≤ x.commands.length - x.index
      omega
  rw [hs]
  omega

/-- The agent after a command's result executes the same request or none. -/
theorem Agent.finish_requests {a : Agent} {x y : Execution} (ha : a.state = .executing x) (tag : Tag) (r : CommandResult)
    (restart : Bool) (hy : (a.finish tag r restart).state = .executing y) : y.commands = x.commands := by
  rw [Agent.finish_state ha] at hy
  split at hy
  · cases restart <;> cases hy
  · cases hy; rfl

theorem State.commandDue_index {s : State} {code : Byte} {args : List Byte} (h : s.commandDue code args = true) :
    ∃ x, s.agent.state = .executing x ∧ x.index < x.commands.length := by
  unfold State.commandDue at h
  split at h
  · cases h
  · next x hx =>
    simp only [Bool.and_eq_true, decide_eq_true_eq] at h
    exact ⟨x, hx, (List.getElem?_eq_some_iff.1 h.2).1⟩
  · cases h
  · cases h

/-- The record of a command's result is calm. -/
theorem State.calm_finish {s : State} {x : Execution} (hx : s.agent.state = .executing x) (hi : x.index < x.commands.length)
    (tag : Tag) (r : CommandResult) (restart : Bool) : s.Calm (s.setAgent (s.agent.finish tag r restart)) := by
  refine ⟨.refl _, fun f => .refl _, rfl, fun _ => id, Nat.le_of_succ_le (Agent.finish_commandsLeft hx hi _ _ _),
    fun hs y hy => ?_, rfl⟩
  rw [Agent.finish_requests hx _ _ _ hy]
  exact hs x hx

/-- A command taken is calm when what it does at its owning block is, and leaves the agent's request alone. -/
theorem State.calm_takeCommand {code : Byte} {args : List Byte} {run : State → Answer} {s t : State}
    (hr : s.Calm (run s).state) (h1 : (run s).state.agent.state = s.agent.state)
    (he : takeCommand code args run s = .next t) : s.Calm t := by
  unfold takeCommand at he
  split at he <;> cases he
  · next hd =>
    obtain ⟨x, hx, hi⟩ := State.commandDue_index hd
    exact hr.trans (State.calm_finish (h1 ▸ hx) hi _ _ _)
  · exact .refl _

end Sys2Proof.Machine
end

