-- ==== Sys2Proof/Laws/FramesMoves.lean ====
section
/-! SUPPORT. The agreement of the store, the queues and the frames on their way when a record leaves its queue or Port D (R16, R17, R35, R36). -/
namespace Sys2Proof.Machine

/-! ## What the agreement says of one record or one body -/

/-- The records that name the FILLING body are those reserved for the frame in reception (R28, R30). -/
theorem State.FramesAgree.fillers {s : State} (h : s.FramesAgree) {b : BodyId} (hb : s.up.lane.fillingBody = some b) :
    s.store.sharers b = s.up.lane.reservedRecords.toFinset := by
  have hr := h.reception
  unfold State.receptionAgrees at hr
  revert hb hr
  cases s.up.lane with
  | store rx claimed b' records label =>
    simp only [Lane.fillingBody, Lane.reservedRecords, Option.some.injEq]
    rintro rfl ⟨body, -, -, hbody, -, -, -, hnd, hlen, hmem⟩
    symm
    refine Finset.eq_of_subset_of_card_le (fun r hr => ?_) ?_
    · exact FrameStore.mem_sharers.2 (hmem r (List.mem_toFinset.1 hr))
    · rw [(h.shares.2 _ _ hbody).1, List.toFinset_card_of_nodup hnd, hlen]
  | _ => simp [Lane.fillingBody]

/-- A record that is not RESERVED has a STORED body (R27, R28). -/
theorem State.FramesAgree.notFilling {s : State} (h : s.FramesAgree) {r : RecordId} {fr : FrameRecord}
    (hr : s.store.records[r] = some fr) (hn : ∀ g, fr.state ≠ .reserved g) {b : BodyId}
    (hb : s.up.lane.fillingBody = some b) : r ∉ s.store.sharers b := by
  rw [h.fillers hb, List.mem_toFinset, h.reserved]
  rintro ⟨fr', g, h1, h2⟩
  rw [hr] at h1
  cases h1
  exact hn g h2

/-- The head of a flow's queue is a QUEUED record of that flow (R28). -/
theorem State.FramesAgree.head {s : State} (h : s.FramesAgree) {f : FlowId} {r : RecordId} {rest : List RecordId}
    (hq : (s.flow f).queue = r :: rest) :
    ∃ fr stamp, s.store.records[r] = some fr ∧ fr.state = .queued stamp ∧ fr.flow = f :=
  ((h.queues f).2.1 r).1 (hq ▸ List.mem_cons_self)

/-! ## A record that leaves -/

/-- What leaves of the store when a record that is not RESERVED is freed or goes into transmission (R16, R35, R36). -/
structure FrameStore.Leaves (st st' : FrameStore) (r : RecordId) : Prop where
  lists : st'.listsAgree
  space : st'.SpaceAgrees
  shares : st'.sharesAgree
  records : ∀ q : RecordId, q ≠ r → st'.records[q] = st.records[q]
  sent : ∀ fr, st'.records[r] = some fr → fr.state = .inTransmission
  lengths : ∀ q : RecordId, q ≠ r → st'.recordLength q = st.recordLength q
  bodies : ∀ (c : BodyId) (body : Body), st'.bodies[c] = some body → ∃ old, st.bodies[c] = some old ∧ old.state = body.state
  others : ∀ c : BodyId, r ∉ st.sharers c → st'.bodies[c] = st.bodies[c]

theorem State.FramesAgree.leaves_release {s : State} (h : s.FramesAgree) (r : RecordId) :
    s.store.Leaves (s.store.releaseRecord r) r := by
  refine ⟨FrameStore.lists_releaseRecord h.lists r, FrameStore.SpaceAgrees.releaseRecord ⟨h.blocks, h.bodies⟩ r,
    h.shares.releaseRecord r, fun q hq => ?_, fun fr hfr => ?_, fun q hq => ?_, fun c body hc => ?_, fun c hc => ?_⟩
  · rw [FrameStore.releaseRecord_records, if_neg (Ne.symm hq)]
  · rw [FrameStore.releaseRecord_records, if_pos rfl] at hfr
    cases hfr
  · exact FrameStore.releaseRecord_length h.shares (Ne.symm hq)
  · obtain ⟨old, h1, h2⟩ := FrameStore.releaseRecord_bodies _ _ _ hc
    exact ⟨old, h1, by rw [h2]⟩
  · exact FrameStore.releaseRecord_bodies_of_ne _ hc

theorem State.FramesAgree.leaves_send {s : State} (h : s.FramesAgree) {r : RecordId} {fr : FrameRecord}
    (hr : s.store.records[r] = some fr) : s.store.Leaves (s.store.setRecordState r .inTransmission) r := by
  have he : s.store.setRecordState r .inTransmission =
      { s.store with records := s.store.records.set r (some { fr with state := .inTransmission }) } := by
    unfold FrameStore.setRecordState
    rw [hr]
  have hrec : ∀ q, q ≠ r → (s.store.setRecordState r .inTransmission).records[q] = s.store.records[q] := by
    intro q hq
    rw [he, getElem_set_fin, if_neg (Ne.symm hq)]
  refine ⟨FrameStore.lists_setRecordState h.lists r _, FrameStore.SpaceAgrees.setRecordState ⟨h.blocks, h.bodies⟩ r _,
    h.shares.setRecordState r _, hrec, fun x hx => ?_, fun q hq => ?_, fun c body hc => ?_, fun c _ => ?_⟩
  · rw [he, getElem_set_fin, if_pos rfl] at hx
    cases hx; rfl
  · unfold FrameStore.recordLength
    rw [hrec q hq, he]
  · rw [he] at hc
    exact ⟨body, hc, rfl⟩
  · rw [he]

/-- A record that is not RESERVED leaves: from the head of its queue, or from no queue. -/
theorem State.FramesAgree.leave {s t : State} (h : s.FramesAgree) {r : RecordId} {fr : FrameRecord}
    (hr : s.store.records[r] = some fr) (hn : ∀ g, fr.state ≠ .reserved g) (hst : s.store.Leaves t.store r)
    (hq : ∀ f, (r ∉ (s.flow f).queue ∧ (s.flow f).Eases (t.flow f)) ∨
      ∃ rest, (s.flow f).queue = r :: rest ∧ ((s.flow f).popHead (s.store.recordLength r)).Eases (t.flow f))
    (hlane : t.up.lane = s.up.lane)
    (hsend : ∀ x, t.down.sending = some x → ∃ fx, t.store.records[x.record] = some fx ∧ fx.state = .inTransmission)
    (hagent : t.agent = s.agent) (hent : t.classifier.entries = s.classifier.entries) : t.FramesAgree := by
  have hnr : r ∉ s.up.lane.reservedRecords := by
    rw [h.reserved]
    rintro ⟨fr', g, h1, h2⟩
    rw [hr] at h1
    cases h1
    exact hn g h2
  have hrest : ∀ (q : RecordId) (P : FrameRecord → Prop), (∀ x, P x → x.state ≠ .inTransmission) → (∀ x, s.store.records[r] = some x → ¬ P x) →
      ((∃ x, t.store.records[q] = some x ∧ P x) ↔ ∃ x, s.store.records[q] = some x ∧ P x) := by
    intro q P hP hrP
    by_cases hqr : q = r
    · subst hqr
      exact ⟨fun ⟨x, h1, h2⟩ => absurd (hst.sent x h1) (hP x h2), fun ⟨x, h1, h2⟩ => absurd h2 (hrP x h1)⟩
    · rw [hst.records q hqr]
  have hgrant : t.grants = s.grants := by
    unfold State.grants
    rw [hlane]
    revert hnr
    cases s.up.lane with
    | store rx claimed b records label =>
      intro hnr
      refine List.filterMap_congr fun q hqm => ?_
      unfold FrameStore.grantOf
      rw [hst.records q (by rintro rfl; exact hnr hqm)]
    | _ => exact fun _ => rfl
  refine ⟨hst.lists, hst.space.1, hst.space.2, hst.shares, fun f => ?_, hsend, fun q => ?_, fun b body hb => ?_, ?_, ?_, ?_,
    fun g hg => ?_, fun x hx => h.requests x (hagent ▸ hx), fun i => ?_⟩
  · obtain ⟨h1, h2, h3, h4, -⟩ := h.queues f
    have hlim := (h.queues f).limited
    unfold State.queueAgrees
    simp only
    rcases hq f with ⟨hnq, he⟩ | ⟨rest, hqr, he⟩
    · obtain ⟨l1, l2, l3, l4, l5, l6, l7⟩ := he.limited hlim
      rw [he.queue, he.frames, he.bytes]
      rw [he.frames] at l5
      rw [he.bytes] at l6
      rw [he.queue] at l7
      refine ⟨h1, fun q => ?_, h3, ?_, l1, l2, l3, l4, l5, l6, l7⟩
      · by_cases hqr : q = r
        · subst hqr
          refine ⟨fun hm => absurd hm hnq, fun ⟨x, stamp, e1, e2, e3⟩ => ?_⟩
          rw [hst.sent x e1] at e2
          cases e2
        · rw [hst.records q hqr]; exact h2 q
      · rw [h4]
        congr 1
        exact List.map_congr_left fun q hqm => (hst.lengths q (by rintro rfl; exact hnq hqm)).symm
    · rw [hqr] at h1 h3 h4
      have hlen : (s.flow f).queuedFrames - 1 = rest.length := by rw [h3]; rfl
      have hbytes : (s.flow f).queuedBytes - s.store.recordLength r = (rest.map s.store.recordLength).sum := by
        rw [h4, List.map_cons, List.sum_cons]; omega
      obtain ⟨l1, l2, l3, l4, l5, l6, l7⟩ := hlim
      have hlim' : ((s.flow f).popHead (s.store.recordLength r)).Limited := by
        refine ⟨l1, l2, l3, l4, ?_, ?_, fun e => ?_⟩
        · exact le_trans (Nat.sub_le _ _) l5
        · exact le_trans (Nat.sub_le _ _) l6
        · have := l7 e
          rw [hqr] at this
          cases this
      obtain ⟨k1, k2, k3, k4, k5, k6, k7⟩ := he.limited hlim'
      have q1 : (t.flow f).queue = rest := by rw [he.queue]; unfold Flow.popHead; rw [hqr]; rfl
      have q2 : (t.flow f).queuedFrames = rest.length := by rw [he.frames]; exact hlen
      have q3 : (t.flow f).queuedBytes = (rest.map s.store.recordLength).sum := by rw [he.bytes]; exact hbytes
      rw [q1, q2, q3]
      rw [q2] at k5
      rw [q3] at k6
      rw [q1] at k7
      rw [List.nodup_cons] at h1
      refine ⟨h1.2, fun q => ?_, rfl, ?_, k1, k2, k3, k4, k5, k6, k7⟩
      · by_cases hqr' : q = r
        · subst hqr'
          refine ⟨fun hm => absurd hm h1.1, fun ⟨x, stamp, e1, e2, e3⟩ => ?_⟩
          rw [hst.sent x e1] at e2
          cases e2
        · rw [hst.records q hqr', ← h2 q, hqr, List.mem_cons]
          exact ⟨.inr, fun hm => hm.resolve_left hqr'⟩
      · congr 1
        exact List.map_congr_left fun q hqm => (hst.lengths q (by rintro rfl; exact h1.1 hqm)).symm
  · rw [hlane, h.reserved q]
    have := hrest q (fun x => ∃ g, x.state = .reserved g) (fun x ⟨g, hg⟩ => by rw [hg]; simp)
      (fun x hx ⟨g, hg⟩ => by rw [hr] at hx; cases hx; exact hn g hg)
    constructor
    · rintro ⟨x, g, h1, h2⟩
      obtain ⟨y, h3, g', h4⟩ := this.2 ⟨x, h1, g, h2⟩
      exact ⟨y, g', h3, h4⟩
    · rintro ⟨x, g, h1, h2⟩
      obtain ⟨y, h3, g', h4⟩ := this.1 ⟨x, h1, g, h2⟩
      exact ⟨y, g', h3, h4⟩
  · obtain ⟨old, h1, h2⟩ := hst.bodies b body hb
    rw [hlane, ← h2]
    exact h.filling b old h1
  · have hrc := h.reception
    have hnf := fun b => h.notFilling hr hn (b := b)
    unfold State.receptionAgrees at hrc ⊢
    rw [hlane]
    revert hrc hnr hnf
    cases s.up.lane with
    | store rx claimed b records label =>
      intro hnr hrc hnf
      obtain ⟨body, linked, pending, e1, e2, e3, e4, e5, e6, e7⟩ := hrc
      refine ⟨body, linked, pending, ?_, e2, e3, e4, e5, e6, fun q hqm => ?_⟩
      · rw [hst.others b (hnf b rfl)]; exact e1
      · rw [hst.records q (by rintro rfl; exact hnr hqm)]; exact e7 q hqm
    | _ => exact fun _ hrc _ => hrc
  · rw [hgrant, hlane]; exact h.grantsApart
  · rw [hgrant, hlane]; exact h.grantsFew
  · rw [hgrant] at hg
    rw [hlane]
    obtain ⟨k1, k2⟩ := h.grantsKept g hg
    rcases hq g.flow with ⟨-, he⟩ | ⟨rest, -, he⟩
    · exact (h.grantsKept g hg).eases he (by rw [hagent])
    · refine ⟨by rw [hagent, he.generation]; exact k1, fun e hd => ?_⟩
      have := k2 (he.generation ▸ e) fun hs => hd (he.left hs)
      rw [he.fits]
      unfold Flow.fits at this ⊢
      simp only [Bool.and_eq_true, decide_eq_true_eq] at this ⊢
      unfold Flow.popHead
      simp only
      omega
  · rw [hent]; exact h.table i

/-! ## Head removals (R17) -/

/-- A record at the head of one flow's queue stands in no other flow's queue. -/
theorem State.FramesAgree.notIn {s : State} (h : s.FramesAgree) {r : RecordId} {fr : FrameRecord}
    (hr : s.store.records[r] = some fr) {g : FlowId} (hg : fr.flow ≠ g) : r ∉ (s.flow g).queue := by
  intro hm
  obtain ⟨x, stamp, h1, -, h3⟩ := ((h.queues g).2.1 r).1 hm
  rw [hr] at h1
  cases h1
  exact hg h3

theorem State.FramesAgree.discardHead {s : State} (h : s.FramesAgree) (f : FlowId) (why : DiscardReason) :
    (s.discardHead f why).FramesAgree := by
  cases hq : (s.flow f).queue with
  | nil => unfold State.discardHead; rw [hq]; exact h
  | cons r rest =>
    rw [s.discardHead_of_queue f why r rest hq]
    refine State.FramesAgree.calm ?_ (((State.calm_pauseTest _).trans (State.calm_reportRemoval _ f why)).trans
      (State.calm_settleFlow _ f))
    obtain ⟨fr, stamp, h1, h2, h3⟩ := h.head hq
    refine h.leave h1 (by rw [h2]; simp) (h.leaves_release r) (fun g => ?_) rfl (fun x hx => ?_) rfl rfl
    · by_cases hg : f = g
      · subst hg
        refine .inr ⟨rest, hq, ?_⟩
        rw [State.flow_of_set]
        exact ⟨rfl, rfl, rfl, rfl, rfl, rfl, .inl, id⟩
      · refine .inl ⟨h.notIn h1 (h3 ▸ hg), .of_eq ?_⟩
        exact s.flow_setFlow_of_ne f g _ hg
    · obtain ⟨fx, e1, e2⟩ := h.sending x hx
      refine ⟨fx, ?_, e2⟩
      change (s.store.releaseRecord r).records[x.record] = _
      rw [FrameStore.releaseRecord_records, if_neg]
      · exact e1
      · rintro rfl
        rw [h1] at e1
        cases e1
        rw [h2] at e2
        cases e2

theorem State.FramesAgree.removeStale {s : State} (h : s.FramesAgree) (f : FlowId) (n : Nat) :
    (s.removeStale f n).FramesAgree := by
  induction n generalizing s with
  | zero => exact h
  | succ n ih =>
    unfold State.removeStale
    split
    · exact h
    · split
      · exact ih (h.discardHead f .stale)
      · exact h

theorem State.FramesAgree.ageFlow {s : State} (h : s.FramesAgree) (f : FlowId) : (s.ageFlow f).FramesAgree := h.removeStale f _

theorem State.FramesAgree.agingCheck {s : State} (h : s.FramesAgree) : s.agingCheck.FramesAgree := by
  unfold State.agingCheck
  generalize allFlows = fs
  induction fs generalizing s with
  | nil => exact h
  | cons f fs ih =>
    rw [List.foldl_cons]
    apply ih
    split
    · exact h.ageFlow f
    · exact h

theorem State.FramesAgree.makeRoom {s : State} (h : s.FramesAgree) (f : FlowId) (length n : Nat) :
    (s.makeRoom f length n).FramesAgree := by
  induction n generalizing s with
  | zero => exact h
  | succ n ih =>
    unfold State.makeRoom
    split
    · exact h
    · exact ih (h.discardHead f .head)

/-! ## Port D (R16, R36) -/

theorem State.FramesAgree.releaseHead {s : State} (h : s.FramesAgree) (f : FlowId) : (s.releaseHead f).FramesAgree := by
  cases hq : (s.flow f).queue with
  | nil => unfold State.releaseHead; rw [hq]; exact h
  | cons r rest =>
    obtain ⟨fr, stamp, h1, h2, h3⟩ := h.head hq
    have hrec : (s.store.setRecordState r .inTransmission).records[r] = some { fr with state := .inTransmission } := by
      unfold FrameStore.setRecordState
      rw [h1]
      simp only
      rw [getElem_set_fin, if_pos rfl]
    unfold State.releaseHead
    rw [hq]
    simp only
    rw [h1]
    simp only
    refine h.leave h1 (by rw [h2]; simp) (h.leaves_send h1) (fun g => ?_) rfl (fun x hx => ?_) rfl rfl
    · by_cases hg : f = g
      · subst hg
        refine .inr ⟨rest, hq, ?_⟩
        simp only [State.modifyFlow, State.setDown_flow, State.setStore_flow, State.flow_setFlow_same]
        exact ⟨rfl, rfl, rfl, rfl, rfl, rfl, .inl, id⟩
      · exact .inl ⟨h.notIn h1 (h3 ▸ hg), .of_eq (s.flow_setFlow_of_ne f g _ hg)⟩
    · cases hx
      exact ⟨_, hrec, rfl⟩

theorem State.FramesAgree.arbitrate {s : State} (h : s.FramesAgree) : s.arbitrate.FramesAgree := by
  unfold State.arbitrate
  split
  · exact h
  · exact State.FramesAgree.releaseHead (h.calm (State.calm_setScheduler s _)) _

theorem State.FramesAgree.choose {s : State} (h : s.FramesAgree) : s.choose.FramesAgree := by
  unfold State.choose
  repeat' split
  · exact h.releaseHead _
  · exact h.arbitrate
  · exact State.FramesAgree.releaseHead (h.calm (State.calm_setScheduler s _)) _
  · exact State.FramesAgree.arbitrate (h.calm (State.calm_setScheduler s _))

/-- The record in transmission released at its completion (R36, R145). -/
theorem State.FramesAgree.transmissionCompletion {s t : State} (h : s.FramesAgree)
    (he : execTransmissionCompletion s = .next t) : t.FramesAgree := by
  unfold execTransmissionCompletion at he
  split at he
  · cases he; exact h
  · next x hx =>
    split at he <;> cases he
    · exact h
    · refine State.FramesAgree.calm ?_ ((State.calm_pauseTest _).trans (State.calm_settleDrain _ x.flow))
      obtain ⟨fx, h1, h2⟩ := h.sending x hx
      refine h.leave h1 (by rw [h2]; simp) (h.leaves_release x.record) (fun g => .inl ⟨fun hm => ?_, ?_⟩) rfl
        (fun y hy => by cases hy) rfl rfl
      · obtain ⟨fr, stamp, e1, e2, -⟩ := ((h.queues g).2.1 _).1 hm
        rw [h1] at e1
        cases e1
        rw [h2] at e2
        cases e2
      · change (s.flow g).Eases ((s.modifyFlow x.flow fun y => y.completed x.length).flow g)
        unfold State.modifyFlow
        rw [State.flow_setFlow]
        split
        · next hg => subst hg; exact ⟨rfl, rfl, rfl, rfl, rfl, rfl, .inl, id⟩
        · exact .refl _

end Sys2Proof.Machine
end

