-- ==== Sys2Proof/Laws/LaneFrames.lean ====
section
/-! SUPPORT. What the receive lane leaves alone in the Upstream Port and the Management Agent: one lemma per operation and field. -/
namespace Sys2Proof.Machine

variable (s : State)

@[simp] theorem State.ingressError_up_ownTag (e : IngressError) : (s.ingressError e).up.ownTag = s.up.ownTag := by
  unfold State.ingressError; split
  · rfl
  · cases e <;> rfl
@[simp] theorem State.ingressError_up_restartCondition (e : IngressError) : (s.ingressError e).up.restartCondition = s.up.restartCondition := by
  unfold State.ingressError; split
  · rfl
  · cases e <;> rfl
@[simp] theorem State.ingressError_up_returnLane (e : IngressError) : (s.ingressError e).up.returnLane = s.up.returnLane := by
  unfold State.ingressError; split
  · rfl
  · cases e <;> rfl
@[simp] theorem State.ingressError_up_responseRun (e : IngressError) : (s.ingressError e).up.responseRun = s.up.responseRun := by
  unfold State.ingressError; split
  · rfl
  · cases e <;> rfl
@[simp] theorem State.ingressError_up_line (e : IngressError) : (s.ingressError e).up.line = s.up.line := by
  unfold State.ingressError; split
  · rfl
  · cases e <;> rfl

@[simp] theorem State.countReceived_up_ownTag : s.countReceived.up.ownTag = s.up.ownTag := by
  unfold State.countReceived; split <;> rfl
@[simp] theorem State.countReceived_up_restartCondition : s.countReceived.up.restartCondition = s.up.restartCondition := by
  unfold State.countReceived; split <;> rfl
@[simp] theorem State.countReceived_up_returnLane : s.countReceived.up.returnLane = s.up.returnLane := by
  unfold State.countReceived; split <;> rfl
@[simp] theorem State.countReceived_up_responseRun : s.countReceived.up.responseRun = s.up.responseRun := by
  unfold State.countReceived; split <;> rfl
@[simp] theorem State.countReceived_up_line : s.countReceived.up.line = s.up.line := by
  unfold State.countReceived; split <;> rfl

@[simp] theorem State.setSlot_agent_state (k : SlotId) (x : Slot) : (s.setSlot k x).agent.state = s.agent.state := rfl
@[simp] theorem State.setSlot_agent_responses (k : SlotId) (x : Slot) : (s.setSlot k x).agent.responses = s.agent.responses := rfl
@[simp] theorem State.setSlot_agent_replay (k : SlotId) (x : Slot) : (s.setSlot k x).agent.replay = s.agent.replay := rfl
@[simp] theorem State.setSlot_agent_taken (k : SlotId) (x : Slot) : (s.setSlot k x).agent.taken = s.agent.taken := rfl
@[simp] theorem State.setSlot_agent_replayed (k : SlotId) (x : Slot) : (s.setSlot k x).agent.replayed = s.agent.replayed := rfl
@[simp] theorem State.setSlot_agent_malformed (k : SlotId) (x : Slot) : (s.setSlot k x).agent.malformed = s.agent.malformed := rfl
@[simp] theorem State.setSlot_agent_restartCount (k : SlotId) (x : Slot) : (s.setSlot k x).agent.restartCount = s.agent.restartCount := rfl

@[simp] theorem State.freeReception_agent_state : s.freeReception.agent.state = s.agent.state := by
  unfold State.freeReception; split <;> simp
@[simp] theorem State.freeReception_agent_responses : s.freeReception.agent.responses = s.agent.responses := by
  unfold State.freeReception; split <;> simp
@[simp] theorem State.freeReception_agent_replay : s.freeReception.agent.replay = s.agent.replay := by
  unfold State.freeReception; split <;> simp
@[simp] theorem State.freeReception_agent_taken : s.freeReception.agent.taken = s.agent.taken := by
  unfold State.freeReception; split <;> simp
@[simp] theorem State.freeReception_agent_replayed : s.freeReception.agent.replayed = s.agent.replayed := by
  unfold State.freeReception; split <;> simp
@[simp] theorem State.freeReception_agent_malformed : s.freeReception.agent.malformed = s.agent.malformed := by
  unfold State.freeReception; split <;> simp
@[simp] theorem State.freeReception_agent_restartCount : s.freeReception.agent.restartCount = s.agent.restartCount := by
  unfold State.freeReception; split <;> simp

@[simp] theorem State.closeBad_up_ownTag (e : IngressError) : (s.closeBad e).up.ownTag = s.up.ownTag := by
  simp [State.closeBad]
@[simp] theorem State.closeBad_up_restartCondition (e : IngressError) : (s.closeBad e).up.restartCondition = s.up.restartCondition := by
  simp [State.closeBad]
@[simp] theorem State.closeBad_up_returnLane (e : IngressError) : (s.closeBad e).up.returnLane = s.up.returnLane := by
  simp [State.closeBad]
@[simp] theorem State.closeBad_up_responseRun (e : IngressError) : (s.closeBad e).up.responseRun = s.up.responseRun := by
  simp [State.closeBad]
@[simp] theorem State.closeBad_up_line (e : IngressError) : (s.closeBad e).up.line = s.up.line := by
  simp [State.closeBad]
@[simp] theorem State.closeBad_agent_state (e : IngressError) : (s.closeBad e).agent.state = s.agent.state := by
  simp [State.closeBad]
@[simp] theorem State.closeBad_agent_responses (e : IngressError) : (s.closeBad e).agent.responses = s.agent.responses := by
  simp [State.closeBad]
@[simp] theorem State.closeBad_agent_replay (e : IngressError) : (s.closeBad e).agent.replay = s.agent.replay := by
  simp [State.closeBad]
@[simp] theorem State.closeBad_agent_taken (e : IngressError) : (s.closeBad e).agent.taken = s.agent.taken := by
  simp [State.closeBad]
@[simp] theorem State.closeBad_agent_replayed (e : IngressError) : (s.closeBad e).agent.replayed = s.agent.replayed := by
  simp [State.closeBad]
@[simp] theorem State.closeBad_agent_malformed (e : IngressError) : (s.closeBad e).agent.malformed = s.agent.malformed := by
  simp [State.closeBad]
@[simp] theorem State.closeBad_agent_restartCount (e : IngressError) : (s.closeBad e).agent.restartCount = s.agent.restartCount := by
  simp [State.closeBad]

@[simp] theorem State.closeIgnored_up_ownTag : s.closeIgnored.up.ownTag = s.up.ownTag := by
  simp [State.closeIgnored]
@[simp] theorem State.closeIgnored_up_restartCondition : s.closeIgnored.up.restartCondition = s.up.restartCondition := by
  simp [State.closeIgnored]
@[simp] theorem State.closeIgnored_up_returnLane : s.closeIgnored.up.returnLane = s.up.returnLane := by
  simp [State.closeIgnored]
@[simp] theorem State.closeIgnored_up_responseRun : s.closeIgnored.up.responseRun = s.up.responseRun := by
  simp [State.closeIgnored]
@[simp] theorem State.closeIgnored_up_line : s.closeIgnored.up.line = s.up.line := by
  simp [State.closeIgnored]

@[simp] theorem State.closeGood_up_ownTag : s.closeGood.up.ownTag = s.up.ownTag := by
  unfold State.closeGood; simp only []; split <;> simp
@[simp] theorem State.closeGood_up_restartCondition : s.closeGood.up.restartCondition = s.up.restartCondition := by
  unfold State.closeGood; simp only []; split <;> simp
@[simp] theorem State.closeGood_up_returnLane : s.closeGood.up.returnLane = s.up.returnLane := by
  unfold State.closeGood; simp only []; split <;> simp
@[simp] theorem State.closeGood_up_responseRun : s.closeGood.up.responseRun = s.up.responseRun := by
  unfold State.closeGood; simp only []; split <;> simp
@[simp] theorem State.closeGood_up_line : s.closeGood.up.line = s.up.line := by
  unfold State.closeGood; simp only []; split <;> simp
@[simp] theorem State.closeGood_agent_state : s.closeGood.agent.state = s.agent.state := by
  unfold State.closeGood; simp only []; split <;> simp
@[simp] theorem State.closeGood_agent_responses : s.closeGood.agent.responses = s.agent.responses := by
  unfold State.closeGood; simp only []; split <;> simp
@[simp] theorem State.closeGood_agent_replay : s.closeGood.agent.replay = s.agent.replay := by
  unfold State.closeGood; simp only []; split <;> simp
@[simp] theorem State.closeGood_agent_taken : s.closeGood.agent.taken = s.agent.taken := by
  unfold State.closeGood; simp only []; split <;> simp
@[simp] theorem State.closeGood_agent_replayed : s.closeGood.agent.replayed = s.agent.replayed := by
  unfold State.closeGood; simp only []; split <;> simp
@[simp] theorem State.closeGood_agent_malformed : s.closeGood.agent.malformed = s.agent.malformed := by
  unfold State.closeGood; simp only []; split <;> simp
@[simp] theorem State.closeGood_agent_restartCount : s.closeGood.agent.restartCount = s.agent.restartCount := by
  unfold State.closeGood; simp only []; split <;> simp

@[simp] theorem State.closeTested_up_ownTag (rx : Reception) (claimed : Nat) : (s.closeTested rx claimed).up.ownTag = s.up.ownTag := by
  unfold State.closeTested; repeat' split
  all_goals simp
@[simp] theorem State.closeTested_up_restartCondition (rx : Reception) (claimed : Nat) : (s.closeTested rx claimed).up.restartCondition = s.up.restartCondition := by
  unfold State.closeTested; repeat' split
  all_goals simp
@[simp] theorem State.closeTested_up_returnLane (rx : Reception) (claimed : Nat) : (s.closeTested rx claimed).up.returnLane = s.up.returnLane := by
  unfold State.closeTested; repeat' split
  all_goals simp
@[simp] theorem State.closeTested_up_responseRun (rx : Reception) (claimed : Nat) : (s.closeTested rx claimed).up.responseRun = s.up.responseRun := by
  unfold State.closeTested; repeat' split
  all_goals simp
@[simp] theorem State.closeTested_up_line (rx : Reception) (claimed : Nat) : (s.closeTested rx claimed).up.line = s.up.line := by
  unfold State.closeTested; repeat' split
  all_goals simp
@[simp] theorem State.closeTested_agent_state (rx : Reception) (claimed : Nat) : (s.closeTested rx claimed).agent.state = s.agent.state := by
  unfold State.closeTested; repeat' split
  all_goals simp
@[simp] theorem State.closeTested_agent_responses (rx : Reception) (claimed : Nat) : (s.closeTested rx claimed).agent.responses = s.agent.responses := by
  unfold State.closeTested; repeat' split
  all_goals simp
@[simp] theorem State.closeTested_agent_replay (rx : Reception) (claimed : Nat) : (s.closeTested rx claimed).agent.replay = s.agent.replay := by
  unfold State.closeTested; repeat' split
  all_goals simp
@[simp] theorem State.closeTested_agent_taken (rx : Reception) (claimed : Nat) : (s.closeTested rx claimed).agent.taken = s.agent.taken := by
  unfold State.closeTested; repeat' split
  all_goals simp
@[simp] theorem State.closeTested_agent_replayed (rx : Reception) (claimed : Nat) : (s.closeTested rx claimed).agent.replayed = s.agent.replayed := by
  unfold State.closeTested; repeat' split
  all_goals simp
@[simp] theorem State.closeTested_agent_malformed (rx : Reception) (claimed : Nat) : (s.closeTested rx claimed).agent.malformed = s.agent.malformed := by
  unfold State.closeTested; repeat' split
  all_goals simp
@[simp] theorem State.closeTested_agent_restartCount (rx : Reception) (claimed : Nat) : (s.closeTested rx claimed).agent.restartCount = s.agent.restartCount := by
  unfold State.closeTested; repeat' split
  all_goals simp

@[simp] theorem State.loseRequest_up_ownTag (bytes : List Byte) : (s.loseRequest bytes).up.ownTag = s.up.ownTag := rfl
@[simp] theorem State.loseRequest_up_restartCondition (bytes : List Byte) : (s.loseRequest bytes).up.restartCondition = s.up.restartCondition := rfl
@[simp] theorem State.loseRequest_up_returnLane (bytes : List Byte) : (s.loseRequest bytes).up.returnLane = s.up.returnLane := rfl
@[simp] theorem State.loseRequest_up_responseRun (bytes : List Byte) : (s.loseRequest bytes).up.responseRun = s.up.responseRun := rfl
@[simp] theorem State.loseRequest_up_line (bytes : List Byte) : (s.loseRequest bytes).up.line = s.up.line := rfl
@[simp] theorem State.loseRequest_agent_state (bytes : List Byte) : (s.loseRequest bytes).agent.state = s.agent.state := rfl
@[simp] theorem State.loseRequest_agent_responses (bytes : List Byte) : (s.loseRequest bytes).agent.responses = s.agent.responses := rfl
@[simp] theorem State.loseRequest_agent_replay (bytes : List Byte) : (s.loseRequest bytes).agent.replay = s.agent.replay := rfl
@[simp] theorem State.loseRequest_agent_taken (bytes : List Byte) : (s.loseRequest bytes).agent.taken = s.agent.taken := rfl
@[simp] theorem State.loseRequest_agent_replayed (bytes : List Byte) : (s.loseRequest bytes).agent.replayed = s.agent.replayed := rfl
@[simp] theorem State.loseRequest_agent_malformed (bytes : List Byte) : (s.loseRequest bytes).agent.malformed = s.agent.malformed := rfl
@[simp] theorem State.loseRequest_agent_restartCount (bytes : List Byte) : (s.loseRequest bytes).agent.restartCount = s.agent.restartCount := rfl

@[simp] theorem State.routeRequest_up_ownTag (rx : Reception) (bytes : List Byte) : (s.routeRequest rx bytes).up.ownTag = s.up.ownTag := by
  unfold State.routeRequest; repeat' split
  all_goals simp
@[simp] theorem State.routeRequest_up_restartCondition (rx : Reception) (bytes : List Byte) : (s.routeRequest rx bytes).up.restartCondition = s.up.restartCondition := by
  unfold State.routeRequest; repeat' split
  all_goals simp
@[simp] theorem State.routeRequest_up_returnLane (rx : Reception) (bytes : List Byte) : (s.routeRequest rx bytes).up.returnLane = s.up.returnLane := by
  unfold State.routeRequest; repeat' split
  all_goals simp
@[simp] theorem State.routeRequest_up_responseRun (rx : Reception) (bytes : List Byte) : (s.routeRequest rx bytes).up.responseRun = s.up.responseRun := by
  unfold State.routeRequest; repeat' split
  all_goals simp
@[simp] theorem State.routeRequest_up_line (rx : Reception) (bytes : List Byte) : (s.routeRequest rx bytes).up.line = s.up.line := by
  unfold State.routeRequest; repeat' split
  all_goals simp
@[simp] theorem State.routeRequest_agent_state (rx : Reception) (bytes : List Byte) : (s.routeRequest rx bytes).agent.state = s.agent.state := by
  unfold State.routeRequest; repeat' split
  all_goals simp
@[simp] theorem State.routeRequest_agent_responses (rx : Reception) (bytes : List Byte) : (s.routeRequest rx bytes).agent.responses = s.agent.responses := by
  unfold State.routeRequest; repeat' split
  all_goals simp
@[simp] theorem State.routeRequest_agent_replay (rx : Reception) (bytes : List Byte) : (s.routeRequest rx bytes).agent.replay = s.agent.replay := by
  unfold State.routeRequest; repeat' split
  all_goals simp
@[simp] theorem State.routeRequest_agent_taken (rx : Reception) (bytes : List Byte) : (s.routeRequest rx bytes).agent.taken = s.agent.taken := by
  unfold State.routeRequest; repeat' split
  all_goals simp
@[simp] theorem State.routeRequest_agent_replayed (rx : Reception) (bytes : List Byte) : (s.routeRequest rx bytes).agent.replayed = s.agent.replayed := by
  unfold State.routeRequest; repeat' split
  all_goals simp
@[simp] theorem State.routeRequest_agent_malformed (rx : Reception) (bytes : List Byte) : (s.routeRequest rx bytes).agent.malformed = s.agent.malformed := by
  unfold State.routeRequest; repeat' split
  all_goals simp
@[simp] theorem State.routeRequest_agent_restartCount (rx : Reception) (bytes : List Byte) : (s.routeRequest rx bytes).agent.restartCount = s.agent.restartCount := by
  unfold State.routeRequest; repeat' split
  all_goals simp

@[simp] theorem State.leadArrived_up_ownTag (rx : Reception) (bytes : List Byte) : (s.leadArrived rx bytes).up.ownTag = s.up.ownTag := by
  unfold State.leadArrived; repeat' split
  all_goals simp
@[simp] theorem State.leadArrived_up_restartCondition (rx : Reception) (bytes : List Byte) : (s.leadArrived rx bytes).up.restartCondition = s.up.restartCondition := by
  unfold State.leadArrived; repeat' split
  all_goals simp
@[simp] theorem State.leadArrived_up_returnLane (rx : Reception) (bytes : List Byte) : (s.leadArrived rx bytes).up.returnLane = s.up.returnLane := by
  unfold State.leadArrived; repeat' split
  all_goals simp
@[simp] theorem State.leadArrived_up_responseRun (rx : Reception) (bytes : List Byte) : (s.leadArrived rx bytes).up.responseRun = s.up.responseRun := by
  unfold State.leadArrived; repeat' split
  all_goals simp
@[simp] theorem State.leadArrived_up_line (rx : Reception) (bytes : List Byte) : (s.leadArrived rx bytes).up.line = s.up.line := by
  unfold State.leadArrived; repeat' split
  all_goals simp
@[simp] theorem State.leadArrived_agent_state (rx : Reception) (bytes : List Byte) : (s.leadArrived rx bytes).agent.state = s.agent.state := by
  unfold State.leadArrived; repeat' split
  all_goals simp
@[simp] theorem State.leadArrived_agent_responses (rx : Reception) (bytes : List Byte) : (s.leadArrived rx bytes).agent.responses = s.agent.responses := by
  unfold State.leadArrived; repeat' split
  all_goals simp
@[simp] theorem State.leadArrived_agent_replay (rx : Reception) (bytes : List Byte) : (s.leadArrived rx bytes).agent.replay = s.agent.replay := by
  unfold State.leadArrived; repeat' split
  all_goals simp
@[simp] theorem State.leadArrived_agent_taken (rx : Reception) (bytes : List Byte) : (s.leadArrived rx bytes).agent.taken = s.agent.taken := by
  unfold State.leadArrived; repeat' split
  all_goals simp
@[simp] theorem State.leadArrived_agent_replayed (rx : Reception) (bytes : List Byte) : (s.leadArrived rx bytes).agent.replayed = s.agent.replayed := by
  unfold State.leadArrived; repeat' split
  all_goals simp
@[simp] theorem State.leadArrived_agent_malformed (rx : Reception) (bytes : List Byte) : (s.leadArrived rx bytes).agent.malformed = s.agent.malformed := by
  unfold State.leadArrived; repeat' split
  all_goals simp
@[simp] theorem State.leadArrived_agent_restartCount (rx : Reception) (bytes : List Byte) : (s.leadArrived rx bytes).agent.restartCount = s.agent.restartCount := by
  unfold State.leadArrived; repeat' split
  all_goals simp

@[simp] theorem State.holdSymbol_up_ownTag (x : Symbol) : (s.holdSymbol x).up.ownTag = s.up.ownTag := by
  unfold State.holdSymbol; split <;> simp
@[simp] theorem State.holdSymbol_up_restartCondition (x : Symbol) : (s.holdSymbol x).up.restartCondition = s.up.restartCondition := by
  unfold State.holdSymbol; split <;> simp
@[simp] theorem State.holdSymbol_up_returnLane (x : Symbol) : (s.holdSymbol x).up.returnLane = s.up.returnLane := by
  unfold State.holdSymbol; split <;> simp
@[simp] theorem State.holdSymbol_up_responseRun (x : Symbol) : (s.holdSymbol x).up.responseRun = s.up.responseRun := by
  unfold State.holdSymbol; split <;> simp
@[simp] theorem State.holdSymbol_up_line (x : Symbol) : (s.holdSymbol x).up.line = s.up.line := by
  unfold State.holdSymbol; split <;> simp

@[simp] theorem State.takeAbort_up_ownTag : s.takeAbort.up.ownTag = s.up.ownTag := by
  unfold State.takeAbort; split <;> simp
@[simp] theorem State.takeAbort_up_restartCondition : s.takeAbort.up.restartCondition = s.up.restartCondition := by
  unfold State.takeAbort; split <;> simp
@[simp] theorem State.takeAbort_up_returnLane : s.takeAbort.up.returnLane = s.up.returnLane := by
  unfold State.takeAbort; split <;> simp
@[simp] theorem State.takeAbort_up_responseRun : s.takeAbort.up.responseRun = s.up.responseRun := by
  unfold State.takeAbort; split <;> simp
@[simp] theorem State.takeAbort_up_line : s.takeAbort.up.line = s.up.line := by
  unfold State.takeAbort; split <;> simp
@[simp] theorem State.takeAbort_agent_state : s.takeAbort.agent.state = s.agent.state := by
  unfold State.takeAbort; split <;> simp
@[simp] theorem State.takeAbort_agent_responses : s.takeAbort.agent.responses = s.agent.responses := by
  unfold State.takeAbort; split <;> simp
@[simp] theorem State.takeAbort_agent_replay : s.takeAbort.agent.replay = s.agent.replay := by
  unfold State.takeAbort; split <;> simp
@[simp] theorem State.takeAbort_agent_taken : s.takeAbort.agent.taken = s.agent.taken := by
  unfold State.takeAbort; split <;> simp
@[simp] theorem State.takeAbort_agent_replayed : s.takeAbort.agent.replayed = s.agent.replayed := by
  unfold State.takeAbort; split <;> simp
@[simp] theorem State.takeAbort_agent_malformed : s.takeAbort.agent.malformed = s.agent.malformed := by
  unfold State.takeAbort; split <;> simp
@[simp] theorem State.takeAbort_agent_restartCount : s.takeAbort.agent.restartCount = s.agent.restartCount := by
  unfold State.takeAbort; split <;> simp

@[simp] theorem State.takeStart_up_ownTag : s.takeStart.up.ownTag = s.up.ownTag := by
  unfold State.takeStart; split <;> simp
@[simp] theorem State.takeStart_up_restartCondition : s.takeStart.up.restartCondition = s.up.restartCondition := by
  unfold State.takeStart; split <;> simp
@[simp] theorem State.takeStart_up_returnLane : s.takeStart.up.returnLane = s.up.returnLane := by
  unfold State.takeStart; split <;> simp
@[simp] theorem State.takeStart_up_responseRun : s.takeStart.up.responseRun = s.up.responseRun := by
  unfold State.takeStart; split <;> simp
@[simp] theorem State.takeStart_up_line : s.takeStart.up.line = s.up.line := by
  unfold State.takeStart; split <;> simp
@[simp] theorem State.takeStart_agent_state : s.takeStart.agent.state = s.agent.state := by
  unfold State.takeStart; split <;> simp
@[simp] theorem State.takeStart_agent_responses : s.takeStart.agent.responses = s.agent.responses := by
  unfold State.takeStart; split <;> simp
@[simp] theorem State.takeStart_agent_replay : s.takeStart.agent.replay = s.agent.replay := by
  unfold State.takeStart; split <;> simp
@[simp] theorem State.takeStart_agent_taken : s.takeStart.agent.taken = s.agent.taken := by
  unfold State.takeStart; split <;> simp
@[simp] theorem State.takeStart_agent_replayed : s.takeStart.agent.replayed = s.agent.replayed := by
  unfold State.takeStart; split <;> simp
@[simp] theorem State.takeStart_agent_malformed : s.takeStart.agent.malformed = s.agent.malformed := by
  unfold State.takeStart; split <;> simp
@[simp] theorem State.takeStart_agent_restartCount : s.takeStart.agent.restartCount = s.agent.restartCount := by
  unfold State.takeStart; split <;> simp

@[simp] theorem State.takeLeadByte_up_ownTag (rx : Reception) (bytes : List Byte) (b : Byte) : (s.takeLeadByte rx bytes b).up.ownTag = s.up.ownTag := by
  unfold State.takeLeadByte; split <;> simp
@[simp] theorem State.takeLeadByte_up_restartCondition (rx : Reception) (bytes : List Byte) (b : Byte) : (s.takeLeadByte rx bytes b).up.restartCondition = s.up.restartCondition := by
  unfold State.takeLeadByte; split <;> simp
@[simp] theorem State.takeLeadByte_up_returnLane (rx : Reception) (bytes : List Byte) (b : Byte) : (s.takeLeadByte rx bytes b).up.returnLane = s.up.returnLane := by
  unfold State.takeLeadByte; split <;> simp
@[simp] theorem State.takeLeadByte_up_responseRun (rx : Reception) (bytes : List Byte) (b : Byte) : (s.takeLeadByte rx bytes b).up.responseRun = s.up.responseRun := by
  unfold State.takeLeadByte; split <;> simp
@[simp] theorem State.takeLeadByte_up_line (rx : Reception) (bytes : List Byte) (b : Byte) : (s.takeLeadByte rx bytes b).up.line = s.up.line := by
  unfold State.takeLeadByte; split <;> simp
@[simp] theorem State.takeLeadByte_agent_state (rx : Reception) (bytes : List Byte) (b : Byte) : (s.takeLeadByte rx bytes b).agent.state = s.agent.state := by
  unfold State.takeLeadByte; split <;> simp
@[simp] theorem State.takeLeadByte_agent_responses (rx : Reception) (bytes : List Byte) (b : Byte) : (s.takeLeadByte rx bytes b).agent.responses = s.agent.responses := by
  unfold State.takeLeadByte; split <;> simp
@[simp] theorem State.takeLeadByte_agent_replay (rx : Reception) (bytes : List Byte) (b : Byte) : (s.takeLeadByte rx bytes b).agent.replay = s.agent.replay := by
  unfold State.takeLeadByte; split <;> simp
@[simp] theorem State.takeLeadByte_agent_taken (rx : Reception) (bytes : List Byte) (b : Byte) : (s.takeLeadByte rx bytes b).agent.taken = s.agent.taken := by
  unfold State.takeLeadByte; split <;> simp
@[simp] theorem State.takeLeadByte_agent_replayed (rx : Reception) (bytes : List Byte) (b : Byte) : (s.takeLeadByte rx bytes b).agent.replayed = s.agent.replayed := by
  unfold State.takeLeadByte; split <;> simp
@[simp] theorem State.takeLeadByte_agent_malformed (rx : Reception) (bytes : List Byte) (b : Byte) : (s.takeLeadByte rx bytes b).agent.malformed = s.agent.malformed := by
  unfold State.takeLeadByte; split <;> simp
@[simp] theorem State.takeLeadByte_agent_restartCount (rx : Reception) (bytes : List Byte) (b : Byte) : (s.takeLeadByte rx bytes b).agent.restartCount = s.agent.restartCount := by
  unfold State.takeLeadByte; split <;> simp

@[simp] theorem State.takeByte_up_ownTag (b : Byte) : (s.takeByte b).up.ownTag = s.up.ownTag := by
  unfold State.takeByte; simp only []; repeat' split
  all_goals simp
@[simp] theorem State.takeByte_up_restartCondition (b : Byte) : (s.takeByte b).up.restartCondition = s.up.restartCondition := by
  unfold State.takeByte; simp only []; repeat' split
  all_goals simp
@[simp] theorem State.takeByte_up_returnLane (b : Byte) : (s.takeByte b).up.returnLane = s.up.returnLane := by
  unfold State.takeByte; simp only []; repeat' split
  all_goals simp
@[simp] theorem State.takeByte_up_responseRun (b : Byte) : (s.takeByte b).up.responseRun = s.up.responseRun := by
  unfold State.takeByte; simp only []; repeat' split
  all_goals simp
@[simp] theorem State.takeByte_up_line (b : Byte) : (s.takeByte b).up.line = s.up.line := by
  unfold State.takeByte; simp only []; repeat' split
  all_goals simp
@[simp] theorem State.takeByte_agent_state (b : Byte) : (s.takeByte b).agent.state = s.agent.state := by
  unfold State.takeByte; simp only []; repeat' split
  all_goals simp
@[simp] theorem State.takeByte_agent_responses (b : Byte) : (s.takeByte b).agent.responses = s.agent.responses := by
  unfold State.takeByte; simp only []; repeat' split
  all_goals simp
@[simp] theorem State.takeByte_agent_replay (b : Byte) : (s.takeByte b).agent.replay = s.agent.replay := by
  unfold State.takeByte; simp only []; repeat' split
  all_goals simp
@[simp] theorem State.takeByte_agent_taken (b : Byte) : (s.takeByte b).agent.taken = s.agent.taken := by
  unfold State.takeByte; simp only []; repeat' split
  all_goals simp
@[simp] theorem State.takeByte_agent_replayed (b : Byte) : (s.takeByte b).agent.replayed = s.agent.replayed := by
  unfold State.takeByte; simp only []; repeat' split
  all_goals simp
@[simp] theorem State.takeByte_agent_malformed (b : Byte) : (s.takeByte b).agent.malformed = s.agent.malformed := by
  unfold State.takeByte; simp only []; repeat' split
  all_goals simp
@[simp] theorem State.takeByte_agent_restartCount (b : Byte) : (s.takeByte b).agent.restartCount = s.agent.restartCount := by
  unfold State.takeByte; simp only []; repeat' split
  all_goals simp

@[simp] theorem State.takeEnd_up_ownTag : s.takeEnd.up.ownTag = s.up.ownTag := by
  unfold State.takeEnd; split <;> simp
@[simp] theorem State.takeEnd_up_restartCondition : s.takeEnd.up.restartCondition = s.up.restartCondition := by
  unfold State.takeEnd; split <;> simp
@[simp] theorem State.takeEnd_up_returnLane : s.takeEnd.up.returnLane = s.up.returnLane := by
  unfold State.takeEnd; split <;> simp
@[simp] theorem State.takeEnd_up_responseRun : s.takeEnd.up.responseRun = s.up.responseRun := by
  unfold State.takeEnd; split <;> simp
@[simp] theorem State.takeEnd_up_line : s.takeEnd.up.line = s.up.line := by
  unfold State.takeEnd; split <;> simp
@[simp] theorem State.takeEnd_agent_state : s.takeEnd.agent.state = s.agent.state := by
  unfold State.takeEnd; split <;> simp
@[simp] theorem State.takeEnd_agent_responses : s.takeEnd.agent.responses = s.agent.responses := by
  unfold State.takeEnd; split <;> simp
@[simp] theorem State.takeEnd_agent_replay : s.takeEnd.agent.replay = s.agent.replay := by
  unfold State.takeEnd; split <;> simp
@[simp] theorem State.takeEnd_agent_taken : s.takeEnd.agent.taken = s.agent.taken := by
  unfold State.takeEnd; split <;> simp
@[simp] theorem State.takeEnd_agent_replayed : s.takeEnd.agent.replayed = s.agent.replayed := by
  unfold State.takeEnd; split <;> simp
@[simp] theorem State.takeEnd_agent_malformed : s.takeEnd.agent.malformed = s.agent.malformed := by
  unfold State.takeEnd; split <;> simp
@[simp] theorem State.takeEnd_agent_restartCount : s.takeEnd.agent.restartCount = s.agent.restartCount := by
  unfold State.takeEnd; split <;> simp

@[simp] theorem State.takeSymbol_up_ownTag (x : Symbol) : (s.takeSymbol x).up.ownTag = s.up.ownTag := by
  unfold State.takeSymbol; split <;> simp
@[simp] theorem State.takeSymbol_up_restartCondition (x : Symbol) : (s.takeSymbol x).up.restartCondition = s.up.restartCondition := by
  unfold State.takeSymbol; split <;> simp
@[simp] theorem State.takeSymbol_up_returnLane (x : Symbol) : (s.takeSymbol x).up.returnLane = s.up.returnLane := by
  unfold State.takeSymbol; split <;> simp
@[simp] theorem State.takeSymbol_up_responseRun (x : Symbol) : (s.takeSymbol x).up.responseRun = s.up.responseRun := by
  unfold State.takeSymbol; split <;> simp
@[simp] theorem State.takeSymbol_up_line (x : Symbol) : (s.takeSymbol x).up.line = s.up.line := by
  unfold State.takeSymbol; split <;> simp
@[simp] theorem State.takeSymbol_agent_state (x : Symbol) : (s.takeSymbol x).agent.state = s.agent.state := by
  unfold State.takeSymbol; split <;> simp
@[simp] theorem State.takeSymbol_agent_responses (x : Symbol) : (s.takeSymbol x).agent.responses = s.agent.responses := by
  unfold State.takeSymbol; split <;> simp
@[simp] theorem State.takeSymbol_agent_replay (x : Symbol) : (s.takeSymbol x).agent.replay = s.agent.replay := by
  unfold State.takeSymbol; split <;> simp
@[simp] theorem State.takeSymbol_agent_taken (x : Symbol) : (s.takeSymbol x).agent.taken = s.agent.taken := by
  unfold State.takeSymbol; split <;> simp
@[simp] theorem State.takeSymbol_agent_replayed (x : Symbol) : (s.takeSymbol x).agent.replayed = s.agent.replayed := by
  unfold State.takeSymbol; split <;> simp
@[simp] theorem State.takeSymbol_agent_malformed (x : Symbol) : (s.takeSymbol x).agent.malformed = s.agent.malformed := by
  unfold State.takeSymbol; split <;> simp
@[simp] theorem State.takeSymbol_agent_restartCount (x : Symbol) : (s.takeSymbol x).agent.restartCount = s.agent.restartCount := by
  unfold State.takeSymbol; split <;> simp

@[simp] theorem State.takeHeld_up_ownTag (xs : List Symbol) : (s.takeHeld xs).up.ownTag = s.up.ownTag := by
  induction xs generalizing s with
  | nil => rfl
  | cons x xs ih => simp [State.takeHeld, ih]
@[simp] theorem State.takeHeld_up_restartCondition (xs : List Symbol) : (s.takeHeld xs).up.restartCondition = s.up.restartCondition := by
  induction xs generalizing s with
  | nil => rfl
  | cons x xs ih => simp [State.takeHeld, ih]
@[simp] theorem State.takeHeld_up_returnLane (xs : List Symbol) : (s.takeHeld xs).up.returnLane = s.up.returnLane := by
  induction xs generalizing s with
  | nil => rfl
  | cons x xs ih => simp [State.takeHeld, ih]
@[simp] theorem State.takeHeld_up_responseRun (xs : List Symbol) : (s.takeHeld xs).up.responseRun = s.up.responseRun := by
  induction xs generalizing s with
  | nil => rfl
  | cons x xs ih => simp [State.takeHeld, ih]
@[simp] theorem State.takeHeld_up_line (xs : List Symbol) : (s.takeHeld xs).up.line = s.up.line := by
  induction xs generalizing s with
  | nil => rfl
  | cons x xs ih => simp [State.takeHeld, ih]
@[simp] theorem State.takeHeld_agent_state (xs : List Symbol) : (s.takeHeld xs).agent.state = s.agent.state := by
  induction xs generalizing s with
  | nil => rfl
  | cons x xs ih => simp [State.takeHeld, ih]
@[simp] theorem State.takeHeld_agent_responses (xs : List Symbol) : (s.takeHeld xs).agent.responses = s.agent.responses := by
  induction xs generalizing s with
  | nil => rfl
  | cons x xs ih => simp [State.takeHeld, ih]
@[simp] theorem State.takeHeld_agent_replay (xs : List Symbol) : (s.takeHeld xs).agent.replay = s.agent.replay := by
  induction xs generalizing s with
  | nil => rfl
  | cons x xs ih => simp [State.takeHeld, ih]
@[simp] theorem State.takeHeld_agent_taken (xs : List Symbol) : (s.takeHeld xs).agent.taken = s.agent.taken := by
  induction xs generalizing s with
  | nil => rfl
  | cons x xs ih => simp [State.takeHeld, ih]
@[simp] theorem State.takeHeld_agent_replayed (xs : List Symbol) : (s.takeHeld xs).agent.replayed = s.agent.replayed := by
  induction xs generalizing s with
  | nil => rfl
  | cons x xs ih => simp [State.takeHeld, ih]
@[simp] theorem State.takeHeld_agent_malformed (xs : List Symbol) : (s.takeHeld xs).agent.malformed = s.agent.malformed := by
  induction xs generalizing s with
  | nil => rfl
  | cons x xs ih => simp [State.takeHeld, ih]
@[simp] theorem State.takeHeld_agent_restartCount (xs : List Symbol) : (s.takeHeld xs).agent.restartCount = s.agent.restartCount := by
  induction xs generalizing s with
  | nil => rfl
  | cons x xs ih => simp [State.takeHeld, ih]

@[simp] theorem State.leaveDeciding_up_ownTag (lane : Lane) (held : List Symbol) : (s.leaveDeciding lane held).up.ownTag = s.up.ownTag := by
  simp [State.leaveDeciding]
@[simp] theorem State.leaveDeciding_up_restartCondition (lane : Lane) (held : List Symbol) : (s.leaveDeciding lane held).up.restartCondition = s.up.restartCondition := by
  simp [State.leaveDeciding]
@[simp] theorem State.leaveDeciding_up_returnLane (lane : Lane) (held : List Symbol) : (s.leaveDeciding lane held).up.returnLane = s.up.returnLane := by
  simp [State.leaveDeciding]
@[simp] theorem State.leaveDeciding_up_responseRun (lane : Lane) (held : List Symbol) : (s.leaveDeciding lane held).up.responseRun = s.up.responseRun := by
  simp [State.leaveDeciding]
@[simp] theorem State.leaveDeciding_up_line (lane : Lane) (held : List Symbol) : (s.leaveDeciding lane held).up.line = s.up.line := by
  simp [State.leaveDeciding]
@[simp] theorem State.leaveDeciding_agent_state (lane : Lane) (held : List Symbol) : (s.leaveDeciding lane held).agent.state = s.agent.state := by
  simp [State.leaveDeciding]
@[simp] theorem State.leaveDeciding_agent_responses (lane : Lane) (held : List Symbol) : (s.leaveDeciding lane held).agent.responses = s.agent.responses := by
  simp [State.leaveDeciding]
@[simp] theorem State.leaveDeciding_agent_replay (lane : Lane) (held : List Symbol) : (s.leaveDeciding lane held).agent.replay = s.agent.replay := by
  simp [State.leaveDeciding]
@[simp] theorem State.leaveDeciding_agent_taken (lane : Lane) (held : List Symbol) : (s.leaveDeciding lane held).agent.taken = s.agent.taken := by
  simp [State.leaveDeciding]
@[simp] theorem State.leaveDeciding_agent_replayed (lane : Lane) (held : List Symbol) : (s.leaveDeciding lane held).agent.replayed = s.agent.replayed := by
  simp [State.leaveDeciding]
@[simp] theorem State.leaveDeciding_agent_malformed (lane : Lane) (held : List Symbol) : (s.leaveDeciding lane held).agent.malformed = s.agent.malformed := by
  simp [State.leaveDeciding]
@[simp] theorem State.leaveDeciding_agent_restartCount (lane : Lane) (held : List Symbol) : (s.leaveDeciding lane held).agent.restartCount = s.agent.restartCount := by
  simp [State.leaveDeciding]

@[simp] theorem State.classify_up_ownTag (rx : Reception) (bytes : List Byte) (held : List Symbol) : (s.classify rx bytes held).up.ownTag = s.up.ownTag := by
  unfold State.classify; simp only []; split <;> simp
@[simp] theorem State.classify_up_restartCondition (rx : Reception) (bytes : List Byte) (held : List Symbol) : (s.classify rx bytes held).up.restartCondition = s.up.restartCondition := by
  unfold State.classify; simp only []; split <;> simp
@[simp] theorem State.classify_up_returnLane (rx : Reception) (bytes : List Byte) (held : List Symbol) : (s.classify rx bytes held).up.returnLane = s.up.returnLane := by
  unfold State.classify; simp only []; split <;> simp
@[simp] theorem State.classify_up_responseRun (rx : Reception) (bytes : List Byte) (held : List Symbol) : (s.classify rx bytes held).up.responseRun = s.up.responseRun := by
  unfold State.classify; simp only []; split <;> simp
@[simp] theorem State.classify_up_line (rx : Reception) (bytes : List Byte) (held : List Symbol) : (s.classify rx bytes held).up.line = s.up.line := by
  unfold State.classify; simp only []; split <;> simp
@[simp] theorem State.classify_agent_state (rx : Reception) (bytes : List Byte) (held : List Symbol) : (s.classify rx bytes held).agent.state = s.agent.state := by
  unfold State.classify; simp only []; split <;> simp
@[simp] theorem State.classify_agent_responses (rx : Reception) (bytes : List Byte) (held : List Symbol) : (s.classify rx bytes held).agent.responses = s.agent.responses := by
  unfold State.classify; simp only []; split <;> simp
@[simp] theorem State.classify_agent_replay (rx : Reception) (bytes : List Byte) (held : List Symbol) : (s.classify rx bytes held).agent.replay = s.agent.replay := by
  unfold State.classify; simp only []; split <;> simp
@[simp] theorem State.classify_agent_taken (rx : Reception) (bytes : List Byte) (held : List Symbol) : (s.classify rx bytes held).agent.taken = s.agent.taken := by
  unfold State.classify; simp only []; split <;> simp
@[simp] theorem State.classify_agent_replayed (rx : Reception) (bytes : List Byte) (held : List Symbol) : (s.classify rx bytes held).agent.replayed = s.agent.replayed := by
  unfold State.classify; simp only []; split <;> simp
@[simp] theorem State.classify_agent_malformed (rx : Reception) (bytes : List Byte) (held : List Symbol) : (s.classify rx bytes held).agent.malformed = s.agent.malformed := by
  unfold State.classify; simp only []; split <;> simp
@[simp] theorem State.classify_agent_restartCount (rx : Reception) (bytes : List Byte) (held : List Symbol) : (s.classify rx bytes held).agent.restartCount = s.agent.restartCount := by
  unfold State.classify; simp only []; split <;> simp

@[simp] theorem State.decideAdmission_up_ownTag (rx : Reception) (bytes : List Byte) (f : FlowId) (rest : List FlowId) (granted : List Grant) (label : Tag)
    (held : List Symbol) : (s.decideAdmission rx bytes f rest granted label held).up.ownTag = s.up.ownTag := by
  unfold State.decideAdmission; simp only []; repeat' split
  all_goals simp
@[simp] theorem State.decideAdmission_up_restartCondition (rx : Reception) (bytes : List Byte) (f : FlowId) (rest : List FlowId) (granted : List Grant) (label : Tag)
    (held : List Symbol) : (s.decideAdmission rx bytes f rest granted label held).up.restartCondition = s.up.restartCondition := by
  unfold State.decideAdmission; simp only []; repeat' split
  all_goals simp
@[simp] theorem State.decideAdmission_up_returnLane (rx : Reception) (bytes : List Byte) (f : FlowId) (rest : List FlowId) (granted : List Grant) (label : Tag)
    (held : List Symbol) : (s.decideAdmission rx bytes f rest granted label held).up.returnLane = s.up.returnLane := by
  unfold State.decideAdmission; simp only []; repeat' split
  all_goals simp
@[simp] theorem State.decideAdmission_up_responseRun (rx : Reception) (bytes : List Byte) (f : FlowId) (rest : List FlowId) (granted : List Grant) (label : Tag)
    (held : List Symbol) : (s.decideAdmission rx bytes f rest granted label held).up.responseRun = s.up.responseRun := by
  unfold State.decideAdmission; simp only []; repeat' split
  all_goals simp
@[simp] theorem State.decideAdmission_up_line (rx : Reception) (bytes : List Byte) (f : FlowId) (rest : List FlowId) (granted : List Grant) (label : Tag)
    (held : List Symbol) : (s.decideAdmission rx bytes f rest granted label held).up.line = s.up.line := by
  unfold State.decideAdmission; simp only []; repeat' split
  all_goals simp
@[simp] theorem State.decideAdmission_agent_state (rx : Reception) (bytes : List Byte) (f : FlowId) (rest : List FlowId) (granted : List Grant) (label : Tag)
    (held : List Symbol) : (s.decideAdmission rx bytes f rest granted label held).agent.state = s.agent.state := by
  unfold State.decideAdmission; simp only []; repeat' split
  all_goals simp
@[simp] theorem State.decideAdmission_agent_responses (rx : Reception) (bytes : List Byte) (f : FlowId) (rest : List FlowId) (granted : List Grant) (label : Tag)
    (held : List Symbol) : (s.decideAdmission rx bytes f rest granted label held).agent.responses = s.agent.responses := by
  unfold State.decideAdmission; simp only []; repeat' split
  all_goals simp
@[simp] theorem State.decideAdmission_agent_replay (rx : Reception) (bytes : List Byte) (f : FlowId) (rest : List FlowId) (granted : List Grant) (label : Tag)
    (held : List Symbol) : (s.decideAdmission rx bytes f rest granted label held).agent.replay = s.agent.replay := by
  unfold State.decideAdmission; simp only []; repeat' split
  all_goals simp
@[simp] theorem State.decideAdmission_agent_taken (rx : Reception) (bytes : List Byte) (f : FlowId) (rest : List FlowId) (granted : List Grant) (label : Tag)
    (held : List Symbol) : (s.decideAdmission rx bytes f rest granted label held).agent.taken = s.agent.taken := by
  unfold State.decideAdmission; simp only []; repeat' split
  all_goals simp
@[simp] theorem State.decideAdmission_agent_replayed (rx : Reception) (bytes : List Byte) (f : FlowId) (rest : List FlowId) (granted : List Grant) (label : Tag)
    (held : List Symbol) : (s.decideAdmission rx bytes f rest granted label held).agent.replayed = s.agent.replayed := by
  unfold State.decideAdmission; simp only []; repeat' split
  all_goals simp
@[simp] theorem State.decideAdmission_agent_malformed (rx : Reception) (bytes : List Byte) (f : FlowId) (rest : List FlowId) (granted : List Grant) (label : Tag)
    (held : List Symbol) : (s.decideAdmission rx bytes f rest granted label held).agent.malformed = s.agent.malformed := by
  unfold State.decideAdmission; simp only []; repeat' split
  all_goals simp
@[simp] theorem State.decideAdmission_agent_restartCount (rx : Reception) (bytes : List Byte) (f : FlowId) (rest : List FlowId) (granted : List Grant) (label : Tag)
    (held : List Symbol) : (s.decideAdmission rx bytes f rest granted label held).agent.restartCount = s.agent.restartCount := by
  unfold State.decideAdmission; simp only []; repeat' split
  all_goals simp

@[simp] theorem State.decideReservation_up_ownTag (rx : Reception) (bytes : List Byte) (granted : List Grant) (label : Tag) (held : List Symbol) : (s.decideReservation rx bytes granted label held).up.ownTag = s.up.ownTag := by
  unfold State.decideReservation; split <;> simp
@[simp] theorem State.decideReservation_up_restartCondition (rx : Reception) (bytes : List Byte) (granted : List Grant) (label : Tag) (held : List Symbol) : (s.decideReservation rx bytes granted label held).up.restartCondition = s.up.restartCondition := by
  unfold State.decideReservation; split <;> simp
@[simp] theorem State.decideReservation_up_returnLane (rx : Reception) (bytes : List Byte) (granted : List Grant) (label : Tag) (held : List Symbol) : (s.decideReservation rx bytes granted label held).up.returnLane = s.up.returnLane := by
  unfold State.decideReservation; split <;> simp
@[simp] theorem State.decideReservation_up_responseRun (rx : Reception) (bytes : List Byte) (granted : List Grant) (label : Tag) (held : List Symbol) : (s.decideReservation rx bytes granted label held).up.responseRun = s.up.responseRun := by
  unfold State.decideReservation; split <;> simp
@[simp] theorem State.decideReservation_up_line (rx : Reception) (bytes : List Byte) (granted : List Grant) (label : Tag) (held : List Symbol) : (s.decideReservation rx bytes granted label held).up.line = s.up.line := by
  unfold State.decideReservation; split <;> simp
@[simp] theorem State.decideReservation_agent_state (rx : Reception) (bytes : List Byte) (granted : List Grant) (label : Tag) (held : List Symbol) : (s.decideReservation rx bytes granted label held).agent.state = s.agent.state := by
  unfold State.decideReservation; split <;> simp
@[simp] theorem State.decideReservation_agent_responses (rx : Reception) (bytes : List Byte) (granted : List Grant) (label : Tag) (held : List Symbol) : (s.decideReservation rx bytes granted label held).agent.responses = s.agent.responses := by
  unfold State.decideReservation; split <;> simp
@[simp] theorem State.decideReservation_agent_replay (rx : Reception) (bytes : List Byte) (granted : List Grant) (label : Tag) (held : List Symbol) : (s.decideReservation rx bytes granted label held).agent.replay = s.agent.replay := by
  unfold State.decideReservation; split <;> simp
@[simp] theorem State.decideReservation_agent_taken (rx : Reception) (bytes : List Byte) (granted : List Grant) (label : Tag) (held : List Symbol) : (s.decideReservation rx bytes granted label held).agent.taken = s.agent.taken := by
  unfold State.decideReservation; split <;> simp
@[simp] theorem State.decideReservation_agent_replayed (rx : Reception) (bytes : List Byte) (granted : List Grant) (label : Tag) (held : List Symbol) : (s.decideReservation rx bytes granted label held).agent.replayed = s.agent.replayed := by
  unfold State.decideReservation; split <;> simp
@[simp] theorem State.decideReservation_agent_malformed (rx : Reception) (bytes : List Byte) (granted : List Grant) (label : Tag) (held : List Symbol) : (s.decideReservation rx bytes granted label held).agent.malformed = s.agent.malformed := by
  unfold State.decideReservation; split <;> simp
@[simp] theorem State.decideReservation_agent_restartCount (rx : Reception) (bytes : List Byte) (granted : List Grant) (label : Tag) (held : List Symbol) : (s.decideReservation rx bytes granted label held).agent.restartCount = s.agent.restartCount := by
  unfold State.decideReservation; split <;> simp

end Sys2Proof.Machine
end

