-- ==== Sys2Proof/Laws/Reception.lean ====
section
/-! SUPPORT. The frame in reception: what it counts and checks (R130, R132), how it is closed (R131, R133), and where it writes memory (R26, R32). -/
namespace Sys2Proof.Machine

/-- A frame closed in error (R131, R132). -/
theorem State.closeBad_of_freeReception (s : State) (e : IngressError) (t : State) (ht : s.freeReception = t) (hup : t.up = s.up) (h : s.up.restartCondition = false) : s.closeBad e = t.closedWith e := by
  subst ht
  unfold State.closeBad State.countReceived
  rw [if_neg (by simp [h])]
  unfold State.ingressError
  rw [if_neg (by simp [h])]
  cases e <;> rfl

/-- A frame closed without error (R133). -/
theorem State.closedQuietly_eq (s : State) (h : s.up.restartCondition = false) : (s.setLane .idle).countReceived = s.closedQuietly := by
  unfold State.countReceived; rw [if_neg (by simp [h])]; rfl

/-- What a reception holds after its bytes (R126, R130). -/
theorem Reception.take_foldl (bytes : List Byte) :
   let rx := bytes.foldl Reception.take { actual := 0, crc := 0xFFFFFFFF#32, tail := [] }
   rx.actual = min bytes.length 2049 ∧ rx.tail = bytes.drop (bytes.length - 4) ∧ rx.crc = crcBytes 0xFFFFFFFF#32 (bytes.take (bytes.length - 4)) := by
  induction bytes using List.reverseRecOn with
  | nil => exact ⟨rfl, rfl, rfl⟩
  | append_singleton l b ih =>
    simp only [List.foldl_append, List.foldl_cons, List.foldl_nil] at ih ⊢
    generalize List.foldl Reception.take { actual := 0, crc := 0xFFFFFFFF#32, tail := [] } l = rx at *
    obtain ⟨i1, i2, i3⟩ := ih
    by_cases hl : 4 ≤ l.length
    · obtain ⟨pre, t0, t1, t2, t3, rfl⟩ : ∃ pre t0 t1 t2 t3, l = pre ++ [t0, t1, t2, t3] := by
        refine ⟨l.take (l.length - 4), ?_⟩
        have h4 : (l.drop (l.length - 4)).length = 4 := by simp; omega
        match hd : l.drop (l.length - 4), h4 with
        | [a, b, c, d], _ => exact ⟨a, b, c, d, by rw [← hd]; simp⟩
      have e1 : rx.tail = [t0, t1, t2, t3] := by rw [i2]; simp
      have e2 : rx.crc = crcBytes 0xFFFFFFFF#32 pre := by rw [i3]; simp
      refine ⟨?_, ?_, ?_⟩
      · simp [Reception.take, e1, i1, Config.actualCap]; omega
      · simp [Reception.take, e1]
      · simp [Reception.take, e1, e2]
        rw [show pre ++ [t0, t1, t2, t3, b] = (pre ++ [t0]) ++ [t1, t2, t3, b] by simp, show pre.length + 1 = (pre ++ [t0]).length by simp]
        rw [List.take_left, crcBytes, crcBytes, List.foldl_append]; rfl
    · have e1 : rx.tail = l := by rw [i2, show l.length - 4 = 0 by omega]; rfl
      have e2 : rx.crc = 0xFFFFFFFF#32 := by rw [i3, show l.length - 4 = 0 by omega]; rfl
      have e3 : rx.take b = { actual := min (rx.actual + 1) Config.actualCap, crc := rx.crc, tail := rx.tail ++ [b] } := by
        unfold Reception.take
        split
        · next h => rw [e1] at h; rw [h] at hl; simp at hl
        · rfl
      rw [e3]
      refine ⟨?_, ?_, ?_⟩
      · simp [i1, Config.actualCap]; omega
      · simp [e1]; rw [show l.length - 3 = 0 by omega]; rfl
      · simp [e2]; rw [show l.length - 3 = 0 by omega]; rfl

/-! ## Memory outside the frame in reception -/

/-- Memory is canonical and reads the given byte at an address. -/
def FrameStore.Reads (a : Nat) (v : Byte) (st : FrameStore) : Prop := Memory.wf st.mem = true ∧ Memory.read st.mem a = v

theorem FrameStore.Reads.congr {a v} {st st' : FrameStore} (h : FrameStore.Reads a v st) (hm : st'.mem = st.mem) : FrameStore.Reads a v st' := by unfold FrameStore.Reads at *; rw [hm]; exact h

/-- No operation but those of a reception changes a byte. -/
theorem FrameStore.reads_quiet (a : Nat) (v : Byte) : StoreQuiet (FrameStore.Reads a v) where
  release st r h := FrameStore.Reads.congr h (by rw [(FrameStore.sameMarks_afterPause _).mem, (st.sameMarks_releaseRecord r).mem])
  recordState st r rs h := FrameStore.Reads.congr h (st.sameSpace_setRecordState r rs).mem
  freeRecord st r h := FrameStore.Reads.congr h (st.sameSpace_freeRecord r).mem
  settle st b n h := FrameStore.Reads.congr h (by rw [(FrameStore.sameMarks_afterPause _).mem, (st.sameMarks_settleBody b n).mem])
  freeReservation st b rs h := FrameStore.Reads.congr h (by rw [(FrameStore.sameMarks_afterPause _).mem, (st.sameMarks_freeReservation b rs).mem])
  lowWater st n h := h
  marks st n m h _ _ := FrameStore.Reads.congr h (by rw [(FrameStore.sameMarks_afterPause _).mem])

/-- The lane is not in STORE. -/
def Lane.Quiet (l : Lane) : Prop := ∀ rx c b rs l', l ≠ .store rx c b rs l'

theorem State.countReceived_lane (s : State) : s.countReceived.up.lane = s.up.lane := by
  unfold State.countReceived; split <;> rfl

theorem State.ingressError_lane (s : State) (e) : (s.ingressError e).up.lane = s.up.lane := by
  unfold State.ingressError; split
  · rfl
  · cases e <;> rfl

theorem State.closeBad_lane (s : State) (e) : (s.closeBad e).up.lane = .idle := by
  unfold State.closeBad; rw [State.ingressError_lane, State.countReceived_lane]; rfl

theorem State.closeIgnored_lane (s : State) : s.closeIgnored.up.lane = .idle := by
  unfold State.closeIgnored; rw [State.countReceived_lane]; rfl

theorem State.closeGood_lane (s : State) : Lane.Quiet s.closeGood.up.lane := by
  unfold State.closeGood
  simp only []
  split
  all_goals first
    | (next h => rw [h]; nofun)
    | (next h => rw [State.commit_up, State.countReceived_lane]; nofun)
    | (next h => rw [State.setAgent_up, State.countReceived_lane]; nofun)
    | (next h => rw [State.countReceived_lane]; nofun)

theorem State.closeTested_lane (s : State) (rx c) : Lane.Quiet (s.closeTested rx c).up.lane := by
  unfold State.closeTested
  repeat' split
  · rw [State.closeBad_lane]; nofun
  · exact State.closeGood_lane s
  · rw [State.closeBad_lane]; nofun

theorem State.takeAbort_lane (s : State) : Lane.Quiet s.takeAbort.up.lane := by
  unfold State.takeAbort State.holdSymbol
  split
  · next h => rw [h]; nofun
  · rw [State.closeBad_lane]; nofun
  · next h => simp only; nofun
  all_goals first | (rw [State.closeBad_lane]; nofun) | (rw [State.closeIgnored_lane]; nofun)

theorem State.takeStart_lane (s : State) : Lane.Quiet s.takeStart.up.lane := by
  unfold State.takeStart State.holdSymbol
  split
  case h_3 h => simp only; nofun
  all_goals nofun

theorem State.takeEnd_lane (s : State) : Lane.Quiet s.takeEnd.up.lane := by
  unfold State.takeEnd State.holdSymbol
  split
  · next h => rw [h]; nofun
  · rw [State.closeBad_lane]; nofun
  · next h => simp only; nofun
  · exact State.closeTested_lane _ _ _
  · exact State.closeTested_lane _ _ _
  · exact State.closeTested_lane _ _ _
  · rw [State.closeIgnored_lane]; nofun

theorem State.leadArrived_quiet (s : State) (rx bs) (a v) (h : FrameStore.Reads a v s.store) : FrameStore.Reads a v (s.leadArrived rx bs).store ∧ Lane.Quiet (s.leadArrived rx bs).up.lane := by
  refine ⟨by simpa using h, ?_⟩
  unfold State.leadArrived State.routeRequest State.loseRequest
  repeat' split
  all_goals nofun

theorem State.takeByte_quiet (s : State) (b a v) (h : FrameStore.Reads a v s.store) (hq : Lane.Quiet s.up.lane) : FrameStore.Reads a v (s.takeByte b).store ∧ Lane.Quiet (s.takeByte b).up.lane := by
  unfold State.takeByte State.takeLeadByte State.holdSymbol
  split
  · exact ⟨h, hq⟩
  · split
    · exact ⟨h, nofun⟩
    · exact State.leadArrived_quiet _ _ _ _ _ h
  · next hl => simp only; exact ⟨h, nofun⟩
  · simp only []; split <;> exact ⟨h, nofun⟩
  · next hl => exact absurd hl (hq _ _ _ _ _)
  · exact ⟨h, nofun⟩
  · exact ⟨h, hq⟩

theorem State.takeSymbol_quiet (s : State) (x : Symbol) (a v) (h : FrameStore.Reads a v s.store) (hq : Lane.Quiet s.up.lane) : FrameStore.Reads a v (s.takeSymbol x).store ∧ Lane.Quiet (s.takeSymbol x).up.lane := by
  cases x
  · exact ⟨(FrameStore.reads_quiet a v).takeStart s h, State.takeStart_lane s⟩
  · exact State.takeByte_quiet _ _ _ _ h hq
  · exact ⟨(FrameStore.reads_quiet a v).takeEnd s h, State.takeEnd_lane s⟩
  · exact ⟨(FrameStore.reads_quiet a v).takeAbort s h, State.takeAbort_lane s⟩

theorem State.takeHeld_quiet (s : State) (xs : List Symbol) (a v) (h : FrameStore.Reads a v s.store) (hq : Lane.Quiet s.up.lane) : FrameStore.Reads a v (s.takeHeld xs).store := by
  induction xs generalizing s with
  | nil => exact h
  | cons x xs ih => exact ih _ (State.takeSymbol_quiet s x a v h hq).1 (State.takeSymbol_quiet s x a v h hq).2

/-! ## Memory inside the frame in reception -/

/-- The body is FILLING within the given blocks. -/
def FrameStore.FillsWithin (T : List BlockId) (st : FrameStore) (b : BodyId) : Prop :=
  ∃ body linked pending, ∃ L : List BlockId, st.bodies[b] = some body ∧ body.state = .filling linked pending ∧ (∀ x ∈ pending, x ∈ T) ∧ (∀ x ∈ L, x ∈ T) ∧
    body.firstBlock ∈ L ∧ ∀ x ∈ L, ∀ c, st.links[x] = .next c → c ∈ L

theorem mem_chainFrom (links : Vector BlockLink 2048) (L : List BlockId) (hL : ∀ x ∈ L, ∀ c, links[x] = .next c → c ∈ L) (n : Nat) (b : BlockId) (hb : b ∈ L) : ∀ x ∈ chainFrom links n b, x ∈ L := by
  induction n generalizing b with
  | zero => nofun
  | succ n ih =>
    intro x hx
    unfold chainFrom at hx
    rcases List.mem_cons.1 hx with rfl | hx
    · exact hb
    · split at hx
      · cases hx
      · cases hx
      · next c hc => exact ih c (hL b hb c hc) x hx

theorem FrameStore.fillsWithin_storeByte {T st b} (h : FrameStore.FillsWithin T st b) (n : Nat) (v : Byte) : FrameStore.FillsWithin T (st.storeByte b n v) b ∧ ∀ blk, st.byteBlock b n = some blk → blk ∈ T := by
  obtain ⟨body, linked, pending, L, hb, hs, hp, hLT, hf, hL⟩ := h
  have hc : ∀ x ∈ st.chain body, x ∈ L := by
    unfold FrameStore.chain; rw [hs]; exact mem_chainFrom _ _ hL _ _ hf
  have hB : ∀ blk, st.byteBlock b n = some blk → blk ∈ T := by
    intro blk hblk
    unfold FrameStore.byteBlock at hblk
    simp only [hb, hs] at hblk
    split at hblk
    · next h => cases hblk; exact hLT _ (hc _ (List.mem_of_getElem? h))
    · exact hp _ (List.mem_of_mem_head? hblk)
  refine ⟨?_, hB⟩
  unfold FrameStore.storeByte
  split
  · exact ⟨body, linked, pending, L, hb, hs, hp, hLT, hf, hL⟩
  · suffices FrameStore.FillsWithin T (st.extendTo b n) b from this
    unfold FrameStore.extendTo
    simp only [hb, hs]
    split
    · exact ⟨body, linked, _, L, hb, hs, hp, hLT, hf, hL⟩
    · exact ⟨body, linked, _, L, hb, hs, hp, hLT, hf, hL⟩
    · next p rest _ =>
      refine ⟨{ body with state := .filling (linked + 1) rest }, linked + 1, rest, p :: L, by rw [getElem_set_fin, if_pos rfl], rfl, fun x hx => hp x (List.mem_cons_of_mem _ hx), ?_, List.mem_cons_of_mem _ hf, ?_⟩
      · intro x hx
        rcases List.mem_cons.1 hx with rfl | hx
        · exact hp _ List.mem_cons_self
        · exact hLT _ hx
      · intro x hx c hxc
        simp only [] at hxc
        unfold linkTail at hxc
        split at hxc
        · rw [getElem_set_fin] at hxc
          split at hxc
          · cases hxc
          · next hne =>
            exact List.mem_cons_of_mem _ (hL x ((List.mem_cons.1 hx).resolve_left (Ne.symm hne)) c hxc)
        · rw [getElem_set_fin] at hxc
          split at hxc
          · cases hxc
          · next hne =>
            rw [getElem_set_fin] at hxc
            split at hxc
            · cases hxc; exact List.mem_cons_self
            · exact List.mem_cons_of_mem _ (hL x ((List.mem_cons.1 hx).resolve_left (Ne.symm hne)) c hxc)

theorem FrameStore.reads_storeByte {a v} {st : FrameStore} (h : FrameStore.Reads a v st) (b : BodyId) (n : Nat) (w : Byte) (hb : ∀ blk, st.byteBlock b n = some blk → a ≠ blockAddress blk n) : FrameStore.Reads a v (st.storeByte b n w) := by
  refine ⟨st.wf_storeByte b n w h.1, ?_⟩
  unfold FrameStore.storeByte
  split
  · exact h.2
  · next blk hblk =>
    show Memory.read (Memory.write (st.extendTo b n).mem _ _) a = v
    rw [FrameStore.extendTo_mem, Memory.read_write _ _ _ _ h.1, if_neg (hb _ hblk)]; exact h.2

def OutsideBlocks (T : List BlockId) (a : Nat) : Prop := ∀ x ∈ T, a / 128 ≠ x.val

theorem OutsideBlocks.ne {T a} (h : OutsideBlocks T a) {x : BlockId} (hx : x ∈ T) (n : Nat) : a ≠ blockAddress x n := by
  intro he; apply h x hx; rw [he]; unfold blockAddress Config.blockBytes; omega

theorem FrameStore.fillsWithin_storeBytes {T a v} (ho : OutsideBlocks T a) (b : BodyId) (ws : List Byte) : ∀ (st : FrameStore) (n : Nat), FrameStore.Reads a v st → FrameStore.FillsWithin T st b → FrameStore.Reads a v (st.storeBytes b n ws) ∧ FrameStore.FillsWithin T (st.storeBytes b n ws) b := by
  induction ws with
  | nil => exact fun st n h g => ⟨h, g⟩
  | cons w ws ih =>
    intro st n h g
    obtain ⟨g1, g2⟩ := FrameStore.fillsWithin_storeByte g n w
    exact ih _ _ (FrameStore.reads_storeByte h b n w fun blk hb => OutsideBlocks.ne ho (g2 _ hb) n) g1

theorem FrameStore.FillsWithin.congr {T} {st st' : FrameStore} {b} (h : FrameStore.FillsWithin T st b) (h1 : st'.bodies = st.bodies) (h2 : st'.links = st.links) : FrameStore.FillsWithin T st' b := by
  unfold FrameStore.FillsWithin at *; rw [h1, h2]; exact h

theorem State.takeHeld_reads {T a v} (ho : OutsideBlocks T a) (xs : List Symbol) (s : State) (rx c b rs l) (hl : s.up.lane = .store rx c b rs l) (hr : FrameStore.Reads a v s.store) (hg : FrameStore.FillsWithin T s.store b) : FrameStore.Reads a v (s.takeHeld xs).store := by
  induction xs generalizing s rx with
  | nil => exact hr
  | cons x xs ih =>
    cases x
    · exact State.takeHeld_quiet s.takeStart xs _ _ ((FrameStore.reads_quiet a v).takeStart s hr) (State.takeStart_lane s)
    · next w =>
      show FrameStore.Reads a v ((s.takeByte w).takeHeld xs).store
      unfold State.takeByte
      simp only [hl]
      obtain ⟨g1, g2⟩ := FrameStore.fillsWithin_storeByte hg rx.actual w
      exact ih _ _ rfl (FrameStore.reads_storeByte hr b _ w fun blk hb => OutsideBlocks.ne ho (g2 _ hb) _) g1
    · exact State.takeHeld_quiet s.takeEnd xs _ _ ((FrameStore.reads_quiet a v).takeEnd s hr) (State.takeEnd_lane s)
    · exact State.takeHeld_quiet s.takeAbort xs _ _ ((FrameStore.reads_quiet a v).takeAbort s hr) (State.takeAbort_lane s)

theorem FrameStore.fillsWithin_reserve {st st' : FrameStore} {length grants b rs} (h : st.reserve length grants = some (st', b, rs)) : FrameStore.FillsWithin (st.freeBlocks.take (blocksFor length)) st' b := by
  unfold FrameStore.reserve at h
  split at h
  · split at h
    · cases h
    · cases h
    · next b' left first rest hfb hfr =>
      simp only [Option.some.injEq, Prod.mk.injEq] at h
      obtain ⟨rfl, rfl, -⟩ := h
      refine ⟨_, 1, rest, [first], by simp only []; rw [getElem_set_fin, if_pos rfl], rfl, ?_, ?_, List.mem_singleton.2 rfl, ?_⟩
      · intro x hx; rw [hfr]; exact List.mem_cons_of_mem _ hx
      · intro x hx; rw [hfr, List.mem_singleton.1 hx]; exact List.mem_cons_self
      · intro x hx c hc
        rw [List.mem_singleton.1 hx] at hc
        simp only [] at hc
        rw [getElem_set_fin, if_pos rfl] at hc
        cases hc
  · cases h

theorem FrameStore.afterPause_same (st : FrameStore) : st.afterPause.bodies = st.bodies ∧ st.afterPause.links = st.links ∧ st.afterPause.mem = st.mem := by
  unfold FrameStore.afterPause; repeat' split
  all_goals exact ⟨rfl, rfl, rfl⟩

end Sys2Proof.Machine
end

