-- ==== Sys2Proof/Laws/FramesReception.lean ====
section
/-! SUPPORT. The agreement of the store, the queues and the frames on their way through the reception of a frame: lane states that hold nothing, admission, reservation, filling, release and commit (R20, R30 to R34, R126 to R133). -/
namespace Sys2Proof.Machine

/-! ## Lanes that hold nothing -/

/-- The lane holds neither records nor a body. -/
def Lane.HoldsNone (l : Lane) : Prop := l.reservedRecords = [] ∧ l.fillingBody = none

/-- A lane state that holds neither records nor a body nor a grant nor a decision to come, in agreement with itself. -/
def Lane.Light : Lane → Prop
  | .idle => True
  | .lead rx bytes => rx.actual = bytes.length ∧ bytes.length < 12
  | .deciding rx bytes .classify _ => rx.actual = 12 ∧ 16 ≤ num16At bytes 8 ∧ num16At bytes 8 ≤ 2048
  | .deciding _ _ (.admitting _ _ _) _ => False
  | .deciding _ _ (.reserve _ _) _ => False
  | .request _ _ _ => True
  | .store _ _ _ _ _ => False
  | .pass _ _ => True
  | .ignore _ => True

theorem Lane.Light.facts {t : State} (h : t.up.lane.Light) :
    t.up.lane.HoldsNone ∧ t.receptionAgrees ∧ t.up.lane.undecided = [] ∧ t.grants = [] := by
  unfold State.receptionAgrees State.grants Lane.HoldsNone
  revert h
  cases t.up.lane with
  | deciding rx bytes phase held =>
    cases phase with
    | classify =>
      rintro ⟨h1, h2, h3⟩
      exact ⟨⟨rfl, rfl⟩, ⟨h1, h2, h3, fun _ _ e => by cases e⟩, rfl, rfl⟩
    | _ => exact False.elim
  | lead rx bytes => exact fun h => ⟨⟨rfl, rfl⟩, h, rfl, rfl⟩
  | store _ _ _ _ _ => exact False.elim
  | _ => exact fun _ => ⟨⟨rfl, rfl⟩, trivial, rfl, rfl⟩

/-- A lane that holds nothing gives way to one that holds nothing. -/
theorem State.FramesAgree.toLane {s t : State} (h : s.FramesAgree) (hst : s.store.SameFrames t.store)
    (hf : ∀ f, (s.flow f).Eases (t.flow f)) (hl : s.up.lane.HoldsNone) (hl' : t.up.lane.Light)
    (hsend : t.down.sending = s.down.sending)
    (hreq : ∀ x, t.agent.state = .executing x → s.agent.state = .executing x)
    (hent : t.classifier.entries = s.classifier.entries) : t.FramesAgree := by
  obtain ⟨⟨l1, l2⟩, l3, l4, l5⟩ := hl'.facts
  refine h.assemble hst (fun f => ?_) (fun x hx => hsend ▸ hx) (by rw [l1, hl.1]) (by rw [l2, hl.2]) l3 ?_ ?_ ?_
    (fun x hx => h.requests x (hreq x hx)) (fun i => ?_)
  · have he := hf f
    exact ⟨he.queue, he.frames, he.bytes, he.limited (h.queues f).limited⟩
  · rw [l5, l4]; exact List.nodup_nil
  · rw [l5, l4]; exact Nat.zero_le _
  · rw [l5]; exact fun g hg => by cases hg
  · rw [hent]; exact h.table i

theorem State.eases_of_flows {s t : State} (h : t.flows = s.flows) (f : FlowId) : (s.flow f).Eases (t.flow f) :=
  .of_eq (by unfold State.flow; rw [h])

/-! ## Releasing a reservation (R34) -/

theorem State.FramesAgree.free {s t : State} (h : s.FramesAgree) {rx : Reception} {claimed : Nat} {b : BodyId}
    {rs : List RecordId} {label : Tag} (hl : s.up.lane = .store rx claimed b rs label)
    (hst : (s.store.freeReservation b rs).SameFrames t.store) (hf : ∀ f, (s.flow f).Eases (t.flow f))
    (hl' : t.up.lane.Light) (hsend : t.down.sending = s.down.sending)
    (hreq : ∀ x, t.agent.state = .executing x → s.agent.state = .executing x)
    (hent : t.classifier.entries = s.classifier.entries) : t.FramesAgree := by
  obtain ⟨⟨l1, l2⟩, l3, l4, l5⟩ := hl'.facts
  have hfill : s.up.lane.fillingBody = some b := by rw [hl]; rfl
  have hres : s.up.lane.reservedRecords = rs := by rw [hl]; rfl
  have hshare := h.fillers hfill
  rw [hres] at hshare
  have hrc := h.reception
  unfold State.receptionAgrees at hrc
  rw [hl] at hrc
  obtain ⟨body, linked, pending, e1, e2, e3, e4, hnd, e6, e7⟩ := hrc
  have hmem : ∀ r, r ∈ rs ↔ ∃ fr g, s.store.records[r] = some fr ∧ fr.state = .reserved g := fun r => hres ▸ h.reserved r
  obtain ⟨-, a2, a3, a4, -⟩ := FrameStore.freeRecords_spec rs s.store hnd (fun r hr hn => by
    obtain ⟨fr, g, h1, -⟩ := (hmem r).1 hr
    rw [hn] at h1
    cases h1)
  have hrec : t.store.records = (rs.foldl FrameStore.freeRecord s.store).records := by
    rw [hst.records]; exact FrameStore.freeBody_records _ _
  have hbod : ∀ c, t.store.bodies[c] = if b = c then none else s.store.bodies[c] := by
    intro c
    rw [hst.bodies]
    unfold FrameStore.freeReservation
    rw [FrameStore.freeBody_bodies, a4]
  have hsp := hst.space (FrameStore.SpaceAgrees.freeReservation ⟨h.blocks, h.bodies⟩ b rs)
  have hin : ∀ r, r ∈ rs → t.store.records[r] = none := fun r hr => by rw [hrec]; exact a2 r hr
  have hout : ∀ r, r ∉ rs → t.store.records[r] = s.store.records[r] := fun r hr => by rw [hrec]; exact a3 r hr
  refine ⟨hst.lists (FrameStore.lists_freeReservation h.lists b rs), hsp.1, hsp.2,
    hst.shares (h.shares.freeReservation hnd hshare), fun f => ?_, fun x hx => ?_, fun r => ?_, fun c y hy => ?_, l3, ?_, ?_, ?_,
    fun x hx => h.requests x (hreq x hx), fun i => ?_⟩
  · have he := hf f
    obtain ⟨h1, h2, h3, h4, -⟩ := h.queues f
    obtain ⟨k1, k2, k3, k4, k5, k6, k7⟩ := he.limited (h.queues f).limited
    have hnin : ∀ q, q ∈ (s.flow f).queue → q ∉ rs := by
      intro q hq hqr
      obtain ⟨x, stamp, i1, i2, -⟩ := (h2 q).1 hq
      obtain ⟨y, g, i3, i4⟩ := (hmem q).1 hqr
      rw [i1] at i3
      cases i3
      rw [i2] at i4
      cases i4
    unfold State.queueAgrees
    simp only
    refine ⟨he.queue ▸ h1, fun q => ?_, ?_, ?_, k1, k2, k3, k4, k5, k6, k7⟩
    · rw [he.queue]
      by_cases hq : q ∈ rs
      · rw [hin q hq]
        exact ⟨fun hm => absurd hq (hnin q hm), fun ⟨x, stamp, i1, _⟩ => by cases i1⟩
      · rw [hout q hq]; exact h2 q
    · rw [he.frames, he.queue]; exact h3
    · rw [he.bytes, he.queue, h4]
      congr 1
      refine List.map_congr_left fun q hq => ?_
      obtain ⟨x, stamp, i1, -, -⟩ := (h2 q).1 hq
      obtain ⟨old, ho⟩ := h.shares.body i1
      have hne : b ≠ x.body := by
        intro hb
        have := FrameStore.mem_sharers_of_some i1
        rw [← hb, hshare, List.mem_toFinset] at this
        exact hnin q hq this
      rw [FrameStore.recordLength_of i1 ho,
        FrameStore.recordLength_of ((hout q (hnin q hq)).trans i1) (by rw [hbod, if_neg hne]; exact ho)]
  · obtain ⟨fx, i1, i2⟩ := h.sending x (hsend ▸ hx)
    refine ⟨fx, ?_, i2⟩
    rw [hout]
    · exact i1
    · intro hr
      obtain ⟨y, g, i3, i4⟩ := (hmem _).1 hr
      rw [i1] at i3
      cases i3
      rw [i2] at i4
      cases i4
  · rw [l1]
    refine ⟨fun hr => absurd hr List.not_mem_nil, fun ⟨x, g, i1, i2⟩ => ?_⟩
    by_cases hr : r ∈ rs
    · rw [hin r hr] at i1; cases i1
    · rw [hout r hr] at i1
      exact absurd ((hmem r).2 ⟨x, g, i1, i2⟩) hr
  · rw [hbod] at hy
    split at hy
    · cases hy
    · next hne =>
      rw [h.filling c y hy, hfill, l2]
      simpa using hne
  · rw [l5, l4]; exact List.nodup_nil
  · rw [l5, l4]; exact Nat.zero_le _
  · rw [l5]; exact fun g hg => by cases hg
  · rw [hent]; exact h.table i

/-- The frame in reception is freed, and the lane holds nothing more (R34, R132, R137). -/
theorem State.FramesAgree.close {s t : State} (h : s.FramesAgree) (hst : s.freeReception.store.SameFrames t.store)
    (hf : ∀ f, (s.flow f).Eases (t.flow f)) (hl' : t.up.lane.Light) (hsend : t.down.sending = s.down.sending)
    (hreq : ∀ x, t.agent.state = .executing x → s.agent.state = .executing x)
    (hent : t.classifier.entries = s.classifier.entries) : t.FramesAgree := by
  cases hl : s.up.lane with
  | store rx claimed b rs label =>
    refine h.free hl (FrameStore.SameFrames.trans ?_ hst) hf hl' hsend hreq hent
    unfold State.freeReception
    rw [hl]
    simp only
    rw [State.pauseTest_store]
    exact .afterPause _
  | _ =>
    refine h.toLane ?_ hf (by rw [hl]; exact ⟨rfl, rfl⟩) hl' hsend hreq hent
    unfold State.freeReception at hst
    rw [hl] at hst
    exact hst

theorem State.FramesAgree.closeBad {s : State} (h : s.FramesAgree) (e : IngressError) : (s.closeBad e).FramesAgree := by
  refine h.close (.of_eq (by simp [State.closeBad])) (State.eases_of_flows (by simp [State.closeBad])) ?_
    (by simp [State.closeBad]) (fun x hx => ?_) (by simp [State.closeBad])
  · rw [State.closeBad_lane]; trivial
  · simpa using hx

theorem State.FramesAgree.closeIgnored {s : State} (h : s.FramesAgree) {claimed : Option Nat} (hl : s.up.lane = .ignore claimed) :
    s.closeIgnored.FramesAgree := by
  refine h.toLane (.of_eq (by simp [State.closeIgnored])) (State.eases_of_flows (by simp [State.closeIgnored]))
    (by rw [hl]; exact ⟨rfl, rfl⟩) ?_ (by simp [State.closeIgnored]) (fun x hx => by simpa using hx) (by simp [State.closeIgnored])
  rw [State.closeIgnored_lane]; trivial

/-! ## Admission (R18 to R20) -/

/-- A request in execution and four waiting ones hold at most 40 commands (R155, R161). -/
theorem State.FramesAgree.commandsLeft_le {s : State} (h : s.FramesAgree) : s.agent.commandsLeft ≤ 40 := by
  rw [Agent.commandsLeft_eq]
  have h1 : s.agent.state.commandsLeft ≤ 8 := by
    unfold AgentState.commandsLeft
    split
    · omega
    · next x hx => exact le_trans (Nat.sub_le _ _) (h.requests x hx)
    · omega
    · omega
  have h2 : ∑ k : SlotId, (s.agent.slots[k]).commandsLeft ≤ 32 := by
    calc ∑ k : SlotId, (s.agent.slots[k]).commandsLeft ≤ ∑ _k : SlotId, 8 :=
          Finset.sum_le_sum fun k _ => by unfold Slot.commandsLeft; split <;> omega
      _ = 32 := by simp
  omega

theorem State.discardHead_generation (s : State) (f : FlowId) (why : DiscardReason) (g : FlowId) :
    ((s.discardHead f why).flow g).generation = (s.flow g).generation ∧
      ((s.discardHead f why).flow g).frameLimit = (s.flow g).frameLimit ∧
      ((s.discardHead f why).flow g).byteLimit = (s.flow g).byteLimit := by
  cases hq : (s.flow f).queue with
  | nil => unfold State.discardHead; rw [hq]; exact ⟨rfl, rfl, rfl⟩
  | cons r rest =>
    rw [s.discardHead_of_queue f why r rest hq]
    have he := (((State.calm_pauseTest { s with
      flows := s.flows.set f { (s.flow f).popHead (s.store.recordLength r) with counters := (s.flow f).counters.discard why }
      store := s.store.releaseRecord r }).trans (State.calm_reportRemoval _ f why)).trans (State.calm_settleFlow _ f)).flows g
    rw [he.generation, he.frameLimit, he.byteLimit]
    by_cases hg : f = g
    · subst hg
      rw [State.flow_of_set]
      exact ⟨rfl, rfl, rfl⟩
    · have : ({ s with
        flows := s.flows.set f { (s.flow f).popHead (s.store.recordLength r) with counters := (s.flow f).counters.discard why }
        store := s.store.releaseRecord r } : State).flow g = s.flow g := s.flow_setFlow_of_ne f g _ hg
      rw [this]
      exact ⟨rfl, rfl, rfl⟩

theorem State.makeRoom_generation (f : FlowId) (length n : Nat) (s : State) (g : FlowId) :
    ((s.makeRoom f length n).flow g).generation = (s.flow g).generation ∧
      ((s.makeRoom f length n).flow g).byteLimit = (s.flow g).byteLimit := by
  induction n generalizing s with
  | zero => exact ⟨rfl, rfl⟩
  | succ n ih =>
    unfold State.makeRoom
    split
    · exact ⟨rfl, rfl⟩
    · obtain ⟨h1, h2, h3⟩ := s.discardHead_generation f .head g
      obtain ⟨k1, k2⟩ := ih (s.discardHead f .head)
      exact ⟨k1.trans h1, k2.trans h3⟩

/-- A flow with an empty queue has room for any frame within its byte limit (R14, R19). -/
theorem State.FramesAgree.fits_of_empty {s : State} (h : s.FramesAgree) {f : FlowId} {length : Nat}
    (hq : (s.flow f).queue = []) (hl : length ≤ (s.flow f).byteLimit) : (s.flow f).fits length = true := by
  obtain ⟨-, -, h3, h4, h5, -⟩ := h.queues f
  rw [hq] at h3 h4
  unfold Flow.fits
  simp only [Bool.and_eq_true, decide_eq_true_eq]
  rw [h3, h4]
  simp only [List.length_nil, List.map_nil, List.sum_nil]
  omega

/-- The frame fits at the latest when the queue is empty (R19). -/
theorem State.FramesAgree.makeRoom_fits {s : State} (h : s.FramesAgree) (f : FlowId) (length : Nat)
    (hl : length ≤ (s.flow f).byteLimit) :
    ((s.makeRoom f length (s.flow f).queue.length).flow f).fits length = true := by
  obtain ⟨m, -, h2, -, h4⟩ := State.makeRoom_iterate f length (s.flow f).queue.length s
  have hr := h.makeRoom f length (s.flow f).queue.length
  rcases h4 with h4 | h4
  · refine hr.fits_of_empty ?_ ((s.makeRoom_generation f length _ f).2 ▸ hl)
    rw [h2, State.discardHead_iterate_queue, h4, List.drop_length]
  · rw [h2]; exact h4

/-- What one admission decision leaves (R18, R19). -/
theorem State.FramesAgree.admitting {s : State} (h : s.FramesAgree) (f : FlowId) (length : Nat) :
    (s.admitting f length).1.FramesAgree ∧ (s.admitting f length).1.up.lane = s.up.lane ∧
      ((s.admitting f length).1.flow f).generation = (s.flow f).generation ∧
      ((s.admitting f length).2 = true → ((s.admitting f length).1.flow f).fits length = true) := by
  have hcalm : ∀ t : State, s.Calm t → (t.FramesAgree ∧ t.up.lane = s.up.lane ∧
      (t.flow f).generation = (s.flow f).generation ∧ (false = true → (t.flow f).fits length = true)) :=
    fun t ht => ⟨h.calm ht, ht.lane, (ht.flows f).generation, nofun⟩
  unfold State.admitting
  simp only
  split
  · exact hcalm _ (s.calm_countDiscard f _)
  · split
    · exact hcalm _ (s.calm_refuseLimit f)
    · next hl =>
      split
      · next hf => exact ⟨h, rfl, rfl, fun _ => hf⟩
      · split
        · exact hcalm _ (s.calm_refuseLimit f)
        · exact ⟨h.makeRoom f length _, by simp, (s.makeRoom_generation f length _ f).1,
            fun _ => h.makeRoom_fits f length (Nat.le_of_not_lt hl)⟩

end Sys2Proof.Machine
end

