-- ==== Sys2Proof/Laws/FramesFilling.lean ====
section
/-! SUPPORT. The agreement of the store, the queues and the frames on their way through the decisions on a frame, its reservation and its filling (R18, R20, R30, R32, R129). -/
namespace Sys2Proof.Machine

/-! ## The lane in DECIDING -/

/-- The lane in DECIDING gives way to DECIDING with other grants and decisions to come, in agreement. -/
theorem State.FramesAgree.decide {s t : State} (h : s.FramesAgree) {rx : Reception} {bytes : List Byte} {phase phase' : Deciding}
    {held held' : List Symbol} (hl : s.up.lane = .deciding rx bytes phase held)
    (hl' : t.up.lane = .deciding rx bytes phase' held') (hst : s.store.SameFrames t.store)
    (hf : ∀ f, (s.flow f).Eases (t.flow f)) (hsend : t.down.sending = s.down.sending)
    (hreq : ∀ x, t.agent.state = .executing x → s.agent.state = .executing x)
    (hent : t.classifier.entries = s.classifier.entries)
    (hsome : ∀ granted label, phase' = .reserve granted label → granted ≠ [])
    (hapart : (phase'.grants.map Grant.flow ++ phase'.undecided).Nodup)
    (hfew : phase'.grants.length + phase'.undecided.length ≤ 2)
    (hkept : ∀ g ∈ phase'.grants, t.grantKept (num16At bytes 8) g) : t.FramesAgree := by
  have hg : t.grants = phase'.grants := by unfold State.grants; rw [hl']
  have hu : t.up.lane.undecided = phase'.undecided := by rw [hl']; rfl
  have hrc := h.reception
  unfold State.receptionAgrees at hrc
  rw [hl] at hrc
  refine h.assemble hst (fun f => ?_) (fun x hx => hsend ▸ hx) (by rw [hl, hl']; rfl) (by rw [hl, hl']; rfl) ?_ ?_ ?_
    (fun g hm => ?_) (fun x hx => h.requests x (hreq x hx)) (fun i => ?_)
  · have he := hf f
    exact ⟨he.queue, he.frames, he.bytes, he.limited (h.queues f).limited⟩
  · unfold State.receptionAgrees
    rw [hl']
    exact ⟨hrc.1, hrc.2.1, hrc.2.2.1, hsome⟩
  · rw [hg, hu]; exact hapart
  · rw [hg, hu]; exact hfew
  · rw [hg] at hm
    rw [hl']
    exact hkept g hm
  · rw [hent]; exact h.table i

/-- What the agreement says of a frame in DECIDING. -/
theorem State.FramesAgree.deciding {s : State} (h : s.FramesAgree) {rx : Reception} {bytes : List Byte} {phase : Deciding}
    {held : List Symbol} (hl : s.up.lane = .deciding rx bytes phase held) :
    rx.actual = 12 ∧ 16 ≤ num16At bytes 8 ∧ num16At bytes 8 ≤ 2048 ∧
      (∀ granted label, phase = .reserve granted label → granted ≠ []) ∧
      (phase.grants.map Grant.flow ++ phase.undecided).Nodup ∧ phase.grants.length + phase.undecided.length ≤ 2 ∧
      ∀ g ∈ phase.grants, s.grantKept (num16At bytes 8) g := by
  have h1 := h.reception
  unfold State.receptionAgrees at h1
  have h2 := h.grantsApart
  have h3 := h.grantsFew
  have h4 := h.grantsKept
  unfold State.grants at h2 h3 h4
  rw [hl] at h1 h2 h3 h4
  exact ⟨h1.1, h1.2.1, h1.2.2.1, h1.2.2.2, h2, h3, h4⟩

/-- A held byte or delimiter changes nothing else (R129). -/
theorem State.FramesAgree.holdSymbol {s : State} (h : s.FramesAgree) (x : Symbol) : (s.holdSymbol x).FramesAgree := by
  unfold State.holdSymbol
  split
  · exact h
  · exact h
  · next rx bytes phase held hl =>
    obtain ⟨-, -, -, h4, h5, h6, h7⟩ := h.deciding hl
    exact h.decide hl rfl (.refl _) (fun _ => .refl _) rfl (fun _ => id) rfl h4 h5 h6 h7
  all_goals exact h

/-- An admission decision is recorded, or was the last and none granted (R18, R20, R129). -/
theorem State.FramesAgree.decideAdmission {s : State} (h : s.FramesAgree)
    (hheld : ∀ t : State, t.FramesAgree → ∀ xs, (t.takeHeld xs).FramesAgree) {rx : Reception} {bytes : List Byte} {f : FlowId}
    {rest : List FlowId} {granted : List Grant} {label : Tag} {held : List Symbol}
    (hl : s.up.lane = .deciding rx bytes (.admitting (f :: rest) granted label) held) :
    (s.decideAdmission rx bytes f rest granted label held).FramesAgree := by
  obtain ⟨ha, hal, hgen, hfit⟩ := h.admitting f (leadLength bytes)
  have hl' : (s.admitting f (leadLength bytes)).1.up.lane = .deciding rx bytes (.admitting (f :: rest) granted label) held :=
    hal.trans hl
  obtain ⟨-, -, -, -, h5, h6, h7⟩ := ha.deciding hl'
  simp only [Deciding.grants, Deciding.undecided] at h5 h6 h7
  generalize hd : s.admitting f (leadLength bytes) = d at ha hal hgen hfit hl' h7
  obtain ⟨u, granting⟩ := d
  simp only at ha hal hgen hfit hl' h7
  have hapart : ((grantsAfter granted f (s.flow f).generation granting).map Grant.flow ++ rest).Nodup := by
    unfold grantsAfter
    split
    · rw [List.map_append, List.append_assoc]
      exact h5
    · exact h5.sublist (List.Sublist.append_left (List.sublist_cons_self _ _) _)
  have hfew : (grantsAfter granted f (s.flow f).generation granting).length + rest.length ≤ 2 := by
    unfold grantsAfter
    rw [List.length_cons] at h6
    split
    · rw [List.length_append, List.length_singleton]; omega
    · omega
  have hkept : ∀ g ∈ grantsAfter granted f (s.flow f).generation granting, u.grantKept (num16At bytes 8) g := by
    unfold grantsAfter
    split
    · next hg =>
      intro g hm
      rcases List.mem_append.1 hm with hm | hm
      · exact h7 g hm
      · rw [List.mem_singleton] at hm
        subst hm
        unfold State.grantKept
        simp only
        rw [hgen]
        exact ⟨by simpa using ha.commandsLeft_le, fun _ _ => hfit hg⟩
    · exact h7
  unfold State.decideAdmission
  rw [hd]
  simp only
  cases rest with
  | cons g more =>
    exact ha.decide hl' rfl (.refl _) (fun _ => .refl _) rfl (fun _ => id) rfl nofun hapart hfew hkept
  | nil =>
    simp only
    split
    · refine hheld _ (ha.toLane (t := u.setLane (.pass rx (leadLength bytes))) (.refl _) (fun _ => .refl _) ?_ trivial rfl
        (fun _ => id) rfl) held
      rw [hl']; exact ⟨rfl, rfl⟩
    · next hne =>
      refine ha.decide hl' rfl (.refl _) (fun _ => .refl _) rfl (fun _ => id) rfl ?_ hapart hfew hkept
      intro gs l he
      cases he
      simpa using hne

/-! ## Filling (R32) -/

/-- A byte goes into the FILLING body of the frame in reception. -/
theorem State.FramesAgree.storeByte {s t : State} (h : s.FramesAgree) {rx rx' : Reception} {claimed : Nat} {b : BodyId}
    {rs : List RecordId} {label : Tag} (hl : s.up.lane = .store rx claimed b rs label)
    (hl' : t.up.lane = .store rx' claimed b rs label) {n : Nat} {v : Byte} (hst : t.store = s.store.storeByte b n v)
    (hn : rx'.actual ≤ rx.actual ∨ n = rx.actual ∧ rx'.actual ≤ rx.actual + 1)
    (hf : t.flows = s.flows) (hd : t.down = s.down) (ha : t.agent = s.agent) (hc : t.classifier = s.classifier) :
    t.FramesAgree := by
  have hrc := h.reception
  unfold State.receptionAgrees at hrc
  rw [hl] at hrc
  obtain ⟨body, linked, pending, e1, e2, e3, e4, e5, e6, e7⟩ := hrc
  have hfit := h.bodies b body e1
  obtain ⟨-, -, -, hch⟩ := hfit
  rw [e2] at hch
  obtain ⟨x, l, p, x1, x2, x3, x4, x5, x6, x7⟩ := FrameStore.storeByte_body e1 e2 hch.2.1 n v
  obtain ⟨o1, o2⟩ := s.store.storeByte_others b n v
  rw [← hst] at x1 o1 o2
  have hflow : ∀ f, t.flow f = s.flow f := fun f => by unfold State.flow; rw [hf]
  have hlen : t.store.recordLength = s.store.recordLength := by
    funext r
    unfold FrameStore.recordLength
    rw [o1]
    cases hr : s.store.records[r] with
    | none => rfl
    | some fr =>
      simp only
      by_cases hb : fr.body = b
      · subst hb
        rw [x1, e1]; exact x3
      · rw [o2 _ hb]
  have hgo : t.grants = s.grants := by
    unfold State.grants
    rw [hl, hl']
    simp only
    have : t.store.grantOf = s.store.grantOf := by funext r; unfold FrameStore.grantOf; rw [o1]
    rw [this]
  have hsp : t.store.SpaceAgrees := by rw [hst]; exact FrameStore.SpaceAgrees.storeByte ⟨h.blocks, h.bodies⟩ b n v
  refine ⟨by rw [hst]; exact FrameStore.lists_storeByte h.lists b n v, hsp.1, hsp.2, ?_, fun f => ?_, fun y hy => ?_, fun r => ?_,
    fun c y hy => ?_, ?_, ?_, ?_, fun g hg => ?_, fun y hy => h.requests y (ha ▸ hy), fun i => ?_⟩
  · refine h.shares.update b o2 (fun c _ => FrameStore.sharers_congr o1 c) (fun hn => ?_) (fun y hy => ?_)
    · rw [x1] at hn; cases hn
    · rw [x1] at hy
      cases hy
      rw [FrameStore.sharers_congr o1, x4]
      exact h.shares.2 b body e1
  · have hq := h.queues f
    unfold State.queueAgrees at hq ⊢
    rw [hflow, hlen, o1]
    exact hq
  · rw [o1]; exact h.sending y (hd ▸ hy)
  · rw [hl', o1]
    have := h.reserved r
    rw [hl] at this
    exact this
  · rw [hl']
    by_cases hcb : c = b
    · subst hcb
      rw [x1] at hy
      cases hy
      rw [x2]
      simp [Lane.fillingBody]
    · rw [o2 c hcb] at hy
      have := h.filling c y hy
      rw [hl] at this
      exact this
  · unfold State.receptionAgrees
    rw [hl']
    refine ⟨x, l, p, x1, x2, x3.trans e3, ?_, e5, e6.trans x4.symm, by rw [o1]; exact e7⟩
    rcases e4 with e4 | e4
    · exact .inl (x6 e4)
    · rcases hn with hn | ⟨rfl, hn⟩
      · right; omega
      · rcases x7 e4 with hx | hx
        · exact .inl hx
        · right; omega
  · rw [hgo, hl']
    have := h.grantsApart
    rw [hl] at this
    exact this
  · rw [hgo, hl']
    have := h.grantsFew
    rw [hl] at this
    exact this
  · rw [hgo] at hg
    have := h.grantsKept g hg
    rw [hl] at this
    rw [hl']
    unfold State.grantKept at this ⊢
    rw [hflow, ha]
    exact this
  · rw [hc]; exact h.table i

/-- Bytes go into the FILLING body of the frame in reception, below its actual length. -/
theorem State.FramesAgree.storeBytes {s : State} (h : s.FramesAgree) {rx : Reception} {claimed : Nat} {b : BodyId}
    {rs : List RecordId} {label : Tag} (hl : s.up.lane = .store rx claimed b rs label) (vs : List Byte) (n : Nat) :
    (s.setStore (s.store.storeBytes b n vs)).FramesAgree := by
  induction vs generalizing s n with
  | nil => exact h
  | cons v vs ih =>
    have h1 : (s.setStore (s.store.storeByte b n v)).FramesAgree :=
      h.storeByte hl hl rfl (.inl (le_refl _)) rfl rfl rfl rfl
    exact ih h1 hl (n + 1)

/-! ## The reservation (R30) -/

theorem State.FramesAgree.reserve {s : State} (h : s.FramesAgree) {rx : Reception} {bytes : List Byte} {granted : List Grant}
    {label : Tag} {held : List Symbol} (hl : s.up.lane = .deciding rx bytes (.reserve granted label) held)
    {st : FrameStore} {b : BodyId} {rs : List RecordId}
    (hr : s.store.reserve (leadLength bytes) granted = some (st, b, rs)) :
    ((s.setStore st).setLane (.store rx (leadLength bytes) b rs label)).FramesAgree := by
  obtain ⟨h1, h2, h3, h4, h5, h6, h7⟩ := h.deciding hl
  simp only [Deciding.grants, Deciding.undecided, List.append_nil, List.length_nil, Nat.add_zero] at h5 h6 h7
  have hne : granted ≠ [] := h4 granted label rfl
  have hpos : 1 ≤ granted.length := List.length_pos_iff.2 hne
  have hres := FrameStore.reserved_of h.lists hr
  obtain ⟨x, pending, x1, x2, x3, x4⟩ := hres.body
  have hsp := FrameStore.SpaceAgrees.reserve ⟨h.blocks, h.bodies⟩ h.lists h2 h3 hr
  have hnone : s.up.lane.reservedRecords = [] := by rw [hl]; rfl
  have hnofill : s.up.lane.fillingBody = none := by rw [hl]; rfl
  have hlen : ∀ q, q ∉ rs → (s.store.records[q]).isSome → st.recordLength q = s.store.recordLength q := by
    intro q hq hs
    obtain ⟨fr, hfr⟩ := Option.isSome_iff_exists.1 hs
    obtain ⟨body, hb⟩ := h.shares.body hfr
    have hbb : fr.body ≠ b := by
      rintro rfl
      rw [hres.noBody] at hb
      cases hb
    rw [FrameStore.recordLength_of hfr hb, FrameStore.recordLength_of ((hres.others q hq).trans hfr) ((hres.bodies _ hbb).trans hb)]
  have hgrants : ((s.setStore st).setLane (.store rx (leadLength bytes) b rs label)).grants = granted := by
    unfold State.grants
    exact hres.grants
  refine ⟨FrameStore.lists_reserve h.lists hr, hsp.1, hsp.2, h.shares.reserve hres hpos h6, fun f => ?_, fun y hy => ?_,
    fun r => ?_, fun c y hy => ?_, ?_, ?_, ?_, fun g hg => ?_, h.requests, h.table⟩
  · obtain ⟨q1, q2, q3, q4, q5⟩ := h.queues f
    have hnin : ∀ q, q ∈ (s.flow f).queue → q ∉ rs ∧ (s.store.records[q]).isSome := by
      intro q hq
      obtain ⟨fr, stamp, i1, -, -⟩ := (q2 q).1 hq
      refine ⟨fun hqr => ?_, by rw [i1]; rfl⟩
      rw [hres.free q hqr] at i1
      cases i1
    unfold State.queueAgrees
    simp only [State.setLane_flow, State.setStore_flow, State.setLane_store, State.setStore_store]
    refine ⟨q1, fun q => ?_, q3, ?_, q5⟩
    · by_cases hq : q ∈ rs
      · obtain ⟨g, -, i1⟩ := hres.mem hq
        rw [i1]
        refine ⟨fun hm => absurd hq (hnin q hm).1, fun ⟨fr, stamp, i2, i3, _⟩ => ?_⟩
        cases i2
        cases i3
      · rw [hres.others q hq]; exact q2 q
    · rw [q4]
      congr 1
      exact List.map_congr_left fun q hq => (hlen q (hnin q hq).1 (hnin q hq).2).symm
  · obtain ⟨fx, i1, i2⟩ := h.sending y hy
    refine ⟨fx, ?_, i2⟩
    change st.records[y.record] = _
    rw [hres.others]
    · exact i1
    · intro hq
      rw [hres.free _ hq] at i1
      cases i1
  · change r ∈ rs ↔ ∃ fr generation, st.records[r] = some fr ∧ fr.state = .reserved generation
    by_cases hq : r ∈ rs
    · obtain ⟨g, -, i1⟩ := hres.mem hq
      exact ⟨fun _ => ⟨_, _, i1, rfl⟩, fun _ => hq⟩
    · rw [hres.others r hq, ← h.reserved r, hnone]
      exact ⟨fun e => absurd e hq, fun e => absurd e List.not_mem_nil⟩
  · change st.bodies[c] = some y at hy
    change y.state ≠ .stored ↔ some b = some c
    by_cases hcb : c = b
    · subst hcb
      rw [x1] at hy
      cases hy
      rw [x2]
      simp
    · rw [hres.bodies c hcb] at hy
      rw [h.filling c y hy, hnofill]
      simpa using Ne.symm hcb
  · unfold State.receptionAgrees
    refine ⟨x, 1, pending, x1, x2, x3, .inr (by omega), hres.nodup, hres.card.trans x4.symm, fun r hq => ?_⟩
    obtain ⟨g, -, i1⟩ := hres.mem hq
    change (st.records[r]).map FrameRecord.body = some b
    rw [i1]
    rfl
  · rw [hgrants]
    change (granted.map Grant.flow ++ []).Nodup
    rw [List.append_nil]
    exact h5
  · rw [hgrants]; exact h6
  · rw [hgrants] at hg
    exact h7 g hg

end Sys2Proof.Machine
end

