-- ==== Sys2Proof/Laws/FramesCommit.lean ====
section
/-! SUPPORT. The agreement of the store, the queues and the frames on their way through the commit of a frame (R15, R21, R33). -/
namespace Sys2Proof.Machine

/-- A commit under way: the records still to come, and how many have been appended. -/
structure State.Committing (s : State) (b : BodyId) (length : Nat) (rs : List RecordId) (n : Nat) : Prop where
  lists : s.store.listsAgree
  space : s.store.SpaceAgrees
  queues : s.queuesAgree
  sending : ∀ t, s.down.sending = some t → ∃ fr, s.store.records[t.record] = some fr ∧ fr.state = .inTransmission
  nodup : rs.Nodup
  reserved : ∀ r : RecordId, r ∈ rs ↔ ∃ fr generation, s.store.records[r] = some fr ∧ fr.state = .reserved generation
  named : ∀ r ∈ rs, r ∈ s.store.sharers b
  body : ∃ body linked, s.store.bodies[b] = some body ∧ body.state = .filling linked [] ∧ body.length = length
  card : (s.store.sharers b).card = rs.length + n
  few : rs.length + n ≤ 2
  free : ∀ c : BodyId, s.store.bodies[c] = none → s.store.sharers c = ∅
  others : ∀ (c : BodyId) (body : Body), c ≠ b → s.store.bodies[c] = some body →
    body.state = .stored ∧ (s.store.sharers c).card = body.share ∧ 1 ≤ body.share ∧ body.share ≤ 2
  apart : ((rs.filterMap s.store.grantOf).map Grant.flow).Nodup
  kept : ∀ g ∈ rs.filterMap s.store.grantOf, s.grantKept length g
  requests : ∀ x, s.agent.state = .executing x → x.commands.length ≤ 8
  table : s.tableInRange

variable {s t : State} {b : BodyId} {length : Nat} {r : RecordId} {rs : List RecordId} {n : Nat}

/-- The record whose turn it is (R21). -/
theorem State.Committing.turn (h : s.Committing b length (r :: rs) n) :
    ∃ fr generation, s.store.records[r] = some fr ∧ fr.state = .reserved generation ∧ fr.body = b ∧
      s.store.recordLength r = length ∧ s.store.grantOf r = some { flow := fr.flow, generation := generation } ∧
      s.grantKept length { flow := fr.flow, generation := generation } ∧
      ∀ g ∈ rs.filterMap s.store.grantOf, g.flow ≠ fr.flow := by
  obtain ⟨fr, g, h1, h2⟩ := (h.reserved r).1 List.mem_cons_self
  have hb : fr.body = b := by
    have := FrameStore.mem_sharers.1 (h.named r List.mem_cons_self)
    rw [h1] at this
    simpa using this
  have hg : s.store.grantOf r = some { flow := fr.flow, generation := g } := by
    unfold FrameStore.grantOf
    rw [h1]
    simp only
    rw [h2]
  obtain ⟨body, linked, b1, -, b3⟩ := h.body
  have happ := h.apart
  have hkept := h.kept
  rw [List.filterMap_cons_some hg] at happ hkept
  rw [List.map_cons, List.nodup_cons] at happ
  refine ⟨fr, g, h1, h2, hb, ?_, hg, hkept _ List.mem_cons_self, fun x hx e => happ.1 (List.mem_map.2 ⟨x, hx, e⟩)⟩
  subst hb
  rw [FrameStore.recordLength_of h1 b1, b3]

/-- One re-check: the record is QUEUED, or is free (R21). -/
theorem State.Committing.recheck (h : s.Committing b length (r :: rs) n) {k : Nat}
    (hlists : t.store.listsAgree) (hspace : t.store.SpaceAgrees) (hbod : t.store.bodies = s.store.bodies)
    (hrec : ∀ q : RecordId, q ≠ r → t.store.records[q] = s.store.records[q])
    (hr : (k = 0 ∧ t.store.records[r] = none) ∨
      (k = 1 ∧ ∃ fr stamp, s.store.records[r] = some fr ∧ t.store.records[r] = some { fr with state := .queued stamp }))
    (hqueues : t.queuesAgree)
    (hflow : ∀ g ∈ rs.filterMap s.store.grantOf, (s.flow g.flow).Eases (t.flow g.flow))
    (hd : t.down = s.down) (ha : t.agent = s.agent) (hc : t.classifier = s.classifier) :
    t.Committing b length rs (n + k) := by
  have hnd := List.nodup_cons.1 h.nodup
  have hrb := h.named r List.mem_cons_self
  have hnres : ∀ fr g, t.store.records[r] = some fr → fr.state ≠ .reserved g := by
    intro fr g e1 e2
    rcases hr with ⟨-, h0⟩ | ⟨-, x, stamp, -, h0⟩
    · rw [h0] at e1; cases e1
    · rw [h0] at e1; cases e1; cases e2
  have hne : ∀ c, c ≠ b → r ∉ s.store.sharers c := by
    intro c hcb hm
    rw [FrameStore.mem_sharers] at hm hrb
    rw [hm] at hrb
    exact hcb (Option.some.inj hrb)
  have hsame : ∀ c, c ≠ b → t.store.sharers c = s.store.sharers c := by
    intro c hcb
    ext q
    by_cases hq : q = r
    · subst hq
      refine ⟨fun hm => ?_, fun hm => absurd hm (hne c hcb)⟩
      rw [FrameStore.mem_sharers] at hm
      rcases hr with ⟨-, h0⟩ | ⟨-, x, stamp, h1, h0⟩
      · rw [h0] at hm; cases hm
      · rw [h0] at hm
        rw [FrameStore.mem_sharers, h1]
        exact hm
    · rw [FrameStore.mem_sharers, FrameStore.mem_sharers, hrec q hq]
  have hcard : (t.store.sharers b).card = rs.length + (n + k) := by
    have h0 := h.card
    rw [List.length_cons] at h0
    rcases hr with ⟨rfl, h1⟩ | ⟨rfl, x, stamp, h1, h2⟩
    · have : t.store.sharers b = (s.store.sharers b).erase r := by
        ext q
        rw [Finset.mem_erase]
        by_cases hq : q = r
        · subst hq
          rw [FrameStore.mem_sharers, h1]
          simp
        · rw [FrameStore.mem_sharers, FrameStore.mem_sharers, hrec q hq]
          exact ⟨fun e => ⟨hq, e⟩, fun e => e.2⟩
      rw [this, Finset.card_erase_of_mem hrb]
      omega
    · have : t.store.sharers b = s.store.sharers b := by
        ext q
        by_cases hq : q = r
        · subst hq
          rw [FrameStore.mem_sharers, FrameStore.mem_sharers, h1, h2]
          rfl
        · rw [FrameStore.mem_sharers, FrameStore.mem_sharers, hrec q hq]
      rw [this]
      omega
  have hgr : rs.filterMap t.store.grantOf = rs.filterMap s.store.grantOf := by
    refine List.filterMap_congr fun q hq => ?_
    unfold FrameStore.grantOf
    rw [hrec q (by rintro rfl; exact hnd.1 hq)]
  have hsub : ∀ g ∈ rs.filterMap s.store.grantOf, g ∈ (r :: rs).filterMap s.store.grantOf := by
    intro g hg
    rw [List.mem_filterMap] at hg ⊢
    obtain ⟨q, h1, h2⟩ := hg
    exact ⟨q, List.mem_cons_of_mem _ h1, h2⟩
  have hfew := h.few
  rw [List.length_cons] at hfew
  refine ⟨hlists, hspace, hqueues, fun x hx => ?_, hnd.2, fun q => ?_, fun q hq => ?_, ?_, hcard, ?_, fun c hcn => ?_,
    fun c body hcb hcs => ?_, ?_, fun g hg => ?_, fun x hx => h.requests x (ha ▸ hx), fun i => hc ▸ h.table i⟩
  · obtain ⟨fx, e1, e2⟩ := h.sending x (hd ▸ hx)
    refine ⟨fx, ?_, e2⟩
    rw [hrec]
    · exact e1
    · intro e
      obtain ⟨fr, g, e3, e4⟩ := (h.reserved r).1 List.mem_cons_self
      subst e
      rw [e1] at e3
      cases e3
      rw [e2] at e4
      cases e4
  · by_cases hq : q = r
    · subst hq
      exact ⟨fun hm => absurd hm hnd.1, fun ⟨fr, g, e1, e2⟩ => absurd e2 (hnres fr g e1)⟩
    · rw [hrec q hq, ← h.reserved q, List.mem_cons]
      exact ⟨.inr, fun e => e.resolve_left hq⟩
  · have hqr : q ≠ r := by rintro rfl; exact hnd.1 hq
    have := h.named q (List.mem_cons_of_mem _ hq)
    rw [FrameStore.mem_sharers] at this ⊢
    rw [hrec q hqr]
    exact this
  · rw [hbod]; exact h.body
  · rcases hr with ⟨rfl, -⟩ | ⟨rfl, -⟩ <;> omega
  · have hcb : c ≠ b := by
      rintro rfl
      obtain ⟨body, -, b1, -⟩ := h.body
      have hcn' : s.store.bodies[c] = none := hbod ▸ hcn
      rw [b1] at hcn'
      cases hcn'
    rw [hsame c hcb]
    exact h.free c (hbod ▸ hcn)
  · rw [hsame c hcb]
    exact h.others c body hcb (hbod ▸ hcs)
  · rw [hgr]
    have := h.apart
    obtain ⟨fr, g, -, -, -, -, hg, -⟩ := h.turn
    rw [List.filterMap_cons_some hg, List.map_cons, List.nodup_cons] at this
    exact this.2
  · rw [hgr] at hg
    exact (h.kept g (hsub g hg)).eases (hflow g hg) (by rw [ha])

/-- A record appended at the tail of its flow's queue (R15). -/
theorem State.Committing.append (h : s.Committing b length (r :: rs) n) {fr : FrameRecord} {generation : Byte}
    (hr : s.store.records[r] = some fr) (hg : fr.state = .reserved generation)
    (ha : (s.flow fr.flow).accepting = true ∧ (s.flow fr.flow).generation = generation) :
    (s.appendRecord fr.flow r).Committing b length rs (n + 1) := by
  obtain ⟨fr', g', e1, e2, e3, e4, -, e6, e7⟩ := h.turn
  rw [hr] at e1
  cases e1
  rw [hg] at e2
  cases e2
  have hstore : (s.appendRecord fr.flow r).store = { s.store with
      records := s.store.records.set r (some { fr with state := .queued s.pacing.epochCounter }) } := by
    unfold State.appendRecord FrameStore.setRecordState
    simp only [State.setStore_store, State.modifyFlow_store, State.modifyFlow_pacing]
    rw [hr]
  have hrec : ∀ q : RecordId, q ≠ r → (s.appendRecord fr.flow r).store.records[q] = s.store.records[q] := by
    intro q hq
    rw [hstore, getElem_set_fin, if_neg (Ne.symm hq)]
  have hrec' : (s.appendRecord fr.flow r).store.records[r] = some { fr with state := .queued s.pacing.epochCounter } := by
    rw [hstore, getElem_set_fin, if_pos rfl]
  have hlen : ∀ q, (s.appendRecord fr.flow r).store.recordLength q = s.store.recordLength q := by
    intro q
    by_cases hq : q = r
    · subst hq
      unfold FrameStore.recordLength
      rw [hrec', hr, hstore]
    · unfold FrameStore.recordLength
      rw [hrec q hq, hstore]
  have hother : ∀ f, f ≠ fr.flow → (s.appendRecord fr.flow r).flow f = s.flow f :=
    fun f hf => s.flow_setFlow_of_ne fr.flow f _ (Ne.symm hf)
  have hnq : ∀ f, r ∉ (s.flow f).queue := by
    intro f hm
    obtain ⟨x, stamp, i1, i2, -⟩ := ((h.queues f).2.1 r).1 hm
    rw [hr] at i1
    cases i1
    rw [hg] at i2
    cases i2
  have hdis : (s.flow fr.flow).state ≠ .disabled := by
    intro hd
    have := ha.1
    unfold Flow.accepting at this
    rw [hd] at this
    cases this
  have hfits := e6.2 ha.2 hdis
  unfold Flow.fits at hfits
  simp only [Bool.and_eq_true, decide_eq_true_eq] at hfits
  refine h.recheck (k := 1) ?_ ?_ (by rw [hstore]) hrec (.inr ⟨rfl, fr, _, hr, hrec'⟩) (fun f => ?_) (fun g hgm => ?_) rfl rfl rfl
  · exact FrameStore.lists_setRecordState h.lists r _
  · exact h.space.setRecordState r _
  · obtain ⟨q1, q2, q3, q4, q5, q6, q7, q8, q9, q10, q11⟩ := h.queues f
    unfold State.queueAgrees
    simp only
    have hmap : ∀ l : List RecordId, l.map (s.appendRecord fr.flow r).store.recordLength = l.map s.store.recordLength :=
      fun l => List.map_congr_left fun q _ => hlen q
    rw [hmap]
    by_cases hf : f = fr.flow
    · subst hf
      have hfl : (s.appendRecord fr.flow r).flow fr.flow =
          { s.flow fr.flow with
            queue := (s.flow fr.flow).queue ++ [r]
            queuedFrames := (s.flow fr.flow).queuedFrames + 1
            queuedBytes := (s.flow fr.flow).queuedBytes + s.store.recordLength r
            counters :=
              { (s.flow fr.flow).counters with
                acceptedFrames := (s.flow fr.flow).counters.acceptedFrames + 1
                acceptedBytes := (s.flow fr.flow).counters.acceptedBytes + BitVec.ofNat 32 (s.store.recordLength r) } } :=
        s.flow_setFlow_same fr.flow _
      rw [hfl]
      simp only
      refine ⟨?_, fun q => ?_, ?_, ?_, q5, q6, q7, q8, hfits.1, ?_, fun e => absurd e hdis⟩
      · rw [List.nodup_append]
        refine ⟨q1, by simp, fun x hx y hy => ?_⟩
        rw [List.mem_singleton] at hy
        rintro rfl
        exact hnq _ (hy ▸ hx)
      · rw [List.mem_append, List.mem_singleton]
        by_cases hq : q = r
        · subst hq
          rw [hrec']
          exact ⟨fun _ => ⟨_, _, rfl, rfl, rfl⟩, fun _ => .inr rfl⟩
        · rw [hrec q hq, ← q2 q]
          exact ⟨fun e => e.resolve_right hq, .inl⟩
      · rw [List.length_append, List.length_singleton, q3]
      · rw [List.map_append, List.sum_append, q4]
        simp
      · rw [e4]; exact hfits.2
    · rw [hother f hf]
      refine ⟨q1, fun q => ?_, q3, q4, q5, q6, q7, q8, q9, q10, q11⟩
      by_cases hq : q = r
      · subst hq
        rw [hrec']
        refine ⟨fun hm => absurd hm (hnq f), fun ⟨x, stamp, i1, _, i3⟩ => ?_⟩
        cases i1
        exact absurd i3.symm hf
      · rw [hrec q hq]; exact q2 q
  · rw [hother _ (e7 g hgm)]
    exact .refl _

/-- A record freed because its flow no longer takes it (R21). -/
theorem State.Committing.reject (h : s.Committing b length (r :: rs) n) (f : FlowId) (why : DiscardReason) :
    ((s.countDiscard f why).setStore (s.store.freeRecord r)).Committing b length rs (n + 0) := by
  obtain ⟨fr, g, e1, e2, -⟩ := h.turn
  have hrec : ∀ q : RecordId, q ≠ r → (s.store.freeRecord r).records[q] = s.store.records[q] := by
    intro q hq
    rw [FrameStore.freeRecord_records, if_neg (Ne.symm hq)]
  have hrec' : (s.store.freeRecord r).records[r] = none := by rw [FrameStore.freeRecord_records, if_pos rfl]
  have hbod : (s.store.freeRecord r).bodies = s.store.bodies := FrameStore.freeRecord_bodies _ _
  have hc := s.calm_countDiscard f why
  refine h.recheck (k := 0) (FrameStore.lists_freeRecord h.lists r) (h.space.freeRecord r) hbod hrec (.inl ⟨rfl, hrec'⟩)
    (fun f' => ?_) (fun g _ => hc.flows g.flow) rfl rfl rfl
  have he := hc.flows f'
  obtain ⟨q1, q2, q3, q4, -⟩ := h.queues f'
  obtain ⟨k1, k2, k3, k4, k5, k6, k7⟩ := he.limited (h.queues f').limited
  have hnq : r ∉ (s.flow f').queue := by
    intro hm
    obtain ⟨x, stamp, i1, i2, -⟩ := (q2 r).1 hm
    rw [e1] at i1
    cases i1
    rw [e2] at i2
    cases i2
  unfold State.queueAgrees
  simp only [State.setStore_flow, State.setStore_store]
  refine ⟨he.queue ▸ q1, fun q => ?_, ?_, ?_, k1, k2, k3, k4, k5, k6, k7⟩
  · rw [he.queue]
    by_cases hq : q = r
    · subst hq
      rw [hrec']
      exact ⟨fun hm => absurd hm hnq, fun ⟨x, stamp, i1, _⟩ => by cases i1⟩
    · rw [hrec q hq]; exact q2 q
  · rw [he.frames, he.queue]; exact q3
  · rw [he.bytes, he.queue, q4]
    congr 1
    refine List.map_congr_left fun q hq => ?_
    have hqr : q ≠ r := by rintro rfl; exact hnq hq
    unfold FrameStore.recordLength
    rw [hrec q hqr, hbod]

theorem State.Committing.commitRecord (h : s.Committing b length (r :: rs) n) :
    (s.commitRecord r).1.Committing b length rs (n + (s.commitRecord r).2) := by
  obtain ⟨fr, g, e1, e2, -⟩ := h.turn
  unfold State.commitRecord
  rw [e1]
  simp only
  rw [e2]
  simp only
  split
  · next ha => exact h.append e1 e2 ha
  · exact h.reject _ _

theorem State.Committing.commitRecords (rs : List RecordId) {s : State} {n : Nat} (h : s.Committing b length rs n) :
    (s.commitRecords rs).1.Committing b length [] (n + (s.commitRecords rs).2) := by
  induction rs generalizing s n with
  | nil => exact h
  | cons r rs ih =>
    have := ih h.commitRecord
    rw [Nat.add_assoc] at this
    exact this

theorem State.commitRecord_lane (s : State) (r : RecordId) : (s.commitRecord r).1.up = s.up := by
  unfold State.commitRecord
  simp only
  repeat' split
  all_goals rfl

theorem State.commitRecords_lane (rs : List RecordId) (s : State) : (s.commitRecords rs).1.up = s.up := by
  induction rs generalizing s with
  | nil => rfl
  | cons r rs ih => exact (ih _).trans (s.commitRecord_lane r)

/-- The body settled, and every record in its place (R33). -/
theorem State.Committing.settled {s : State} {n : Nat} (h : s.Committing b length [] n) (hl : s.up.lane.Light) :
    (s.setStore (s.store.settleBody b n)).FramesAgree := by
  obtain ⟨body, linked, b1, b2, b3⟩ := h.body
  obtain ⟨⟨l1, l2⟩, l3, l4, l5⟩ := Lane.Light.facts (t := s.setStore (s.store.settleBody b n)) hl
  have hcard := h.card
  have hfew := h.few
  simp only [List.length_nil, Nat.zero_add] at hcard hfew
  have hrec : (s.store.settleBody b n).records = s.store.records := by
    unfold FrameStore.settleBody
    split
    · exact FrameStore.freeBody_records _ _
    · rw [b1]
  have hbod : ∀ c, c ≠ b → (s.store.settleBody b n).bodies[c] = s.store.bodies[c] := by
    intro c hc
    unfold FrameStore.settleBody
    split
    · rw [FrameStore.freeBody_bodies, if_neg (Ne.symm hc)]
    · rw [b1]
      simp only
      rw [getElem_set_fin, if_neg (Ne.symm hc)]
  have hown : (n = 0 ∧ (s.store.settleBody b n).bodies[b] = none) ∨
      (n ≠ 0 ∧ (s.store.settleBody b n).bodies[b] = some { body with state := .stored, share := n }) := by
    unfold FrameStore.settleBody
    split
    · next hn => exact .inl ⟨hn, by rw [FrameStore.freeBody_bodies, if_pos rfl]⟩
    · next hn =>
      refine .inr ⟨hn, ?_⟩
      rw [b1]
      simp only
      rw [getElem_set_fin, if_pos rfl]
  have hsp := h.space.settleBody b1 b2 n
  have hshare : ∀ c, (s.store.settleBody b n).sharers c = s.store.sharers c := FrameStore.sharers_congr hrec
  have hlen : (s.store.settleBody b n).recordLength = s.store.recordLength := by
    funext q
    unfold FrameStore.recordLength
    rw [hrec]
    cases hq : s.store.records[q] with
    | none => rfl
    | some fr =>
      simp only
      by_cases hb : fr.body = b
      · subst hb
        rcases hown with ⟨hn, -⟩ | ⟨-, ho⟩
        · have hm := FrameStore.mem_sharers_of_some hq
          rw [Finset.card_eq_zero.1 (hcard.trans hn)] at hm
          exact absurd hm (Finset.notMem_empty q)
        · rw [ho, b1]
      · rw [hbod _ hb]
  refine ⟨FrameStore.lists_settleBody h.lists b n, hsp.1, hsp.2, ⟨fun c hc => ?_, fun c y hc => ?_⟩, fun f => ?_,
    fun x hx => ?_, fun r => ?_, fun c y hc => ?_, l3, ?_, ?_, fun g hg => ?_, h.requests, h.table⟩
  · rw [State.setStore_store, hshare]
    by_cases hcb : c = b
    · subst hcb
      rcases hown with ⟨hn, -⟩ | ⟨-, ho⟩
      · exact Finset.card_eq_zero.1 (hcard.trans hn)
      · rw [State.setStore_store, ho] at hc; cases hc
    · rw [State.setStore_store, hbod c hcb] at hc
      exact h.free c hc
  · rw [State.setStore_store, hshare]
    by_cases hcb : c = b
    · subst hcb
      rcases hown with ⟨-, ho⟩ | ⟨hn, ho⟩
      · rw [State.setStore_store, ho] at hc; cases hc
      · rw [State.setStore_store, ho] at hc
        cases hc
        exact ⟨hcard, Nat.one_le_iff_ne_zero.2 hn, hfew⟩
    · rw [State.setStore_store, hbod c hcb] at hc
      exact (h.others c y hcb hc).2
  · have hq := h.queues f
    unfold State.queueAgrees at hq ⊢
    rw [State.setStore_flow, State.setStore_store, hlen, hrec]
    exact hq
  · rw [State.setStore_store, hrec]; exact h.sending x hx
  · rw [l1, State.setStore_store, hrec]; exact h.reserved r
  · rw [l2]
    have : y.state = .stored := by
      by_cases hcb : c = b
      · subst hcb
        rcases hown with ⟨-, ho⟩ | ⟨-, ho⟩
        · rw [State.setStore_store, ho] at hc; cases hc
        · rw [State.setStore_store, ho] at hc
          cases hc
          rfl
      · rw [State.setStore_store, hbod c hcb] at hc
        exact (h.others c y hcb hc).1
    simp [this]
  · rw [l5, l4]; exact List.nodup_nil
  · rw [l5, l4]; exact Nat.zero_le _
  · rw [l5] at hg; cases hg

/-- The commit of a frame whose body is full (R33). -/
theorem State.FramesAgree.commit {s t : State} (h : s.FramesAgree) {rx : Reception} {claimed : Nat} {b : BodyId}
    {rs : List RecordId} {label : Tag} (hl : s.up.lane = .store rx claimed b rs label) (hfull : rx.actual = claimed)
    (hst : t.store = s.store) (hf : t.flows = s.flows) (hl' : t.up.lane = .idle) (hd : t.down = s.down)
    (ha : t.agent = s.agent) (hc : t.classifier = s.classifier) : (t.commit b rs).FramesAgree := by
  have hrc := h.reception
  unfold State.receptionAgrees at hrc
  rw [hl] at hrc
  obtain ⟨body, linked, pending, e1, e2, e3, e4, e5, e6, e7⟩ := hrc
  obtain ⟨c1, c2, c3⟩ := h.shares.2 b body e1
  have hfit := h.bodies b body e1
  obtain ⟨f1, f2, f3, f4⟩ := hfit
  rw [e2] at f4
  obtain ⟨g1, g2, g3⟩ := f4
  have hpend : pending = [] := by
    rcases e4 with e4 | e4
    · exact e4
    · rw [← List.length_eq_zero_iff]
      rw [f3, e3, ← hfull] at g3
      omega
  subst hpend
  have hres : ∀ r, r ∈ rs ↔ ∃ fr generation, s.store.records[r] = some fr ∧ fr.state = .reserved generation := by
    intro r
    have := h.reserved r
    rw [hl] at this
    exact this
  have hgr : s.grants = rs.filterMap s.store.grantOf := by unfold State.grants; rw [hl]
  have hflow : ∀ f, t.flow f = s.flow f := fun f => by unfold State.flow; rw [hf]
  have hcommit : t.Committing b claimed rs 0 := by
    refine ⟨by rw [hst]; exact h.lists, by rw [hst]; exact ⟨h.blocks, h.bodies⟩, fun f => ?_, fun x hx => ?_, e5, fun r => ?_,
      fun r hr => ?_, ?_, ?_, ?_, fun c hcn => ?_, fun c y hcb hcs => ?_, ?_, fun g hg => ?_,
      fun x hx => h.requests x (ha ▸ hx), fun i => hc ▸ h.table i⟩
    · have := h.queues f
      unfold State.queueAgrees at this ⊢
      rw [hflow, hst]
      exact this
    · rw [hst]; exact h.sending x (hd ▸ hx)
    · rw [hst]; exact hres r
    · rw [hst]; exact FrameStore.mem_sharers.2 (e7 r hr)
    · rw [hst]; exact ⟨body, linked, e1, e2, e3⟩
    · rw [hst, c1, e6, Nat.add_zero]
    · rw [e6]; exact c3
    · rw [hst]; exact h.shares.1 c (hst ▸ hcn)
    · have hcs : s.store.bodies[c] = some y := hst ▸ hcs
      rw [hst]
      refine ⟨?_, h.shares.2 c y hcs⟩
      by_contra hns
      have := (h.filling c y hcs).1 hns
      rw [hl] at this
      simp only [Lane.fillingBody, Option.some.injEq] at this
      exact hcb this.symm
    · rw [hst]
      have := h.grantsApart
      rw [hgr, hl] at this
      change (_ ++ []).Nodup at this
      rwa [List.append_nil] at this
    · rw [hst, ← hgr] at hg
      have := h.grantsKept g hg
      rw [hl] at this
      unfold State.grantKept at this ⊢
      rw [hflow, ha]
      exact this
  have hdone := hcommit.commitRecords
  rw [Nat.zero_add] at hdone
  unfold State.commit
  refine State.FramesAgree.calm (hdone.settled ?_) (State.calm_pauseTest _)
  rw [State.commitRecords_lane, hl']
  trivial

end Sys2Proof.Machine
end

