-- ==== Sys2Proof/Laws/Registers.lean ====
section
/-! SUPPORT. The own tag, the match table and a profile in their ranges (R57, R84, R136). -/
namespace Sys2Proof.Machine

/-- An entry that is read lies in its ranges (R57). -/
theorem decodeEntry_inRange {bs : List Byte} {e : MatchEntry} (h : decodeEntry bs = some e) : e.inRange := by
  unfold decodeEntry at h
  split at h
  · next v a hv ha =>
    split at h
    · next hc =>
      cases h
      refine ⟨hc.2.2.2, hc.2.2.1, ?_⟩
      simp only []
      unfold decodeAction at ha
      repeat' split at ha
      all_goals cases ha
      · trivial
      · trivial
      · assumption
    · cases h
  · cases h

theorem ownTagOf_range (b : Byte) : 0xF000 ≤ (ownTagOf b).toNat ∧ (ownTagOf b).toNat ≤ 0xF0FF := by
  have := b.isLt
  simp only [ownTagOf, Config.tagBase, BitVec.toNat_add, BitVec.toNat_ofNat]
  omega

theorem Classifier.count_entries (c : Classifier) (l : List Byte) : (c.count l).entries = c.entries := by
  unfold Classifier.count; split <;> rfl

theorem State.tableInRange_reset (s : State) (h : s.classifier = Classifier.reset) : s.tableInRange := by
  intro i
  rw [h]
  have : Classifier.reset.entries[i] = MatchEntry.reset := by simp [Classifier.reset]
  rw [this]
  exact ⟨by decide, by decide, trivial⟩

/-- A profile that is read lies in its ranges (R84). -/
theorem decodeProfile_good {bs : List Byte} {p : Profile} (h : decodeProfile bs = some p) : p.good = true := by
  unfold decodeProfile at h
  split at h
  · simp only [] at h
    split at h
    · next hg => cases h; simp only [Bool.and_eq_true] at hg; exact hg.1
    · cases h
  · cases h

end Sys2Proof.Machine
end

