-- ==== Sys2Proof/Laws/FramesLane.lean ====
section
/-! SUPPORT. The agreement of the store, the queues and the frames on their way through what arrives on the receive lane, the decisions, the return lane and the agent (R126 to R140, R157, R172). -/
namespace Sys2Proof.Machine

variable {s : State}

/-! ## What arrives (R126, R130 to R133) -/

theorem State.FramesAgree.closeGood (h : s.FramesAgree) {rx : Reception} {claimed : Nat}
    (hl : (∃ slot, s.up.lane = .request rx claimed slot) ∨ (∃ b rs label, s.up.lane = .store rx claimed b rs label) ∨
      s.up.lane = .pass rx claimed) (hfull : rx.actual = claimed) : s.closeGood.FramesAgree := by
  have hidle : (s.setLane .idle).countReceived.up.lane = .idle := by rw [State.countReceived_lane]; rfl
  have hagent : (s.setLane .idle).countReceived.agent = s.agent := by simp
  rcases hl with ⟨slot, hl⟩ | ⟨b, rs, label, hl⟩ | hl
  · unfold State.closeGood
    rw [hl]
    refine h.toLane (.of_eq (by simp)) (State.eases_of_flows (by simp)) (by rw [hl]; exact ⟨rfl, rfl⟩) ?_ (by simp)
      (fun x hx => ?_) (by simp)
    · simp only [State.setAgent_up]; rw [hidle]; trivial
    · simp only [State.setAgent_agent] at hx
      rwa [hagent] at hx
  · unfold State.closeGood
    rw [hl]
    exact h.commit hl hfull (by simp) (by simp) hidle (by simp) hagent (by simp)
  · unfold State.closeGood
    rw [hl]
    refine h.toLane (.of_eq (by simp)) (State.eases_of_flows (by simp)) (by rw [hl]; exact ⟨rfl, rfl⟩) ?_ (by simp)
      (fun x hx => ?_) (by simp)
    · rw [hidle]; trivial
    · rwa [hagent] at hx

theorem State.FramesAgree.closeTested (h : s.FramesAgree) {rx : Reception} {claimed : Nat}
    (hl : (∃ slot, s.up.lane = .request rx claimed slot) ∨ (∃ b rs label, s.up.lane = .store rx claimed b rs label) ∨
      s.up.lane = .pass rx claimed) : (s.closeTested rx claimed).FramesAgree := by
  unfold State.closeTested
  split
  · exact h.closeBad _
  · next he =>
    split
    · exact h.closeGood hl (not_not.1 he)
    · exact h.closeBad _

theorem State.FramesAgree.takeAbort (h : s.FramesAgree) : s.takeAbort.FramesAgree := by
  unfold State.takeAbort
  split
  all_goals first
    | exact h
    | exact h.closeBad _
    | exact h.holdSymbol _
    | exact h.closeIgnored (by assumption)

theorem State.FramesAgree.takeEnd (h : s.FramesAgree) : s.takeEnd.FramesAgree := by
  unfold State.takeEnd
  split
  · exact h
  · exact h.closeBad _
  · exact h.holdSymbol _
  · next rx claimed slot hl => exact h.closeTested (.inl ⟨slot, hl⟩)
  · next rx claimed b rs label hl => exact h.closeTested (.inr (.inl ⟨b, rs, label, hl⟩))
  · next rx claimed hl => exact h.closeTested (.inr (.inr hl))
  · next hl => exact h.closeIgnored hl

/-- The lane of a frame just opened (R126). -/
theorem Lane.light_opened : (Lane.lead Reception.opened []).Light := ⟨rfl, by decide⟩

theorem State.FramesAgree.open {t : State} (h : t.FramesAgree) (hl : t.up.lane = .idle) :
    (t.setLane (.lead Reception.opened [])).FramesAgree :=
  h.toLane (.refl _) (fun _ => .refl _) (by rw [hl]; exact ⟨rfl, rfl⟩) Lane.light_opened rfl (fun _ => id) rfl

theorem State.FramesAgree.takeStart (h : s.FramesAgree) : s.takeStart.FramesAgree := by
  unfold State.takeStart
  split
  all_goals first
    | exact h.holdSymbol _
    | exact h.open (by assumption)
    | (refine State.FramesAgree.open h.takeAbort ?_
       unfold State.takeAbort
       simp only [*]
       first
         | exact State.closeBad_lane _ _
         | exact State.closeIgnored_lane _)

theorem Reception.take_actual (rx : Reception) (b : Byte) : (rx.take b).actual = min (rx.actual + 1) 2049 := by
  unfold Reception.take
  split <;> rfl

theorem State.FramesAgree.leadArrived (h : s.FramesAgree) (hl : s.up.lane.HoldsNone) {rx : Reception} {bytes : List Byte}
    (ha : rx.actual = 12) : (s.leadArrived rx bytes).FramesAgree := by
  unfold State.leadArrived
  split
  · exact h.toLane (.refl _) (fun _ => .refl _) hl trivial rfl (fun _ => id) rfl
  · split
    · exact h.toLane (.of_eq (by simp)) (State.eases_of_flows (by simp)) hl trivial (by simp) (fun x hx => by simpa using hx)
        (by simp)
    · next hlen =>
      split
      · unfold State.routeRequest State.loseRequest
        repeat' split
        all_goals exact h.toLane (.refl _) (fun _ => .refl _) hl trivial rfl (fun _ => id) rfl
      · refine h.toLane (.refl _) (fun _ => .refl _) hl ?_ rfl (fun _ => id) rfl
        unfold leadLength Config.minFrame Config.maxFrame at hlen
        exact ⟨ha, by omega, by omega⟩

theorem State.FramesAgree.takeLeadByte (h : s.FramesAgree) {rx : Reception} {bytes : List Byte}
    (hl : s.up.lane = .lead rx bytes) (b : Byte) : (s.takeLeadByte rx bytes b).FramesAgree := by
  have hrc := h.reception
  unfold State.receptionAgrees at hrc
  rw [hl] at hrc
  have ht := rx.take_actual b
  have hn : s.up.lane.HoldsNone := by rw [hl]; exact ⟨rfl, rfl⟩
  unfold State.takeLeadByte Config.leadBytes
  rw [List.length_append, List.length_singleton]
  split
  · next hlt =>
    refine h.toLane (.refl _) (fun _ => .refl _) hn ?_ rfl (fun _ => id) rfl
    refine ⟨?_, by simpa using hlt⟩
    rw [ht, List.length_append, List.length_singleton]
    omega
  · exact h.leadArrived hn (by omega)

theorem State.FramesAgree.takeByte (h : s.FramesAgree) (b : Byte) : (s.takeByte b).FramesAgree := by
  unfold State.takeByte
  split
  · exact h
  · next hl => exact h.takeLeadByte hl b
  · exact h.holdSymbol _
  · next hl =>
    have hn : s.up.lane.HoldsNone := by rw [hl]; exact ⟨rfl, rfl⟩
    simp only
    split
    · exact h.toLane (.refl _) (fun _ => .refl _) hn trivial rfl (fun _ => id) rfl
    · exact h.toLane (.refl _) (fun _ => .refl _) hn trivial rfl (fun _ => id) rfl
  · next rx claimed body records label hl =>
    refine h.storeByte hl rfl rfl (.inr ⟨rfl, ?_⟩) rfl rfl rfl rfl
    rw [Reception.take_actual]
    omega
  · next hl => exact h.toLane (.refl _) (fun _ => .refl _) (by rw [hl]; exact ⟨rfl, rfl⟩) trivial rfl (fun _ => id) rfl
  · exact h

theorem State.FramesAgree.takeSymbol (h : s.FramesAgree) (x : Symbol) : (s.takeSymbol x).FramesAgree := by
  cases x
  · exact h.takeStart
  · exact h.takeByte _
  · exact h.takeEnd
  · exact h.takeAbort

theorem State.FramesAgree.takeHeld (xs : List Symbol) {s : State} (h : s.FramesAgree) : (s.takeHeld xs).FramesAgree := by
  induction xs generalizing s with
  | nil => exact h
  | cons x xs ih => exact ih (h.takeSymbol x)

/-! ## The decisions (R20, R30, R48, R129) -/

/-- An action in the table names different flows (R57). -/
theorem State.tableInRange.actionFlows (h : s.tableInRange) (bytes : List Byte) :
    (actionFlows (s.classifier.actionFor bytes)).Nodup ∧ (actionFlows (s.classifier.actionFor bytes)).length ≤ 2 := by
  have hq : ∀ a : MatchAction, (∀ f g r, a = .mirror f g r → f ≠ g) →
      (Machine.actionFlows a).Nodup ∧ (Machine.actionFlows a).length ≤ 2 := by
    intro a ha
    cases a with
    | mirror f g r => simpa [Machine.actionFlows] using ha f g r rfl
    | _ => simp [Machine.actionFlows]
  refine hq _ fun f g r he => ?_
  unfold Classifier.actionFor at he
  split at he
  · next i _ =>
    have := (h i).2.2
    rw [he] at this
    exact this
  · split at he <;> cases he

theorem State.FramesAgree.classify (h : s.FramesAgree) {rx : Reception} {bytes : List Byte} {held : List Symbol}
    (hl : s.up.lane = .deciding rx bytes .classify held) : (s.classify rx bytes held).FramesAgree := by
  obtain ⟨h1, h2⟩ := h.table.actionFlows bytes
  unfold State.classify
  simp only
  split
  · refine State.FramesAgree.takeHeld held (h.toLane (.refl _) (fun _ => .refl _) (by rw [hl]; exact ⟨rfl, rfl⟩) trivial rfl
      (fun _ => id) (Classifier.count_entries _ _))
  · next f rest he =>
    rw [he] at h1 h2
    exact h.decide hl rfl (.refl _) (fun _ => .refl _) rfl (fun _ => id) (Classifier.count_entries _ _) nofun h1
      (by simpa [Deciding.grants, Deciding.undecided] using h2) nofun

theorem State.FramesAgree.decideReservation (h : s.FramesAgree) {rx : Reception} {bytes : List Byte} {granted : List Grant}
    {label : Tag} {held : List Symbol} (hl : s.up.lane = .deciding rx bytes (.reserve granted label) held) :
    (s.decideReservation rx bytes granted label held).FramesAgree := by
  unfold State.decideReservation
  split
  · have hc := s.calm_poolDiscard granted
    refine State.FramesAgree.takeHeld held ((h.calm hc).toLane (.refl _) (fun _ => .refl _) ?_ trivial rfl (fun _ => id) rfl)
    rw [hc.lane, hl]
    exact ⟨rfl, rfl⟩
  · next st b rs hr =>
    have h1 := (h.reserve hl hr).storeBytes rfl (relabelled bytes label) 0
    refine State.FramesAgree.takeHeld held (h1.calm ?_)
    refine .of_same (by simp) ?_ (by simp) (by simp) (by simp) (by simp) (by simp)
    simp only [State.setLane_store, State.setStore_store]
    rw [State.pauseTest_store]
    exact .afterPause _

/-! ## The restart and the return lane (R137, R172) -/

theorem State.FramesAgree.beginRestart (h : s.FramesAgree) : s.beginRestart.FramesAgree := by
  unfold State.beginRestart
  simp only
  split
  · next hl =>
    refine h.close (.refl _) (State.eases_of_flows (by simp)) ?_ (by simp) (fun x hx => by cases hx) (by simp)
    simp only [State.setUp_up, State.freeReception_up]
    rw [hl]
    trivial
  · refine State.FramesAgree.takeHeld _ ?_
    refine h.close (.refl _) (State.eases_of_flows (by simp)) ?_ (by simp) (fun x hx => by cases hx) (by simp)
    exact trivial

theorem State.FramesAgree.completeResponse (h : s.FramesAgree) : s.completeResponse.FramesAgree := by
  have h1 : (s.freeReturnLane.setAgent { s.agent with responses := s.agent.responses.tail }).FramesAgree :=
    h.calm (.of_same rfl (.refl _) rfl rfl rfl rfl rfl)
  unfold State.completeResponse
  simp only
  split
  · exact h1.beginRestart
  · exact h1

/-! ## The agent (R157, R161) -/

theorem parseCommands_length (n : Nat) (bs : List Byte) (cs : List Command) (h : parseCommands n bs = some cs) :
    cs.length = n := by
  induction n generalizing bs cs with
  | zero =>
    cases bs with
    | nil => cases h; rfl
    | cons _ _ => cases h
  | succ n ih =>
    match bs with
    | [] => cases h
    | [_] => cases h
    | code :: len :: rest =>
      rw [parseCommands] at h
      split at h
      · cases h
      · split at h
        · cases h
        · next cs' hcs =>
          cases h
          rw [List.length_cons, ih _ _ hcs]

/-- A request holds at most eight commands (R161). -/
theorem parseBody_length {body : List Byte} {stopOnError : Bool} {commands : List Command}
    (h : parseBody body = some (stopOnError, commands)) : commands.length ≤ 8 := by
  unfold parseBody at h
  split at h
  · cases h
  · cases h
  · split at h
    · cases h
    · split at h
      · cases h
      · next hc =>
        split at h
        · cases h
        · next cs hcs =>
          cases h
          rw [parseCommands_length _ _ _ hcs]
          omega

theorem State.calm_take {slot : SlotId} {frame : List Byte} (hi : s.agent.state = .idle)
    (hs : s.agent.slots[slot] = .waiting frame) (tag : Tag) (request : List Byte) :
    s.Calm (s.setAgent ((s.agent.claim slot).answerTake tag request)) := by
  have hslots : ((s.agent.claim slot).answerTake tag request).slots = s.agent.slots.set slot .free := by
    unfold Agent.answerTake
    repeat' split
    all_goals rfl
  have hstate : ∀ x, ((s.agent.claim slot).answerTake tag request).state = .executing x → x.commands.length ≤ 8 ∧ x.index = 0 := by
    intro x hx
    unfold Agent.answerTake at hx
    repeat' split at hx
    · change s.agent.state = _ at hx; rw [hi] at hx; cases hx
    · change s.agent.state = _ at hx; rw [hi] at hx; cases hx
    · next hp => cases hx; exact ⟨parseBody_length hp, rfl⟩
  refine ⟨.refl _, fun _ => .refl _, rfl, fun _ => id, ?_, fun _ x hx => (hstate x hx).1, rfl⟩
  rw [State.setAgent_agent, Agent.commandsLeft_eq, Agent.commandsLeft_eq, hslots]
  have h1 : ((s.agent.claim slot).answerTake tag request).state.commandsLeft ≤ 8 := by
    unfold AgentState.commandsLeft
    split
    · omega
    · next x hx => exact le_trans (Nat.sub_le _ _) (hstate x hx).1
    · omega
    · omega
  have h2 := Finset.add_sum_erase Finset.univ (fun k : SlotId => (s.agent.slots[k]).commandsLeft) (Finset.mem_univ slot)
  have h3 := Finset.add_sum_erase Finset.univ (fun k : SlotId => ((s.agent.slots.set slot .free)[k]).commandsLeft)
    (Finset.mem_univ slot)
  have h4 : ∑ k ∈ Finset.univ.erase slot, ((s.agent.slots.set slot .free)[k]).commandsLeft =
      ∑ k ∈ Finset.univ.erase slot, (s.agent.slots[k]).commandsLeft :=
    Finset.sum_congr rfl fun k hk => by rw [getElem_set_fin, if_neg (Ne.symm (Finset.ne_of_mem_erase hk))]
  have h5 : ((s.agent.slots.set slot .free)[slot]).commandsLeft = 0 := by rw [getElem_set_fin, if_pos rfl]; rfl
  have h6 : (s.agent.slots[slot]).commandsLeft = 8 := by rw [hs]; rfl
  omega

/-- A command keeps the agreement when what it does at its owning block keeps it and leaves the agent alone. -/
theorem State.FramesAgree.takeCommand {code : Byte} {args : List Byte} {run : State → Answer} {t : State} (h : s.FramesAgree)
    (hr : (run s).state.FramesAgree) (ha : (run s).state.agent = s.agent)
    (he : takeCommand code args run s = .next t) : t.FramesAgree := by
  unfold Machine.takeCommand at he
  split at he <;> cases he
  · next hd =>
    obtain ⟨x, hx, hi⟩ := State.commandDue_index hd
    exact hr.calm (State.calm_finish (ha ▸ hx) hi _ _ _)
  · exact h

theorem State.calm_clearScope (c : CounterScope) : s.Calm (s.clearScope c) := by
  cases c with
  | flow f => exact .setFlow ⟨rfl, rfl, rfl, rfl, rfl, rfl, .inl, id⟩
  | _ => exact .of_same rfl (.refl _) rfl rfl rfl rfl rfl

/-- OPEN moves the generation once and is one command of the request in execution (R3, R4). -/
theorem State.FramesAgree.open_flow (h : s.FramesAgree) {f : FlowId} (hd : (s.flow f).state = .disabled) {t : State}
    {y : Flow} (hfl : t.flows = s.flows.set f y) (hq : y.queue = (s.flow f).queue)
    (hn : y.queuedFrames = (s.flow f).queuedFrames ∧ y.queuedBytes = (s.flow f).queuedBytes ∧
      y.frameLimit = (s.flow f).frameLimit ∧ y.byteLimit = (s.flow f).byteLimit)
    (hg : y.generation = (s.flow f).generation + 1) (hst : t.store = s.store) (hu : t.up = s.up) (hdn : t.down = s.down)
    (ha : t.agent.commandsLeft + 1 ≤ s.agent.commandsLeft)
    (hreq : ∀ x, t.agent.state = .executing x → x.commands.length ≤ 8) (hc : t.classifier = s.classifier) :
    t.FramesAgree := by
  have hsame : t.flow f = y := by unfold State.flow; rw [hfl]; simp
  have hother : ∀ g, f ≠ g → t.flow g = s.flow g := by
    intro g hg
    have := s.flow_setFlow_of_ne f g y hg
    unfold State.flow at this ⊢
    rw [hfl]
    exact this
  have hempty := (h.queues f).limited
  have hq0 : (s.flow f).queue = [] := hempty.2.2.2.2.2.2 hd
  have hgr : t.grants = s.grants := by unfold State.grants; rw [hu, hst]
  refine h.assemble (.of_eq hst) (fun g => ?_) (fun x hx => hdn ▸ hx) (by rw [hu]) (by rw [hu])
    (State.receptionAgrees_congr h.reception (.of_eq hst) (by rw [hu])) (by rw [hgr, hu]; exact h.grantsApart)
    (by rw [hgr, hu]; exact h.grantsFew) (fun g hm => ?_) hreq (fun i => hc ▸ h.table i)
  · by_cases hfg : f = g
    · subst hfg
      rw [hsame]
      refine ⟨hq, hn.1, hn.2.1, ?_⟩
      obtain ⟨l1, l2, l3, l4, l5, l6, -⟩ := hempty
      unfold Flow.Limited
      rw [hn.1, hn.2.1, hn.2.2.1, hn.2.2.2]
      exact ⟨l1, l2, l3, l4, l5, l6, fun _ => hq.trans hq0⟩
    · rw [hother g hfg]
      exact ⟨rfl, rfl, rfl, (h.queues g).limited⟩
  · rw [hgr] at hm
    rw [hu]
    obtain ⟨k1, k2⟩ := h.grantsKept g hm
    unfold State.grantKept
    simp only
    by_cases hfg : f = g.flow
    · have hstep : ((s.flow g.flow).generation + 1 - g.generation).toNat =
          ((s.flow g.flow).generation - g.generation).toNat + 1 := by
        have e : (s.flow g.flow).generation + 1 - g.generation = ((s.flow g.flow).generation - g.generation) + 1 := by
          rw [BitVec.sub_eq_add_neg, BitVec.sub_eq_add_neg, BitVec.add_assoc, BitVec.add_comm 1 _, ← BitVec.add_assoc]
        rw [e, BitVec.toNat_add]
        have : (1#8).toNat = 1 := rfl
        rw [show ((1 : Byte)).toNat = 1 from rfl]
        omega
      rw [← hfg] at hstep k1
      rw [← hfg, hsame, hg]
      refine ⟨by omega, fun e _ => ?_⟩
      rw [e] at hstep
      simp at hstep
    · rw [hother _ hfg]
      exact ⟨by omega, k2⟩

/-! ## After a reset (R25, R43) -/

theorem Flow.limited_reset : Flow.reset.Limited := by
  unfold Flow.Limited Flow.reset
  simp

/-- Nothing is queued, received, stored or sent after either reset. -/
theorem State.framesAgree_reset (h1 : s.flows = State.reset.flows) (h2 : s.store = FrameStore.reset)
    (h3 : s.up.lane = .idle) (h4 : s.down.sending = none) (h5 : s.agent.state = .idle)
    (h6 : s.classifier = Classifier.reset) : s.FramesAgree := by
  have hflow : ∀ f, s.flow f = Flow.reset := fun f => by unfold State.flow; rw [h1]; simp [State.reset]
  have hrec : ∀ r : RecordId, s.store.records[r] = none := by
    intro r
    rw [h2, FrameStore.reset_records]
    show (Vector.replicate 1024 (none : Option FrameRecord))[r.val] = none
    simp
  have hbod : ∀ b : BodyId, s.store.bodies[b] = none := by
    intro b
    rw [h2, FrameStore.reset_bodies]
    show (Vector.replicate 1024 (none : Option Body))[b.val] = none
    simp
  obtain ⟨⟨l1, l2⟩, l3, l4, l5⟩ := Lane.Light.facts (t := s) (by rw [h3]; trivial)
  have hsp := FrameStore.SpaceAgrees.reset
  rw [← h2] at hsp
  refine ⟨by rw [h2]; exact FrameStore.lists_reset, hsp.1, hsp.2, ⟨fun b _ => ?_, fun b body hb => ?_⟩, fun f => ?_,
    fun t ht => ?_, fun r => ?_, fun b body hb => ?_, l3, ?_, ?_, fun g hg => ?_, fun x hx => ?_, State.tableInRange_reset s h6⟩
  · ext r
    rw [FrameStore.mem_sharers, hrec]
    simp
  · rw [hbod] at hb; cases hb
  · unfold State.queueAgrees
    rw [hflow]
    refine ⟨List.nodup_nil, fun r => ?_, rfl, rfl, Flow.limited_reset⟩
    rw [hrec]
    exact ⟨fun e => absurd e List.not_mem_nil, fun ⟨_, _, e, _⟩ => by cases e⟩
  · rw [h4] at ht; cases ht
  · rw [l1, hrec]
    exact ⟨fun e => absurd e List.not_mem_nil, fun ⟨_, _, e, _⟩ => by cases e⟩
  · rw [hbod] at hb; cases hb
  · rw [l5, l4]; exact List.nodup_nil
  · rw [l5, l4]; exact Nat.zero_le _
  · rw [l5] at hg; cases hg
  · rw [h5] at hx; cases hx

end Sys2Proof.Machine
end

