-- ==== Sys2Proof/Laws/NoticeFrames.lean ====
section
/-! SUPPORT. The Notice Unit under everything but its own commands and builds: nothing changes there but the reported conditions. -/
namespace Sys2Proof.Machine

/-- Nothing changes at the Notice Unit but the reported conditions. -/
def State.KeepsNotices (s t : State) : Prop := t.notices = { s.notices with reports := t.notices.reports }

theorem State.KeepsNotices.trans {a b c : State} (h : a.KeepsNotices b) (h' : b.KeepsNotices c) : a.KeepsNotices c := by
  unfold State.KeepsNotices at *
  rw [h', h]

theorem State.KeepsNotices.same {a b : State} (h : b.notices = a.notices) : a.KeepsNotices b := by
  unfold State.KeepsNotices
  rw [h]

theorem State.KeepsNotices.of {a b c : State} (h : b.notices = a.notices) (h' : b.KeepsNotices c) : a.KeepsNotices c :=
  (State.KeepsNotices.same h).trans h'

variable (s : State)

theorem State.keepsNotices_report (k : NoticeKind) (f : FlowId) : s.KeepsNotices (s.report k f) := by
  exact rfl

theorem State.keepsNotices_reportGlobal (k : NoticeKind) : s.KeepsNotices (s.reportGlobal k) := by
  exact rfl

theorem State.keepsNotices_pauseTest : s.KeepsNotices s.pauseTest := by
  unfold State.pauseTest
  repeat' split
  all_goals exact rfl

theorem State.keepsNotices_enterDisabled (f : FlowId) : s.KeepsNotices (s.enterDisabled f) := by
  exact .of (by simp) (State.keepsNotices_report _ _ _)

theorem State.keepsNotices_closeFlow (f : FlowId) : s.KeepsNotices (s.closeFlow f) := by
  unfold State.closeFlow
  split
  · exact s.keepsNotices_enterDisabled f
  · exact rfl

theorem State.keepsNotices_completeFlush (f : FlowId) (back : ReturnState) : s.KeepsNotices (s.completeFlush f back) := by
  unfold State.completeFlush
  repeat' split
  all_goals first
    | exact rfl
    | exact s.keepsNotices_enterDisabled f

theorem State.keepsNotices_settleFlow (f : FlowId) : s.KeepsNotices (s.settleFlow f) := by
  unfold State.settleFlow
  repeat' split
  all_goals first
    | exact rfl
    | exact s.keepsNotices_enterDisabled f
    | exact s.keepsNotices_completeFlush f _

theorem State.keepsNotices_settleDrain (f : FlowId) : s.KeepsNotices (s.settleDrain f) := by
  unfold State.settleDrain
  split
  · exact s.keepsNotices_enterDisabled f
  · exact rfl

theorem State.keepsNotices_startFlush (f : FlowId) (back : ReturnState) : s.KeepsNotices (s.startFlush f back) := by
  exact .of (by simp) (State.keepsNotices_settleFlow _ f)

theorem State.keepsNotices_reportRemoval (f : FlowId) (why : DiscardReason) : s.KeepsNotices (s.reportRemoval f why) := by
  unfold State.reportRemoval
  split <;> exact rfl

theorem State.keepsNotices_discardHead (f : FlowId) (why : DiscardReason) : s.KeepsNotices (s.discardHead f why) := by
  unfold State.discardHead
  split
  · exact rfl
  · exact .of (by simp) ((State.keepsNotices_pauseTest _).trans
      ((State.keepsNotices_reportRemoval _ f why).trans (State.keepsNotices_settleFlow _ f)))

theorem State.keepsNotices_removeStale (f : FlowId) (n : Nat) : s.KeepsNotices (s.removeStale f n) := by
  induction n generalizing s with
  | zero => exact rfl
  | succ n ih =>
    unfold State.removeStale
    repeat' split
    all_goals first
      | exact rfl
      | exact (s.keepsNotices_discardHead f .stale).trans (ih _)

theorem State.keepsNotices_ageFlow (f : FlowId) : s.KeepsNotices (s.ageFlow f) := by
  exact s.keepsNotices_removeStale f _

theorem State.keepsNotices_makeRoom (f : FlowId) (length n : Nat) : s.KeepsNotices (s.makeRoom f length n) := by
  induction n generalizing s with
  | zero => exact rfl
  | succ n ih =>
    unfold State.makeRoom
    split
    · exact rfl
    · exact (s.keepsNotices_discardHead f .head).trans (ih _)

theorem State.keepsNotices_admit (f : FlowId) (length : Nat) : s.KeepsNotices (s.admitting f length).1 := by
  unfold State.admitting
  simp only []
  repeat' split
  all_goals first
    | exact rfl
    | exact s.keepsNotices_makeRoom f length _

theorem State.keepsNotices_commit (b : BodyId) (records : List RecordId) : s.KeepsNotices (s.commit b records) := by
  exact .of (by simp) (State.keepsNotices_pauseTest _)

theorem State.keepsNotices_swap (f : FlowId) : s.KeepsNotices (s.swap f) := by
  unfold State.swap
  split
  · exact rfl
  · exact .of (by simp) (State.keepsNotices_report _ _ f)

theorem State.keepsNotices_expireFlow (f : FlowId) : s.KeepsNotices (s.expireFlow f) := by
  unfold State.expireFlow
  simp only []
  split
  · exact rfl
  · exact .of (by simp) (State.keepsNotices_report _ _ f)
  · exact .of rfl (State.keepsNotices_closeFlow _ f)

theorem State.keepsNotices_countDown (f : FlowId) : s.KeepsNotices (s.countDown f) := by
  unfold State.countDown
  repeat' split
  · exact rfl
  · exact s.keepsNotices_swap f
  · exact s.keepsNotices_expireFlow f

theorem State.keepsNotices_profileStep (f : FlowId) : s.KeepsNotices (s.profileStep f) := by
  unfold State.profileStep
  repeat' split
  all_goals first
    | exact rfl
    | exact s.keepsNotices_swap f
    | exact s.keepsNotices_countDown f

theorem State.keepsNotices_takeProfileStep (f : FlowId) : s.KeepsNotices (s.takeProfileStep f) := by
  exact .of rfl (State.keepsNotices_profileStep _ f)

theorem State.keepsNotices_agingCheck : s.KeepsNotices s.agingCheck := by
  unfold State.agingCheck
  generalize allFlows = fs
  induction fs generalizing s with
  | nil => exact rfl
  | cons f fs ih =>
    rw [List.foldl_cons]
    split
    · exact (s.keepsNotices_ageFlow f).trans (ih _)
    · exact ih _

theorem State.keepsNotices_stuckTest : s.KeepsNotices s.stuckTest := by
  unfold State.stuckTest
  split <;> exact rfl

theorem State.keepsNotices_takeHoldTick : s.KeepsNotices s.takeHoldTick := by
  unfold State.takeHoldTick
  split
  · exact .of rfl (State.keepsNotices_stuckTest _)
  · exact rfl

theorem State.keepsNotices_ingressError (e : IngressError) : s.KeepsNotices (s.ingressError e) := by
  unfold State.ingressError
  split <;> exact rfl

theorem State.keepsNotices_freeReception : s.KeepsNotices s.freeReception := by
  unfold State.freeReception
  split
  all_goals first
    | exact rfl
    | exact .of rfl (State.keepsNotices_pauseTest _)

theorem State.keepsNotices_closeBad (e : IngressError) : s.KeepsNotices (s.closeBad e) := by
  exact s.keepsNotices_freeReception.trans (.of (by simp) (State.keepsNotices_ingressError _ e))

theorem State.keepsNotices_closeGood : s.KeepsNotices s.closeGood := by
  unfold State.closeGood
  simp only []
  split
  all_goals first
    | exact rfl
    | exact .of (by simp) (State.keepsNotices_commit _ _ _)
    | exact .same (by simp)

theorem State.keepsNotices_closeTested (rx : Reception) (claimed : Nat) : s.KeepsNotices (s.closeTested rx claimed) := by
  unfold State.closeTested
  repeat' split
  · exact s.keepsNotices_closeBad _
  · exact s.keepsNotices_closeGood
  · exact s.keepsNotices_closeBad _

theorem State.keepsNotices_loseRequest (bytes : List Byte) : s.KeepsNotices (s.loseRequest bytes) := by
  exact rfl

theorem State.keepsNotices_routeRequest (rx : Reception) (bytes : List Byte) : s.KeepsNotices (s.routeRequest rx bytes) := by
  unfold State.routeRequest
  repeat' split
  all_goals exact rfl

theorem State.keepsNotices_leadArrived (rx : Reception) (bytes : List Byte) : s.KeepsNotices (s.leadArrived rx bytes) := by
  unfold State.leadArrived
  repeat' split
  · exact rfl
  · exact s.keepsNotices_ingressError .lead
  · exact s.keepsNotices_routeRequest rx bytes
  · exact rfl

theorem State.keepsNotices_takeAbort : s.KeepsNotices s.takeAbort := by
  unfold State.takeAbort
  split
  all_goals first
    | exact s.keepsNotices_closeBad _
    | exact .same (by simp)

theorem State.keepsNotices_takeStart : s.KeepsNotices s.takeStart := by
  unfold State.takeStart
  split
  all_goals first
    | exact s.keepsNotices_takeAbort.trans (.same rfl)
    | exact .same (by simp)

theorem State.keepsNotices_takeLeadByte (rx : Reception) (bytes : List Byte) (b : Byte) : s.KeepsNotices (s.takeLeadByte rx bytes b) := by
  unfold State.takeLeadByte
  split
  · exact rfl
  · exact s.keepsNotices_leadArrived _ _

theorem State.keepsNotices_takeByte (b : Byte) : s.KeepsNotices (s.takeByte b) := by
  unfold State.takeByte
  simp only []
  split
  · exact rfl
  · exact s.keepsNotices_takeLeadByte _ _ b
  · exact .same (by simp)
  · split <;> exact rfl
  all_goals exact rfl

theorem State.keepsNotices_takeEnd : s.KeepsNotices s.takeEnd := by
  unfold State.takeEnd
  split
  all_goals first
    | exact s.keepsNotices_closeBad _
    | exact s.keepsNotices_closeTested _ _
    | exact .same (by simp)

theorem State.keepsNotices_takeSymbol (x : Symbol) : s.KeepsNotices (s.takeSymbol x) := by
  cases x
  · exact s.keepsNotices_takeStart
  · exact s.keepsNotices_takeByte _
  · exact s.keepsNotices_takeEnd
  · exact s.keepsNotices_takeAbort

theorem State.keepsNotices_takeHeld (xs : List Symbol) : s.KeepsNotices (s.takeHeld xs) := by
  induction xs generalizing s with
  | nil => exact rfl
  | cons x xs ih => exact (s.keepsNotices_takeSymbol x).trans (ih _)

theorem State.keepsNotices_classify (rx : Reception) (bytes : List Byte) (held : List Symbol) : s.KeepsNotices (s.classify rx bytes held) := by
  unfold State.classify
  simp only []
  split
  · exact .of rfl (State.keepsNotices_takeHeld _ held)
  · exact rfl

theorem State.keepsNotices_decideAdmission (rx : Reception) (bytes : List Byte) (f : FlowId) (rest : List FlowId)
    (granted : List Grant) (label : Tag) (held : List Symbol) : s.KeepsNotices (s.decideAdmission rx bytes f rest granted label held) := by
  unfold State.decideAdmission
  simp only []
  repeat' split
  · exact s.keepsNotices_admit _ _
  · exact (s.keepsNotices_admit _ _).trans (.of rfl (State.keepsNotices_takeHeld _ held))
  · exact s.keepsNotices_admit _ _

theorem State.keepsNotices_decideReservation (rx : Reception) (bytes : List Byte) (granted : List Grant) (label : Tag)
    (held : List Symbol) : s.KeepsNotices (s.decideReservation rx bytes granted label held) := by
  unfold State.decideReservation
  split
  · exact .of (by simp) (State.keepsNotices_takeHeld _ held)
  · next st b records _ =>
    have h1 : s.KeepsNotices (s.setStore (st.storeBytes b 0 (relabelled bytes label))).pauseTest :=
      .of rfl (State.keepsNotices_pauseTest (s.setStore (st.storeBytes b 0 (relabelled bytes label))))
    exact h1.trans (.of (State.setLane_notices _ (.store rx (leadLength bytes) b records label))
      (State.keepsNotices_takeHeld _ held))

theorem State.keepsNotices_beginRestart : s.KeepsNotices s.beginRestart := by
  unfold State.beginRestart
  simp only []
  split
  · exact s.keepsNotices_freeReception
  · exact s.keepsNotices_freeReception.trans
      (.of (b := (((s.freeReception.setAgent { s.freeReception.agent with state := .restarting }).setUp
        { s.freeReception.up with restartCondition := true }).setLane (.ignore s.up.lane.claimed))) rfl (State.keepsNotices_takeHeld _ _))

theorem State.keepsNotices_completeResponse : s.KeepsNotices s.completeResponse := by
  unfold State.completeResponse
  simp only []
  split
  · exact .of (b := s.freeReturnLane.setAgent { s.agent with responses := s.agent.responses.tail }) rfl
      (State.keepsNotices_beginRestart _)
  · exact rfl

end Sys2Proof.Machine
end

