-- ==== Sys2Proof/Laws/NoticeLegal.lean ====
section
/-! SUPPORT. Notice items and lists in agreement (R176) under the operations of the Notice Unit. -/
namespace Sys2Proof.Machine

theorem NoticeUnit.legal_reset : NoticeUnit.reset.legal := by
  have e : ∀ i : ItemId, NoticeUnit.reset.items[i] = NoticeItem.reset := fun i => by simp [NoticeUnit.reset]
  refine ⟨fun i => ?_, List.nodup_nil, fun i => ?_, List.nodup_nil, nofun, (show 0 ≤ 16 by decide)⟩
  · rw [e]; exact ⟨by decide, rfl⟩
  · rw [e]; simp [NoticeUnit.reset, NoticeItem.reset]

theorem NoticeItem.isSent_iff (x : NoticeItem) : x.isSent = true ↔ ∃ a b c d, x.state = .sent a b c d := by
  unfold NoticeItem.isSent; cases x.state <;> simp

/-- Items that agree in state and count, and the same lists. -/
theorem NoticeUnit.legal_of_same {n m : NoticeUnit} (h : n.legal) (h1 : ∀ i : ItemId, m.items[i].state = n.items[i].state ∧ m.items[i].count = n.items[i].count)
    (h2 : m.raisedList = n.raisedList) (h3 : m.repeatList = n.repeatList) (h4 : m.queue.length ≤ 16) : m.legal := by
  obtain ⟨a, b, c, d, e, f⟩ := h
  refine ⟨fun i => ?_, h2 ▸ b, fun i => ?_, h3 ▸ d, fun i hi => ?_, h4⟩
  · have := a i
    unfold NoticeItem.legal at *
    rw [(h1 i).1, (h1 i).2]; exact this
  · rw [h2, (h1 i).1]; exact c i
  · rw [h3] at hi
    have := e i hi
    unfold NoticeItem.isSent at *
    rw [(h1 i).1]; exact this

/-- One item replaced by a legal one, and the lists with it. -/
theorem NoticeUnit.legal_setItem {n m : NoticeUnit} (h : n.legal) (i : ItemId) (x : NoticeItem) (hx : x.legal) (hi : m.items = n.items.set i x)
    (hr : m.raisedList.Nodup) (hr' : ∀ j, j ∈ m.raisedList ↔ (j = i ∧ x.state = .raised ∨ j ≠ i ∧ j ∈ n.raisedList))
    (hp : m.repeatList.Nodup) (hp' : ∀ j, j ∈ m.repeatList → (j = i ∧ x.isSent = true ∨ j ≠ i ∧ j ∈ n.repeatList)) (hq : m.queue.length ≤ 16) : m.legal := by
  obtain ⟨a, b, c, d, e, f⟩ := h
  have g : ∀ j : ItemId, m.items[j] = if i = j then x else n.items[j] := fun j => by
    rw [hi]; simp [Vector.getElem_set, Fin.ext_iff]
  refine ⟨fun j => ?_, hr, fun j => ?_, hp, fun j hj => ?_, hq⟩
  · rw [g]; split
    · exact hx
    · exact a j
  · rw [g, hr']
    split
    · next he => subst he; simp
    · next he => rw [← c j]; simp [Ne.symm he]
  · rw [g]
    rcases hp' j hj with ⟨rfl, hx⟩ | ⟨hne, hj⟩
    · rw [if_pos rfl]; exact hx
    · rw [if_neg (Ne.symm hne)]; exact e j hj

theorem NoticeUnit.legal_occur {n : NoticeUnit} (h : n.legal) (i : ItemId) : (n.occur i).legal := by
  obtain ⟨a, b, c, d, e, f⟩ := id h
  have ai := a i
  unfold NoticeItem.legal at ai
  unfold NoticeUnit.occur
  repeat' split
  · next hs =>
    have hnr : i ∉ n.raisedList := by rw [c, hs]; simp
    have hnp : i ∉ n.repeatList := fun hm => by obtain ⟨_, _, _, _, h'⟩ := (NoticeItem.isSent_iff _).1 (e i hm); rw [hs] at h'; cases h'
    refine NoticeUnit.legal_setItem h i _ ?_ rfl ?_ ?_ d ?_ f
    · exact ⟨by simp, by simp⟩
    · simp [List.nodup_append, b]; exact fun x hx he => hnr (he ▸ hx)
    · intro j; simp only [List.mem_append, List.mem_singleton, and_true]
      constructor
      · rintro (hj | rfl)
        · exact .inr ⟨fun he => hnr (he ▸ hj), hj⟩
        · exact .inl rfl
      · rintro (rfl | ⟨_, hj⟩)
        · exact .inr rfl
        · exact .inl hj
    · exact fun j hj => .inr ⟨fun he => hnp (he ▸ hj), hj⟩
  · next hs =>
    have hr : i ∈ n.raisedList := by rw [c, hs]
    have hnp : i ∉ n.repeatList := fun hm => by obtain ⟨_, _, _, _, h'⟩ := (NoticeItem.isSent_iff _).1 (e i hm); rw [hs] at h'; cases h'
    rw [hs] at ai
    refine NoticeUnit.legal_setItem h i _ ?_ rfl b ?_ d ?_ f
    · exact ⟨min_le_right _ _, by simp only [hs, countUp, Config.saturation]; omega⟩
    · intro j; by_cases hj : j = i
      · subst hj; exact ⟨fun _ => .inl ⟨rfl, hs⟩, fun _ => hr⟩
      · simp [NoticeUnit.setItem, hj]
    · exact fun j hj => .inr ⟨fun he => hnp (he ▸ hj), hj⟩
  · next again number sc ep hs =>
    have hnr : i ∉ n.raisedList := by rw [c, hs]; simp
    rw [hs] at ai
    refine NoticeUnit.legal_setItem h i _ ?_ rfl b ?_ d ?_ f
    · exact ⟨min_le_right _ _, by simp only [countUp, Config.saturation]; simp⟩
    · intro j; by_cases hj : j = i
      · subst hj; simp [NoticeUnit.setItem, hnr]
      · simp [NoticeUnit.setItem, hj]
    · intro j hj; by_cases hji : j = i
      · exact .inl ⟨hji, rfl⟩
      · exact .inr ⟨hji, hj⟩
  · exact h

theorem NoticeUnit.legal_firstBuild {n : NoticeUnit} (h : n.legal) (ownTag : Tag) (i : ItemId) (rest : List ItemId) (hb : n.buildAllowed = true) (hr : n.raisedList = i :: rest) (hp : n.repeatList = []) : (n.firstBuild ownTag i rest).legal := by
  obtain ⟨a, b, c, d, e, f⟩ := id h
  simp only [NoticeUnit.buildAllowed, Bool.and_eq_true, decide_eq_true_eq, Config.noticeEntries] at hb
  rw [hr, List.nodup_cons] at b
  refine NoticeUnit.legal_setItem h i _ ?_ rfl b.2 ?_ ?_ ?_ ?_
  · exact ⟨by simp, by simp⟩
  · intro j; rw [hr]; simp only [NoticeUnit.firstBuild]
    constructor
    · intro hj; exact .inr ⟨fun he => b.1 (he ▸ hj), List.mem_cons_of_mem _ hj⟩
    · rintro (⟨_, h⟩ | ⟨hne, hj⟩)
      · cases h
      · exact (List.mem_cons.1 hj).resolve_left hne
  · exact d
  · intro j hj; simp only [NoticeUnit.firstBuild, NoticeUnit.setItem] at hj; rw [hp] at hj; cases hj
  · show (n.queue ++ [_]).length ≤ 16
    rw [List.length_append]; exact of_decide_eq_true hb.2

theorem NoticeUnit.legal_repeatBuild {n : NoticeUnit} (h : n.legal) (ownTag : Tag) (i : ItemId) (rest : List ItemId) (hb : n.buildAllowed = true) (hr : n.repeatList = i :: rest) : (n.repeatBuild ownTag i rest).legal := by
  obtain ⟨a, b, c, d, e, f⟩ := id h
  simp only [NoticeUnit.buildAllowed, Bool.and_eq_true, decide_eq_true_eq, Config.noticeEntries] at hb
  rw [hr, List.nodup_cons] at d
  have hs := e i (by rw [hr]; exact List.mem_cons_self)
  obtain ⟨ag, nu, sc, ep, hst⟩ := (NoticeItem.isSent_iff _).1 hs
  have ai := a i
  unfold NoticeItem.legal at ai; rw [hst] at ai
  have hnr : i ∉ n.raisedList := by rw [c, hst]; simp
  unfold NoticeUnit.repeatBuild
  simp only [hst]
  refine NoticeUnit.legal_setItem h i _ ?_ rfl b ?_ ?_ ?_ ?_
  · exact ai
  · intro j; by_cases hj : j = i
    · subst hj; simp [NoticeUnit.setItem, hnr]
    · simp [NoticeUnit.setItem, hj]
  · exact d.2
  · intro j hj; exact .inr ⟨fun he => d.1 (he ▸ hj), by rw [hr]; exact List.mem_cons_of_mem _ hj⟩
  · show (n.queue ++ [_]).length ≤ 16
    rw [List.length_append]; exact of_decide_eq_true hb.2

theorem NoticeUnit.legal_acknowledge {n : NoticeUnit} (h : n.legal) (i : ItemId) (again : Bool) (nu sc ep) (hst : n.items[i].state = .sent again nu sc ep) : (n.acknowledge i again).legal := by
  obtain ⟨a, b, c, d, e, f⟩ := id h
  have ai := a i
  unfold NoticeItem.legal at ai; rw [hst] at ai
  have hnr : i ∉ n.raisedList := by rw [c, hst]; simp
  unfold NoticeUnit.acknowledge
  cases again
  · refine NoticeUnit.legal_setItem h i _ ?_ rfl b ?_ (d.filter _) ?_ f
    · exact ⟨by simp, rfl⟩
    · intro j; by_cases hj : j = i
      · subst hj; simp [NoticeUnit.setItem, hnr]
      · simp [NoticeUnit.setItem, hj]
    · intro j hj; simp at hj; exact .inr ⟨hj.2, hj.1⟩
  · refine NoticeUnit.legal_setItem h i _ ?_ rfl ?_ ?_ (d.filter _) ?_ f
    · exact ⟨ai.1, by simp only; have := ai.2; exact Nat.one_le_iff_ne_zero.2 (fun h0 => by have := this.1 h0; cases this)⟩
    · simp [List.nodup_append, b]; exact fun x hx he => hnr (he ▸ hx)
    · intro j; simp only [NoticeUnit.setItem, if_true, List.mem_append, List.mem_singleton, and_true]
      constructor
      · rintro (hj | rfl)
        · exact .inr ⟨fun he => hnr (he ▸ hj), hj⟩
        · exact .inl rfl
      · rintro (rfl | ⟨_, hj⟩)
        · exact .inr rfl
        · exact .inl hj
    · intro j hj; simp at hj; exact .inr ⟨hj.2, hj.1⟩

theorem NoticeItem.ticked_spec (x : NoticeItem) : x.ticked.count = x.count ∧ (x.ticked.state = .raised ↔ x.state = .raised) ∧ x.ticked.isSent = x.isSent ∧ (x.legal → x.ticked.legal) := by
  obtain ⟨st, c, t⟩ := x
  cases st <;> simp [NoticeItem.ticked, NoticeItem.isSent, NoticeItem.legal]

theorem NoticeItem.isSent_of_repeatDueAt {x : NoticeItem} {n : Nat} (h : x.repeatDueAt n = true) : x.isSent = true := by
  obtain ⟨st, c, t⟩ := x
  cases st <;> simp_all [NoticeItem.repeatDueAt, NoticeItem.epochsSent, NoticeItem.isSent]

theorem NoticeUnit.legal_tick {n : NoticeUnit} (h : n.legal) (i : ItemId) : (n.tick i).legal := by
  obtain ⟨a, b, c, d, e, f⟩ := id h
  obtain ⟨t1, t2, t3, t4⟩ := NoticeItem.ticked_spec n.items[i]
  refine NoticeUnit.legal_setItem h i _ (t4 (a i)) rfl b ?_ ?_ ?_ f
  · intro j; by_cases hj : j = i
    · subst hj; exact ⟨fun h => .inl ⟨rfl, t2.2 ((c _).1 h)⟩, fun h => (c _).2 (t2.1 (h.resolve_right (fun h => h.1 rfl)).2)⟩
    · simp [NoticeUnit.setItem, NoticeUnit.tick, hj]
  · simp only [NoticeUnit.tick]
    split
    · next hm =>
      simp only [NoticeUnit.tickMakesDue, Bool.and_eq_true, Bool.not_eq_true', List.contains_eq_mem, decide_eq_false_iff_not] at hm
      simp [List.nodup_append, d]; exact fun x hx he => hm.2 (he ▸ hx)
    · exact d
  · intro j hj
    by_cases hji : j = i
    · refine .inl ⟨hji, ?_⟩
      simp only [NoticeUnit.tick] at hj
      split at hj
      · next hm =>
        simp only [NoticeUnit.tickMakesDue, Bool.and_eq_true] at hm
        exact NoticeItem.isSent_of_repeatDueAt hm.1
      · rw [t3]; exact e i (hji ▸ hj)
    · refine .inr ⟨hji, ?_⟩
      simp only [NoticeUnit.tick] at hj
      split at hj
      · simpa [hji] using hj
      · exact hj

theorem silenceItems_get (o n : BitVec 9) (items : Vector NoticeItem 1029) (i : ItemId) : (silenceItems o n items)[i] = if newlyDisabled o n i then items[i].silenced else items[i] := by
  show (silenceItems o n items)[i.val] = _
  simp [silenceItems, allItems]

theorem NoticeUnit.configure_items (n : NoticeUnit) (dst : Tag) (en : BitVec 9) (iv : Nat) : (n.configure dst en iv).items = silenceItems n.enables en n.items := rfl

theorem NoticeUnit.legal_configure {n : NoticeUnit} (h : n.legal) (dst : Tag) (en : BitVec 9) (iv : Nat) : (n.configure dst en iv).legal := by
  obtain ⟨a, b, c, d, e, f⟩ := id h
  have g : ∀ i : ItemId, (n.configure dst en iv).items[i] = if newlyDisabled n.enables en i then n.items[i].silenced else n.items[i] := fun i => by
    exact (congrArg (fun v : Vector NoticeItem 1029 => v[i]) (NoticeUnit.configure_items n dst en iv)).trans (silenceItems_get _ _ _ _)
  have hq : (n.configure dst en iv).queue = n.queue := by simp only [NoticeUnit.configure]
  refine ⟨fun i => ?_, b.filter _, fun i => ?_, ?_, fun i hi => ?_, by rw [hq]; exact f⟩
  · rw [g]; split
    · have := a i
      generalize n.items[i] = x at *
      obtain ⟨st, c, t⟩ := x
      cases st <;> simp_all [NoticeItem.legal, NoticeItem.silenced]
    · exact a i
  · rw [g]
    rw [show i ∈ (n.configure dst en iv).raisedList ↔ i ∈ n.raisedList ∧ newlyDisabled n.enables en i = false by simp only [NoticeUnit.configure, List.mem_filter, Bool.not_eq_true'], c]
    generalize n.items[i] = x
    obtain ⟨st, c, t⟩ := x
    cases hn : newlyDisabled n.enables en i <;> cases st <;> simp [NoticeItem.silenced]
  · simp only [NoticeUnit.configure, repeatsAfter]
    rw [List.nodup_append]
    refine ⟨d.filter _, (List.nodup_finRange _).filter _, ?_⟩
    intro x hx y hy he
    subst he
    rw [List.mem_filter] at hy
    simp only [Bool.and_eq_true, Bool.not_eq_true', List.contains_eq_mem, decide_eq_false_iff_not] at hy
    exact hy.2.2 hx
  · simp only [NoticeUnit.configure, repeatsAfter, List.mem_append, List.mem_filter, Bool.and_eq_true] at hi
    apply NoticeItem.isSent_of_repeatDueAt (n := iv)
    rcases hi with hi | hi
    · exact hi.2
    · exact hi.2.1

/-! ## What a notice, an acknowledgement and a tick are, said once -/

/-- The notice frame of R178. -/
theorem buildNotice_eq (d t : Tag) (k : NoticeKind) (f : FlowId) (h : k.perFlow = true ∨ f = 0) (num m c) : buildNotice d t (itemOf k f) m num c = noticeFrame d t k f num m c := by
  unfold buildNotice noticeFrame noticeBody
  rw [itemKind_itemOf, itemScope_itemOf _ _ h]
  cases m <;> simp [buildLead, bytes8, bytes16, bytesBool, Config.leadBytes, Config.checkBytes, kindNotice]

/-- Arguments that name no item (R180). -/
theorem ackItem_none (a b : Nat) (h : 8 < a ∨ 255 < b ∨ 4 ≤ a ∧ b ≠ 0) : ackItem a b = none := by
  unfold ackItem
  split
  · next k f hk hf =>
    rw [if_neg]
    rw [scopeSuits_iff]
    intro hh
    have hb : f.val = b := by
      unfold flowOf at hf; split at hf
      · simp at hf; rw [← hf]
      · simp at hf
    have ha : kindCode k = a := by
      unfold kindOf at hk; split at hk <;> simp at hk <;> subst hk <;> rfl
    rcases h with h | h | ⟨h, h'⟩
    · cases k <;> simp [kindCode] at ha <;> omega
    · have := f.isLt; omega
    · rcases hh with hh | hh
      · cases k <;> simp [kindCode, NoticeKind.perFlow] at ha hh <;> omega
      · subst hh; simp at hb; omega
  · rfl

theorem NoticeItem.repeatDueAt_iff (x : NoticeItem) (interval : Nat) : x.repeatDueAt interval = true ↔ ∃ epochs, x.epochsSent = some epochs ∧ interval ≠ 0 ∧ interval ≤ epochs := by
  unfold NoticeItem.repeatDueAt
  cases x.epochsSent <;> simp

theorem NoticeItem.ticked_of_idle (x : NoticeItem) (h : x.state = .clear ∨ x.state = .raised) : x.ticked = { x with tickDue := false } := by
  rcases h with h | h <;> simp [NoticeItem.ticked, h]

theorem NoticeItem.ticked_of_sent (x : NoticeItem) {a n c ep} (h : x.state = .sent a n c ep) : x.ticked = { x with state := .sent a n c (min (ep + 1) 65535), tickDue := false } := by
  simp [NoticeItem.ticked, h, countUp, Config.saturation]

end Sys2Proof.Machine
end

