-- ==== Sys2Proof/Laws/PerInstr.lean ====
section
/-! SUPPORT. For every command and event: the command code it has, if any, names it and no other, and its arguments fit a request (R161, R190, R191). -/
namespace Sys2Proof.Laws.CommandCode

open Sys2Proof

/-- A well-formed row that a request can carry is the row its command code stands for, and its arguments fit their length byte. -/
def Statement (i : Instr) : Prop :=
  i.wellFormed = true → ∀ code args, commandCode i = some (code, args) →
    commandRow code args = i ∧ args.length ≤ 255

/-- A row with a code of its own. -/
theorem of_code {i : Instr} {code : Byte} {args : List Byte} (hc : commandCode i = some (code, args))
    (hr : commandRow code args = i) (hw : i.wellFormed = true → args.length ≤ 255) : Statement i := by
  intro h code' args' he
  rw [hc] at he
  cases he
  exact ⟨hr, hw h⟩

/-- A row no request carries. -/
theorem of_event {i : Instr} (hc : commandCode i = none) : Statement i := by
  intro _ code args he
  rw [hc] at he
  cases he

theorem openFlow (args : List Byte) : Statement (.openFlow args) :=
  of_code rfl rfl fun h => of_decide_eq_true h

theorem hold (args : List Byte) : Statement (.hold args) :=
  of_code rfl rfl fun h => of_decide_eq_true h

theorem release (args : List Byte) : Statement (.release args) :=
  of_code rfl rfl fun h => of_decide_eq_true h

theorem close (args : List Byte) : Statement (.close args) :=
  of_code rfl rfl fun h => of_decide_eq_true h

theorem flush (args : List Byte) : Statement (.flush args) :=
  of_code rfl rfl fun h => of_decide_eq_true h

theorem setFlow (args : List Byte) : Statement (.setFlow args) :=
  of_code rfl rfl fun h => of_decide_eq_true h

theorem readFlow (args : List Byte) : Statement (.readFlow args) :=
  of_code rfl rfl fun h => of_decide_eq_true h

theorem setPool (args : List Byte) : Statement (.setPool args) :=
  of_code rfl rfl fun h => of_decide_eq_true h

theorem readPool (args : List Byte) : Statement (.readPool args) :=
  of_code rfl rfl fun h => of_decide_eq_true h

theorem writeMatch (args : List Byte) : Statement (.writeMatch args) :=
  of_code rfl rfl fun h => of_decide_eq_true h

theorem readMatch (args : List Byte) : Statement (.readMatch args) :=
  of_code rfl rfl fun h => of_decide_eq_true h

theorem setDefault (args : List Byte) : Statement (.setDefault args) :=
  of_code rfl rfl fun h => of_decide_eq_true h

theorem setEpoch (args : List Byte) : Statement (.setEpoch args) :=
  of_code rfl rfl fun h => of_decide_eq_true h

theorem stage (args : List Byte) : Statement (.stage args) :=
  of_code rfl rfl fun h => of_decide_eq_true h

theorem unstage (args : List Byte) : Statement (.unstage args) :=
  of_code rfl rfl fun h => of_decide_eq_true h

theorem adopt (args : List Byte) : Statement (.adopt args) :=
  of_code rfl rfl fun h => of_decide_eq_true h

theorem readProfile (args : List Byte) : Statement (.readProfile args) :=
  of_code rfl rfl fun h => of_decide_eq_true h

theorem setRelease (args : List Byte) : Statement (.setRelease args) :=
  of_code rfl rfl fun h => of_decide_eq_true h

theorem resume (args : List Byte) : Statement (.resume args) :=
  of_code rfl rfl fun h => of_decide_eq_true h

theorem setGroup (args : List Byte) : Statement (.setGroup args) :=
  of_code rfl rfl fun h => of_decide_eq_true h

theorem setTop (args : List Byte) : Statement (.setTop args) :=
  of_code rfl rfl fun h => of_decide_eq_true h

theorem setHoldLimit (args : List Byte) : Statement (.setHoldLimit args) :=
  of_code rfl rfl fun h => of_decide_eq_true h

theorem readStatus (args : List Byte) : Statement (.readStatus args) :=
  of_code rfl rfl fun h => of_decide_eq_true h

theorem readCounters (args : List Byte) : Statement (.readCounters args) :=
  of_code rfl rfl fun h => of_decide_eq_true h

theorem restart (args : List Byte) : Statement (.restart args) :=
  of_code rfl rfl fun h => of_decide_eq_true h

theorem ackNotice (args : List Byte) : Statement (.ackNotice args) :=
  of_code rfl rfl fun h => of_decide_eq_true h

theorem setNotice (args : List Byte) : Statement (.setNotice args) :=
  of_code rfl rfl fun h => of_decide_eq_true h

theorem unknownCommand (code : Byte) (args : List Byte) : Statement (.unknownCommand code args) := by
  intro h code' args' he
  simp only [commandCode, Option.some.injEq, Prod.mk.injEq] at he
  obtain ⟨rfl, rfl⟩ := he
  simp only [Instr.wellFormed, argsFit, Bool.and_eq_true, decide_eq_true_eq, Bool.not_eq_true'] at h
  refine ⟨?_, h.1⟩
  have hk := h.2
  unfold knownCode at hk
  simp only [Bool.and_eq_false_iff, decide_eq_false_iff_not] at hk
  unfold commandRow
  split <;> first | rfl | (exfalso; omega)

theorem startDelimiter : Statement .startDelimiter := of_event rfl

theorem receiveByte (b : Byte) : Statement (.receiveByte b) := of_event rfl

theorem leadEvent (b : Byte) : Statement (.leadEvent b) := of_event rfl

theorem classification : Statement .classification := of_event rfl

theorem admission : Statement .admission := of_event rfl

theorem reservation : Statement .reservation := of_event rfl

theorem endDelimiter : Statement .endDelimiter := of_event rfl

theorem abortDelimiter : Statement .abortDelimiter := of_event rfl

theorem take : Statement .take := of_event rfl

theorem returnTransmission : Statement .returnTransmission := of_event rfl

theorem returnCompletion : Statement .returnCompletion := of_event rfl

theorem reinitialisation : Statement .reinitialisation := of_event rfl

theorem epochExpiry : Statement .epochExpiry := of_event rfl

theorem replenishment (f : FlowId) : Statement (.replenishment f) := of_event rfl

theorem agingSweep (f : FlowId) : Statement (.agingSweep f) := of_event rfl

theorem profileStep (f : FlowId) : Statement (.profileStep f) := of_event rfl

theorem lifetimeExpiry (f : FlowId) : Statement (.lifetimeExpiry f) := of_event rfl

theorem flushStep (f : FlowId) : Statement (.flushStep f) := of_event rfl

theorem selection : Statement .selection := of_event rfl

theorem transmissionCompletion : Statement .transmissionCompletion := of_event rfl

theorem quenchAssertion : Statement .quenchAssertion := of_event rfl

theorem quenchDeassertion : Statement .quenchDeassertion := of_event rfl

theorem dholdAssertion : Statement .dholdAssertion := of_event rfl

theorem dholdDeassertion : Statement .dholdDeassertion := of_event rfl

theorem holdTick : Statement .holdTick := of_event rfl

theorem holdStuck : Statement .holdStuck := of_event rfl

theorem noticeOccurrence (kind : NoticeKind) (scope : FlowId) : Statement (.noticeOccurrence kind scope) := of_event rfl

theorem firstBuild : Statement .firstBuild := of_event rfl

theorem repeatTick (kind : NoticeKind) (scope : FlowId) : Statement (.repeatTick kind scope) := of_event rfl

theorem repeatDue (kind : NoticeKind) (scope : FlowId) : Statement (.repeatDue kind scope) := of_event rfl

theorem repeatBuild : Statement .repeatBuild := of_event rfl

theorem resetAssertion : Statement .resetAssertion := of_event rfl

theorem resetRelease (straps : Byte) : Statement (.resetRelease straps) := of_event rfl

end Sys2Proof.Laws.CommandCode
end

