-- ==== Sys2Proof/Laws/Returns.lean ====
section
/-! SUPPORT. The response queue, the return lane, the agent and the restart condition in agreement (R137 to R140, R158, R172) under the operations on them. -/
namespace Sys2Proof.Machine

/-- What the agreement rests on is unchanged. -/
theorem State.returnsAgree_congr {s t : State} (h : s.returnsAgree) (h1 : t.agent.responses = s.agent.responses) (h2 : t.agent.state = s.agent.state)
  (h3 : t.up.responseRun = s.up.responseRun) (h4 : t.up.returnLane = s.up.returnLane) (h5 : t.up.restartCondition = s.up.restartCondition)
  (h6 : s.notices.queue ≠ [] → t.notices.queue ≠ []) : t.returnsAgree := by
  unfold State.returnsAgree Agent.entriesFit Agent.headReady at *
  rw [h1, h2, h3, h4, h5]
  obtain ⟨a, b, c, d, e⟩ := h
  exact ⟨a, b, c, fun h => h6 (d h), e⟩

theorem State.KeepsNotices.queue {s t : State} (h : s.KeepsNotices t) : s.notices.queue ≠ [] → t.notices.queue ≠ [] := by
  rw [h]; exact id

theorem map_readyClaimed (fr : List (List Byte)) (f : List Byte) : (fr.map ResponseEntry.ready).map (readyClaimed f) = fr.map ResponseEntry.ready := by
  simp [readyClaimed]

/-- A response placed at the tail (R158). -/
theorem State.returnsAgree_placed {s t : State} (frames : List (List Byte)) (fm : List Byte) (h : s.returnsAgree) (hrc : s.up.restartCondition = false)
    (hup : t.up = s.up) (hno : t.notices = s.notices) (hr : t.agent.responses = (frames ++ [fm]).map ResponseEntry.ready)
    (hl : (frames ++ [fm]).length ≤ 4) (hst : t.agent.state = .idle ∨ t.agent.state = .restartPending) : t.returnsAgree := by
  obtain ⟨-, b, c, d, e, f, g⟩ := h
  have hx : t.agent.state.isExecuting = false := by rcases hst with h | h <;> rw [h] <;> rfl
  have hnr : t.agent.state ≠ .restarting := by rcases hst with h | h <;> rw [h] <;> nofun
  refine ⟨⟨by rw [hr, List.length_map]; exact hl, frames ++ [fm], by rw [hr, hx]; simp⟩, by rw [hup]; exact b, ?_, by rw [hup, hno]; exact d, ?_, fun h => absurd h hnr, ?_⟩
  · intro _
    unfold Agent.headReady
    rw [hr]
    cases frames <;> simp
  · intro _; rw [hr]; simp
  · rw [hup, hrc]; simp; exact hnr

/-- An entry claimed at the tail while a request is executed (R158). -/
theorem State.returnsAgree_claimed {s t : State} (x : Execution) (frames : List (List Byte)) (h : s.returnsAgree) (hrc : s.up.restartCondition = false)
    (hup : t.up = s.up) (hno : t.notices = s.notices) (hr : t.agent.responses = frames.map ResponseEntry.ready ++ [ResponseEntry.claimed])
    (hl : t.agent.responses.length ≤ 4) (hh : s.agent.headReady ≠ none → frames ≠ []) (hst : t.agent.state = .executing x) : t.returnsAgree := by
  obtain ⟨-, b, c, d, e, f, g⟩ := h
  refine ⟨⟨hl, frames, by rw [hr, hst]; rfl⟩, by rw [hup]; exact b, ?_, by rw [hup, hno]; exact d, by rw [hst]; nofun, by rw [hst]; nofun, by rw [hup, hrc, hst]; simp⟩
  intro hc
  rw [hup] at hc
  have := hh (c hc)
  unfold Agent.headReady
  rw [hr]
  cases frames
  · exact absurd rfl this
  · simp

theorem State.frames_of_headReady {s : State} {frames : List (List Byte)} {l : List ResponseEntry} (hr : s.agent.responses = frames.map ResponseEntry.ready ++ l) (hl : l = [] ∨ l = [ResponseEntry.claimed])
    (h : s.agent.headReady ≠ none) : frames ≠ [] := by
  rintro rfl
  apply h
  unfold Agent.headReady
  rw [hr]
  rcases hl with rfl | rfl <;> rfl

theorem State.returnsAgree_noRestart {s : State} (h : s.returnsAgree) (hs : s.agent.state ≠ .restarting) : s.up.restartCondition = false := by
  cases hx : s.up.restartCondition
  · rfl
  · exact absurd (h.2.2.2.2.2.2.1 hx) hs

/-- A result recorded by the agent (R164, R166). -/
theorem State.returnsAgree_finish {s : State} (h : s.returnsAgree) (r : CommandResult) (restart : Bool) : (s.setAgent (s.agent.finish s.up.ownTag r restart)).returnsAgree := by
  unfold Agent.finish
  cases hst : s.agent.state with
  | idle => exact h
  | restartPending => exact h
  | restarting => exact h
  | executing x =>
    have hrc := State.returnsAgree_noRestart h (by rw [hst]; nofun)
    obtain ⟨hl, frames, hr⟩ := h.1
    rw [hst] at hr
    simp only [AgentState.isExecuting, if_true] at hr
    have key : ∀ fm, s.agent.responses.map (readyClaimed fm) = (frames ++ [fm]).map ResponseEntry.ready := fun fm => by
      rw [hr, List.map_append, map_readyClaimed]; simp [readyClaimed]
    simp only []
    split
    · refine State.returnsAgree_placed frames _ h hrc rfl rfl (key _) (by rw [hr] at hl; simpa using hl) ?_
      cases restart
      · exact .inl rfl
      · exact .inr rfl
    · exact State.returnsAgree_claimed _ frames h hrc rfl rfl hr hl (State.frames_of_headReady hr (.inr rfl)) rfl

/-- A request taken (R157). -/
theorem State.returnsAgree_take {s : State} (h : s.returnsAgree) (hi : s.agent.state = .idle) (hn : s.agent.responses.length < 4) (slot : SlotId) (req : List Byte) :
    (s.setAgent ((s.agent.claim slot).answerTake s.up.ownTag req)).returnsAgree := by
  have hrc := State.returnsAgree_noRestart h (by rw [hi]; nofun)
  obtain ⟨hl, frames, hr⟩ := h.1
  rw [hi] at hr
  simp only [AgentState.isExecuting, Bool.false_eq_true, if_false, List.append_nil] at hr
  have hlen : frames.length < 4 := by rw [hr, List.length_map] at hn; exact hn
  have key : ∀ fm, (s.agent.responses ++ [ResponseEntry.claimed]).map (readyClaimed fm) = (frames ++ [fm]).map ResponseEntry.ready := fun fm => by
    rw [hr, List.map_append, map_readyClaimed]; simp [readyClaimed]
  unfold Agent.answerTake
  repeat' split
  · exact State.returnsAgree_placed frames _ h hrc rfl rfl (key _) (by simpa using hlen) (.inl hi)
  · exact State.returnsAgree_placed frames _ h hrc rfl rfl (key _) (by simpa using hlen) (.inl hi)
  · refine State.returnsAgree_claimed _ frames h hrc rfl rfl (show s.agent.responses ++ _ = _ by rw [hr]) ?_ (State.frames_of_headReady (l := []) (by simpa using hr) (.inl rfl)) rfl
    show (s.agent.responses ++ [_]).length ≤ 4
    rw [List.length_append]; exact hn

/-- A response's return completion (R138, R140, R172). -/
theorem State.returnsAgree_completeResponse {s : State} (h : s.returnsAgree) (hl : s.up.returnLane = .response) : s.completeResponse.returnsAgree := by
  obtain ⟨⟨hln, frames, hr⟩, b, c, d, e, f, g⟩ := h
  have hc := c hl
  have hnr : s.agent.state ≠ .restarting := fun hx => by have := (f hx).2; rw [hl] at this; cases this
  have hne : frames ≠ [] := by
    rintro rfl
    unfold Agent.headReady at hc
    rw [hr] at hc
    cases hx : s.agent.state.isExecuting <;> simp [hx] at hc
  obtain ⟨fm, rest, rfl⟩ := List.exists_cons_of_ne_nil hne
  have ht : s.agent.responses.tail = rest.map ResponseEntry.ready ++ (if s.agent.state.isExecuting then [ResponseEntry.claimed] else []) := by
    rw [hr]; rfl
  have hrc : s.up.restartCondition = false := by
    cases hx : s.up.restartCondition
    · rfl
    · exact absurd (g.1 hx) hnr
  unfold State.completeResponse
  simp only []
  split
  · next hcond =>
    have hrest : rest = [] := by
      have := hcond.2; rw [ht, hcond.1] at this; exact List.map_eq_nil_iff.1 (List.append_eq_nil_iff.1 this).1
    have key : ∀ t : State, t.agent.responses = s.agent.responses.tail → t.agent.state = .restarting → t.up.responseRun = s.up.responseRun → t.up.returnLane = .free → t.up.restartCondition = true → t.returnsAgree := by
      intro t h1 h2 h3 h4 h5
      rw [hcond.2] at h1
      refine ⟨⟨by rw [h1]; simp, [], by rw [h1, h2]; rfl⟩, by rw [h3]; exact b, by rw [h4]; nofun, by rw [h4]; nofun, by rw [h2]; nofun, fun _ => ⟨h1, h4⟩, by rw [h5, h2]; simp⟩
    unfold State.beginRestart
    simp only []
    split
    · apply key <;> simp [State.freeReturnLane]
    · apply key <;> simp [State.freeReturnLane]
  · next hcond =>
    refine ⟨⟨?_, rest, ?_⟩, b, nofun, nofun, ?_, ?_, ?_⟩
    · show s.agent.responses.tail.length ≤ 4
      rw [List.length_tail]; omega
    · exact ht
    · intro hx he; exact hcond ⟨hx, he⟩
    · intro hx; exact absurd hx hnr
    · show s.up.restartCondition = true ↔ _
      rw [hrc]; simp; exact hnr

/-- A return transmission started (R139). -/
theorem State.returnsAgree_arbitrateReturn {s : State} (h : s.returnsAgree) (hc : s.up.restartCondition = false) : s.arbitrateReturn.returnsAgree := by
  obtain ⟨a, b, c, d, e, f, g⟩ := h
  have hnr : s.agent.state ≠ .restarting := fun hx => by rw [g.2 hx] at hc; cases hc
  unfold State.arbitrateReturn
  repeat' split
  · next hh _ =>
    exact ⟨a, by simp [State.startReturn], fun _ => by simp [State.startReturn, hh], nofun, e, fun hx => absurd hx hnr, g⟩
  · next hh _ _ =>
    exact ⟨a, by simp [State.startReturn]; omega, fun _ => by simp [State.startReturn, hh], nofun, e, fun hx => absurd hx hnr, g⟩
  · next hq _ =>
    exact ⟨a, by simp [State.startReturn], nofun, fun _ => by simp [State.startReturn, hq], e, fun hx => absurd hx hnr, g⟩
  · next hq =>
    exact ⟨a, by simp [State.startReturn], nofun, fun _ => by simp [State.startReturn, hq], e, fun hx => absurd hx hnr, g⟩
  · exact ⟨a, b, c, d, e, f, g⟩

theorem State.returnsAgree_reset (s : State) (h1 : s.agent.responses = []) (h2 : s.agent.state = .idle) (h3 : s.up.responseRun = 0) (h4 : s.up.returnLane = .free) (h5 : s.up.restartCondition = false) : s.returnsAgree := by
  refine ⟨⟨by rw [h1]; simp, [], by rw [h1, h2]; rfl⟩, by omega, by rw [h4]; nofun, by rw [h4]; nofun, by rw [h2]; nofun, by rw [h2]; nofun, by rw [h5, h2]; simp⟩

end Sys2Proof.Machine
end

