-- ==== Sys2Proof/Laws/Rings.lean ====
section
/-! SUPPORT. The rings of the Release Scheduler in their orders, and the nearest of a list (R106, R107). -/
namespace Sys2Proof.Machine

/-- A ring is read outwards from its pointer (R106). -/
theorem flowRing_sorted (p : FlowId) : (flowRing p).Pairwise (fun a b => flowDistance p a < flowDistance p b) := by
  unfold flowRing allFlows
  have hs : (List.finRange 256).Pairwise (· < ·) := List.pairwise_lt_finRange 256
  rw [List.pairwise_append]
  refine ⟨?_, ?_, ?_⟩
  · refine (List.Pairwise.sublist List.filter_sublist hs).imp_of_mem ?_
    intro a b ha hb h
    simp only [List.mem_filter, decide_eq_true_eq] at ha hb
    have := p.isLt; have := a.isLt; have := b.isLt
    simp only [flowDistance, Fin.lt_def] at *; omega
  · refine (List.Pairwise.sublist List.filter_sublist hs).imp_of_mem ?_
    intro a b ha hb h
    simp only [List.mem_filter, decide_eq_true_eq] at ha hb
    have := p.isLt; have := a.isLt; have := b.isLt
    simp only [flowDistance, Fin.lt_def, Fin.le_def] at *; omega
  · intro a ha b hb
    simp only [List.mem_filter, decide_eq_true_eq] at ha hb
    have := p.isLt; have := a.isLt; have := b.isLt
    simp only [flowDistance, Fin.lt_def, Fin.le_def] at *; omega

/-- The top ring is read outwards from its pointer (R107). -/
theorem groupRing_sorted (p : Fin 8) : (groupRing p).Pairwise (fun a b => groupDistance p a < groupDistance p b) := by
  unfold groupRing allGroups
  have hs : (List.finRange 8).Pairwise (· < ·) := List.pairwise_lt_finRange 8
  rw [List.pairwise_append]
  refine ⟨?_, ?_, ?_⟩
  · refine (List.Pairwise.sublist List.filter_sublist hs).imp_of_mem ?_
    intro a b ha hb h
    simp only [List.mem_filter, decide_eq_true_eq] at ha hb
    have := p.isLt; have := a.isLt; have := b.isLt
    simp only [groupDistance, Fin.lt_def] at *; omega
  · refine (List.Pairwise.sublist List.filter_sublist hs).imp_of_mem ?_
    intro a b ha hb h
    simp only [List.mem_filter, decide_eq_true_eq] at ha hb
    have := p.isLt; have := a.isLt; have := b.isLt
    simp only [groupDistance, Fin.lt_def, Fin.le_def] at *; omega
  · intro a ha b hb
    simp only [List.mem_filter, decide_eq_true_eq] at ha hb
    have := p.isLt; have := a.isLt; have := b.isLt
    simp only [groupDistance, Fin.lt_def, Fin.le_def] at *; omega

theorem mem_flowRing (p f : FlowId) : f ∈ flowRing p := by
  simp only [flowRing, allFlows, List.mem_append, List.mem_filter, List.mem_finRange, true_and, decide_eq_true_eq]
  exact lt_or_ge p f

theorem mem_groupRing (p f : Fin 8) : f ∈ groupRing p := by
  simp only [groupRing, allGroups, List.mem_append, List.mem_filter, List.mem_finRange, true_and, decide_eq_true_eq]
  exact lt_or_ge p f

/-- In a list of rising distances the first that passes is the nearest. -/
theorem find_of_nearest {α} (l : List α) (d : α → Nat) (p : α → Bool) (x : α) (hl : l.Pairwise (fun a b => d a < d b)) (hx : x ∈ l) (hp : p x = true)
  (hm : ∀ y, p y = true → d x ≤ d y) : l.find? p = some x := by
  induction l with
  | nil => simp at hx
  | cons a l ih =>
    rw [List.pairwise_cons] at hl
    rcases List.mem_cons.1 hx with rfl | hx
    · simp [hp]
    · have : p a = false := by
        by_contra hc
        have h1 := hm a (by simpa using hc)
        have h2 := hl.1 x hx
        omega
      rw [List.find?_cons_of_neg (by simp [this])]
      exact ih hl.2 hx

/-- In a list of rising distances the first that answers is the nearest. -/
theorem findSome_of_nearest {α β} (l : List α) (d : α → Nat) (p : α → Option β) (x : α) (b : β) (hl : l.Pairwise (fun a b => d a < d b)) (hx : x ∈ l) (hp : p x = some b)
  (hm : ∀ y, p y ≠ none → d x ≤ d y) : l.findSome? p = some b := by
  induction l with
  | nil => simp at hx
  | cons a l ih =>
    rw [List.pairwise_cons] at hl
    rcases List.mem_cons.1 hx with rfl | hx
    · simp [hp]
    · have : p a = none := by
        by_contra hc
        have h1 := hm a hc
        have h2 := hl.1 x hx
        omega
      rw [List.findSome?_cons, this]
      exact ih hl.2 hx

/-- A group has a choice exactly when it waits (R107). -/
theorem State.groupChoice_ne_none (s : State) (g : Fin 8) : s.groupChoice g ≠ none ↔ s.groupWaits g := by
  unfold State.groupChoice State.groupWaits
  rw [ne_eq, List.find?_eq_none]
  push Not
  constructor
  · rintro ⟨f, _, h⟩; exact ⟨f, h⟩
  · rintro ⟨f, h⟩; exact ⟨f, mem_flowRing _ _, h⟩

theorem State.expressChoice_none (s : State) (h : ∀ g, s.candidateIn .express g = false) : s.expressChoice = none := by
  unfold State.expressChoice
  rw [List.find?_eq_none]
  intro g _ hh; rw [h g] at hh; simp at hh

end Sys2Proof.Machine
end

