-- ==== Sys2Proof/Tests/Slice0.lean ====
section
/-! SUPPORT. Small tests: what the well-formedness checks refuse, single steps on small states, and for every statement with hypotheses a state and operands that meet them, clause by clause. -/
namespace Sys2Proof.Tests

open Sys2Proof Sys2Proof.Machine

/-! ## Small states -/

/-- A state whose agent executes a request of one command. -/
def asking (s : State) (code : Byte) (args : List Byte) : State :=
  s.setAgent { s.agent with
    state := .executing
      { request := List.replicate 12 0#8, commands := [{ code := code, args := args }], stopOnError := false, index := 0,
        results := [], stop := false } }

/-- The reset state with one flow given and a command asked of it. -/
def ask (f : FlowId) (x : Flow) (code : Byte) (args : List Byte) : State := asking (State.reset.setFlow f x) code args

/-- A flow in the given state. -/
def flowIn (fs : FlowState) : Flow := { Flow.reset with state := fs }

/-- A flow in the given state with the given queue. -/
def queueing (fs : FlowState) (queue : List RecordId) : Flow :=
  { Flow.reset with state := fs, queue := queue, queuedFrames := queue.length }

/-- The reset state with the receive lane given. -/
def inLane (l : Lane) : State := State.reset.setLane l

theorem asking_due (s : State) (code : Byte) (args : List Byte) (h : s.pins.reset = false) :
    (asking s code args).commandDue code args = true := by
  simp [State.commandDue, asking, h]

@[simp] theorem ask_due (f : FlowId) (x : Flow) (code : Byte) (args : List Byte) :
    (ask f x code args).commandDue code args = true := asking_due _ code args rfl

@[simp] theorem ask_flow (f : FlowId) (x : Flow) (code : Byte) (args : List Byte) : (ask f x code args).flow f = x := by
  change (State.reset.setFlow f x).flow f = x
  simp

@[simp] theorem reset_flow (f : FlowId) : State.reset.flow f = Flow.reset := by simp [State.flow, State.reset]

/-! ## What is not well formed -/

/-- The rows that carry argument bytes. -/
def commandRows : List (List Byte → Instr) :=
  [.openFlow, .hold, .release, .close, .flush, .setFlow, .readFlow, .setPool, .readPool, .writeMatch, .readMatch,
    .setDefault, .setEpoch, .stage, .unstage, .adopt, .readProfile, .setRelease, .resume, .setGroup, .setTop,
    .setHoldLimit, .readStatus, .readCounters, .restart, .ackNotice, .setNotice, .unknownCommand 0#8]

/-- No request carries more than 255 argument bytes to a command. -/
theorem test_illFormed_arguments (args : List Byte) (h : args.length = 256) :
    (commandRows.all fun c => !(c args).wellFormed) = true := by
  simp [commandRows, Instr.wellFormed, argsFit, h]

/-- There are such arguments. -/
theorem test_illFormed_argumentsExist : (Instr.hold (List.replicate 256 0#8)).wellFormed = false := by
  rw [Instr.wellFormed, argsFit, List.length_replicate]
  decide

/-- UNKNOWN_COMMAND carries no code of the table. -/
theorem test_illFormed_knownCode :
    (Instr.unknownCommand 0x01#8 []).wellFormed = false ∧ (Instr.unknownCommand 0x1B#8 []).wellFormed = false ∧
      (Instr.unknownCommand 0x00#8 []).wellFormed = true ∧ (Instr.unknownCommand 0x1C#8 []).wellFormed = true := by decide

/-- A global notice kind has no scope but 0. -/
theorem test_illFormed_scope :
    (Instr.noticeOccurrence .poolLow 1).wellFormed = false ∧ (Instr.repeatTick .quenched 255).wellFormed = false ∧
      (Instr.repeatDue .mgmtLost 1).wellFormed = false ∧
      (Instr.noticeOccurrence .queueDrop 255).wellFormed = true := by decide

/-! ## Single operations -/

/-- No word spells a command, since the table gives no row any bits. -/
theorem test_noWordSpellsACommand : decodeTableWord 8 1 = none := rfl

/-- The check of the bytes 31h to 39h (R188). -/
theorem test_checkOfNineBytes :
    crcResult (crcBytes Config.crcPreset [0x31#8, 0x32#8, 0x33#8, 0x34#8, 0x35#8, 0x36#8, 0x37#8, 0x38#8, 0x39#8]) =
      0xCBF43926#32 := by decide +kernel

/-- Multi-byte fields are most significant byte first (R188). -/
theorem test_byteOrder :
    bytes16 0x1234 = [0x12#8, 0x34#8] ∧ num16At [0x12#8, 0x34#8] 0 = 0x1234 ∧
      bytesInt32 (-131072) = [0xFF#8, 0xFE#8, 0x00#8, 0x00#8] := by decide

/-- A written byte reads back, a byte never written reads 00h, and writing 00h unlists the entry (log 10). -/
theorem test_memory :
    Memory.read (Memory.write [] 5 7#8) 5 = 7#8 ∧ Memory.read (Memory.write [] 5 7#8) 6 = 0#8 ∧
      Memory.write (Memory.write [] 5 7#8) 5 0#8 = [] := by decide

/-- The default profile is read from its sixteen bytes (R85, R192). -/
theorem test_defaultProfile :
    decodeProfile [0#8, 0#8, 0#8, 0#8, 0#8, 0#8, 0#8, 0#8, 1#8, 0#8, 0#8, 0#8, 0#8, 0#8, 0#8, 0#8] =
      some Profile.default := by decide

/-- A start delimiter after reset opens a frame in LEAD (R126). -/
theorem test_startOpensAFrame :
    exec .startDelimiter State.reset = .next (State.reset.setLane (.lead Reception.opened [])) := rfl

/-- With nothing waiting the part idles (log 2). -/
theorem test_emptyQueueIdles : step State.reset = .next State.reset := rfl

/-- A QUENCH assertion after reset stops release and is reported (R121). -/
theorem test_quench :
    ∃ t, exec .quenchAssertion State.reset = .next t ∧ t.scheduler.quenchFlag = true ∧
      t.notices.reports = [1028] := ⟨_, rfl, rfl, rfl⟩

/-- HOLD on an ACTIVE flow makes it HELD(ORDERED) (R5). -/
theorem test_hold :
    ∃ t, exec (.hold [0#8, 7#8]) (ask 7 (flowIn .active) 0x02#8 [0#8, 7#8]) = .next t ∧
      (t.flow 7).state = .held .ordered := by
  refine ⟨_, show execHold _ _ = _ from takeCommand_due _ (ask_due _ _ _ _), ?_⟩
  have h : flowAt [0#8, 7#8] 0 = some 7 := by decide
  simp [commandHold, ofLength, h, flowIn, State.setFlowState]

/-! ## States and operands that meet the statements' hypotheses -/

theorem test_witness_StepTakesTheFrontOfTheQueue :
    (∃ (c : Instr) (s : State) (rest : List Instr), s.pending = c :: rest) ∧ ∃ s : State, s.pending = [] :=
  ⟨⟨.take, { State.reset with pending := [.take, .selection] }, [.selection], rfl⟩, State.reset, rfl⟩

theorem test_witness_CommandsAreTakenInTurnAndChecked :
    (∃ (s : State) (code : Byte) (args : List Byte), s.commandDue code args = false) ∧
    (∃ (s : State) (args : List Byte), s.commandDue 0x00#8 args = true ∧ argumentLength 0x00#8 = none) ∧
    (∃ (s : State) (args : List Byte), s.commandDue 0x1C#8 args = true ∧ argumentLength 0x1C#8 = none) ∧
    ∃ (s : State) (args : List Byte) (n : Nat), s.commandDue 0x02#8 args = true ∧ argumentLength 0x02#8 = some n ∧
      args.length ≠ n :=
  ⟨⟨State.reset, 0x02#8, [], rfl⟩, ⟨_, [], asking_due State.reset _ _ rfl, rfl⟩,
    ⟨_, [], asking_due State.reset _ _ rfl, rfl⟩, _, [0#8], 2, asking_due State.reset _ _ rfl, rfl, by decide⟩

/-- A state whose agent executes the first of the given commands. -/
def executing (commands : List Command) (stopOnError : Bool) : State :=
  State.reset.setAgent { Agent.reset with
    state := .executing
      { request := List.replicate 12 0#8, commands := commands, stopOnError := stopOnError, index := 0, results := [],
        stop := false } }

theorem test_witness_AResultIsRecordedOrEndsTheRequest :
    ∃ (s1 s2 s3 s4 : State) (x1 x2 x3 x4 : Execution),
      (s1.agent.state = .executing x1 ∧ x1.stop = false ∧ x1.commands.drop (x1.index + 1) ≠ [] ∧
        x1.stopOnError = false) ∧
      (s2.agent.state = .executing x2 ∧ x2.stop = false ∧ x2.commands.drop (x2.index + 1) ≠ [] ∧
        (x2.stopOnError = false ∨ Status.ok = .ok)) ∧
      (s3.agent.state = .executing x3 ∧ x3.stop = false ∧ x3.commands.drop (x3.index + 1) = []) ∧
      (s4.agent.state = .executing x4 ∧ x4.stop = false ∧ x4.stopOnError = true ∧ Status.busy ≠ .ok) :=
  ⟨executing [⟨1#8, []⟩, ⟨2#8, []⟩] false, executing [⟨1#8, []⟩, ⟨2#8, []⟩] true, executing [⟨1#8, []⟩] false,
    executing [⟨1#8, []⟩, ⟨2#8, []⟩] true, _, _, _, _, ⟨rfl, rfl, by simp, rfl⟩, ⟨rfl, rfl, by simp, .inr rfl⟩,
    ⟨rfl, rfl, rfl⟩, rfl, rfl, rfl, by decide⟩

theorem test_witness_ResponsesAreBuiltFromTheirRequests :
    ∃ (before after : List CommandResult) (r : CommandResult), (∀ q ∈ before, q.status = .ok) ∧ r.status ≠ .ok ∧
      after ≠ [] :=
  ⟨[{ code := 1#8, status := .ok, data := [] }], [{ code := 2#8, status := .notAttempted, data := [] }],
    { code := 2#8, status := .busy, data := [] }, by simp, by decide, by simp⟩

/-- A state in which slot 3 holds a request with the given body, and the replay memory what is given. -/
def requested (body : List Byte) (replay : Option Replay) : State :=
  State.reset.setAgent { Agent.reset with
    slots := Agent.reset.slots.set 3 (.waiting (List.replicate 12 0#8 ++ body ++ List.replicate 4 0#8))
    waitOrder := [3]
    responses := [.ready [], .ready [], .ready []]
    replay := replay }

theorem test_witness_ATakeReplaysRefusesOrExecutes :
    ∀ (body : List Byte) (replay : Option Replay), ∃ (s : State) (slot : SlotId) (others : List SlotId) (frame : List Byte),
      s.pins.reset = false ∧ s.agent.state = .idle ∧ s.agent.responses.length = 3 ∧
      s.agent.waitOrder = slot :: others ∧ s.agent.slots[slot] = .waiting frame ∧ s.agent.replay = replay ∧
      frame.take (frame.length - 4) = List.replicate 12 0#8 ++ body :=
  fun body replay => ⟨requested body replay, 3, [], _, rfl, rfl, rfl, rfl, rfl, rfl, by
    rw [List.take_append_of_le_length (by simp)]
    simp⟩

/-- The three ways of that take: the replay memory holds its key; no key; and a body that is malformed, or not. -/
theorem test_witness_ATakeReplaysRefusesOrExecutes_ways :
    (leadSource (List.replicate 12 0#8), leadSequence (List.replicate 12 0#8)) = (0#16, 0#16) ∧
      (0#16, 0#16) ≠ (1#16, 0#16) ∧ parseBody [] = none ∧
      parseBody [1#8, 1#8, 0x17#8, 0#8] = some (true, [{ code := 0x17#8, args := [] }]) := by decide

theorem test_witness_RequestsAreReadBackAsTheirCommands :
    ∃ (rows : List Instr) (commands : List Command), (∀ i ∈ rows, i.wellFormed = true) ∧
      rows.map commandCode = commands.map (fun c => some (c.code, c.args)) ∧ commands.length = 8 ∧
      ∃ (body : List Byte) (one : List Command), parseBody body = some (false, one) ∧ one.length = 1 :=
  ⟨List.replicate 8 (.unknownCommand 0xFF#8 []), List.replicate 8 { code := 0xFF#8, args := [] },
    by intro i hi; rw [List.eq_of_mem_replicate hi]; decide, rfl, rfl,
    [0#8, 1#8, 0xFF#8, 0#8], _, rfl, rfl⟩

theorem test_witness_RestartWaitsForItsResponse :
    ∃ (s : State) (x : Execution), s.commandDue 0x19#8 [] = true ∧ s.agent.state = .executing x :=
  ⟨_, _, asking_due State.reset _ _ rfl, rfl⟩

theorem test_witness_StatusAndCountersAreReported :
    (∃ s : State, s.commandDue 0x17#8 [] = true) ∧
    ∀ args ∈ [[1#8, 5#8, 0#8], [0#8, 255#8, 2#8], [0#8, 0#8, 0#8], [0#8, 255#8, 1#8], [1#8, 0#8, 1#8], [1#8, 1#8, 1#8],
        [1#8, 2#8, 1#8], [1#8, 3#8, 1#8], [1#8, 4#8, 1#8]], ∃ s : State,
      s.commandDue 0x18#8 args = true ∧ args.length = 3 ∧
        (0x104 < num16At args 0 ∨ 1 < byteAt args 2 ∨
          (∃ clear : Bool, byteAt args 2 = clear.toNat) ∧
            (num16At args 0 < 256 ∨ num16At args 0 = 0x100 ∨ num16At args 0 = 0x101 ∨
              num16At args 0 = 0x102 ∨ num16At args 0 = 0x103 ∨ num16At args 0 = 0x104)) := by
  refine ⟨⟨_, asking_due State.reset _ _ rfl⟩, fun args h => ⟨_, asking_due State.reset _ _ rfl, ?_⟩⟩
  revert args h
  decide

/-! ### Flows -/

theorem test_witness_OpenOpensADisabledFlow :
    (∃ (s : State) (args : List Byte), s.commandDue 0x01#8 args = true ∧ args.length = 18 ∧ 255 < num16At args 0) ∧
    (∃ (s : State) (args : List Byte), s.commandDue 0x01#8 args = true ∧ args.length = 18 ∧
      decodeProfile (args.drop 2) = none) ∧
    ∀ fs : FlowState, ∃ (s : State) (args : List Byte) (f : FlowId) (p : Profile),
      s.commandDue 0x01#8 args = true ∧ args.length = 18 ∧ f.val = num16At args 0 ∧
        decodeProfile (args.drop 2) = some p ∧ (s.flow f).state = fs :=
  ⟨⟨_, [1#8, 0#8] ++ encodeProfile Profile.default, asking_due State.reset _ _ rfl, by decide, by decide⟩,
    ⟨_, [0#8, 0#8, 3#8] ++ List.replicate 15 0#8, asking_due State.reset _ _ rfl, by decide, by decide⟩,
    fun fs => ⟨ask 255 (flowIn fs) _ ([0#8, 255#8] ++ encodeProfile Profile.default), _, 255, Profile.default,
      ask_due _ _ _ _, by decide, by decide, by decide, by rw [ask_flow]; rfl⟩⟩

/-- The hypotheses of HOLD, RELEASE, CLOSE, FLUSH and READ_FLOW on one flow, in every state, at both ends of the range. -/
theorem test_witness_flowCommands :
    ∀ (code : Byte) (x : Flow), ∀ args ∈ [[0#8, 0#8], [0#8, 255#8]], ∃ (s : State) (f : FlowId),
      s.commandDue code args = true ∧ args.length = 2 ∧ f.val = num16At args 0 ∧ s.flow f = x := by
  intro code x args h
  simp only [List.mem_cons, List.not_mem_nil, or_false] at h
  rcases h with rfl | rfl
  · exact ⟨ask 0 x code _, 0, ask_due _ _ _ _, rfl, rfl, ask_flow _ _ _ _⟩
  · exact ⟨ask 255 x code _, 255, ask_due _ _ _ _, rfl, rfl, ask_flow _ _ _ _⟩

/-- A flow number above 255. -/
theorem test_witness_flowCommands_outside :
    ∀ code : Byte, ∃ (s : State) (args : List Byte), s.commandDue code args = true ∧ args.length = 2 ∧
      num16At args 0 = 256 :=
  fun _ => ⟨_, [1#8, 0#8], asking_due State.reset _ _ rfl, rfl, rfl⟩

theorem test_witness_HoldAndReleaseStopAndResumeAFlow :
    ∃ s t u : State, (s.commandDue 0x02#8 [0#8, 255#8] = true ∧ (s.flow 255).state = .active) ∧
      (t.commandDue 0x03#8 [0#8, 255#8] = true ∧ (t.flow 255).state = .held .expired) ∧
      (u.commandDue 0x03#8 [0#8, 255#8] = true ∧ (u.flow 255).state = .held .ordered) := by
  refine ⟨ask 255 (flowIn .active) _ _, ask 255 (flowIn (.held .expired)) _ _, ask 255 (flowIn (.held .ordered)) _ _,
    ⟨ask_due _ _ _ _, ?_⟩, ⟨ask_due _ _ _ _, ?_⟩, ask_due _ _ _ _, ?_⟩ <;> rw [ask_flow] <;> rfl

theorem test_witness_CloseDrainsOrDisables :
    ∃ s t u : State,
      (s.commandDue 0x04#8 [0#8, 0#8] = true ∧ (s.flow 0).state = .active ∧ (s.flow 0).queue = [] ∧
        (s.flow 0).inTransmission = false) ∧
      (t.commandDue 0x04#8 [0#8, 0#8] = true ∧ (t.flow 0).state = .held .ordered ∧ (t.flow 0).queue ≠ []) ∧
      (u.commandDue 0x04#8 [0#8, 0#8] = true ∧ (u.flow 0).state = .active ∧ (u.flow 0).queue = [] ∧
        (u.flow 0).inTransmission = true) := by
  refine ⟨ask 0 (flowIn .active) _ _, ask 0 (queueing (.held .ordered) [0]) _ _,
    ask 0 { flowIn .active with inTransmission := true } _ _, ⟨ask_due _ _ _ _, ?_⟩, ⟨ask_due _ _ _ _, ?_⟩,
    ask_due _ _ _ _, ?_⟩ <;> rw [ask_flow] <;> simp [flowIn, queueing, Flow.reset]

theorem test_witness_FlushStartsAFlush :
    ∃ s t u v : State,
      (s.commandDue 0x05#8 [0#8, 0#8] = true ∧ (s.flow 0).state = ReturnState.toFlowState .active ∧
        (s.flow 0).queue ≠ []) ∧
      (t.commandDue 0x05#8 [0#8, 0#8] = true ∧ (t.flow 0).state = ReturnState.toFlowState (.held .expired) ∧
        (t.flow 0).queue = []) ∧
      (u.commandDue 0x05#8 [0#8, 0#8] = true ∧ (u.flow 0).state = ReturnState.toFlowState .draining ∧
        (u.flow 0).queue = [] ∧ (u.flow 0).inTransmission = true) ∧
      (v.commandDue 0x05#8 [0#8, 0#8] = true ∧ (v.flow 0).state = ReturnState.toFlowState .draining ∧
        (v.flow 0).queue = [] ∧ (v.flow 0).inTransmission = false) := by
  refine ⟨ask 0 (queueing .active [0]) _ _, ask 0 (flowIn (.held .expired)) _ _,
    ask 0 { flowIn .draining with inTransmission := true } _ _, ask 0 (flowIn .draining) _ _, ⟨ask_due _ _ _ _, ?_⟩,
    ⟨ask_due _ _ _ _, ?_⟩, ⟨ask_due _ _ _ _, ?_⟩, ask_due _ _ _ _, ?_⟩ <;> rw [ask_flow] <;>
    simp [flowIn, queueing, Flow.reset, ReturnState.toFlowState]

/-- SET_FLOW's arguments just outside each range, and at both ends of the ranges. -/
theorem test_witness_SetFlowConfiguresADisabledFlow :
    (∀ args ∈ [[1#8, 0#8, 0#8, 0#8, 1#8, 0#8, 0#8, 0#8, 16#8, 0#8], [0#8, 0#8, 9#8, 0#8, 1#8, 0#8, 0#8, 0#8, 16#8, 0#8],
        [0#8, 0#8, 0#8, 0#8, 0#8, 0#8, 0#8, 0#8, 16#8, 0#8], [0#8, 0#8, 0#8, 4#8, 1#8, 0#8, 0#8, 0#8, 16#8, 0#8],
        [0#8, 0#8, 0#8, 0#8, 1#8, 0#8, 0#8, 0#8, 15#8, 0#8], [0#8, 0#8, 0#8, 0#8, 1#8, 0#8, 4#8, 0#8, 1#8, 0#8],
        [0#8, 0#8, 0#8, 0#8, 1#8, 0#8, 0#8, 0#8, 16#8, 2#8]],
      args.length = 10 ∧ (255 < num16At args 0 ∨ 8 < byteAt args 2 ∨ num16At args 3 < 1 ∨ 1024 < num16At args 3 ∨
        num32At args 5 < 16 ∨ 262144 < num32At args 5 ∨ 1 < byteAt args 9)) ∧
    (∀ args ∈ [[0#8, 0#8, 0#8, 0#8, 1#8, 0#8, 0#8, 0#8, 16#8, 0#8], [0#8, 255#8, 8#8, 4#8, 0#8, 0#8, 4#8, 0#8, 0#8, 1#8]],
      args.length = 10 ∧ ¬ (255 < num16At args 0 ∨ 8 < byteAt args 2 ∨ num16At args 3 < 1 ∨ 1024 < num16At args 3 ∨
        num32At args 5 < 16 ∨ 262144 < num32At args 5 ∨ 1 < byteAt args 9)) ∧
    ∀ (x : Flow) (args : List Byte) (f : FlowId), ∃ s : State, s.commandDue 0x06#8 args = true ∧ s.flow f = x :=
  ⟨by decide, by decide, fun x args f => ⟨ask f x _ args, ask_due _ _ _ _, ask_flow _ _ _ _⟩⟩

/-- Every state of the flow, with its last record and others behind it, in transmission or not, under both reasons. -/
theorem test_witness_HeadsLeaveByFlushOrDiscard :
    ∀ (fs : FlowState) (r : RecordId) (rest : List RecordId) (moving : Bool), ∀ why ∈ [DiscardReason.head, .stale],
      ∃ (s : State) (f : FlowId) (counters : FlowCounters),
        s.pins.reset = false ∧ (s.flow f).state = fs ∧ (s.flow f).queue = r :: rest ∧ (s.flow f).inTransmission = moving ∧
          (why = .head ∧ counters = { (s.flow f).counters with head := (s.flow f).counters.head + 1 } ∨
            why = .stale ∧ counters = { (s.flow f).counters with stale := (s.flow f).counters.stale + 1 }) := by
  intro fs r rest moving why hw
  refine ⟨State.reset.setFlow 255 { queueing fs (r :: rest) with inTransmission := moving }, 255,
    Flow.reset.counters.discard why, rfl, ?_⟩
  rw [State.flow_setFlow, if_pos rfl]
  refine ⟨rfl, rfl, rfl, ?_⟩
  fin_cases hw
  · exact .inl ⟨rfl, rfl⟩
  · exact .inr ⟨rfl, rfl⟩

/-- A record queued in flow 255 under body 0. -/
def oneRecord : FrameRecord := { state := .queued 0#16, body := 0, flow := 255 }

/-- A stored body of 16 bytes in block 0. -/
def oneBody : Body := { state := .stored, firstBlock := 0, blockCount := 1, length := 16, share := 1 }

/-- All numbers but one, in rising order. -/
def allBut {n : Nat} (z : Fin n) : List (Fin n) := (List.finRange n).filter fun k => decide (k ≠ z)

/-- A store that holds them as record 0 and body 0. -/
def oneStored : FrameStore :=
  { FrameStore.reset with
    links := FrameStore.reset.links.set (0 : BlockId) .last
    freeBlocks := allBut 0
    bodies := FrameStore.reset.bodies.set (0 : BodyId) (some oneBody)
    freeBodies := allBut 0
    records := FrameStore.reset.records.set (0 : RecordId) (some oneRecord)
    freeRecords := allBut 0 }

/-- An ACTIVE flow under HEAD_DROP whose frame limit that frame fills. -/
def oneFull : Flow := { queueing .active [0] with queuedBytes := 16, frameLimit := 1, policy := .headDrop }

/-- The part with that frame queued. -/
def oneQueued : State := (State.reset.setFlow 255 oneFull).setStore oneStored

theorem reset_record (r : RecordId) : FrameStore.reset.records[r] = none := by
  rw [FrameStore.reset_records]
  exact Vector.getElem_replicate _

theorem reset_body (b : BodyId) : FrameStore.reset.bodies[b] = none := by
  rw [FrameStore.reset_bodies]
  exact Vector.getElem_replicate _

theorem oneStored_record (r : RecordId) : oneStored.records[r] = if 0 = r then some oneRecord else none := by
  change (FrameStore.reset.records.set (0 : RecordId) (some oneRecord))[r] = _
  rw [getElem_set_fin, reset_record]

theorem oneStored_body (b : BodyId) : oneStored.bodies[b] = if 0 = b then some oneBody else none := by
  change (FrameStore.reset.bodies.set (0 : BodyId) (some oneBody))[b] = _
  rw [getElem_set_fin, reset_body]

theorem oneStored_chain : oneStored.chain oneBody = [0] := chainFrom_one oneStored.links 0

theorem mem_allBut {n : Nat} {z k : Fin n} : k ∈ allBut z ↔ k ≠ z := by simp [allBut]

theorem nodup_allBut {n : Nat} (z : Fin n) : (allBut z).Nodup := (List.nodup_finRange _).filter _

theorem oneStored_free : oneStored.freeBlocks = allBut 0 ∧ oneStored.freeRecords = allBut 0 ∧ oneStored.freeBodies = allBut 0 := by
  unfold oneStored
  exact ⟨by dsimp only, by dsimp only, by dsimp only⟩

theorem oneStored_space : oneStored.SpaceAgrees := by
  refine FrameStore.SpaceAgrees.reset.update 0 (fun c hc => ?_) (fun c _ k hk => ?_) (fun k => ?_) (fun body hb => ?_)
  · rw [oneStored_body, if_neg (Ne.symm hc), reset_body]
  · rw [FrameStore.blocksOf_of_none (reset_body c)] at hk
    exact absurd hk List.not_mem_nil
  · rw [FrameStore.blocksOf_of_none (reset_body 0), FrameStore.blocksOf_of_some ((oneStored_body 0).trans (if_pos rfl)),
      oneStored_chain, FrameStore.reset_freeBlocks, List.count_eq_one_of_mem (List.nodup_finRange _) (List.mem_finRange k)]
    rw [oneStored_free.1, show oneBody.pendingBlocks = [] from rfl, List.append_nil]
    by_cases hk : k = 0
    · rw [hk, List.count_eq_zero_of_not_mem fun h => mem_allBut.1 h rfl]
      rfl
    · rw [List.count_eq_one_of_mem (nodup_allBut _) (mem_allBut.2 hk),
        List.count_eq_zero_of_not_mem fun h => hk (List.mem_singleton.1 h)]
      rfl
  · rw [oneStored_body, if_pos rfl] at hb
    cases hb
    exact ⟨le_refl _, by decide, rfl, congrArg List.length oneStored_chain⟩

theorem oneStored_lists : oneStored.listsAgree := by
  obtain ⟨-, h2, h3⟩ := oneStored_free
  refine ⟨h2 ▸ nodup_allBut _, fun r => ?_, h3 ▸ nodup_allBut _, fun b => ?_⟩
  · rw [oneStored_record, h2, mem_allBut, ne_comm]
    split <;> simp [*]
  · rw [oneStored_body, h3, mem_allBut, ne_comm]
    split <;> simp [*]

theorem oneStored_sharers (b : BodyId) : oneStored.sharers b = if 0 = b then {0} else ∅ := by
  ext r
  rw [FrameStore.mem_sharers, oneStored_record]
  by_cases hr : 0 = r
  · subst hr
    by_cases hb : 0 = b <;> simp [hb, oneRecord]
  · rw [if_neg hr]
    by_cases hb : 0 = b
    · subst hb
      simp [Ne.symm hr]
    · simp [hb]

theorem oneQueued_flow (f : FlowId) : oneQueued.flow f = if 255 = f then oneFull else Flow.reset := by
  change (State.reset.setFlow 255 oneFull).flow f = _
  rw [State.flow_setFlow, reset_flow]

theorem oneQueued_framesAgree : oneQueued.FramesAgree := by
  obtain ⟨⟨l1, l2⟩, l3, l4, l5⟩ := Lane.Light.facts (t := oneQueued) trivial
  refine ⟨oneStored_lists, oneStored_space.1, oneStored_space.2, ⟨fun b hb => ?_, fun b body hb => ?_⟩, fun f => ?_, nofun,
    fun r => ?_, fun b body hb => ?_, l3, ?_, ?_, fun g hg => ?_, nofun, State.tableInRange_reset _ rfl⟩
  · change oneStored.bodies[b] = none at hb
    change oneStored.sharers b = ∅
    rw [oneStored_sharers, if_neg fun e => by rw [oneStored_body, if_pos e] at hb; cases hb]
  · change oneStored.bodies[b] = some body at hb
    change (oneStored.sharers b).card = body.share ∧ _
    rw [oneStored_body] at hb
    split at hb <;> cases hb
    next h => rw [oneStored_sharers, if_pos h]; exact ⟨rfl, le_refl _, by decide⟩
  · unfold State.queueAgrees
    rw [oneQueued_flow]
    split
    · next h =>
      refine ⟨List.nodup_singleton _, fun r => ?_, rfl, ?_, by decide⟩
      · change _ ↔ ∃ fr stamp, oneStored.records[r] = some fr ∧ _
        rw [oneStored_record, ← h]
        change r ∈ [0] ↔ _
        rw [List.mem_singleton]
        refine ⟨fun e => ⟨oneRecord, 0#16, if_pos e.symm, rfl, rfl⟩, fun ⟨fr, stamp, e, _⟩ => ?_⟩
        by_contra hr
        rw [if_neg (Ne.symm hr)] at e
        cases e
      · change 16 = ([0].map oneStored.recordLength).sum
        rw [List.map_singleton, List.sum_singleton,
          FrameStore.recordLength_of ((oneStored_record 0).trans (if_pos rfl)) ((oneStored_body _).trans (if_pos rfl))]
        rfl
    · next h =>
      refine ⟨List.nodup_nil, fun r => ⟨fun e => absurd e List.not_mem_nil, fun ⟨fr, stamp, e, _, e'⟩ => ?_⟩, rfl, rfl,
        Flow.limited_reset⟩
      change oneStored.records[r] = some fr at e
      rw [oneStored_record] at e
      split at e <;> cases e
      exact absurd e' h
  · rw [l1]
    refine ⟨fun e => absurd e List.not_mem_nil, fun ⟨fr, g, e, e'⟩ => ?_⟩
    change oneStored.records[r] = some fr at e
    rw [oneStored_record] at e
    split at e <;> cases e
    cases e'
  · change oneStored.bodies[b] = some body at hb
    rw [oneStored_body] at hb
    rw [l2]
    split at hb <;> cases hb
    exact ⟨fun e => absurd rfl e, nofun⟩
  · rw [l5, l4]; exact List.nodup_nil
  · rw [l5, l4]; exact Nat.zero_le _
  · rw [l5] at hg; cases hg

/-- The cases of an admission decision at their boundaries, with a frame of 2048 bytes. -/
theorem test_witness_AdmissionFollowsStateLimitsAndPolicy :
    (∀ x : Flow, ∃ (s : State) (f : FlowId), s.flow f = x) ∧
    (∃ x : Flow, x.state = .active ∧ x.byteLimit = 2047 ∧ x.byteLimit < 2048) ∧
    (∃ x : Flow, x.state = .held .ordered ∧ 2048 ≤ x.byteLimit ∧ x.queuedFrames + 1 = x.frameLimit ∧
      x.queuedBytes + 2048 = x.byteLimit) ∧
    ∀ policy : AdmissionPolicy, ∃ x : Flow, x.state = .active ∧ 2048 ≤ x.byteLimit ∧ x.policy = policy ∧
      ¬ (x.queuedFrames + 1 ≤ x.frameLimit ∧ x.queuedBytes + 2048 ≤ x.byteLimit) :=
  ⟨fun x => ⟨State.reset.setFlow 0 x, 0, by simp⟩, ⟨{ flowIn .active with byteLimit := 2047 }, rfl, rfl, by decide⟩,
    ⟨{ flowIn (.held .ordered) with byteLimit := 2048, frameLimit := 1 }, rfl, le_refl _, rfl, rfl⟩,
    fun policy => ⟨{ flowIn .active with byteLimit := 2048, policy := policy, frameLimit := 1, queuedFrames := 1 },
      rfl, le_refl _, rfl, fun h => Nat.not_succ_le_self 1 h.1⟩⟩

/-- A part in agreement whose flow is full under HEAD_DROP, and a frame of 16 bytes. -/
theorem test_witness_AdmissionFollowsStateLimitsAndPolicy_room :
    oneQueued.FramesAgree ∧ (oneQueued.flow 255).state = .active ∧ 16 ≤ (oneQueued.flow 255).byteLimit ∧
      (oneQueued.flow 255).policy = .headDrop ∧
      ¬ ((oneQueued.flow 255).queuedFrames + 1 ≤ (oneQueued.flow 255).frameLimit ∧
        (oneQueued.flow 255).queuedBytes + 16 ≤ (oneQueued.flow 255).byteLimit) := by
  refine ⟨oneQueued_framesAgree, ?_⟩
  rw [oneQueued_flow, if_pos rfl]
  decide

/-- A frame just opened. -/
def rx0 : Reception := Reception.opened

/-- A reset part deciding on a frame of 16 bytes in the given phase. -/
def deciding (phase : Deciding) (held : List Symbol) : State := inLane (.deciding rx0 (List.replicate 12 0#8) phase held)

theorem test_witness_AdmissionGoesFlowByFlow :
    (∀ (more : List FlowId) (held : List Symbol), ∃ (s : State) (rx : Reception) (lead : List Byte) (f : FlowId)
      (granted : List Grant) (label : Tag), s.pins.reset = false ∧
        s.up.lane = .deciding rx lead (.admitting (f :: more) granted label) held) ∧
    ((State.reset.admitting 0 16).2 = false ∧ ([] : List Grant) ++ (if (State.reset.admitting 0 16).2 then [⟨0, 0#8⟩] else []) = []) :=
  ⟨fun more held => ⟨deciding (.admitting (0 :: more) [] 0#16) held, _, _, 0, [], 0#16, rfl, rfl⟩, by
    have h : (State.reset.admitting 0 16).2 = false := by
      unfold State.admitting
      simp [Flow.accepting, Flow.reset]
    rw [h]
    exact ⟨rfl, rfl⟩⟩

/-- A part that decides on the admission of its last flow, which is ACTIVE and empty. -/
def granting : State :=
  (State.reset.setFlow 0 (flowIn .active)).setLane (.deciding rx0 (List.replicate 12 0#8) (.admitting [0] [] 0#16) [])

/-- A last decision that grants. -/
theorem test_witness_AdmissionGoesFlowByFlow_granted :
    ∃ (s : State) (rx : Reception) (lead : List Byte) (label : Tag) (held : List Symbol),
      s.pins.reset = false ∧ s.up.lane = .deciding rx lead (.admitting [0] [] label) held ∧
        [] ++ (if (s.admitting 0 (num16At lead 8)).2 then [⟨0, (s.flow 0).generation⟩] else []) ≠ ([] : List Grant) := by
  refine ⟨granting, _, _, _, _, rfl, rfl, ?_⟩
  have h : (granting.admitting 0 0).2 = true := by
    unfold State.admitting granting
    rw [State.setLane_flow, State.flow_setFlow, if_pos rfl]
    rfl
  change [] ++ (if (granting.admitting 0 0).2 then _ else _) ≠ _
  rw [h]
  exact List.cons_ne_nil _ _

/-- A store that holds one record of the given state for the given flow. -/
def holding (r : RecordId) (fr : FrameRecord) : FrameStore :=
  { FrameStore.reset with records := FrameStore.reset.records.set r (some fr) }

theorem holding_record (r : RecordId) (fr : FrameRecord) : (holding r fr).records[r] = some fr := by
  unfold holding
  rw [getElem_set_fin, if_pos rfl]

theorem test_witness_TheCommitRechecksEachFlow :
    ∀ (x : Flow) (f : FlowId) (r : RecordId), ∃ (s : State) (fr : FrameRecord), s.store.records[r] = some fr ∧
      fr.state = .reserved 255#8 ∧ fr.flow = f ∧ s.flow fr.flow = x := by
  intro x f r
  refine ⟨(State.reset.setFlow f x).setStore (holding r { state := .reserved 255#8, body := 0, flow := f }),
    { state := .reserved 255#8, body := 0, flow := f }, ?_, rfl, rfl, ?_⟩
  · rw [State.setStore_store]
    exact holding_record _ _
  · simp

/-- Flows for each of its three cases. -/
theorem test_witness_TheCommitRechecksEachFlow_cases :
    (∃ x : Flow, x.accepting = true ∧ x.generation = 255#8) ∧ (∃ x : Flow, x.generation = 255#8 ∧ x.isFlushing = true) ∧
      (∃ x : Flow, x.generation ≠ 255#8) ∧ (∃ x : Flow, x.state = .draining) ∧ ∃ x : Flow, x.state = .disabled :=
  ⟨⟨{ flowIn .active with generation := 255#8 }, rfl, rfl⟩,
    ⟨{ flowIn (.flushing .active) with generation := 255#8 }, rfl, rfl⟩, ⟨Flow.reset, by decide⟩, ⟨flowIn .draining, rfl⟩,
    Flow.reset, rfl⟩

/-! ### The Frame Store -/

/-- A store with the given free lists. -/
def lists (bodies : List BodyId) (records : List RecordId) (blocks : List BlockId) : FrameStore :=
  { FrameStore.reset with freeBodies := bodies, freeRecords := records, freeBlocks := blocks }

/-- Frames of 16, 128, 129 and 2048 bytes need 1, 1, 2 and 16 blocks; a list of free blocks of any length serves. -/
theorem test_witness_AReservationIsWholeOrNothing :
    (∃ st : FrameStore, st.freeBodies = []) ∧
    (∀ (first : BlockId) (pending blocks : List BlockId) (body : BodyId) (bodies : List BodyId)
      (taken records : List RecordId), ∃ st : FrameStore, st.freeBodies = body :: bodies ∧
        st.freeBlocks = first :: pending ++ blocks ∧ st.freeRecords = taken ++ records) ∧
    ([16, 128, 129, 2048].map fun length => (length + 127) / 128) = [1, 1, 2, 16] ∧
    ((List.replicate 15 (0 : BlockId)).length + 1 = 16) ∧
    (∃ st : FrameStore, st.freeRecords.length < 1) ∧ ∃ st : FrameStore, st.freeBlocks.length < 1 :=
  ⟨⟨lists [] [] [], rfl⟩,
    fun first pending blocks body bodies taken records =>
      ⟨lists (body :: bodies) (taken ++ records) (first :: pending ++ blocks), rfl, rfl, rfl⟩, rfl, rfl,
    ⟨lists [] [] [], Nat.zero_lt_one⟩, lists [] [] [], Nat.zero_lt_one⟩

/-- Grants of one and of two flows. -/
def grant1 : List Grant := [{ flow := 0, generation := 0#8 }]
def grant2 : List Grant := [{ flow := 0, generation := 0#8 }, { flow := 255, generation := 0#8 }]

theorem test_witness_TheReservationFixesTheOutcome :
    (∀ (st : FrameStore) (granted : List Grant) (held : List Symbol), ∃ s : State,
      s.pins.reset = false ∧ s.store = st ∧
        s.up.lane = .deciding rx0 (List.replicate 8 0#8 ++ [0#8, 16#8, 0#8, 0#8]) (.reserve granted 0#16) held) ∧
    num16At (List.replicate 8 0#8 ++ [0#8, 16#8, 0#8, 0#8]) 8 = 16 ∧
    (∃ st body records, (lists [0] [0, 1] [0]).reserve 16 grant2 = some (st, body, records)) ∧
    (lists [] [0, 1] [0]).reserve 16 grant1 = none ∧ (lists [] [0, 1] [0]).reserve 16 grant2 = none ∧
      (0 : FlowId) ≠ 255 :=
  ⟨fun st granted held => ⟨{ inLane (.deciding rx0 (List.replicate 8 0#8 ++ [0#8, 16#8, 0#8, 0#8]) (.reserve granted 0#16) held)
      with store := st }, rfl, rfl, rfl⟩, by decide, ⟨_, _, _, rfl⟩, rfl, rfl, by decide⟩

/-- A store with one body. -/
def filled (b : BodyId) (body : Body) : FrameStore :=
  { FrameStore.reset with bodies := FrameStore.reset.bodies.set b (some body) }

theorem filled_body (b : BodyId) (body : Body) : (filled b body).bodies[b] = some body := by
  unfold filled
  rw [getElem_set_fin, if_pos rfl]

/-- A FILLING body with one block linked and the given blocks pending. -/
def filling (first : BlockId) (pending : List BlockId) : Body :=
  { state := .filling 1 pending, firstBlock := first, blockCount := pending.length + 1, length := 2048, share := 1 }

theorem filling_chain (st : FrameStore) (first : BlockId) (pending : List BlockId) :
    st.chain (filling first pending) = [first] := by
  simp only [FrameStore.chain, filling, chainFrom]
  split <;> rfl

/-- Bytes 0 and 127 have a place in the chain, byte 128 goes to the pending block, if one is left. -/
theorem test_witness_AByteIsStoredAtItsPlaceInTheChain :
    ∀ (b : BodyId) (first : BlockId) (pending : List BlockId), ∃ (st : FrameStore) (body : Body),
      Memory.wf st.mem = true ∧ st.bodies[b] = some body ∧ body.state = .filling 1 pending ∧
      (st.chain body)[0 / 128]? = some first ∧ (st.chain body)[127 / 128]? = some first ∧
      (st.chain body)[128 / 128]? = none ∧ (st.chain body).getLast? = some first := by
  intro b first pending
  refine ⟨filled b (filling first pending), filling first pending, rfl, filled_body _ _, rfl, ?_⟩
  rw [filling_chain]
  exact ⟨rfl, rfl, rfl, rfl⟩

/-- A store with one body and one record of it. -/
def recording (r : RecordId) (fr : FrameRecord) (body : Body) : FrameStore :=
  { FrameStore.reset with
    bodies := FrameStore.reset.bodies.set fr.body (some body), records := FrameStore.reset.records.set r (some fr) }

theorem recording_spec (r : RecordId) (fr : FrameRecord) (body : Body) :
    (recording r fr body).records[r] = some fr ∧ (recording r fr body).bodies[fr.body] = some body := by
  unfold recording
  rw [getElem_set_fin, getElem_set_fin, if_pos rfl, if_pos rfl]
  exact ⟨rfl, rfl⟩

theorem test_witness_SpaceIsGivenBackShareByShare :
    (∀ (share : Nat) (r : RecordId) (fr : FrameRecord), ∃ (st : FrameStore) (body : Body),
      st.records[r] = some fr ∧ st.bodies[fr.body] = some body ∧ body.share = share ∧ body.state = .stored) ∧
    ∀ (r : RecordId) (fr : FrameRecord) (pending : List BlockId), ∃ (st : FrameStore) (body : Body),
      st.bodies[fr.body] = some body ∧ body.state = .filling 1 pending ∧ ([r] : List RecordId).Nodup ∧
        ∀ q ∈ [r], st.records[q] ≠ none := by
  refine ⟨fun share r fr => ?_, fun r fr pending => ?_⟩
  · have h := recording_spec r fr { filling 0 [] with share := share, state := .stored }
    exact ⟨_, _, h.1, h.2, rfl, rfl⟩
  · have h := recording_spec r fr (filling 0 pending)
    refine ⟨_, _, h.2, rfl, List.nodup_singleton r, fun q hq => ?_⟩
    rw [List.mem_singleton.1 hq, h.1]
    simp

/-- The pause condition at the watermarks, one block below and at each. -/
theorem test_witness_WatermarksDriveThePauseCondition :
    (∀ (n pause resume : Nat) (condition : Bool), ∃ s : State, s.store.pauseCondition = condition ∧
      s.store.freeBlocks.length = n ∧ s.store.pauseMark = pause ∧ s.store.resumeMark = resume) ∧
    (∀ args ∈ [[0#8, 1#8, 0#8, 0#8], [8#8, 1#8, 8#8, 1#8], [8#8, 0#8, 8#8, 1#8]], args.length = 4 ∧
      (num16At args 2 < num16At args 0 ∨ 2048 < num16At args 0 ∨ 2048 < num16At args 2)) ∧
    (∀ args ∈ [[0#8, 0#8, 0#8, 0#8], [8#8, 0#8, 8#8, 0#8]], args.length = 4 ∧ num16At args 0 ≤ num16At args 2 ∧
      num16At args 2 ≤ 2048) ∧
    ∀ (code : Byte) (args : List Byte), ∃ s : State, s.commandDue code args = true :=
  ⟨fun n pause resume condition => ⟨State.reset.setStore { lists [] [] (List.replicate n 0) with
      pauseMark := pause, resumeMark := resume, pauseCondition := condition }, rfl, List.length_replicate, rfl, rfl⟩,
    by decide, by decide, fun code args => ⟨_, asking_due State.reset code args rfl⟩⟩

/-! ### The Classifier -/

/-- A match entry that matches every lead and the given action. -/
def anyLead (a : MatchAction) : MatchEntry :=
  { MatchEntry.reset with valid := true, kindSet := 0xFFFF#16, classSet := 0xFFFF#16, lengthMax := 2048, action := a }

/-- The reset part deciding, with one entry given. -/
def classifying (n : Fin 64) (e : MatchEntry) (d : DefaultAction) (held : List Symbol) : State :=
  { deciding .classify held with
    classifier := { Classifier.reset with entries := Classifier.reset.entries.set n e, defaultAction := d } }

theorem reset_entry (lead : List Byte) : MatchEntry.reset.matchesLead lead = false := rfl

theorem test_witness_ClassificationTakesTheFirstMatch :
    (∀ (n : Fin 64) (a : MatchAction) (held : List Symbol), ∃ s : State, s.pins.reset = false ∧
      s.up.lane = .deciding rx0 (List.replicate 12 0#8) .classify held ∧
      s.classifier.entries[n].matchesLead (List.replicate 12 0#8) = true ∧ s.classifier.entries[n].action = a ∧
      ∀ m : Fin 64, m < n → s.classifier.entries[m].matchesLead (List.replicate 12 0#8) = false) ∧
    ∀ (d : DefaultAction) (held : List Symbol), ∃ s : State, s.pins.reset = false ∧
      s.up.lane = .deciding rx0 (List.replicate 12 0#8) .classify held ∧ s.classifier.defaultAction = d ∧
      ∀ n : Fin 64, s.classifier.entries[n].matchesLead (List.replicate 12 0#8) = false := by
  have he : ∀ (n m : Fin 64) (e : MatchEntry),
      (Classifier.reset.entries.set n e)[m] = if n = m then e else MatchEntry.reset := by
    intro n m e
    rw [getElem_set_fin]
    congr 1
    simp [Classifier.reset]
  refine ⟨fun n a held => ⟨classifying n (anyLead a) .discard held, rfl, rfl, ?_, ?_, fun m hm => ?_⟩,
    fun d held => ⟨classifying 0 MatchEntry.reset d held, rfl, rfl, rfl, fun m => ?_⟩⟩
  · simp only [classifying]
    rw [he, if_pos rfl]
    change (anyLead .discard).matchesLead (List.replicate 12 0#8) = true
    decide
  · simp only [classifying]
    rw [he, if_pos rfl]
    rfl
  · simp only [classifying]
    rw [he, if_neg (Fin.ne_of_gt hm)]
    rfl
  · simp only [classifying]
    rw [he]
    split <;> rfl

/-- Good and bad arguments of WRITE_MATCH, READ_MATCH and SET_DEFAULT at the ends of their ranges. -/
theorem test_witness_MatchCommandsWriteAndReport :
    (∀ args ∈ [64#8 :: encodeEntry MatchEntry.reset, 0#8 :: List.replicate 32 0xFF#8], args.length = 33 ∧
      (63 < byteAt args 0 ∨ decodeEntry (args.drop 1) = none)) ∧
    (∀ n ∈ [0#8, 63#8], byteAt (n :: encodeEntry MatchEntry.reset) 0 < 64 ∧
      decodeEntry ((n :: encodeEntry MatchEntry.reset).drop 1) = some MatchEntry.reset) ∧
    (∀ args ∈ [[2#8, 0#8, 0#8], [1#8, 1#8, 0#8]], args.length = 3 ∧
      (1 < byteAt args 0 ∨ byteAt args 0 = 1 ∧ 255 < num16At args 1)) ∧
    (∀ args ∈ [[0#8, 255#8, 255#8], [1#8, 0#8, 255#8]], args.length = 3 ∧
      (byteAt args 0 = 0 ∨ byteAt args 0 = 1 ∧ num16At args 1 = 255)) ∧
    ∀ (d : DefaultAction) (code : Byte) (args : List Byte), ∃ s : State, s.commandDue code args = true ∧
      s.classifier.defaultAction = d :=
  ⟨by decide, by decide, by decide, by decide, fun d code args =>
    ⟨asking (classifying 0 MatchEntry.reset d []) code args, asking_due _ code args rfl, rfl⟩⟩

theorem test_witness_MatchEntriesAreReadBack :
    (anyLead (.mirror 0 255 (some 0xFFFF#16))).inRange ∧ (anyLead .discard).inRange ∧
    ∃ (bs : List Byte) (e : MatchEntry) (label : Tag), bs.length = 32 ∧ decodeEntry bs = some e ∧
      e.action = .mirror 0 255 (some label) :=
  ⟨⟨by decide, le_refl _, (by decide : (0 : FlowId) ≠ 255)⟩, ⟨by decide, le_refl _, trivial⟩,
    encodeEntry (anyLead (.mirror 0 255 (some 0xFFFF#16))), anyLead (.mirror 0 255 (some 0xFFFF#16)), 0xFFFF#16,
    by decide, by decide, rfl⟩

/-- Two encodings that differ in absent fields alone. -/
def apartInAbsentFields (bs cs : List Byte) : Prop :=
  cs ≠ bs ∧ ∀ i < 32, (i = 2 ∨ 26 ≤ i → byteAt bs 1 ≠ 0) → (i = 28 ∨ i = 29 → byteAt bs 1 = 2) →
    (30 ≤ i → byteAt bs 2 = 1) → byteAt cs i = byteAt bs i

/-- All the absent fields of DISCARD, and those of QUEUE without a relabel. -/
theorem test_witness_MatchEntriesAreReadBack_absent :
    (∃ bs, bs = encodeEntry (anyLead .discard) ∧
      apartInAbsentFields bs (bs.take 2 ++ [7#8] ++ (bs.drop 3).take 23 ++ List.replicate 6 0xFF#8)) ∧
    ∃ bs, bs = encodeEntry (anyLead (.queue 255 none)) ∧
      apartInAbsentFields bs (bs.take 28 ++ List.replicate 4 0xFF#8) := by
  unfold apartInAbsentFields
  exact ⟨⟨_, rfl, by decide⟩, _, rfl, by decide⟩

/-! ### Epochs and profiles -/

/-- The reset part with flow 255 given. -/
def lastFlow (x : Flow) : State := State.reset.setFlow 255 x

@[simp] theorem lastFlow_flow (x : Flow) : (lastFlow x).flow 255 = x := by
  unfold lastFlow
  rw [State.flow_setFlow, if_pos rfl]

@[simp] theorem reset_item (i : ItemId) : State.reset.notices.items[i] = NoticeItem.reset := by
  simp [State.reset, NoticeUnit.reset]

/-- All the work of an expiry. -/
def allDue : FlowDue := { replenishment := true, sweep := true, step := true }

theorem test_witness_EpochsExpireAndTakeTheNextPeriod :
    (∃ s : State, s.pins.reset = false ∧ (∀ f, (s.flow f).expiryDone = true) ∧
      (s.down.holdTickDue = true → s.pins.dhold = false) ∧ ∀ i : ItemId, s.notices.items[i].expiryDone = true) ∧
    (∃ s : State, s.pins.reset = false ∧ ∃ f, (s.flow f).expiryDone = false) ∧
    ∀ args ∈ [[0#8, 9#8], [0#8, 10#8], [0xFF#8, 0xFF#8]], ∃ s : State, s.commandDue 0x0D#8 args = true ∧
      args.length = 2 ∧ (num16At args 0 < 10 ∨ 10 ≤ num16At args 0) := by
  refine ⟨⟨State.reset, rfl, fun f => ?_, fun _ => rfl, fun i => ?_⟩,
    ⟨lastFlow { flowIn .active with due := allDue }, rfl, 255, ?_⟩,
    fun args h => ⟨_, asking_due State.reset _ _ rfl, ?_⟩⟩
  · rw [reset_flow]; rfl
  · rw [reset_item]; rfl
  · rw [lastFlow_flow]; rfl
  · revert args h; decide

/-- The reset part with its Notice Unit given. -/
def noting (n : NoticeUnit) : State := State.reset.setNotices n

/-- A Notice Unit with one item given and a destination. -/
def withItem (i : ItemId) (x : NoticeItem) : NoticeUnit :=
  { NoticeUnit.reset with items := NoticeUnit.reset.items.set i x, destination := 1#16 }

theorem withItem_item (i : ItemId) (x : NoticeItem) : (withItem i x).items[i] = x := by
  unfold withItem
  rw [getElem_set_fin, if_pos rfl]

/-- A hold tick with DHOLD asserted, and the tick of a SENT item. -/
theorem test_witness_EpochsExpireAndTakeTheNextPeriod_waits :
    (∃ s : State, s.pins.reset = false ∧ s.down.holdTickDue = true ∧ s.pins.dhold = true) ∧
    ∃ (s : State) (i : ItemId), s.pins.reset = false ∧ s.notices.items[i].isSent = true ∧ s.notices.items[i].tickDue = true := by
  refine ⟨⟨(State.reset.setPins { Pins.released with dhold := true }).setDown { DownstreamPort.reset with holdTickDue := true },
      rfl, rfl, rfl⟩, noting (withItem 1028 { state := .sent false 0#16 0 0, count := 0, tickDue := true }), 1028, rfl, ?_⟩
  change (withItem 1028 _).items[(1028 : ItemId)].isSent = true ∧ (withItem 1028 _).items[(1028 : ItemId)].tickDue = true
  rw [withItem_item]
  exact ⟨rfl, rfl⟩

/-- The credit floor itself falls under both of its clauses, with one outcome. -/
theorem test_witness_CreditIsReplenishedJudgedAndDebited :
    (∀ fs : FlowState, ∃ (s : State) (f : FlowId), s.pins.reset = false ∧ (s.flow f).due.replenishment = true ∧
      (s.flow f).state = fs) ∧
    (∃ (s : State) (f : FlowId), (s.flow f).due.replenishment = false) ∧
    (∃ (credit : Int) (length : Nat), -131072 ≤ credit - length ∧ credit - length ≤ -131072) ∧
    (∃ (credit : Int) (length : Nat), -131072 ≤ credit - length ∧ ¬ credit - length ≤ -131072) ∧
    ∃ (credit : Int) (length : Nat), credit - length < -131072 :=
  ⟨fun fs => ⟨lastFlow { flowIn fs with due := allDue }, 255, rfl, by rw [lastFlow_flow]; rfl, by rw [lastFlow_flow]; rfl⟩,
    ⟨lastFlow (flowIn .active), 255, by rw [lastFlow_flow]; rfl⟩,
    ⟨-131056, 16, by decide, by decide⟩, ⟨0, 2048, by decide, by decide⟩, -131072, 16, by decide⟩

/-- A drain that completes removes the replenishment still due, so that OPEN in the same epoch does not bring it back (R69). -/
theorem test_drainRemovesTheReplenishment :
    let s := (lastFlow { flowIn .draining with due := allDue }).settleDrain 255
    (s.flow 255).state = .disabled ∧
      exec (.replenishment 255) (s.setFlow 255 { s.flow 255 with state := .active }) =
        .next (s.setFlow 255 { s.flow 255 with state := .active }) := by
  intro s
  have h : s.flow 255 = { flowIn .draining with due := allDue }.disabled := by
    simp [s, lastFlow, State.settleDrain, flowIn, State.enterDisabled, Flow.reset]
  refine ⟨by rw [h]; rfl, ?_⟩
  change execReplenishment 255 _ = _
  unfold execReplenishment
  rw [State.flow_setFlow, if_pos rfl, h, if_neg fun e => Bool.false_ne_true e.2]

theorem test_witness_ASweepRemovesTheStaleHeads :
    (∀ stamp : BitVec 16, ∃ (s : State) (r : RecordId) (fr : FrameRecord), s.store.records[r] = some fr ∧
      fr.state = .queued stamp) ∧
    ∀ (fs : FlowState) (queue : List RecordId), ∃ (s : State) (f : FlowId), s.pins.reset = false ∧
      (s.flow f).due.sweep = true ∧ (s.flow f).state = fs ∧ (s.flow f).queue = queue := by
  refine ⟨fun stamp => ⟨State.reset.setStore (holding 0 { state := .queued stamp, body := 0, flow := 0 }), 0,
    { state := .queued stamp, body := 0, flow := 0 }, ?_, rfl⟩,
    fun fs queue => ⟨lastFlow { queueing fs queue with due := allDue }, 255, rfl, ?_⟩⟩
  · rw [State.setStore_store]
    exact holding_record _ _
  · rw [lastFlow_flow]
    exact ⟨rfl, rfl, rfl⟩

/-- A profile with every number at its greatest. -/
def greatProfile : Profile :=
  { discipline := .strict, rate := 65535, burstCap := 262143, releaseMode := .demand, runLength := 64, ageLimit := 32767,
    lifetime := 65535, expireAction := .close }

theorem test_witness_ProfilesAreReadBack :
    Profile.default.good = true ∧ greatProfile.good = true ∧
    ∃ (bs : List Byte) (p : Profile), bs.length = 16 ∧ decodeProfile bs = some p :=
  ⟨rfl, rfl, encodeProfile greatProfile, greatProfile, rfl, by decide⟩

theorem test_witness_StagingCommandsActOnTheSlot :
    (∀ args ∈ [[1#8, 0#8] ++ encodeProfile greatProfile, [0#8, 255#8] ++ List.replicate 16 0#8], args.length = 18 ∧
      (255 < num16At args 0 ∨ decodeProfile (args.drop 2) = none)) ∧
    (∀ x : Flow, ∃ (s : State) (args : List Byte) (f : FlowId) (p : Profile), s.commandDue 0x0E#8 args = true ∧
      args.length = 18 ∧ f.val = num16At args 0 ∧ decodeProfile (args.drop 2) = some p ∧ s.flow f = x) ∧
    (∃ x : Flow, x.state = .disabled) ∧ (∃ x : Flow, x.state ≠ .disabled ∧ x.staged ≠ none) ∧
    (∃ x : Flow, x.state ≠ .disabled ∧ x.staged = none) ∧ (∃ x : Flow, x.staged = some greatProfile) :=
  ⟨by decide, fun x => ⟨ask 255 x _ ([0#8, 255#8] ++ encodeProfile greatProfile), _, 255, greatProfile, ask_due _ _ _ _,
      rfl, by decide, by decide, ask_flow _ _ _ _⟩,
    ⟨Flow.reset, rfl⟩, ⟨{ flowIn .active with staged := some greatProfile }, by simp [flowIn], by simp⟩,
    ⟨flowIn .draining, by simp [flowIn], rfl⟩, { flowIn .active with staged := some greatProfile }, rfl⟩

/-- Flows for each case of the step: UNSTAGE, ADOPT and READ_PROFILE meet theirs by `test_witness_flowCommands`. -/
theorem test_witness_AProfileStepFollowsItsTable :
    (∀ (fs : FlowState) (staged : Option Profile) (adoptPending : Bool) (lifetime remaining : Nat), ∃ (s : State) (f : FlowId),
      s.pins.reset = false ∧ (s.flow f).due.step = true ∧ (s.flow f).state = fs ∧ (s.flow f).staged = staged ∧
        (s.flow f).adoptPending = adoptPending ∧ (s.flow f).active.lifetime = lifetime ∧
        (s.flow f).remaining = remaining) ∧
    ∃ fs : FlowState, fs ≠ .held .expired ∧ fs ≠ .flushing (.held .expired) := by
  refine ⟨fun fs staged adoptPending lifetime remaining =>
    ⟨lastFlow { flowIn fs with
      due := allDue, staged := staged, adoptPending := adoptPending, remaining := remaining,
      active := { Profile.default with lifetime := lifetime } }, 255, rfl, ?_⟩, .draining, by decide, by decide⟩
  rw [lastFlow_flow]
  exact ⟨rfl, rfl, rfl, rfl, rfl, rfl⟩

theorem test_witness_AnExpiredProfileIsFollowedUp :
    ∀ (staged : Option Profile) (action : ExpireAction) (queue : List RecordId) (moving : Bool) (remaining : Nat),
      ∃ (s : State) (f : FlowId), s.pins.reset = false ∧ (s.flow f).due.step = true ∧ (s.flow f).state = .active ∧
        (s.flow f).adoptPending = false ∧ (s.flow f).active.lifetime ≠ 0 ∧ (s.flow f).remaining = remaining ∧
        (s.flow f).staged = staged ∧ (s.flow f).active.expireAction = action ∧ (s.flow f).queue = queue ∧
        (s.flow f).inTransmission = moving := by
  intro staged action queue moving remaining
  refine ⟨lastFlow { queueing .active queue with
      due := allDue, staged := staged, remaining := remaining, inTransmission := moving,
      active := { Profile.default with lifetime := 1, expireAction := action } }, 255, rfl, ?_⟩
  rw [lastFlow_flow]
  exact ⟨rfl, rfl, rfl, Nat.one_ne_zero, rfl, rfl, rfl, rfl, rfl⟩

/-! ### Release and Port D -/

theorem test_witness_AReleasedHeadGoesToPortD :
    ∀ (r : RecordId) (rest : List RecordId) (fr : FrameRecord) (body : Body), ∃ (s : State) (f : FlowId),
      (s.flow f).queue = r :: rest ∧ s.store.records[r] = some fr ∧ s.store.bodies[fr.body] = some body := by
  intro r rest fr body
  refine ⟨(lastFlow (queueing .active (r :: rest))).setStore (recording r fr body), 255, ?_, ?_⟩
  · rw [State.setStore_flow, lastFlow_flow]; rfl
  · rw [State.setStore_store]
    exact recording_spec r fr body

/-- A part whose flow 255 is ACTIVE in the given group and mode with one frame queued, and whose run is given. -/
def waitingIn (g : Group) (mode : ReleaseMode) (run : Option Run) : State :=
  (lastFlow { queueing .active [0] with group := g, active := { Profile.default with releaseMode := mode } }).setScheduler
    { Scheduler.reset with run := run }

theorem waitingIn_flow (g : Group) (mode : ReleaseMode) (run : Option Run) (f : FlowId) :
    (waitingIn g mode run).flow f = if f = 255 then
      { queueing .active [0] with group := g, active := { Profile.default with releaseMode := mode } } else Flow.reset := by
  unfold waitingIn lastFlow
  rw [State.setScheduler_flow, State.flow_setFlow, reset_flow]
  by_cases h : f = 255
  · rw [if_pos h, if_pos (by rw [h])]
  · rw [if_neg h, if_neg (fun e => h e.symm)]

theorem waitingIn_candidate (g : Group) (mode : ReleaseMode) (run : Option Run) (f : FlowId) :
    (waitingIn g mode run).candidate f = decide (f = 255) := by
  unfold State.candidate
  rw [waitingIn_flow]
  by_cases h : f = 255
  · rw [if_pos h, decide_eq_true h]; rfl
  · rw [if_neg h, decide_eq_false h]; rfl

theorem waitingIn_candidateIn (g g' : Group) (mode : ReleaseMode) (run : Option Run) (f : FlowId) :
    (waitingIn g mode run).candidateIn g' f = (decide (g = g') && decide (f = 255)) := by
  unfold State.candidateIn
  rw [waitingIn_candidate, waitingIn_flow]
  by_cases h : f = 255
  · rw [if_pos h]
  · rw [decide_eq_false h, Bool.and_false, Bool.and_false]

theorem waitingIn_due (g : Group) (mode : ReleaseMode) (run : Option Run) :
    (waitingIn g mode run).selectionDue = true := by
  have h : allFlows.any (waitingIn g mode run).candidate = true :=
    List.any_eq_true.2 ⟨255, List.mem_finRange _, by rw [waitingIn_candidate]; rfl⟩
  unfold State.selectionDue
  rw [h, Bool.or_true]
  rfl

/-- With every age limit at 0 an aging check removes nothing. -/
theorem agingCheck_of_noLimit (s : State) (h : ∀ f, (s.flow f).active.ageLimit = 0) : s.agingCheck = s := by
  have hs : ∀ r, s.stale 0 r = false := by
    intro r
    unfold State.stale
    split <;> rfl
  have hn : ∀ (f : FlowId) (n : Nat), s.removeStale f n = s := by
    intro f n
    cases n with
    | zero => rfl
    | succ n =>
      unfold State.removeStale
      rw [h f]
      split
      · rfl
      · rw [hs]; rfl
  have hf : ∀ l : List FlowId, l.foldl (fun t f => if (t.flow f).releasing then t.ageFlow f else t) s = s := by
    intro l
    induction l with
    | nil => rfl
    | cons f l ih =>
      rw [List.foldl_cons]
      have e : (if (s.flow f).releasing then s.ageFlow f else s) = s := by
        split
        · exact hn f _
        · rfl
      rw [e, ih]
  exact hf _

theorem waitingIn_aged (g : Group) (mode : ReleaseMode) (run : Option Run) :
    (waitingIn g mode run).agingCheck = waitingIn g mode run := by
  refine agingCheck_of_noLimit _ fun f => ?_
  rw [waitingIn_flow]
  split <;> rfl

theorem test_witness_ASelectionServesExpressThenTheRun :
    (∃ (s : State) (f : FlowId), s.pins.reset = false ∧ s.selectionDue = true ∧
      s.agingCheck.candidateIn .express f = true ∧ ∀ g, g < f → s.agingCheck.candidateIn .express g = false) ∧
    ∀ (mode : RunMode) (remaining : Nat), remaining = 1 ∨ remaining = 64 → ∃ (s : State) (run : Run),
      s.pins.reset = false ∧ s.selectionDue = true ∧ (∀ g, s.agingCheck.candidateIn .express g = false) ∧
      s.agingCheck.scheduler.run = some run ∧ 0 < run.remaining ∧ run.remaining = remaining ∧ run.mode = mode ∧
      (s.agingCheck.flow run.holder).releasing = true ∧ (s.agingCheck.flow run.holder).queue ≠ [] ∧
      s.agingCheck.candidate run.holder = true := by
  constructor
  · refine ⟨waitingIn .express .single none, 255, rfl, waitingIn_due _ _ _, ?_, fun g hg => ?_⟩
    · rw [waitingIn_aged, waitingIn_candidateIn]; rfl
    · rw [waitingIn_aged, waitingIn_candidateIn, decide_eq_false (Fin.ne_of_lt hg), Bool.and_false]
  · intro mode remaining hr
    have hp : 0 < remaining := by omega
    refine ⟨waitingIn (.ring 0) .block (some { holder := 255, mode := mode, remaining := remaining }),
      { holder := 255, mode := mode, remaining := remaining }, rfl, waitingIn_due _ _ _, fun g => ?_, ?_, hp, rfl, rfl, ?_⟩
    · rw [waitingIn_aged, waitingIn_candidateIn]; rfl
    · rw [waitingIn_aged]; rfl
    · rw [waitingIn_aged, waitingIn_candidate]
      refine ⟨?_, ?_, rfl⟩
      · rw [waitingIn_flow, if_pos rfl]; rfl
      · rw [waitingIn_flow, if_pos rfl]
        exact List.cons_ne_nil _ _

/-- A run whose holder has no candidate head does not qualify; a stale run record is a due selection with nobody waiting. -/
theorem test_witness_ASelectionArbitratesAroundTheRings :
    (∃ s : State, s.pins.reset = false ∧ s.selectionDue = true ∧ (∀ g, s.agingCheck.candidateIn .express g = false) ∧
      (∀ run, s.agingCheck.scheduler.run = some run → s.agingCheck.qualifies run = false) ∧
      s.agingCheck.scheduler.run ≠ none ∧ ∀ g, ¬ s.agingCheck.groupWaits g) ∧
    ∀ (g : Fin 8) (mode : ReleaseMode), ∃ (s : State) (f : FlowId), s.pins.reset = false ∧ s.selectionDue = true ∧
      (∀ g', s.agingCheck.candidateIn .express g' = false) ∧
      (∀ run, s.agingCheck.scheduler.run = some run → s.agingCheck.qualifies run = false) ∧
      (s.agingCheck.flow f).active.releaseMode = mode ∧
      ({ s.agingCheck with scheduler := { s.agingCheck.scheduler with run := none } } : State).nearest g f := by
  constructor
  · have hc : ∀ (c : Scheduler) (g : Group) (f : FlowId), (State.reset.setScheduler c).candidateIn g f = false := by
      intro c g f
      unfold State.candidateIn State.candidate
      rw [State.setScheduler_flow, reset_flow]
      exact Bool.and_false _
    have ha : ∀ c : Scheduler, (State.reset.setScheduler c).agingCheck = State.reset.setScheduler c := fun c =>
      agingCheck_of_noLimit _ fun f => by rw [State.setScheduler_flow, reset_flow]; rfl
    refine ⟨State.reset.setScheduler { Scheduler.reset with run := some { holder := 7, mode := .block, remaining := 1 } },
      rfl, rfl, fun g => ?_, fun run hr => ?_, ?_, fun g hg => ?_⟩
    · rw [ha]; exact hc _ _ _
    · rw [ha] at hr ⊢
      cases hr
      unfold State.qualifies
      rw [State.setScheduler_flow, reset_flow]
      rfl
    · rw [ha]
      exact Option.some_ne_none _
    · obtain ⟨f, hf⟩ := hg
      rw [ha, hc] at hf
      exact absurd hf Bool.false_ne_true
  · intro g mode
    refine ⟨waitingIn (.ring g) mode none, 255, rfl, waitingIn_due _ _ _, fun g' => ?_, fun run hr => ?_, ?_, ?_⟩
    · rw [waitingIn_aged, waitingIn_candidateIn]; rfl
    · rw [waitingIn_aged] at hr
      exact absurd hr.symm (Option.some_ne_none run)
    · rw [waitingIn_aged, waitingIn_flow, if_pos rfl]
    · rw [waitingIn_aged]
      change (waitingIn (.ring g) mode none).nearest g 255
      have hc := waitingIn_candidateIn (.ring g) (.ring g) mode none
      refine ⟨?_, fun g' hw => ?_, fun f' hf => ?_⟩
      · rw [hc, decide_eq_true rfl]; rfl
      · obtain ⟨f, hf⟩ := hw
        rw [waitingIn_candidateIn, Bool.and_eq_true, decide_eq_true_iff] at hf
        injection hf.1 with e
        rw [e]
      · rw [hc, Bool.and_eq_true, decide_eq_true_iff, decide_eq_true_iff] at hf
        rw [hf.2]

/-- Each way in which no selection is taken; after reset no flow is a candidate and no run exists. -/
theorem test_witness_SelectionsAreTakenInTurnAndAgeHeads :
    (∃ s : State, s.down.sending ≠ none) ∧ (∃ s : State, s.pins.dhold = true) ∧
      (∃ s : State, s.scheduler.releaseEnable = false) ∧ (∃ s : State, s.scheduler.quenchFlag = true) ∧
      (∃ s : State, s.up.restartCondition = true) ∧ (∃ s : State, s.pins.reset = true) ∧
      ∃ s : State, s.scheduler.run = none ∧ ∀ f, s.candidate f = false :=
  ⟨⟨State.reset.setDown { DownstreamPort.reset with sending := some { record := 0, flow := 0, body := 0, length := 16 } },
      Option.some_ne_none _⟩,
    ⟨State.reset.setPins { Pins.released with dhold := true }, rfl⟩,
    ⟨State.reset.setScheduler { Scheduler.reset with releaseEnable := false }, rfl⟩,
    ⟨State.reset.setScheduler { Scheduler.reset with quenchFlag := true }, rfl⟩,
    ⟨State.reset.setUp { UpstreamPort.reset with restartCondition := true }, rfl⟩,
    ⟨State.reset.setPins { Pins.released with reset := true }, rfl⟩,
    State.reset, rfl, fun f => by unfold State.candidate; rw [reset_flow]; rfl⟩

theorem test_witness_ReleaseAndRingCommandsAreSet :
    (∀ args ∈ [[0#8], [1#8], [2#8]], args.length = 1 ∧ (1 < byteAt args 0 ∨ byteAt args 0 = 0 ∨ byteAt args 0 = 1)) ∧
    (∀ quench : Bool, ∃ s : State, s.commandDue 0x13#8 [] = true ∧ s.pins.quench = quench) ∧
    (∀ args ∈ [[8#8, 0#8, 0#8, 0#8], [7#8, 2#8, 0#8, 255#8], [7#8, 1#8, 1#8, 0#8]], args.length = 4 ∧
      (7 < byteAt args 0 ∨ 1 < byteAt args 1 ∨ 255 < num16At args 2)) ∧
    (∀ args ∈ [[0#8, 0#8, 0#8, 0#8], [7#8, 1#8, 0#8, 255#8]], args.length = 4 ∧
      ∃ (g : Fin 8) (p : RingPolicy) (f : FlowId), g.val = byteAt args 0 ∧ ringPolicyCode p = byteAt args 1 ∧
        f.val = num16At args 2) ∧
    (∀ args ∈ [[2#8, 0#8], [0#8, 8#8]], args.length = 2 ∧ (1 < byteAt args 0 ∨ 7 < byteAt args 1)) ∧
    (∀ args ∈ [[0#8, 0#8], [1#8, 7#8]], args.length = 2 ∧
      ∃ (p : RingPolicy) (g : Fin 8), ringPolicyCode p = byteAt args 0 ∧ g.val = byteAt args 1) ∧
    ∀ (code : Byte) (args : List Byte), ∃ s : State, s.commandDue code args = true := by
  refine ⟨by decide, fun quench => ⟨asking (State.reset.setPins { Pins.released with quench := quench }) _ _,
    asking_due _ _ _ rfl, rfl⟩, by decide, ?_, by decide, ?_, fun code args => ⟨_, asking_due State.reset code args rfl⟩⟩
  · simp only [List.forall_mem_cons]
    exact ⟨⟨rfl, 0, .fixed, 0, rfl, rfl, rfl⟩, ⟨rfl, 7, .rotating, 255, rfl, rfl, rfl⟩, by simp⟩
  · simp only [List.forall_mem_cons]
    exact ⟨⟨rfl, .fixed, 0, rfl, rfl⟩, ⟨rfl, .rotating, 7, rfl, rfl⟩, by simp⟩

theorem test_witness_QuenchAndDholdPinsActAtTheirChanges :
    ∀ quench reset dhold : Bool, ∃ s : State, s.pins.quench = quench ∧ s.pins.reset = reset ∧ s.pins.dhold = dhold :=
  fun quench reset dhold =>
    ⟨State.reset.setPins { reset := reset, quench := quench, dhold := dhold, straps := 0#8 }, rfl, rfl, rfl⟩

theorem test_witness_ACompletionFreesPortD :
    ∀ (fs : FlowState) (queue : List RecordId), ∃ (s : State) (sent : Transmission) (frame : List Byte),
      s.pins.reset = false ∧ s.down.sending = some sent ∧ s.down.line = .carrying frame ∧
      (s.flow sent.flow).state = fs ∧ (s.flow sent.flow).queue = queue := by
  intro fs queue
  refine ⟨(lastFlow (queueing fs queue)).setDown { DownstreamPort.reset with
    sending := some { record := 0, flow := 255, body := 0, length := 16 }, line := .carrying [] },
    { record := 0, flow := 255, body := 0, length := 16 }, [], rfl, rfl, rfl, ?_⟩
  rw [State.setDown_flow, lastFlow_flow]
  exact ⟨rfl, rfl⟩

/-- The limit just above, at and below the count; a limit of 0; and a count held at 65535. -/
theorem test_witness_HoldTicksAndLimitsReportOnce :
    (∀ (dhold stuck : Bool) (limit timer : Nat), ∃ s : State, s.pins.reset = false ∧ s.down.holdTickDue = true ∧
      s.pins.dhold = dhold ∧ s.down.holdLimit = limit ∧ s.down.holdTimer = timer ∧ s.down.stuck = stuck) ∧
    (∀ args ∈ [[0#8, 0#8], [0#8, 1#8], [0xFF#8, 0xFF#8]], ∀ (dhold stuck : Bool) (timer : Nat), ∃ s : State,
      s.commandDue 0x16#8 args = true ∧ args.length = 2 ∧ s.pins.dhold = dhold ∧ s.down.stuck = stuck ∧
        s.down.holdTimer = timer) ∧
    min (65535 + 1) 65535 = 65535 := by
  refine ⟨fun dhold stuck limit timer => ⟨(State.reset.setPins { Pins.released with dhold := dhold }).setDown
    { DownstreamPort.reset with holdTickDue := true, holdLimit := limit, holdTimer := timer, stuck := stuck },
      rfl, rfl, rfl, rfl, rfl, rfl⟩, ?_, rfl⟩
  simp only [List.forall_mem_cons]
  have h : ∀ (args : List Byte) (dhold stuck : Bool) (timer : Nat), args.length = 2 → ∃ s : State,
      s.commandDue 0x16#8 args = true ∧ args.length = 2 ∧ s.pins.dhold = dhold ∧ s.down.stuck = stuck ∧
        s.down.holdTimer = timer := fun args dhold stuck timer hl =>
    ⟨asking ((State.reset.setPins { Pins.released with dhold := dhold }).setDown
      { DownstreamPort.reset with holdTimer := timer, stuck := stuck }) _ _, asking_due _ _ _ rfl, hl, rfl, rfl, rfl⟩
  exact ⟨fun d st t => h _ d st t rfl, fun d st t => h _ d st t rfl, fun d st t => h _ d st t rfl, by simp⟩

/-! ### The lanes and the resets -/

/-- The reset part with the receive lane, the restart condition and slot 3 given. -/
def onLane (l : Lane) (restart : Bool) (slot : Slot) : State :=
  (State.reset.setUp { UpstreamPort.reset with lane := l, restartCondition := restart }).setAgent
    { Agent.reset with slots := Agent.reset.slots.set 3 slot }

/-- Every lane state is met, under the restart condition or not, with a good check or a bad one, and a length claimed right or not. -/
theorem test_witness_DelimitersOpenAndCloseFrames :
    (∀ (l : Lane) (restart : Bool) (bytes : List Byte), ∃ (s : State) (slot : SlotId), s.pins.reset = false ∧
      s.up.lane = l ∧ s.up.restartCondition = restart ∧ s.agent.slots[slot] = .filling bytes) ∧
    (∃ rx : Reception, rx.actual = 2048 ∧ rx.checkGood = true) ∧
    (∃ rx : Reception, rx.actual = 2048 ∧ rx.checkGood = false) ∧
    (∃ rx : Reception, rx.actual = 2049 ∧ rx.actual ≠ 2048) ∧
    (∀ claimed ∈ [none, some 0, some 65535], Lane.ignore claimed ≠ .idle ∧ (Lane.ignore claimed).decidingParts = none) ∧
    (Lane.pass rx0 16 ≠ .idle ∧ (Lane.pass rx0 16).decidingParts = none) :=
  ⟨fun l restart bytes => ⟨onLane l restart (.filling bytes), 3, rfl, rfl, rfl, rfl⟩,
    ⟨{ actual := 2048, crc := 0xFFFFFFFF#32, tail := [0#8, 0#8, 0#8, 0#8] }, rfl, by decide +kernel⟩,
    ⟨{ actual := 2048, crc := 0xFFFFFFFF#32, tail := [0#8, 0#8, 0#8, 1#8] }, rfl, by decide +kernel⟩,
    ⟨{ actual := 2049, crc := 0xFFFFFFFF#32, tail := [] }, rfl, by decide⟩, by decide, by decide⟩

/-- The first eleven bytes of a lead of the given kind byte and claimed length, to the own tag after reset. -/
def lead11 (kind high low : Byte) : List Byte :=
  [0xF0#8, 0#8, 0#8, 1#8, kind, 0#8, 0#8, 0#8, high, low, 0#8]

/-- Leads of 15, 16, 512, 513, 2048 and 2049 bytes claimed, to the agent and not; slots free and none free. -/
theorem test_witness_LeadsAreRoutedAndBytesAreTaken :
    (∀ (l : Lane) (restart : Bool) (bytes : List Byte), ∃ (s : State) (slot : SlotId), s.pins.reset = false ∧
      s.up.lane = l ∧ s.up.restartCondition = restart ∧ s.agent.slots[slot] = .filling bytes) ∧
    (([] : List Byte).length < 11 ∧ (List.replicate 10 0#8).length < 11) ∧
    (∀ kind ∈ [0x10#8, 0x20#8], ∀ c ∈ [(0#8, 15#8, 15), (0#8, 16#8, 16), (2#8, 0#8, 512), (2#8, 1#8, 513), (8#8, 0#8, 2048),
        (8#8, 1#8, 2049)],
      (lead11 kind c.1 c.2.1).length = 11 ∧ num16At (lead11 kind c.1 c.2.1 ++ [0#8]) 8 = c.2.2 ∧
        (byteAt (lead11 kind c.1 c.2.1 ++ [0#8]) 4 / 16 = 2 ↔ kind = 0x20#8) ∧
        field16At (lead11 kind c.1 c.2.1 ++ [0#8]) 0 = State.reset.up.ownTag) ∧
    (∃ (s : State) (slot : SlotId), s.agent.slots[slot] = .free ∧
      ∀ other : SlotId, other < slot → s.agent.slots[other] ≠ .free) ∧
    (∃ (s : State) (slot : SlotId), s.agent.slots[slot] = .free ∧ slot = 3 ∧
      ∀ other : SlotId, other < slot → s.agent.slots[other] ≠ .free) ∧
    (∃ s : State, ∀ slot : SlotId, s.agent.slots[slot] ≠ .free) ∧
    ∃ (rx : Reception) (claimed : Nat), rx.actual < claimed ∧ ∃ rx' : Reception, claimed ≤ rx'.actual := by
  refine ⟨fun l restart bytes => ⟨onLane l restart (.filling bytes), 3, rfl, rfl, rfl, rfl⟩, by decide, by decide,
    ⟨State.reset, 0, rfl, fun other h => absurd h (Nat.not_lt_zero _)⟩,
    ⟨State.reset.setAgent { Agent.reset with slots := (Vector.replicate 4 (.filling [])).set 3 .free }, 3, rfl, rfl,
      fun other h => ?_⟩,
    ⟨State.reset.setAgent { Agent.reset with slots := Vector.replicate 4 (.filling []) }, fun slot => ?_⟩,
    { rx0 with actual := 15 }, 16, by decide, { rx0 with actual := 16 }, le_refl _⟩
  · rw [State.setAgent_agent]
    revert other
    decide
  · rw [State.setAgent_agent]
    revert slot
    decide

/-- Frames of four bytes and of five, with a good check and a bad one. -/
theorem test_witness_TheCheckCoversAllButTheLastFour :
    4 ≤ [0#8, 0#8, 0#8, 0#8].length ∧ 4 ≤ (0x31#8 :: checkOf [0x31#8]).length ∧
      ([0#8, 0#8, 0#8, 0#8].foldl Reception.take rx0).checkGood = true ∧
      ([0#8, 0#8, 0#8, 1#8].foldl Reception.take rx0).checkGood = false := by decide +kernel

/-- Each queue empty or not, each response run, and each lane at the completion of the RESTART response. -/
theorem test_witness_TheReturnLaneServesItsTwoQueues :
    (∀ (responses : List ResponseEntry) (queue : List (List Byte)) (run : Nat) (lane : ReturnLane) (restart : Bool),
      ∃ s : State, s.pins.reset = false ∧ s.up.returnLane = lane ∧ s.up.restartCondition = restart ∧
        s.agent.responses = responses ∧ s.notices.queue = queue ∧ s.up.responseRun = run) ∧
    (∀ frame : List Byte, ∃ a : Agent, a.headReady = some frame) ∧
    (∃ a : Agent, a.headReady = none ∧ a.responses = [.claimed]) ∧ Agent.reset.headReady = none ∧
    ∀ (frame : List Byte) (which : ReturnLane) (state : AgentState) (rest : List ResponseEntry) (l : Lane), ∃ s : State,
      s.pins.reset = false ∧ s.up.line = .carrying frame ∧ s.up.returnLane = which ∧ s.agent.state = state ∧
        s.agent.responses.tail = rest ∧ s.up.lane = l :=
  ⟨fun responses queue run lane restart =>
      ⟨((State.reset.setUp { UpstreamPort.reset with
          returnLane := lane, restartCondition := restart, responseRun := run }).setAgent
          { Agent.reset with responses := responses }).setNotices { NoticeUnit.reset with queue := queue },
        rfl, rfl, rfl, rfl, rfl, rfl⟩,
    fun frame => ⟨{ Agent.reset with responses := [.ready frame] }, rfl⟩,
    ⟨{ Agent.reset with responses := [.claimed] }, rfl, rfl⟩, rfl,
    fun frame which state rest l =>
      ⟨(State.reset.setUp { UpstreamPort.reset with line := .carrying frame, returnLane := which, lane := l }).setAgent
        { Agent.reset with state := state, responses := .ready [] :: rest }, rfl, rfl, rfl, rfl, rfl, rfl⟩⟩

theorem test_witness_ResetsGiveEveryBlockItsValues :
    ∀ (reset : Bool) (state : AgentState) (sending : Option Transmission), ∃ s : State, s.pins.reset = reset ∧
      s.agent.state = state ∧ s.down.sending = sending :=
  fun reset state sending =>
    ⟨((State.reset.setPins { Pins.released with reset := reset }).setAgent { Agent.reset with state := state }).setDown
      { DownstreamPort.reset with sending := sending }, rfl, rfl, rfl⟩

/-! ### Notices -/

/-- Each item state and each enable, reported or not; queues of 15 and 16 notices; lists empty or not. -/
theorem test_witness_OccurrencesRaiseItemsAndBuildsSendThem :
    (∀ (i : ItemId) (st : ItemState) (enables : BitVec 9) (reports : List ItemId), ∃ s : State, s.pins.reset = false ∧
      s.notices.items[i].state = st ∧ s.notices.enables = enables ∧ s.notices.reports = reports) ∧
    (∀ (i : ItemId) (st : ItemState) (raised repeats : List ItemId) (queue : List (List Byte)) (destination : Tag),
      ∃ s : State, s.pins.reset = false ∧ s.notices.items[i].state = st ∧ s.notices.raisedList = raised ∧
        s.notices.repeatList = repeats ∧ s.notices.queue = queue ∧ s.notices.destination = destination) ∧
    (NoticeKind.queueDrop.perFlow = true ∧ itemOf .queueDrop 255 = 1023) ∧
    (NoticeKind.stageTaken.perFlow = true ∧ itemOf .stageTaken 0 = 0) ∧
    (NoticeKind.poolLow.perFlow = false ∧ itemOf .poolLow 0 = 1024) ∧ itemOf .quenched 0 = 1028 ∧
    ((List.replicate 15 ([] : List Byte)).length < 16 ∧ 16 ≤ (List.replicate 16 ([] : List Byte)).length) := by
  refine ⟨fun i st enables reports => ⟨noting { withItem i { state := st, count := 0, tickDue := false } with
      enables := enables, reports := reports }, rfl, ?_, rfl, rfl⟩,
    fun i st raised repeats queue destination => ⟨noting { withItem i { state := st, count := 0, tickDue := false } with
      raisedList := raised, repeatList := repeats, queue := queue, destination := destination },
      rfl, ?_, rfl, rfl, rfl, rfl⟩, by decide, by decide, by decide, by decide, by decide⟩
  all_goals
    change (withItem i { state := st, count := 0, tickDue := false }).items[i].state = st
    rw [withItem_item]

/-- Arguments outside each range, at each end of it, and both ends of the enables. -/
theorem test_witness_NoticeCommandsAcknowledgeAndConfigure :
    (∀ args ∈ [[9#8, 0#8, 0#8, 0#8, 0#8], [0#8, 1#8, 0#8, 0#8, 0#8], [4#8, 0#8, 1#8, 0#8, 0#8], [8#8, 0#8, 255#8, 0#8, 0#8]],
      args.length = 5 ∧ (8 < byteAt args 0 ∨ 255 < num16At args 1 ∨ 4 ≤ byteAt args 0 ∧ num16At args 1 ≠ 0)) ∧
    (∀ c ∈ [(NoticeKind.stageTaken, (0 : FlowId), [0#8, 0#8, 0#8, 0#8, 7#8]), (.queueDrop, 255, [3#8, 0#8, 255#8, 0#8, 7#8]),
        (.poolLow, 0, [4#8, 0#8, 0#8, 0#8, 7#8]), (.quenched, 0, [8#8, 0#8, 0#8, 0#8, 7#8])],
      c.2.2.length = 5 ∧ kindCode c.1 = byteAt c.2.2 0 ∧ c.2.1.val = num16At c.2.2 1 ∧
        (c.1.perFlow = true ∨ c.2.1 = 0) ∧ field16At c.2.2 3 = 7#16) ∧
    (∀ args ∈ [[0#8, 1#8, 2#8, 0#8, 0#8, 0#8], [0#8, 1#8, 1#8, 0xFF#8, 0#8, 0#8], [0#8, 1#8, 0#8, 0#8, 0xFF#8, 0xFF#8]],
      args.length = 6 ∧ (512 ≤ num16At args 2 ∨ num16At args 2 < 512)) ∧
    ∀ (code : Byte) (args : List Byte) (i : ItemId) (st : ItemState), ∃ s : State, s.commandDue code args = true ∧
      s.notices.items[i].state = st :=
  ⟨by decide, by decide, by decide, fun code args i st =>
    ⟨asking (noting (withItem i { state := st, count := 0, tickDue := false })) code args, asking_due _ _ _ rfl, by
      change (withItem i { state := st, count := 0, tickDue := false }).items[i].state = st
      rw [withItem_item]⟩⟩

/-- Counts at 0 and held at 65535, intervals of 0, at the count and above it, and the item on the repeat list or not. -/
theorem test_witness_ARepeatTickCountsAndComesDue :
    (∀ (kind : NoticeKind) (scope : FlowId) (st : ItemState) (interval : Nat) (repeats : List ItemId), ∃ s : State,
      s.pins.reset = false ∧ s.notices.items[itemOf kind scope].tickDue = true ∧
        s.notices.items[itemOf kind scope].state = st ∧ s.notices.interval = interval ∧
        s.notices.repeatList = repeats) ∧
    (NoticeKind.flowHeld.perFlow = true ∨ (255 : FlowId) = 0) ∧ (NoticeKind.quenched.perFlow = true ∨ (0 : FlowId) = 0) ∧
    (10000 ≤ min (9999 + 1) 65535 ∧ ¬ 10000 ≤ min (9998 + 1) 65535 ∧ 65535 ≤ min (65535 + 1) 65535) := by
  refine ⟨fun kind scope st interval repeats =>
    ⟨noting { withItem (itemOf kind scope) { state := st, count := 0, tickDue := true } with
      interval := interval, repeatList := repeats }, rfl, ?_, ?_, rfl, rfl⟩, by decide, by decide, by decide⟩
  · change (withItem (itemOf kind scope) { state := st, count := 0, tickDue := true }).items[itemOf kind scope].tickDue = true
    rw [withItem_item]
  · change (withItem (itemOf kind scope) { state := st, count := 0, tickDue := true }).items[itemOf kind scope].state = st
    rw [withItem_item]

/-! ### Memory and the invariants -/

/-- Each kind of command the clauses name, on a canonical memory, in STORE, in a reservation, and elsewhere. -/
theorem test_witness_MemoryIsWrittenByReceptionAlone :
    (∀ l : Lane, ∃ s : State, Memory.wf s.store.mem = true ∧ s.up.lane = l) ∧
    (∃ (c : Instr) (s t : State), exec c s = .next t ∧ (∀ b, c ≠ .receiveByte b) ∧ c ≠ .reservation ∧
      (∀ straps, c ≠ .resetRelease straps) ∧ c ≠ .reinitialisation ∧ Memory.wf s.store.mem = true) ∧
    (∀ s : State, ∃ t, exec (.receiveByte 0#8) s = .next t) ∧ ∀ s : State, s.pins.reset = true → ∃ t,
      exec .reservation s = .next t :=
  ⟨fun l => ⟨inLane l, rfl, rfl⟩,
    ⟨.take, State.reset, _, rfl, by simp, by simp, by simp, by simp, rfl⟩,
    fun s => by
      change ∃ t, execReceiveByte 0#8 s = .next t
      unfold execReceiveByte
      split
      · exact ⟨_, rfl⟩
      · exact ⟨_, rfl⟩,
    fun s h => ⟨s, by
      change execReservation s = _
      unfold execReservation
      rw [if_pos h]⟩⟩

/-- The part right after reset with a start delimiter waiting. -/
def startWaiting : State := { State.reset with pending := [.startDelimiter] }

theorem test_witness_EveryStepKeeps_step : ∃ t, step startWaiting = .next t ∧ t ≠ startWaiting :=
  ⟨_, rfl, fun h => absurd (congrArg State.pending h) (by simp [startWaiting])⟩

theorem test_witness_EveryStepKeepsMemoryCanonical : startWaiting.memoryCanonical := rfl

theorem startWaiting_framesAgree : startWaiting.FramesAgree := State.framesAgree_reset rfl rfl rfl rfl rfl rfl

theorem test_witness_EveryStepKeepsFlowsAndTheRunLegal : startWaiting.flowsLegal ∧ startWaiting.FramesAgree := by
  refine ⟨⟨fun f => ?_, fun run h => absurd h.symm (Option.some_ne_none run)⟩, startWaiting_framesAgree⟩
  change (State.reset.flow f).legal
  rw [reset_flow]
  exact Flow.legal_reset

theorem test_witness_EveryStepKeepsTheNoticesInAgreement : startWaiting.notices.legal := NoticeUnit.legal_reset

theorem test_witness_EveryStepKeepsTheReturnsInAgreement : startWaiting.returnsAgree :=
  State.returnsAgree_reset _ rfl rfl rfl rfl rfl

theorem test_witness_EveryStepKeepsTheStoreAndRegistersInAgreement :
    startWaiting.store.listsAgree ∧ startWaiting.store.pauseAgrees ∧ startWaiting.ownTagInRange ∧
      startWaiting.tableInRange ∧ startWaiting.periodsInRange ∧ startWaiting.FramesAgree := by
  refine ⟨FrameStore.lists_reset, ⟨by decide, by decide, fun h => absurd h Bool.false_ne_true, fun _ => ?_⟩,
    by unfold State.ownTagInRange; decide, State.tableInRange_reset _ rfl, by unfold State.periodsInRange; decide,
    startWaiting_framesAgree⟩
  change 256 ≤ FrameStore.reset.freeBlocks.length
  simp only [FrameStore.reset, List.length_finRange]
  omega

/-- A store in agreement with a live body. -/
theorem test_witness_EveryStepKeepsTheStoreAndRegistersInAgreement_store :
    oneStored.listsAgree ∧ oneStored.blocksAgree ∧ oneStored.sharesAgree ∧ oneStored.bodies[(0 : BodyId)] = some oneBody :=
  ⟨oneStored_lists, oneQueued_framesAgree.blocks, oneQueued_framesAgree.shares, (oneStored_body 0).trans (if_pos rfl)⟩

end Sys2Proof.Tests
end

section
/-! PROOFS. OPEN, SET_FLOW and READ_FLOW (R4, R13, R22, R23): what each gives at the Flow Table, then the statements about them. -/
namespace Sys2Proof.Machine

/-! ## The three commands at the Flow Table -/

theorem Flow.isDisabled_iff (x : Flow) : x.isDisabled = true ↔ x.state = .disabled := by
  simp [Flow.isDisabled]

section Due

variable {args : List Byte} {s : State}

theorem exec_openFlow_due (due : s.commandDue 0x01#8 args = true) :
    exec (.openFlow args) s = .next ((commandOpen args s).finish 0x01#8 false) := takeCommand_due _ due

theorem exec_setFlow_due (due : s.commandDue 0x06#8 args = true) :
    exec (.setFlow args) s = .next ((commandSetFlow args s).finish 0x06#8 false) := takeCommand_due _ due

theorem exec_readFlow_due (due : s.commandDue 0x07#8 args = true) :
    exec (.readFlow args) s = .next ((commandReadFlow args s).finish 0x07#8 false) := takeCommand_due _ due

end Due

/-! ### OPEN (R4, R13) -/

section Open

variable {args : List Byte} (s : State) (len : args.length = 18)
include len

/-- The arguments are read first: without a flow or a profile the state of no flow is looked at. -/
theorem commandOpen_of_bad_argument (bad : flowAt args 0 = none ∨ decodeProfile (args.drop 2) = none) :
    commandOpen args s = refuse s .badArgument := by
  rw [commandOpen, ofLength_of_eq _ _ len]
  split
  · next hf hp => simp [hf, hp] at bad
  · rfl

variable {f : FlowId} {p : Profile} (flow : flowAt args 0 = some f) (profile : decodeProfile (args.drop 2) = some p)
include flow profile

theorem commandOpen_of_disabled (h : (s.flow f).state = .disabled) :
    commandOpen args s = answerOk (s.setFlow f { s.flow f with
      state := .active, generation := (s.flow f).generation + 1, active := p, remaining := p.lifetime, credit := 0 }) [] := by
  rw [commandOpen, ofLength_of_eq _ _ len, flow, profile]
  exact if_pos ((s.flow f).isDisabled_iff.mpr h)

theorem commandOpen_of_not_disabled (h : (s.flow f).state ≠ .disabled) : commandOpen args s = refuse s .badState := by
  rw [commandOpen, ofLength_of_eq _ _ len, flow, profile]
  exact if_neg fun d => h ((s.flow f).isDisabled_iff.mp d)

end Open

/-- Settles O11: the arguments decide between a refusal and a named flow and profile, and then the flow's state decides. -/
theorem openOpensADisabledFlow : Obligations.OpenOpensADisabledFlow := by
  intro s args due len
  rw [exec_openFlow_due due]
  refine ⟨fun bad => ?_, fun f p hf hp => ⟨fun disabled => ?_, fun other => ?_⟩⟩
  · rw [commandOpen_of_bad_argument s len (bad.imp_left flowAt_of_lt), finish_refuse]
  · rw [commandOpen_of_disabled s len (flowAt_of_val hf) hp disabled]
    rfl
  · rw [commandOpen_of_not_disabled s len (flowAt_of_val hf) hp other, finish_refuse]

/-! ### SET_FLOW (R22) -/

section SetFlow

variable {args : List Byte} (s : State) (len : args.length = 10)
include len

theorem commandSetFlow_of_unnamed
    (bad : flowAt args 0 = none ∨ groupOf (byteAt args 2) = none ∨ policyOf (byteAt args 9) = none) :
    commandSetFlow args s = refuse s .badArgument := by
  rw [commandSetFlow, ofLength_of_eq _ _ len]
  split
  · next hf hg hp => simp [hf, hg, hp] at bad
  · rfl

theorem commandSetFlow_of_limits_outside
    (bad : ¬ (1 ≤ num16At args 3 ∧ num16At args 3 ≤ 1024 ∧ 16 ≤ num32At args 5 ∧ num32At args 5 ≤ 262144)) :
    commandSetFlow args s = refuse s .badArgument := by
  rw [commandSetFlow, ofLength_of_eq _ _ len]
  split
  · exact if_neg bad
  · rfl

variable {f : FlowId} {g : Group} {p : AdmissionPolicy} (flow : flowAt args 0 = some f)
  (group : groupOf (byteAt args 2) = some g) (policy : policyOf (byteAt args 9) = some p)
  (limits : 1 ≤ num16At args 3 ∧ num16At args 3 ≤ 1024 ∧ 16 ≤ num32At args 5 ∧ num32At args 5 ≤ 262144)
include flow group policy limits

theorem commandSetFlow_of_disabled (h : (s.flow f).state = .disabled) :
    commandSetFlow args s = answerOk (s.setFlow f { s.flow f with
      group := g, frameLimit := num16At args 3, byteLimit := num32At args 5, policy := p }) [] := by
  rw [commandSetFlow, ofLength_of_eq _ _ len, flow, group, policy]
  exact (if_pos limits).trans (if_pos ((s.flow f).isDisabled_iff.mpr h))

theorem commandSetFlow_of_not_disabled (h : (s.flow f).state ≠ .disabled) :
    commandSetFlow args s = refuse s .badState := by
  rw [commandSetFlow, ofLength_of_eq _ _ len, flow, group, policy]
  exact (if_pos limits).trans (if_neg fun d => h ((s.flow f).isDisabled_iff.mp d))

end SetFlow

/-- Settles O16: an argument outside its range names nothing or breaks a limit; inside, the codes read back and the flow's
state decides. -/
theorem setFlowConfiguresADisabledFlow : Obligations.SetFlowConfiguresADisabledFlow := by
  intro s args due len outside
  rw [exec_setFlow_due due]
  refine ⟨fun out => ?_, fun f g p inside hf hg hp => ?_⟩
  · have refused : commandSetFlow args s = refuse s .badArgument := by
      rcases out with flow | group | few | many | small | large | policy
      · exact commandSetFlow_of_unnamed s len (.inl (flowAt_of_lt flow))
      · exact commandSetFlow_of_unnamed s len (.inr (.inl (groupOf_of_lt group)))
      · exact commandSetFlow_of_limits_outside s len (by omega)
      · exact commandSetFlow_of_limits_outside s len (by omega)
      · exact commandSetFlow_of_limits_outside s len (by omega)
      · exact commandSetFlow_of_limits_outside s len (by omega)
      · exact commandSetFlow_of_unnamed s len (.inr (.inr (policyOf_of_lt policy)))
    rw [refused, finish_refuse]
  · have flow := flowAt_of_val hf
    have group : groupOf (byteAt args 2) = some g := hg ▸ groupOf_groupCode g
    have policy : policyOf (byteAt args 9) = some p := hp ▸ policyOf_policyCode p
    have limits : 1 ≤ num16At args 3 ∧ num16At args 3 ≤ 1024 ∧ 16 ≤ num32At args 5 ∧ num32At args 5 ≤ 262144 := by
      simp only [outside] at inside
      omega
    refine ⟨fun disabled => ?_, fun other => ?_⟩
    · rw [commandSetFlow_of_disabled s len flow group policy limits disabled]
      rfl
    · rw [commandSetFlow_of_not_disabled s len flow group policy limits other, finish_refuse]

/-! ### READ_FLOW (R23, R194) -/

section ReadFlow

variable {args : List Byte} (s : State) (len : args.length = 2)
include len

theorem commandReadFlow_of_unnamed (h : flowAt args 0 = none) : commandReadFlow args s = refuse s .badArgument := by
  rw [commandReadFlow, ofLength_of_eq _ _ len, h]

theorem commandReadFlow_of_flow {f : FlowId} (h : flowAt args 0 = some f) :
    commandReadFlow args s = answerOk s (encodeFlow (s.flow f) (s.holdsRun f)) := by
  rw [commandReadFlow, ofLength_of_eq _ _ len, h]

end ReadFlow

theorem State.holdsRun_eq_decide (s : State) (f : FlowId) :
    s.holdsRun f = decide (∃ run, s.scheduler.run = some run ∧ run.holder = f) := by
  rw [Bool.eq_iff_iff, State.holdsRun_iff, decide_eq_true_iff]

/-- The record's bytes as R194 lists them: the generation stands as it is, the credit modulo 2^32. -/
theorem encodeFlow_eq (x : Flow) (holds : Bool) :
    encodeFlow x holds =
      [BitVec.ofNat 8 (flowStateCode x.state), BitVec.ofNat 8 (holdCauseCode x.state),
        BitVec.ofNat 8 (returnStateCode x.state), x.generation, BitVec.ofNat 8 (groupCode x.group),
        BitVec.ofNat 8 (policyCode x.policy)] ++ bytes16 x.frameLimit ++ bytes32 x.byteLimit ++
        bytes16 x.queuedFrames ++ bytes32 x.queuedBytes ++ [BitVec.ofNat 8 x.inTransmission.toNat] ++
        bytes32 (x.credit % 4294967296).toNat ++ bytes16 x.remaining ++
        [BitVec.ofNat 8 x.staged.isSome.toNat, BitVec.ofNat 8 x.adoptPending.toNat, BitVec.ofNat 8 holds.toNat] := by
  simp [encodeFlow, bytes8, bytesBool, bytesInt32]

/-- Settles O17: READ_FLOW answers on the state as it stands, so only the bytes of the record remain to be compared. -/
theorem readFlowReportsTheRecord : Obligations.ReadFlowReportsTheRecord := by
  intro s args due len
  rw [exec_readFlow_due due]
  refine ⟨fun bad => ?_, fun f hf => ?_⟩
  · rw [commandReadFlow_of_unnamed s len (flowAt_of_lt bad), finish_refuse]
  · rw [commandReadFlow_of_flow s len (flowAt_of_val hf), finish_answerOk, encodeFlow_eq, State.holdsRun_eq_decide]

end Sys2Proof.Machine
end

section
/-! PROOFS. The pause test, SET_POOL and READ_POOL (R39, R40, R42): when the test changes the condition, what each command gives at the Frame Store, then the statement about them. -/
namespace Sys2Proof.Machine

/-! ## The pause test (R39) -/

theorem FrameStore.pauseAsserts_iff (st : FrameStore) :
    st.pauseAsserts = true ↔ st.pauseCondition = false ∧ st.freeBlocks.length < st.pauseMark := by
  simp [FrameStore.pauseAsserts]

theorem FrameStore.pauseDeasserts_iff (st : FrameStore) :
    st.pauseDeasserts = true ↔ st.pauseCondition = true ∧ st.resumeMark ≤ st.freeBlocks.length := by
  simp [FrameStore.pauseDeasserts]

section PauseTest

variable {s : State}

theorem State.pauseTest_below_pauseMark (off : s.store.pauseCondition = false)
    (below : s.store.freeBlocks.length < s.store.pauseMark) :
    s.pauseTest = { s with
      store := { s.store with pauseCondition := true }, notices := s.notices.reporting .poolLow 0 } := by
  rw [State.pauseTest, if_pos (s.store.pauseAsserts_iff.mpr ⟨off, below⟩)]
  rfl

theorem State.pauseTest_from_resumeMark (on : s.store.pauseCondition = true)
    (above : s.store.resumeMark ≤ s.store.freeBlocks.length) :
    s.pauseTest = { s with store := { s.store with pauseCondition := false } } := by
  have quiet : ¬ s.store.pauseAsserts = true := by simp [FrameStore.pauseAsserts_iff, on]
  rw [State.pauseTest, if_neg quiet, if_pos (s.store.pauseDeasserts_iff.mpr ⟨on, above⟩)]
  rfl

theorem State.pauseTest_of_neither (quiet : ¬ s.store.pauseAsserts = true) (kept : ¬ s.store.pauseDeasserts = true) :
    s.pauseTest = s := by
  rw [State.pauseTest, if_neg quiet, if_neg kept]

theorem State.pauseTest_from_pauseMark (off : s.store.pauseCondition = false)
    (above : s.store.pauseMark ≤ s.store.freeBlocks.length) : s.pauseTest = s :=
  State.pauseTest_of_neither (by simp [FrameStore.pauseAsserts_iff, above])
    (by simp [FrameStore.pauseDeasserts_iff, off])

theorem State.pauseTest_below_resumeMark (on : s.store.pauseCondition = true)
    (below : s.store.freeBlocks.length < s.store.resumeMark) : s.pauseTest = s :=
  State.pauseTest_of_neither (by simp [FrameStore.pauseAsserts_iff, on])
    (by simp [FrameStore.pauseDeasserts_iff, below])

end PauseTest

/-! ## SET_POOL and READ_POOL at the Frame Store (R40, R42) -/

section Pool

variable {args : List Byte} {s : State}

theorem exec_setPool_due (due : s.commandDue 0x08#8 args = true) :
    exec (.setPool args) s = .next ((commandSetPool args s).finish 0x08#8 false) := takeCommand_due _ due

theorem exec_readPool_due (due : s.commandDue 0x09#8 args = true) :
    exec (.readPool args) s = .next ((commandReadPool args s).finish 0x09#8 false) := takeCommand_due _ due

variable (s)

theorem commandSetPool_of_marks_outside (len : args.length = 4)
    (bad : ¬ (num16At args 0 ≤ num16At args 2 ∧ num16At args 2 ≤ 2048)) :
    commandSetPool args s = refuse s .badArgument := by
  rw [commandSetPool, ofLength_of_eq _ _ len, if_neg bad]

theorem commandSetPool_of_marks_inside (len : args.length = 4)
    (good : num16At args 0 ≤ num16At args 2 ∧ num16At args 2 ≤ 2048) :
    commandSetPool args s = answerOk { s with store := { s.store with
      pauseMark := num16At args 0, resumeMark := num16At args 2 } }.pauseTest [] := by
  rw [commandSetPool, ofLength_of_eq _ _ len, if_pos good]
  rfl

theorem commandReadPool_nil :
    commandReadPool [] s = answerOk { s with store := { s.store with lowWater := s.store.freeBlocks.length } }
      (bytes16 s.store.freeBlocks.length ++ bytes16 s.store.freeRecords.length ++
        bytes16 s.store.freeBodies.length ++ bytes16 s.store.lowWater) :=
  ofLength_of_eq _ _ rfl

end Pool

/-- Settles O26: the condition and its watermark decide which branch of the pause test is taken; at SET_POOL a watermark
above 2048 or a pause above resume is just what breaks the range the command checks. -/
theorem watermarksDriveThePauseCondition : Obligations.WatermarksDriveThePauseCondition := by
  refine ⟨fun s => ⟨State.pauseTest_below_pauseMark, State.pauseTest_from_resumeMark, State.pauseTest_from_pauseMark,
    State.pauseTest_below_resumeMark⟩, fun s args => ⟨fun due len => ⟨fun outside => ?_, fun ordered bounded => ?_⟩,
    fun due => ?_⟩⟩
  · have bad : ¬ (num16At args 0 ≤ num16At args 2 ∧ num16At args 2 ≤ 2048) := by omega
    rw [exec_setPool_due due, commandSetPool_of_marks_outside s len bad, finish_refuse]
  · rw [exec_setPool_due due, commandSetPool_of_marks_inside s len ⟨ordered, bounded⟩, finish_answerOk]
  · rw [exec_readPool_due due, commandReadPool_nil, finish_answerOk]

end Sys2Proof.Machine
end

section
/-! PROOFS. WRITE_MATCH, READ_MATCH and SET_DEFAULT (R56, R57, R58, R59): what each gives at the Classifier, then the statement about them. -/
namespace Sys2Proof.Machine

/-! ## The three commands of the Classifier -/

section Due

variable {args : List Byte} {s : State}

theorem exec_writeMatch_due (due : s.commandDue 0x0A#8 args = true) :
    exec (.writeMatch args) s = .next ((commandWriteMatch args s).finish 0x0A#8 false) := takeCommand_due _ due

theorem exec_readMatch_due (due : s.commandDue 0x0B#8 args = true) :
    exec (.readMatch args) s = .next ((commandReadMatch args s).finish 0x0B#8 false) := takeCommand_due _ due

theorem exec_setDefault_due (due : s.commandDue 0x0C#8 args = true) :
    exec (.setDefault args) s = .next ((commandSetDefault args s).finish 0x0C#8 false) := takeCommand_due _ due

end Due

/-! ### WRITE_MATCH (R56, R57) -/

section WriteMatch

variable {args : List Byte} (s : State) (len : args.length = 33)
include len

/-- One undecoded argument is enough: neither the entries nor the counters are touched. -/
theorem commandWriteMatch_of_undecoded
    (bad : matchIndexOf (byteAt args 0) = none ∨ decodeEntry (args.drop 1) = none) :
    commandWriteMatch args s = refuse s .badArgument := by
  rw [commandWriteMatch, ofLength_of_eq _ _ len]
  split
  · next n e hn he =>
    rcases bad with unnamed | unread
    · exact absurd (hn.symm.trans unnamed) (Option.some_ne_none n)
    · exact absurd (he.symm.trans unread) (Option.some_ne_none e)
  · rfl

theorem commandWriteMatch_of_decoded {n : Fin 64} {e : MatchEntry}
    (index : matchIndexOf (byteAt args 0) = some n) (entry : decodeEntry (args.drop 1) = some e) :
    commandWriteMatch args s = answerOk { s with classifier := { s.classifier with
      entries := s.classifier.entries.set n e, hits := s.classifier.hits.set n 0#32 } } [] := by
  rw [commandWriteMatch, ofLength_of_eq _ _ len, index, entry]
  rfl

end WriteMatch

/-! ### READ_MATCH (R58) -/

section ReadMatch

variable {args : List Byte} (s : State) (len : args.length = 1)
include len

theorem commandReadMatch_of_unnamed (h : matchIndexOf (byteAt args 0) = none) :
    commandReadMatch args s = refuse s .badArgument := by
  rw [commandReadMatch, ofLength_of_eq _ _ len, h]

theorem commandReadMatch_of_index {n : Fin 64} (h : matchIndexOf (byteAt args 0) = some n) :
    commandReadMatch args s =
      answerOk s (encodeEntry s.classifier.entries[n] ++ bytes32 s.classifier.hits[n].toNat) := by
  rw [commandReadMatch, ofLength_of_eq _ _ len, h]

end ReadMatch

/-! ### SET_DEFAULT (R59) -/

/-- A code above 1 is no default action; QUEUE alone has its flow looked at. -/
theorem decodeDefault_of_outside {action flow : Nat} (bad : 1 < action ∨ action = 1 ∧ 255 < flow) :
    decodeDefault action flow = none := by
  rcases bad with code | ⟨rfl, unnamed⟩
  · obtain ⟨m, rfl⟩ : ∃ m, action = m + 2 := ⟨action - 2, by omega⟩
    rfl
  · simp [decodeDefault, flowOf, show ¬ flow < 256 by omega]

theorem decodeDefault_discard (flow : Nat) : decodeDefault 0 flow = some .discard := rfl

theorem decodeDefault_queue (f : FlowId) : decodeDefault 1 f.val = some (.queue f) := by
  simp [decodeDefault, flowOf_val]

section SetDefault

variable {args : List Byte} (s : State) (len : args.length = 3)
include len

theorem commandSetDefault_of_undecoded (h : decodeDefault (byteAt args 0) (num16At args 1) = none) :
    commandSetDefault args s = refuse s .badArgument := by
  rw [commandSetDefault, ofLength_of_eq _ _ len, h]

/-- The data is the default action before the write. -/
theorem commandSetDefault_of_decoded {a : DefaultAction}
    (h : decodeDefault (byteAt args 0) (num16At args 1) = some a) :
    commandSetDefault args s = answerOk { s with classifier := { s.classifier with defaultAction := a } }
      (encodeDefault s.classifier.defaultAction) := by
  rw [commandSetDefault, ofLength_of_eq _ _ len, h]
  rfl

end SetDefault

/-- Settles O28: each command's arguments either decode, and then name the entry or action it works on, or are refused. -/
theorem matchCommandsWriteAndReport : Obligations.MatchCommandsWriteAndReport := by
  refine fun s args => ⟨fun due len => ⟨fun bad => ?_, fun n e hn he => ?_⟩,
    fun due len => ⟨fun bad => ?_, fun n hn => ?_⟩, fun due len => ?_⟩
  · rw [exec_writeMatch_due due, commandWriteMatch_of_undecoded s len (bad.imp_left matchIndexOf_of_lt), finish_refuse]
  · have index : matchIndexOf (byteAt args 0) = some n := hn ▸ matchIndexOf_val n
    rw [exec_writeMatch_due due, commandWriteMatch_of_decoded s len index he, finish_answerOk]
  · rw [exec_readMatch_due due, commandReadMatch_of_unnamed s len (matchIndexOf_of_lt bad), finish_refuse]
  · have index : matchIndexOf (byteAt args 0) = some n := hn ▸ matchIndexOf_val n
    rw [exec_readMatch_due due, commandReadMatch_of_index s len index, finish_answerOk]
  · extract_lets old
    have reported : encodeDefault s.classifier.defaultAction = old := by
      unfold old
      cases s.classifier.defaultAction with
      | discard => rfl
      | queue g => rfl
    rw [exec_setDefault_due due]
    refine ⟨fun bad => ?_, fun discard => ?_, fun f queue hf => ?_⟩
    · rw [commandSetDefault_of_undecoded s len (decodeDefault_of_outside bad), finish_refuse]
    · have decoded : decodeDefault (byteAt args 0) (num16At args 1) = some .discard := by
        rw [discard, decodeDefault_discard]
      rw [commandSetDefault_of_decoded s len decoded, finish_answerOk, reported]
    · have decoded : decodeDefault (byteAt args 0) (num16At args 1) = some (.queue f) := by
        rw [queue, ← hf, decodeDefault_queue]
      rw [commandSetDefault_of_decoded s len decoded, finish_answerOk, reported]

end Sys2Proof.Machine
end

section
/-! PROOFS. STAGE, UNSTAGE, ADOPT and READ_PROFILE (R95, R96, R98, R99, R101): what each gives at the Profile Unit, then the statement about them. -/
namespace Sys2Proof.Machine

/-! ## The staging commands at the Profile Unit -/

section Due

variable {args : List Byte} {s : State}

theorem exec_stage_due (due : s.commandDue 0x0E#8 args = true) :
    exec (.stage args) s = .next ((commandStage args s).finish 0x0E#8 false) := takeCommand_due _ due

theorem exec_unstage_due (due : s.commandDue 0x0F#8 args = true) :
    exec (.unstage args) s = .next ((commandUnstage args s).finish 0x0F#8 false) := takeCommand_due _ due

theorem exec_adopt_due (due : s.commandDue 0x10#8 args = true) :
    exec (.adopt args) s = .next ((commandAdopt args s).finish 0x10#8 false) := takeCommand_due _ due

theorem exec_readProfile_due (due : s.commandDue 0x11#8 args = true) :
    exec (.readProfile args) s = .next ((commandReadProfile args s).finish 0x11#8 false) := takeCommand_due _ due

end Due

/-! ### STAGE (R95, R96) -/

section Stage

variable {args : List Byte} (s : State) (len : args.length = 18)
include len

/-- R95 checks the arguments before the flow's state and its slot. -/
theorem commandStage_of_bad_argument (bad : flowAt args 0 = none ∨ decodeProfile (args.drop 2) = none) :
    commandStage args s = refuse s .badArgument := by
  rw [commandStage, ofLength_of_eq _ _ len]
  split
  · next hf hp => simp [hf, hp] at bad
  · rfl

variable {f : FlowId} {p : Profile} (flow : flowAt args 0 = some f) (profile : decodeProfile (args.drop 2) = some p)
include flow profile

theorem commandStage_of_disabled (h : (s.flow f).state = .disabled) : commandStage args s = refuse s .badState := by
  rw [commandStage, ofLength_of_eq _ _ len, flow, profile]
  exact if_pos ((s.flow f).isDisabled_iff.mpr h)

theorem commandStage_of_loaded (h : (s.flow f).state ≠ .disabled) (loaded : (s.flow f).staged ≠ none) :
    commandStage args s = refuse s .slotFull := by
  rw [commandStage, ofLength_of_eq _ _ len, flow, profile]
  exact (if_neg fun d => h ((s.flow f).isDisabled_iff.mp d)).trans (if_pos (Option.isSome_iff_ne_none.mpr loaded))

theorem commandStage_of_empty (h : (s.flow f).state ≠ .disabled) (empty : (s.flow f).staged = none) :
    commandStage args s = answerOk (s.setFlow f { s.flow f with staged := some p }) [] := by
  rw [commandStage, ofLength_of_eq _ _ len, flow, profile]
  exact (if_neg fun d => h ((s.flow f).isDisabled_iff.mp d)).trans (if_neg (by simp [empty]))

end Stage

section SlotCommands

variable {args : List Byte} (s : State) (len : args.length = 2)
include len

/-! ### UNSTAGE (R95, R98) -/

theorem commandUnstage_of_unnamed (h : flowAt args 0 = none) : commandUnstage args s = refuse s .badArgument := by
  rw [commandUnstage, ofLength_of_eq _ _ len, h]

theorem commandUnstage_of_empty {f : FlowId} (flow : flowAt args 0 = some f) (empty : (s.flow f).staged = none) :
    commandUnstage args s = refuse s .slotEmpty := by
  rw [commandUnstage, ofLength_of_eq _ _ len, flow]
  exact if_neg (by simp [empty])

theorem commandUnstage_of_loaded {f : FlowId} (flow : flowAt args 0 = some f) (loaded : (s.flow f).staged ≠ none) :
    commandUnstage args s = answerOk (s.setFlow f { s.flow f with staged := none, adoptPending := false }) [] := by
  rw [commandUnstage, ofLength_of_eq _ _ len, flow]
  exact if_pos (Option.isSome_iff_ne_none.mpr loaded)

/-! ### ADOPT (R95, R99) -/

theorem commandAdopt_of_unnamed (h : flowAt args 0 = none) : commandAdopt args s = refuse s .badArgument := by
  rw [commandAdopt, ofLength_of_eq _ _ len, h]

theorem commandAdopt_of_empty {f : FlowId} (flow : flowAt args 0 = some f) (empty : (s.flow f).staged = none) :
    commandAdopt args s = refuse s .slotEmpty := by
  rw [commandAdopt, ofLength_of_eq _ _ len, flow]
  exact if_neg (by simp [empty])

theorem commandAdopt_of_loaded {f : FlowId} (flow : flowAt args 0 = some f) (loaded : (s.flow f).staged ≠ none) :
    commandAdopt args s = answerOk (s.setFlow f { s.flow f with adoptPending := true }) [] := by
  rw [commandAdopt, ofLength_of_eq _ _ len, flow]
  exact if_pos (Option.isSome_iff_ne_none.mpr loaded)

/-! ### READ_PROFILE (R101) -/

theorem commandReadProfile_of_unnamed (h : flowAt args 0 = none) :
    commandReadProfile args s = refuse s .badArgument := by
  rw [commandReadProfile, ofLength_of_eq _ _ len, h]

theorem commandReadProfile_of_flow {f : FlowId} (h : flowAt args 0 = some f) :
    commandReadProfile args s = answerOk s (encodeProfileState (s.flow f)) := by
  rw [commandReadProfile, ofLength_of_eq _ _ len, h]

end SlotCommands

/-- An empty slot is reported as sixteen zero bytes (R101). -/
theorem encodeProfileState_of_empty {x : Flow} (empty : x.staged = none) :
    encodeProfileState x = encodeProfile x.active ++ [0#8] ++ List.replicate 16 0#8 ++ bytes16 x.remaining ++
      bytesBool x.adoptPending := by
  rw [encodeProfileState, empty]
  rfl

theorem encodeProfileState_of_loaded {x : Flow} {p : Profile} (loaded : x.staged = some p) :
    encodeProfileState x = encodeProfile x.active ++ [1#8] ++ encodeProfile p ++ bytes16 x.remaining ++
      bytesBool x.adoptPending := by
  rw [encodeProfileState, loaded]
  rfl

/-- Settles O34: the arguments name a flow (and for STAGE a profile) or are refused; then R95's checks of the flow's state
and slot leave one case each. READ_PROFILE has no check left, so only the bytes of its report differ with the slot. -/
theorem stagingCommandsActOnTheSlot : Obligations.StagingCommandsActOnTheSlot := by
  refine ⟨fun s args => ⟨fun due len => ⟨fun bad => ?_, fun f p hf hp =>
      ⟨fun disabled => ?_, fun other loaded => ?_, fun other empty => ?_⟩⟩,
    fun due len => ⟨fun bad => ?_, fun f hf => ⟨fun empty => ?_, fun loaded => ?_⟩⟩,
    fun due len => ⟨fun bad => ?_, fun f hf => ⟨fun empty => ?_, fun loaded => ?_⟩⟩⟩,
    fun s args due len => ⟨fun bad => ?_, fun f hf => ⟨fun empty => ?_, fun p loaded => ?_⟩⟩⟩
  · rw [exec_stage_due due, commandStage_of_bad_argument s len (bad.imp_left flowAt_of_lt), finish_refuse]
  · rw [exec_stage_due due, commandStage_of_disabled s len (flowAt_of_val hf) hp disabled, finish_refuse]
  · rw [exec_stage_due due, commandStage_of_loaded s len (flowAt_of_val hf) hp other loaded, finish_refuse]
  · rw [exec_stage_due due, commandStage_of_empty s len (flowAt_of_val hf) hp other empty, finish_answerOk]
  · rw [exec_unstage_due due, commandUnstage_of_unnamed s len (flowAt_of_lt bad), finish_refuse]
  · rw [exec_unstage_due due, commandUnstage_of_empty s len (flowAt_of_val hf) empty, finish_refuse]
  · rw [exec_unstage_due due, commandUnstage_of_loaded s len (flowAt_of_val hf) loaded, finish_answerOk]
  · rw [exec_adopt_due due, commandAdopt_of_unnamed s len (flowAt_of_lt bad), finish_refuse]
  · rw [exec_adopt_due due, commandAdopt_of_empty s len (flowAt_of_val hf) empty, finish_refuse]
  · rw [exec_adopt_due due, commandAdopt_of_loaded s len (flowAt_of_val hf) loaded, finish_answerOk]
  · rw [exec_readProfile_due due, commandReadProfile_of_unnamed s len (flowAt_of_lt bad), finish_refuse]
  · rw [exec_readProfile_due due, commandReadProfile_of_flow s len (flowAt_of_val hf), finish_answerOk,
      encodeProfileState_of_empty empty]
  · rw [exec_readProfile_due due, commandReadProfile_of_flow s len (flowAt_of_val hf), finish_answerOk,
      encodeProfileState_of_loaded loaded]

end Sys2Proof.Machine
end

section
/-! PROOFS. SET_RELEASE, RESUME, SET_GROUP and SET_TOP (R120, R122, R123, R124): what each gives at the Release Scheduler, then the statement about them. -/
namespace Sys2Proof.Machine

/-! ## The four commands of the Release Scheduler -/

section Due

variable {args : List Byte} {s : State}

theorem exec_setRelease_due (due : s.commandDue 0x12#8 args = true) :
    exec (.setRelease args) s = .next ((commandSetRelease args s).finish 0x12#8 false) := takeCommand_due _ due

theorem exec_resume_due (due : s.commandDue 0x13#8 args = true) :
    exec (.resume args) s = .next ((commandResume args s).finish 0x13#8 false) := takeCommand_due _ due

theorem exec_setGroup_due (due : s.commandDue 0x14#8 args = true) :
    exec (.setGroup args) s = .next ((commandSetGroup args s).finish 0x14#8 false) := takeCommand_due _ due

theorem exec_setTop_due (due : s.commandDue 0x15#8 args = true) :
    exec (.setTop args) s = .next ((commandSetTop args s).finish 0x15#8 false) := takeCommand_due _ due

end Due

/-! ### SET_RELEASE (R120) -/

section SetRelease

variable {args : List Byte} (s : State) (len : args.length = 1)
include len

theorem commandSetRelease_of_undecoded (h : boolOf (byteAt args 0) = none) :
    commandSetRelease args s = refuse s .badArgument := by
  rw [commandSetRelease, ofLength_of_eq _ _ len, h]

/-- Disabling also ends the run. -/
theorem commandSetRelease_of_false (h : boolOf (byteAt args 0) = some false) :
    commandSetRelease args s =
      answerOk { s with scheduler := { s.scheduler with releaseEnable := false, run := none } } [] := by
  rw [commandSetRelease, ofLength_of_eq _ _ len, h]
  rfl

/-- Enabling keeps the run there is. -/
theorem commandSetRelease_of_true (h : boolOf (byteAt args 0) = some true) :
    commandSetRelease args s = answerOk { s with scheduler := { s.scheduler with releaseEnable := true } } [] := by
  rw [commandSetRelease, ofLength_of_eq _ _ len, h]
  rfl

end SetRelease

/-! ### RESUME (R122) -/

section Resume

variable {s : State}

theorem commandResume_of_quench (pin : s.pins.quench = true) : commandResume [] s = refuse s .badState :=
  (ofLength_of_eq _ _ rfl).trans (if_pos pin)

theorem commandResume_of_no_quench (pin : s.pins.quench = false) :
    commandResume [] s = answerOk { s with scheduler := { s.scheduler with quenchFlag := false } } [] :=
  (ofLength_of_eq _ _ rfl).trans (if_neg (Bool.eq_false_iff.mp pin))

end Resume

/-! ### SET_GROUP (R123) -/

section SetGroup

variable {args : List Byte} (s : State) (len : args.length = 4)
include len

/-- One undecoded argument is enough: neither field of any group is set. -/
theorem commandSetGroup_of_undecoded
    (bad : ringGroupOf (byteAt args 0) = none ∨ ringPolicyOf (byteAt args 1) = none ∨ flowAt args 2 = none) :
    commandSetGroup args s = refuse s .badArgument := by
  rw [commandSetGroup, ofLength_of_eq _ _ len]
  split
  · next hg hp hf => simp [hg, hp, hf] at bad
  · rfl

/-- The data is the group's policy and pointer before the write. -/
theorem commandSetGroup_of_decoded {g : Fin 8} {p : RingPolicy} {f : FlowId}
    (group : ringGroupOf (byteAt args 0) = some g) (policy : ringPolicyOf (byteAt args 1) = some p)
    (pointer : flowAt args 2 = some f) :
    commandSetGroup args s = answerOk
      { s with scheduler := { s.scheduler with
        groups := s.scheduler.groups.set g { policy := p, pointer := f } } }
      (BitVec.ofNat 8 (ringPolicyCode s.scheduler.groups[g].policy) ::
        bytes16 s.scheduler.groups[g].pointer.val) := by
  rw [commandSetGroup, ofLength_of_eq _ _ len, group, policy, pointer]
  rfl

end SetGroup

/-! ### SET_TOP (R124) -/

section SetTop

variable {args : List Byte} (s : State) (len : args.length = 2)
include len

theorem commandSetTop_of_undecoded
    (bad : ringPolicyOf (byteAt args 0) = none ∨ ringGroupOf (byteAt args 1) = none) :
    commandSetTop args s = refuse s .badArgument := by
  rw [commandSetTop, ofLength_of_eq _ _ len]
  split
  · next hp hg => simp [hp, hg] at bad
  · rfl

/-- The data is the top ring's policy and pointer before the write. -/
theorem commandSetTop_of_decoded {p : RingPolicy} {g : Fin 8}
    (policy : ringPolicyOf (byteAt args 0) = some p) (pointer : ringGroupOf (byteAt args 1) = some g) :
    commandSetTop args s = answerOk
      { s with scheduler := { s.scheduler with topPolicy := p, topPointer := g } }
      [BitVec.ofNat 8 (ringPolicyCode s.scheduler.topPolicy), BitVec.ofNat 8 s.scheduler.topPointer.val] := by
  rw [commandSetTop, ofLength_of_eq _ _ len, policy, pointer]
  rfl

end SetTop

/-- Settles O41: an argument out of range names nothing and is refused, and codes in range read back as the policy, group
and flow they name; RESUME has no argument and looks at the QUENCH pin alone. -/
theorem releaseAndRingCommandsAreSet : Obligations.ReleaseAndRingCommandsAreSet := by
  refine ⟨fun s args => ⟨fun due len => ⟨fun bad => ?_, fun disable => ?_, fun enable => ?_⟩,
      fun due => ⟨fun asserted => ?_, fun deasserted => ?_⟩⟩,
    fun s args => ⟨fun due len => ⟨fun bad => ?_, fun g p f hg hp hf => ?_⟩,
      fun due len => ⟨fun bad => ?_, fun p g hp hg => ?_⟩⟩⟩
  · rw [exec_setRelease_due due, commandSetRelease_of_undecoded s len (boolOf_of_lt bad), finish_refuse]
  · have decoded : boolOf (byteAt args 0) = some false := (boolOf_iff _ _).mpr disable.symm
    rw [exec_setRelease_due due, commandSetRelease_of_false s len decoded, finish_answerOk]
  · have decoded : boolOf (byteAt args 0) = some true := (boolOf_iff _ _).mpr enable.symm
    rw [exec_setRelease_due due, commandSetRelease_of_true s len decoded, finish_answerOk]
  · rw [exec_resume_due due, commandResume_of_quench asserted, finish_refuse]
  · rw [exec_resume_due due, commandResume_of_no_quench deasserted, finish_answerOk]
  · have undecoded := bad.imp ringGroupOf_of_lt (Or.imp ringPolicyOf_of_lt flowAt_of_lt)
    rw [exec_setGroup_due due, commandSetGroup_of_undecoded s len undecoded, finish_refuse]
  · have group : ringGroupOf (byteAt args 0) = some g := hg ▸ ringGroupOf_val g
    have policy : ringPolicyOf (byteAt args 1) = some p := hp ▸ ringPolicyOf_ringPolicyCode p
    rw [exec_setGroup_due due, commandSetGroup_of_decoded s len group policy (flowAt_of_val hf), finish_answerOk]
  · rw [exec_setTop_due due, commandSetTop_of_undecoded s len (bad.imp ringPolicyOf_of_lt ringGroupOf_of_lt), finish_refuse]
  · have policy : ringPolicyOf (byteAt args 0) = some p := hp ▸ ringPolicyOf_ringPolicyCode p
    have pointer : ringGroupOf (byteAt args 1) = some g := hg ▸ ringGroupOf_val g
    rw [exec_setTop_due due, commandSetTop_of_decoded s len policy pointer, finish_answerOk]

end Sys2Proof.Machine
end

section
/-! PROOFS. READ_STATUS and READ_COUNTERS (R24, R169, R170): which scope a number names, what each scope reads and each command gives at the Management Agent, then the statement about them. -/
namespace Sys2Proof.Machine

/-! ## The two reports of the agent -/

section Due

variable {args : List Byte} {s : State}

theorem exec_readStatus_due (due : s.commandDue 0x17#8 args = true) :
    exec (.readStatus args) s = .next ((commandReadStatus args s).finish 0x17#8 false) := takeCommand_due _ due

theorem exec_readCounters_due (due : s.commandDue 0x18#8 args = true) :
    exec (.readCounters args) s = .next ((commandReadCounters args s).finish 0x18#8 false) := takeCommand_due _ due

end Due

/-! ### READ_STATUS (R169) -/

theorem commandReadStatus_nil (s : State) : commandReadStatus [] s = answerOk s (statusResult s) :=
  ofLength_of_eq _ _ rfl

/-! ### The scopes of READ_COUNTERS (R170, R191) -/

theorem scopeOf_flow (f : FlowId) : scopeOf f.val = some (.flow f) := by rw [scopeOf, flowOf_val]

theorem scopeOf_of_lt {n : Nat} (h : 0x104 < n) : scopeOf n = none := by
  have noFlow : flowOf n = none := by simp [flowOf, show ¬ n < 256 by omega]
  simp [scopeOf, noFlow, show n ≠ 0x100 by omega, show n ≠ 0x101 by omega, show n ≠ 0x102 by omega,
    show n ≠ 0x103 by omega, show n ≠ 0x104 by omega]

@[simp] theorem encodeCounters_nil : encodeCounters [] = [] := rfl

@[simp] theorem encodeCounters_cons (c : Counter) (cs : List Counter) :
    encodeCounters (c :: cs) = bytes32 c.toNat ++ encodeCounters cs := rfl

/-! ### READ_COUNTERS (R170) -/

section ReadCounters

variable {args : List Byte} (s : State) (len : args.length = 3)
include len

theorem commandReadCounters_of_undecoded (bad : scopeOf (num16At args 0) = none ∨ boolOf (byteAt args 2) = none) :
    commandReadCounters args s = refuse s .badArgument := by
  rw [commandReadCounters, ofLength_of_eq _ _ len]
  split
  · next hs hc => simp [hs, hc] at bad
  · rfl

/-- The data is what the counters were before the clear. -/
theorem commandReadCounters_of_decoded {scope : CounterScope} {clear : Bool}
    (number : scopeOf (num16At args 0) = some scope) (flag : boolOf (byteAt args 2) = some clear) :
    commandReadCounters args s =
      answerOk (if clear then s.clearScope scope else s) (encodeCounters (s.scopeCounters scope)) := by
  rw [commandReadCounters, ofLength_of_eq _ _ len, number, flag]

end ReadCounters

/-- READ_COUNTERS with a scope and a flag in range, for all scopes at once. -/
theorem exec_readCounters_of_scope {args : List Byte} {s : State} (due : s.commandDue 0x18#8 args = true)
    (len : args.length = 3) {clear : Bool} (flag : byteAt args 2 = clear.toNat) (scope : CounterScope)
    (number : scopeOf (num16At args 0) = some scope) :
    exec (.readCounters args) s = .next
      ((if clear then s.clearScope scope else s).answered 0x18#8 .ok (encodeCounters (s.scopeCounters scope))) := by
  have decoded : boolOf (byteAt args 2) = some clear := flag ▸ boolOf_toNat clear
  rw [exec_readCounters_due due, commandReadCounters_of_decoded s len number decoded, finish_answerOk]

/-! ### What each scope reads (R24, R170) -/

section Scopes

variable (s : State)

theorem encodeCounters_scopeCounters_flow (f : FlowId) :
    encodeCounters (s.scopeCounters (.flow f)) =
      bytes32 (s.flow f).counters.acceptedFrames.toNat ++ bytes32 (s.flow f).counters.acceptedBytes.toNat ++
        bytes32 (s.flow f).counters.releasedFrames.toNat ++ bytes32 (s.flow f).counters.releasedBytes.toNat ++
        bytes32 (s.flow f).counters.limit.toNat ++ bytes32 (s.flow f).counters.head.toNat ++
        bytes32 (s.flow f).counters.closed.toNat ++ bytes32 (s.flow f).counters.flushed.toNat ++
        bytes32 (s.flow f).counters.stale.toNat ++ bytes32 (s.flow f).counters.pool.toNat := by
  simp [State.scopeCounters, FlowCounters.toList]

theorem encodeCounters_scopeCounters_classifier :
    encodeCounters (s.scopeCounters .classifier) = bytes32 s.classifier.noMatch.toNat := by
  simp [State.scopeCounters]

theorem encodeCounters_scopeCounters_ingress :
    encodeCounters (s.scopeCounters .ingress) =
      bytes32 s.up.framesReceived.toNat ++ bytes32 s.up.leadErrors.toNat ++ bytes32 s.up.lengthErrors.toNat ++
        bytes32 s.up.checkErrors.toNat ++ bytes32 s.up.aborts.toNat := by
  simp [State.scopeCounters]

theorem encodeCounters_scopeCounters_egress :
    encodeCounters (s.scopeCounters .egress) =
      bytes32 s.down.framesSent.toNat ++ bytes32 s.down.bytesSent.toNat := by
  simp [State.scopeCounters]

theorem encodeCounters_scopeCounters_management :
    encodeCounters (s.scopeCounters .management) =
      bytes32 s.agent.taken.toNat ++ bytes32 s.agent.lost.toNat ++ bytes32 s.agent.replayed.toNat ++
        bytes32 s.agent.malformed.toNat := by
  simp [State.scopeCounters]

theorem encodeCounters_scopeCounters_notices :
    encodeCounters (s.scopeCounters .notices) =
      bytes32 s.notices.built.toNat ++ bytes32 s.notices.repeats.toNat ++ bytes32 s.notices.acks.toNat ++
        bytes32 s.notices.staleAcks.toNat := by
  simp [State.scopeCounters]

end Scopes

/-- Settles O9: READ_STATUS has no argument to check. A scope number or clear flag out of range is refused;
otherwise the number names one scope, whose counters are read before the clear. `clearScope` sets exactly the
fields the statement lists. -/
theorem statusAndCountersAreReported : Obligations.StatusAndCountersAreReported := by
  refine ⟨fun s due => ?_, fun s args due len => ⟨fun bad => ?_, fun clear flag =>
    ⟨fun f number => ?_, fun number => ?_, fun number => ?_, fun number => ?_, fun number => ?_, fun number => ?_⟩⟩⟩
  · rw [exec_readStatus_due due, commandReadStatus_nil, finish_answerOk]
    rfl
  · have undecoded := bad.imp scopeOf_of_lt boolOf_of_lt
    rw [exec_readCounters_due due, commandReadCounters_of_undecoded s len undecoded, finish_refuse]
  · rw [exec_readCounters_of_scope due len flag (.flow f) (number ▸ scopeOf_flow f), encodeCounters_scopeCounters_flow]
    rfl
  · rw [exec_readCounters_of_scope due len flag .classifier (congrArg scopeOf number),
      encodeCounters_scopeCounters_classifier]
    rfl
  · rw [exec_readCounters_of_scope due len flag .ingress (congrArg scopeOf number),
      encodeCounters_scopeCounters_ingress]
    rfl
  · rw [exec_readCounters_of_scope due len flag .egress (congrArg scopeOf number),
      encodeCounters_scopeCounters_egress]
    rfl
  · rw [exec_readCounters_of_scope due len flag .management (congrArg scopeOf number),
      encodeCounters_scopeCounters_management]
    rfl
  · rw [exec_readCounters_of_scope due len flag .notices (congrArg scopeOf number),
      encodeCounters_scopeCounters_notices]
    rfl

end Sys2Proof.Machine
end

section
/-! PROOFS. What a command or event can do: one relation between its state before and after, and the lemma that exec keeps to it. -/
namespace Sys2Proof.Machine

/-! ## The management commands at their blocks -/

/-- What a management command with a block of its own does there; RESTART, the unknown command and the events have none. -/
def blockOf : Instr → Option (State → Answer)
  | .openFlow args => some (commandOpen args)
  | .hold args => some (commandHold args)
  | .release args => some (commandRelease args)
  | .close args => some (commandClose args)
  | .flush args => some (commandFlush args)
  | .setFlow args => some (commandSetFlow args)
  | .readFlow args => some (commandReadFlow args)
  | .setPool args => some (commandSetPool args)
  | .readPool args => some (commandReadPool args)
  | .writeMatch args => some (commandWriteMatch args)
  | .readMatch args => some (commandReadMatch args)
  | .setDefault args => some (commandSetDefault args)
  | .setEpoch args => some (commandSetEpoch args)
  | .stage args => some (commandStage args)
  | .unstage args => some (commandUnstage args)
  | .adopt args => some (commandAdopt args)
  | .readProfile args => some (commandReadProfile args)
  | .setRelease args => some (commandSetRelease args)
  | .resume args => some (commandResume args)
  | .setGroup args => some (commandSetGroup args)
  | .setTop args => some (commandSetTop args)
  | .setHoldLimit args => some (commandSetHoldLimit args)
  | .readStatus args => some (commandReadStatus args)
  | .readCounters args => some (commandReadCounters args)
  | .ackNotice args => some (commandAckNotice args)
  | .setNotice args => some (commandSetNotice args)
  | _ => none

theorem exec_of_block {c : Instr} {code : Byte} {args : List Byte} {run : State → Answer} (s : State)
    (block : blockOf c = some run) (carried : commandCode c = some (code, args)) :
    exec c s = takeCommand code args run s := by
  cases c
  all_goals cases block
  all_goals cases carried; rfl

/-! ## What can happen -/

/-- What a command or event can do to the state when it is taken, with the conditions under which it is: the state stays as it
was, or one of the operations of the blocks has been made. -/
inductive State.Effect (s : State) : Instr → State → Prop
  | kept (c : Instr) : s.Effect c s
  | answered {c : Instr} {code : Byte} {args : List Byte} {run : State → Answer} (block : blockOf c = some run)
      (carried : commandCode c = some (code, args)) (due : s.commandDue code args = true) :
      s.Effect c ((run s).finish code false)
  | refused {code : Byte} {args : List Byte} (c : Instr) (status : Status) (due : s.commandDue code args = true) :
      s.Effect c (s.answered code status [])
  | restarted (due : s.commandDue 0x19#8 [] = true) : s.Effect (.restart []) ((answerOk s []).finish 0x19#8 true)
  | start (live : s.pins.reset = false) : s.Effect .startDelimiter s.takeStart
  | byte (b : Byte) (live : s.pins.reset = false) : s.Effect (.receiveByte b) (s.takeByte b)
  | lead {rx : Reception} {bytes : List Byte} (b : Byte) (lane : s.up.lane = .lead rx bytes) :
      s.Effect (.leadEvent b) (s.takeByte b)
  | classified {rx : Reception} {bytes : List Byte} {held : List Symbol} (lane : s.up.lane = .deciding rx bytes .classify held) :
      s.Effect .classification (s.classify rx bytes held)
  | admitted {rx : Reception} {bytes : List Byte} {f : FlowId} {rest : List FlowId} {granted : List Grant} {label : Tag}
      {held : List Symbol} (lane : s.up.lane = .deciding rx bytes (.admitting (f :: rest) granted label) held) :
      s.Effect .admission (s.decideAdmission rx bytes f rest granted label held)
  | reserved {rx : Reception} {bytes : List Byte} {granted : List Grant} {label : Tag} {held : List Symbol}
      (lane : s.up.lane = .deciding rx bytes (.reserve granted label) held) :
      s.Effect .reservation (s.decideReservation rx bytes granted label held)
  | endMark (live : s.pins.reset = false) : s.Effect .endDelimiter s.takeEnd
  | abort (live : s.pins.reset = false) : s.Effect .abortDelimiter s.takeAbort
  | taken {slot : SlotId} {frame : List Byte} (idle : s.agent.state = .idle) (room : s.agent.responses.length < 4)
      (waiting : s.agent.slots[slot] = .waiting frame) :
      s.Effect .take (s.setAgent ((s.agent.claim slot).answerTake s.up.ownTag (leadAndBody frame)))
  | sent (free : s.up.returnLane = .free) (noRestart : s.up.restartCondition = false) :
      s.Effect .returnTransmission s.arbitrateReturn
  | responseDone (lane : s.up.returnLane = .response) : s.Effect .returnCompletion s.completeResponse
  | noticeDone (lane : s.up.returnLane = .notice) :
      s.Effect .returnCompletion (s.freeReturnLane.setNotices { s.notices with queue := s.notices.queue.tail })
  | reinitialised (restarting : s.agent.state = .restarting) (free : s.down.sending = none) :
      s.Effect .reinitialisation s.reinitialised
  | expired (done : s.expiryDone = true) : s.Effect .epochExpiry (s.setPacing s.pacing.expire).makeDue
  | replenished (f : FlowId) (due : (s.flow f).due.replenishment = true) :
      s.Effect (.replenishment f) (s.setFlow f { s.flow f with
        credit := if (s.flow f).isDisabled then (s.flow f).credit else replenished (s.flow f)
        due := { (s.flow f).due with replenishment := false } })
  | sweptDisabled (f : FlowId) : s.Effect (.agingSweep f)
      (s.setFlow f { s.flow f with due := { (s.flow f).due with sweep := false } })
  | swept (f : FlowId) : s.Effect (.agingSweep f)
      ((s.setFlow f { s.flow f with due := { (s.flow f).due with sweep := false } }).ageFlow f)
  | stepped (f : FlowId) : s.Effect (.profileStep f) (s.takeProfileStep f)
  | lifetimeEnded (f : FlowId) : s.Effect (.lifetimeExpiry f) (s.takeProfileStep f)
  | flushed (f : FlowId) : s.Effect (.flushStep f) (s.discardHead f .flushed)
  | selected (due : s.selectionDue = true) : s.Effect .selection s.agingCheck.choose
  | completed (x : Transmission) (live : s.pins.reset = false) (sending : s.down.sending = some x) :
      s.Effect .transmissionCompletion
      ((((s.modifyFlow x.flow fun y => y.completed x.length).setDown (s.down.completed x.length)).setStore
        (s.store.releaseRecord x.record)).pauseTest.settleDrain x.flow)
  | pins (c : Instr) (p : Pins) : s.Effect c (s.setPins p)
  | quenched (p : Pins) : s.Effect .quenchAssertion (s.setPins p).quenchOn
  | dhold (c : Instr) (level : Bool) : s.Effect c (s.dholdChange level)
  | holdTicked (c : Instr) : s.Effect c s.takeHoldTick
  | occurred (kind : NoticeKind) (scope : FlowId) : s.Effect (.noticeOccurrence kind scope) (s.setNotices
      ({ s.notices with reports := s.notices.reports.erase (itemOf kind scope) }.occur (itemOf kind scope)))
  | built {i : ItemId} {rest : List ItemId} (allowed : s.notices.buildAllowed = true) (noRepeat : s.notices.repeatList = [])
      (raised : s.notices.raisedList = i :: rest) :
      s.Effect .firstBuild (s.setNotices (s.notices.firstBuild s.up.ownTag i rest))
  | ticked (c : Instr) (i : ItemId) : s.Effect c (s.setNotices (s.notices.tick i))
  | repeated {i : ItemId} {rest : List ItemId} (allowed : s.notices.buildAllowed = true)
      (waiting : s.notices.repeatList = i :: rest) :
      s.Effect .repeatBuild (s.setNotices (s.notices.repeatBuild s.up.ownTag i rest))
  | resetHeld : s.Effect .resetAssertion (((s.setPins { s.pins with reset := true }).setDown
      { s.down with sending := none, line := LaneOut.abort s.down.sending.isSome }).setUp
      { s.up with returnLane := .free, line := LaneOut.abort (decide (s.up.returnLane ≠ .free)) })
  | resetReleased (straps : Byte) : s.Effect (.resetRelease straps) (s.powerOn straps)

/-! ## Every command and event does one of these -/

/-- The command or event answers a next state, by one of the effects above. -/
def State.Does (s : State) (c : Instr) : Prop := ∃ t, exec c s = .next t ∧ s.Effect c t

section Does

variable {s : State} {c : Instr}

theorem State.Does.kept (h : exec c s = .next s) : s.Does c := ⟨s, h, .kept c⟩

theorem State.Does.of_if {p : Prop} [Decidable p] {t : State} (h : exec c s = if p then .next t else .next s)
    (effect : p → s.Effect c t) : s.Does c := by
  by_cases hp : p
  · exact ⟨t, h.trans (if_pos hp), effect hp⟩
  · exact .kept (h.trans (if_neg hp))

/-- The form of the meanings that test a pin which keeps them from being taken, the RESET pin above all. -/
theorem State.Does.of_unless {pin : Bool} {t : State} (h : exec c s = if pin then .next s else .next t)
    (effect : pin = false → s.Effect c t) : s.Does c := by
  cases pin with
  | true => exact .kept h
  | false => exact ⟨t, h, effect rfl⟩

theorem State.Does.of_live {t : State} (h : exec c s = if s.pins.reset then .next s else .next t)
    (effect : s.pins.reset = false → s.Effect c t) : s.Does c := .of_unless h effect

theorem State.Does.of_block {code : Byte} {args : List Byte} {run : State → Answer} (block : blockOf c = some run)
    (carried : commandCode c = some (code, args)) : s.Does c :=
  .of_if (exec_of_block s block carried) fun due => .answered block carried due

end Does

theorem State.takeByte_of_lead {s : State} {rx : Reception} {bytes : List Byte} (lane : s.up.lane = .lead rx bytes)
    (b : Byte) : s.takeByte b = s.takeLeadByte rx bytes b := by
  rw [State.takeByte, lane]

theorem State.takeLeadByte_of_twelfth (s : State) (rx : Reception) {bytes : List Byte} (twelfth : bytes.length + 1 = 12)
    (b : Byte) : s.takeLeadByte rx bytes b = s.leadArrived (rx.take b) (bytes ++ [b]) :=
  if_neg (by simp [Config.leadBytes, twelfth])

theorem Slot.waitingFrame_eq_some {x : Slot} {frame : List Byte} : x.waitingFrame = some frame ↔ x = .waiting frame := by
  cases x <;> simp [Slot.waitingFrame]

theorem Agent.oldestWaiting_eq_some {a : Agent} {slot : SlotId} {frame : List Byte} (h : a.oldestWaiting = some (slot, frame)) :
    a.slots[slot] = .waiting frame := by
  unfold Agent.oldestWaiting at h
  split at h
  · cases h
  · simp only [Option.map_eq_some_iff, Prod.mk.injEq] at h
    obtain ⟨_, waiting, rfl, rfl⟩ := h
    exact Slot.waitingFrame_eq_some.mp waiting

theorem Lane.decidingParts_eq_some {l : Lane} {rx : Reception} {bytes : List Byte} {phase : Deciding} {held : List Symbol} :
    l.decidingParts = some (rx, bytes, phase, held) ↔ l = .deciding rx bytes phase held := by
  cases l <;> simp [Lane.decidingParts]

section Events

variable (s : State)

theorem does_restart (args : List Byte) : s.Does (.restart args) := by
  by_cases due : s.commandDue 0x19#8 args = true
  · by_cases len : args.length = 0
    · cases List.eq_nil_of_length_eq_zero len
      exact ⟨_, (if_pos due).trans (if_pos len), .restarted due⟩
    · exact ⟨_, (if_pos due).trans (if_neg len), .refused _ _ due⟩
  · exact .kept (if_neg due)

theorem does_unknownCommand (code : Byte) (args : List Byte) : s.Does (.unknownCommand code args) := by
  by_cases known : knownCode code = true
  · exact .kept (if_pos known)
  · exact .of_if (if_neg known) fun due => .refused _ _ due

theorem does_leadEvent (b : Byte) : s.Does (.leadEvent b) := by
  cases lane : s.up.lane with
  | lead rx bytes =>
    have run : exec (.leadEvent b) s = if s.pins.reset = false ∧ bytes.length + 1 = Config.leadBytes then
        .next (s.leadArrived (rx.take b) (bytes ++ [b])) else .next s := by
      simp only [exec, execLeadEvent, lane]
    refine .of_if run fun twelfth => ?_
    rw [← s.takeLeadByte_of_twelfth rx twelfth.2, ← State.takeByte_of_lead lane]
    exact .lead b lane
  | _ => exact .kept (by simp only [exec, execLeadEvent, lane])

theorem does_classification : s.Does .classification := by
  cases parts : s.up.lane.decidingParts with
  | none => exact .kept (by simp [exec, execClassification, parts])
  | some p =>
    obtain ⟨rx, bytes, phase, held⟩ := p
    have lane := Lane.decidingParts_eq_some.mp parts
    cases phase with
    | classify => exact .of_live (by simp only [exec, execClassification, parts]) fun _ => .classified lane
    | _ => exact .kept (by simp [exec, execClassification, parts])

theorem does_admission : s.Does .admission := by
  cases parts : s.up.lane.decidingParts with
  | none => exact .kept (by simp [exec, execAdmission, parts])
  | some p =>
    obtain ⟨rx, bytes, phase, held⟩ := p
    have lane := Lane.decidingParts_eq_some.mp parts
    cases phase with
    | admitting todo granted label =>
      cases todo with
      | nil => exact .kept (by simp [exec, execAdmission, parts])
      | cons f rest => exact .of_live (by simp only [exec, execAdmission, parts]) fun _ => .admitted lane
    | _ => exact .kept (by simp [exec, execAdmission, parts])

theorem does_reservation : s.Does .reservation := by
  cases parts : s.up.lane.decidingParts with
  | none => exact .kept (by simp [exec, execReservation, parts])
  | some p =>
    obtain ⟨rx, bytes, phase, held⟩ := p
    have lane := Lane.decidingParts_eq_some.mp parts
    cases phase with
    | reserve granted label => exact .of_live (by simp only [exec, execReservation, parts]) fun _ => .reserved lane
    | _ => exact .kept (by simp [exec, execReservation, parts])

theorem does_take : s.Does .take := by
  cases waiting : s.agent.oldestWaiting with
  | none => exact .kept (by simp [exec, execTake, waiting])
  | some p =>
    obtain ⟨slot, frame⟩ := p
    have run : exec .take s =
        if s.pins.reset = false ∧ s.agent.state = .idle ∧ s.agent.responses.length < Config.responseEntries then
          .next (s.setAgent ((s.agent.claim slot).answerTake s.up.ownTag (leadAndBody frame)))
        else .next s := by
      simp only [exec, execTake, waiting]
    exact .of_if run fun ⟨_, idle, room⟩ => .taken idle room (Agent.oldestWaiting_eq_some waiting)

theorem does_returnCompletion : s.Does .returnCompletion := by
  cases lane : s.up.returnLane with
  | free => exact .kept (by simp [exec, execReturnCompletion, lane])
  | response => exact .of_live (by simp only [exec, execReturnCompletion, lane]) fun _ => .responseDone lane
  | notice => exact .of_live (by simp only [exec, execReturnCompletion, lane]) fun _ => .noticeDone lane

theorem does_agingSweep (f : FlowId) : s.Does (.agingSweep f) := by
  refine .of_if rfl fun _ => ?_
  split
  · exact .sweptDisabled f
  · exact .swept f

theorem does_transmissionCompletion : s.Does .transmissionCompletion := by
  cases sending : s.down.sending with
  | none => exact .kept (by simp only [exec, execTransmissionCompletion, sending])
  | some x => exact .of_live (by simp only [exec, execTransmissionCompletion, sending]; rfl) fun live => .completed x live sending

theorem does_quenchAssertion : s.Does .quenchAssertion := by
  cases level : s.pins.quench with
  | true => exact .kept (if_pos level)
  | false =>
    refine ⟨_, if_neg (by simp [level]), ?_⟩
    split
    · exact .pins _ _
    · exact .quenched _

theorem does_firstBuild : s.Does .firstBuild := by
  cases raised : s.notices.raisedList with
  | nil => exact .kept (by simp [exec, execFirstBuild, raised])
  | cons i rest =>
    have run : exec .firstBuild s =
        if s.pins.reset = false ∧ s.notices.buildAllowed = true ∧ s.notices.repeatList = [] then
          .next (s.setNotices (s.notices.firstBuild s.up.ownTag i rest))
        else .next s := by
      simp only [exec, execFirstBuild, raised]
    exact .of_if run fun ⟨_, allowed, noRepeat⟩ => .built allowed noRepeat raised

theorem does_repeatBuild : s.Does .repeatBuild := by
  cases waiting : s.notices.repeatList with
  | nil => exact .kept (by simp [exec, execRepeatBuild, waiting])
  | cons i rest =>
    have run : exec .repeatBuild s = if s.pins.reset = false ∧ s.notices.buildAllowed = true then
        .next (s.setNotices (s.notices.repeatBuild s.up.ownTag i rest)) else .next s := by
      simp only [exec, execRepeatBuild, waiting]
    exact .of_if run fun ⟨_, allowed⟩ => .repeated allowed waiting

/-- Every command and event answers a next state, by an effect it can have. -/
theorem exec_does (c : Instr) : s.Does c := by
  cases c
  case restart args => exact does_restart s args
  case unknownCommand code args => exact does_unknownCommand s code args
  case startDelimiter => exact .of_live rfl fun live => .start live
  case receiveByte b => exact .of_live rfl fun live => .byte b live
  case leadEvent b => exact does_leadEvent s b
  case classification => exact does_classification s
  case admission => exact does_admission s
  case reservation => exact does_reservation s
  case endDelimiter => exact .of_live rfl fun live => .endMark live
  case abortDelimiter => exact .of_live rfl fun live => .abort live
  case take => exact does_take s
  case returnTransmission => exact .of_if rfl fun h => .sent h.2.1 h.2.2
  case returnCompletion => exact does_returnCompletion s
  case reinitialisation => exact .of_if rfl fun h => .reinitialised h.2.1 h.2.2
  case epochExpiry => exact .of_if rfl fun h => .expired h.2
  case replenishment f => exact .of_if rfl fun h => .replenished f h.2
  case agingSweep f => exact does_agingSweep s f
  case profileStep f => exact .of_if rfl fun _ => .stepped f
  case lifetimeExpiry f => exact .of_if rfl fun _ => .lifetimeEnded f
  case flushStep f => exact .of_if rfl fun _ => .flushed f
  case selection => exact .of_if rfl fun h => .selected h.2
  case transmissionCompletion => exact does_transmissionCompletion s
  case quenchAssertion => exact does_quenchAssertion s
  case quenchDeassertion => exact ⟨_, rfl, .pins _ _⟩
  case dholdAssertion => exact .of_unless rfl fun _ => .dhold _ _
  case dholdDeassertion => exact .of_if rfl fun _ => .dhold _ _
  case holdTick => exact .of_if rfl fun _ => .holdTicked _
  case holdStuck => exact .of_if rfl fun _ => .holdTicked _
  case noticeOccurrence kind scope => exact .of_if rfl fun _ => .occurred kind scope
  case firstBuild => exact does_firstBuild s
  case repeatTick kind scope => exact .of_if rfl fun _ => .ticked _ _
  case repeatDue kind scope => exact .of_if rfl fun _ => .ticked _ _
  case repeatBuild => exact does_repeatBuild s
  case resetAssertion => exact .of_live rfl fun _ => .resetHeld
  case resetRelease straps => exact .of_if rfl fun _ => .resetReleased straps
  all_goals exact .of_block rfl rfl

end Events

theorem effect_of_exec {c : Instr} {s t : State} (run : exec c s = .next t) : s.Effect c t := by
  obtain ⟨u, run', effect⟩ := exec_does s c
  cases run.symm.trans run'
  exact effect

end Sys2Proof.Machine
end

section
/-! PROOFS. The queue of those that wait, frame memory, the notices and the returns under every step (R137 to R140, R158, R172, R173, R176; logs 2, 10). -/
namespace Sys2Proof.Machine

/-! ## From an effect to a step -/

/-- What every effect keeps, and what does not read the queue of those that wait, every step keeps. -/
theorem step_keeps {Q : State → Prop} (queue : ∀ s rest, Q s → Q { s with pending := rest })
    (event : ∀ {c s t}, State.Effect s c t → Q s → Q t) {s t : State} (hs : Q s) (run : step s = .next t) : Q t := by
  unfold step at run
  split at run
  · cases run
    exact hs
  · exact event (effect_of_exec run) (queue s _ hs)

theorem ofLength_answers {P : Answer → Prop} {n : Nat} {args : List Byte} {s : State} {run : Answer}
    (wrong : P (refuse s .badArgument)) (right : P run) : P (ofLength n args s run) := by
  unfold ofLength
  split
  · exact right
  · exact wrong

theorem ofLength_keeps {P : State → Prop} {n : Nat} {args : List Byte} {s : State} {run : Answer} (hs : P s)
    (hr : P run.state) : P (ofLength n args s run).state :=
  ofLength_answers (P := fun r => P r.state) hs hr

/-! ## What the management commands leave alone -/

/-- READ_COUNTERS leaves the state as it stands or clears the counters of a scope. -/
theorem commandReadCounters_keeps {P : State → Prop} {args : List Byte} {s : State} (hs : P s)
    (cleared : ∀ scope, P (s.clearScope scope)) : P (commandReadCounters args s).state := by
  refine ofLength_keeps hs ?_
  split
  · next scope clear _ _ =>
    cases clear
    · exact hs
    · exact cleared scope
  · exact hs

theorem keepsNotices_commandClose (args : List Byte) (s : State) : s.KeepsNotices (commandClose args s).state := by
  refine ofLength_keeps (.same rfl) ?_
  repeat' split
  all_goals first
    | exact State.keepsNotices_closeFlow s _
    | exact .same rfl

theorem keepsNotices_commandFlush (args : List Byte) (s : State) : s.KeepsNotices (commandFlush args s).state := by
  refine ofLength_keeps (.same rfl) ?_
  repeat' split
  all_goals first
    | exact State.keepsNotices_startFlush s _ _
    | exact .same rfl

theorem keepsNotices_commandSetPool (args : List Byte) (s : State) : s.KeepsNotices (commandSetPool args s).state := by
  refine ofLength_keeps (.same rfl) ?_
  split
  · exact .of rfl (State.keepsNotices_pauseTest _)
  · exact .same rfl

theorem keepsNotices_commandSetHoldLimit (args : List Byte) (s : State) :
    s.KeepsNotices (commandSetHoldLimit args s).state :=
  ofLength_keeps (.same rfl) (.of rfl (State.keepsNotices_stuckTest _))

section Block

variable {c : Instr} {run : State → Answer} (block : blockOf c = some run) (s : State)
include block

theorem block_pending : (run s).state.pending = s.pending := by
  cases c <;> cases block
  case readCounters args =>
    exact commandReadCounters_keeps (P := fun t => t.pending = s.pending) rfl fun scope => by cases scope <;> rfl
  all_goals simp

theorem block_agent_up (other : ∀ args, c ≠ .readCounters args) :
    (run s).state.agent = s.agent ∧ (run s).state.up = s.up := by
  cases c <;> cases block
  case readCounters args => exact absurd rfl (other args)
  all_goals simp

theorem block_agent_state : (run s).state.agent.state = s.agent.state := by
  by_cases read : ∃ args, c = .readCounters args
  · obtain ⟨args, rfl⟩ := read
    cases block
    exact commandReadCounters_keeps (P := fun t => t.agent.state = s.agent.state) rfl fun scope => by cases scope <;> rfl
  · exact congrArg Agent.state (block_agent_up block s fun args e => read ⟨args, e⟩).1

theorem block_keepsNotices (other : ∀ args, c ≠ .readCounters args) (noAck : ∀ args, c ≠ .ackNotice args)
    (noSet : ∀ args, c ≠ .setNotice args) : s.KeepsNotices (run s).state := by
  cases c <;> cases block
  case readCounters args => exact absurd rfl (other args)
  case ackNotice args => exact absurd rfl (noAck args)
  case setNotice args => exact absurd rfl (noSet args)
  case close args => exact keepsNotices_commandClose args s
  case flush args => exact keepsNotices_commandFlush args s
  case setPool args => exact keepsNotices_commandSetPool args s
  case setHoldLimit args => exact keepsNotices_commandSetHoldLimit args s
  all_goals exact .same (by simp)

end Block

/-! ## The queue of those that wait (log 2) -/

theorem State.Effect.pending {s t : State} {c : Instr} (h : s.Effect c t) : t.pending = s.pending := by
  cases h with
  | answered block carried due => exact block_pending block s
  | completed => simp
  | start | byte | lead | classified | admitted | reserved | endMark | abort => simp
  | swept | stepped | lifetimeEnded | flushed | selected | holdTicked => simp
  | sent | responseDone => simp
  | _ => rfl

/-- Settles O2: every event has one of the effects, and each leaves the queue alone. -/
theorem everyEventCompletesAndKeepsTheQueue : Obligations.EveryEventCompletesAndKeepsTheQueue := by
  intro c s
  obtain ⟨t, run, effect⟩ := exec_does s c
  exact ⟨t, run, effect.pending⟩

/-! ## Frame memory (log 10) -/

/-- No operation but those of a reception and the resets touches memory, so what is said of memory alone is kept. -/
theorem StoreQuiet.of_mem (M : List Host.Cell → Prop) : StoreQuiet fun st => M st.mem where
  release st r h := by rwa [(FrameStore.sameMarks_afterPause _).mem, (st.sameMarks_releaseRecord r).mem]
  recordState st r rs h := by rwa [(st.sameSpace_setRecordState r rs).mem]
  freeRecord st r h := by rwa [(st.sameSpace_freeRecord r).mem]
  settle st b n h := by rwa [(FrameStore.sameMarks_afterPause _).mem, (st.sameMarks_settleBody b n).mem]
  freeReservation st b rs h := by
    rwa [(FrameStore.sameMarks_afterPause _).mem, (st.sameMarks_freeReservation b rs).mem]
  lowWater _ _ h := h
  marks st n m h _ _ := by rwa [(FrameStore.sameMarks_afterPause _).mem]

theorem storeInvariant_memoryCanonical : StoreInvariant fun st => Memory.wf st.mem = true where
  toStoreQuiet := .of_mem (Memory.wf · = true)
  reset := FrameStore.wf_reset
  storeByte st b n v h := st.wf_storeByte b n v h
  reserve st st' length grants b rs bytes h reserved := by
    have same : st'.mem = st.mem := (FrameStore.sameMarks_reserve reserved).mem
    rw [(FrameStore.sameMarks_afterPause _).mem]
    exact st'.wf_storeBytes b 0 bytes (same.symm ▸ h)

/-- Settles O56: canonical memory is one of the properties of the store that each of its operations keeps. -/
theorem everyStepKeepsMemoryCanonical : Obligations.EveryStepKeepsMemoryCanonical := by
  intro s t canonical run
  unfold step at run
  split at run
  · cases run
    exact canonical
  · exact storeInvariant_memoryCanonical.exec run canonical

/-! ## Notices (R176) -/

section Notices

variable {s t : State}

theorem State.KeepsNotices.legal (h : s.KeepsNotices t) (hs : s.notices.legal) : t.notices.legal := by
  rw [h]
  exact hs

theorem legal_makeDue (hs : s.notices.legal) : s.makeDue.notices.legal :=
  NoticeUnit.legal_of_same hs (fun i => by simp [State.makeDue, getElem_mapAll]) rfl rfl hs.2.2.2.2.2

theorem legal_commandAckNotice (args : List Byte) (hs : s.notices.legal) : (commandAckNotice args s).state.notices.legal := by
  have stale : (staleAck s).state.notices.legal := hs
  refine ofLength_keeps (P := fun t => t.notices.legal) hs ?_
  split
  · exact hs
  · next i _ =>
    split
    · exact stale
    · exact stale
    · next again number sentCount epochs sent =>
      split
      · exact NoticeUnit.legal_acknowledge hs i again number sentCount epochs sent
      · exact stale

theorem legal_commandSetNotice (args : List Byte) (hs : s.notices.legal) : (commandSetNotice args s).state.notices.legal := by
  refine ofLength_keeps (P := fun t => t.notices.legal) hs ?_
  split
  · exact NoticeUnit.legal_configure hs _ _ _
  · exact hs

theorem legal_block {c : Instr} {run : State → Answer} (block : blockOf c = some run) (hs : s.notices.legal) :
    (run s).state.notices.legal := by
  by_cases ack : ∃ args, c = .ackNotice args
  · obtain ⟨args, rfl⟩ := ack
    cases block
    exact legal_commandAckNotice args hs
  · by_cases set : ∃ args, c = .setNotice args
    · obtain ⟨args, rfl⟩ := set
      cases block
      exact legal_commandSetNotice args hs
    · by_cases read : ∃ args, c = .readCounters args
      · obtain ⟨args, rfl⟩ := read
        cases block
        exact commandReadCounters_keeps (P := fun t => t.notices.legal) hs fun scope => by cases scope <;> exact hs
      · exact (block_keepsNotices block s (fun args e => read ⟨args, e⟩) (fun args e => ack ⟨args, e⟩)
          fun args e => set ⟨args, e⟩).legal hs

theorem State.Effect.notices_legal {c : Instr} (h : s.Effect c t) (hs : s.notices.legal) : t.notices.legal := by
  cases h with
  | answered block carried due => exact legal_block block hs
  | start => exact s.keepsNotices_takeStart.legal hs
  | byte | lead => exact (s.keepsNotices_takeByte _).legal hs
  | classified => exact (s.keepsNotices_classify _ _ _).legal hs
  | admitted => exact (s.keepsNotices_decideAdmission _ _ _ _ _ _ _).legal hs
  | reserved => exact (s.keepsNotices_decideReservation _ _ _ _ _).legal hs
  | endMark => exact s.keepsNotices_takeEnd.legal hs
  | abort => exact s.keepsNotices_takeAbort.legal hs
  | sent => simpa using hs
  | responseDone => exact s.keepsNotices_completeResponse.legal hs
  | noticeDone =>
    exact NoticeUnit.legal_of_same hs (fun _ => ⟨rfl, rfl⟩) rfl rfl (by
      have room := hs.2.2.2.2.2
      simp only [State.setNotices_notices, List.length_tail]
      omega)
  | reinitialised | resetReleased => exact NoticeUnit.legal_reset
  | expired => exact legal_makeDue hs
  | swept => exact (State.keepsNotices_ageFlow _ _).legal hs
  | stepped | lifetimeEnded => exact (s.keepsNotices_takeProfileStep _).legal hs
  | flushed => exact (s.keepsNotices_discardHead _ _).legal hs
  | selected => simpa using s.keepsNotices_agingCheck.legal hs
  | completed => exact ((State.keepsNotices_pauseTest _).trans (State.keepsNotices_settleDrain _ _)).legal hs
  | quenched => exact (State.keepsNotices_reportGlobal _ _).legal hs
  | holdTicked => exact s.keepsNotices_takeHoldTick.legal hs
  | occurred kind scope =>
    have left : NoticeUnit.legal { s.notices with reports := s.notices.reports.erase (itemOf kind scope) } := hs
    exact NoticeUnit.legal_occur left _
  | built allowed noRepeat raised => exact NoticeUnit.legal_firstBuild hs _ _ _ allowed raised noRepeat
  | ticked => exact NoticeUnit.legal_tick hs _
  | repeated allowed waiting => exact NoticeUnit.legal_repeatBuild hs _ _ _ allowed waiting
  | kept | refused | restarted | taken | replenished | sweptDisabled | pins | dhold | resetHeld => exact hs

/-- Settles O58: the items and lists stay in agreement under each effect. -/
theorem everyStepKeepsTheNoticesInAgreement : Obligations.EveryStepKeepsTheNoticesInAgreement := fun _ _ =>
  step_keeps (Q := fun s => s.notices.legal) (fun _ _ h => h) State.Effect.notices_legal

end Notices

/-! ## The returns (R137 to R140, R158, R172, R173) -/

section Returns

variable {s t : State}

theorem commandAckNotice_queue (args : List Byte) (s : State) :
    (commandAckNotice args s).state.notices.queue = s.notices.queue := by
  refine ofLength_keeps (P := fun t => t.notices.queue = s.notices.queue) rfl ?_
  repeat' split
  · rfl
  · rfl
  · rfl
  · next again _ _ _ _ _ => cases again <;> rfl
  · rfl

theorem commandSetNotice_queue (args : List Byte) (s : State) :
    (commandSetNotice args s).state.notices.queue = s.notices.queue := by
  refine ofLength_keeps (P := fun t => t.notices.queue = s.notices.queue) rfl ?_
  split
  · simp [answerOk, NoticeUnit.configure]
  · rfl

@[simp] theorem NoticeUnit.occur_queue (n : NoticeUnit) (i : ItemId) : (n.occur i).queue = n.queue := by
  unfold NoticeUnit.occur
  repeat' split
  all_goals rfl

theorem repeatBuild_queue_ne_nil {n : NoticeUnit} (ownTag : Tag) (i : ItemId) (rest : List ItemId) (queue : n.queue ≠ []) :
    (n.repeatBuild ownTag i rest).queue ≠ [] := by
  unfold NoticeUnit.repeatBuild
  split
  · exact queue
  · exact queue
  · exact List.append_ne_nil_of_left_ne_nil queue _

/-- A part whose agent and upstream port stand as they were, and whose notice queue has not been emptied. -/
theorem State.returnsAgree.of_same (hs : s.returnsAgree) (agent : t.agent = s.agent) (up : t.up = s.up)
    (queue : s.notices.queue ≠ [] → t.notices.queue ≠ []) : t.returnsAgree :=
  State.returnsAgree_congr hs (by rw [agent]) (by rw [agent]) (by rw [up]) (by rw [up]) (by rw [up]) queue

theorem returnsAgree_block {c : Instr} {run : State → Answer} (block : blockOf c = some run) (hs : s.returnsAgree) :
    (run s).state.returnsAgree := by
  by_cases read : ∃ args, c = .readCounters args
  · obtain ⟨args, rfl⟩ := read
    cases block
    exact commandReadCounters_keeps hs fun scope => by
      cases scope <;> exact State.returnsAgree_congr hs rfl rfl rfl rfl rfl id
  · obtain ⟨agent, up⟩ := block_agent_up block s fun args e => read ⟨args, e⟩
    refine hs.of_same agent up fun queue => ?_
    by_cases ack : ∃ args, c = .ackNotice args
    · obtain ⟨args, rfl⟩ := ack
      cases block
      rwa [commandAckNotice_queue]
    · by_cases set : ∃ args, c = .setNotice args
      · obtain ⟨args, rfl⟩ := set
        cases block
        rwa [commandSetNotice_queue]
      · exact (block_keepsNotices block s (fun args e => read ⟨args, e⟩) (fun args e => ack ⟨args, e⟩)
          fun args e => set ⟨args, e⟩).queue queue

theorem returnsAgree_noticeDone (hs : s.returnsAgree) :
    (s.freeReturnLane.setNotices { s.notices with queue := s.notices.queue.tail }).returnsAgree := by
  obtain ⟨fit, few, -, -, pending, restarting, condition⟩ := hs
  exact ⟨fit, few, nofun, nofun, pending, fun h => ⟨(restarting h).1, rfl⟩, condition⟩

theorem returnsAgree_resetHeld (hs : s.returnsAgree) (line : LaneOut) (d : DownstreamPort) (p : Pins) :
    (((s.setPins p).setDown d).setUp { s.up with returnLane := .free, line := line }).returnsAgree := by
  obtain ⟨fit, few, -, -, pending, restarting, condition⟩ := hs
  exact ⟨fit, few, nofun, nofun, pending, fun h => ⟨(restarting h).1, rfl⟩, condition⟩

theorem State.Effect.returnsAgree {c : Instr} (h : s.Effect c t) (hs : s.returnsAgree) : t.returnsAgree := by
  cases h with
  | answered block carried due => exact State.returnsAgree_finish (returnsAgree_block block hs) _ _
  | refused | restarted => exact State.returnsAgree_finish hs _ _
  | start => exact State.returnsAgree_congr hs (by simp) (by simp) (by simp) (by simp) (by simp) s.keepsNotices_takeStart.queue
  | byte | lead =>
    exact State.returnsAgree_congr hs (by simp) (by simp) (by simp) (by simp) (by simp) (s.keepsNotices_takeByte _).queue
  | classified =>
    exact State.returnsAgree_congr hs (by simp) (by simp) (by simp) (by simp) (by simp)
      (s.keepsNotices_classify _ _ _).queue
  | admitted =>
    exact State.returnsAgree_congr hs (by simp) (by simp) (by simp) (by simp) (by simp)
      (s.keepsNotices_decideAdmission _ _ _ _ _ _ _).queue
  | reserved =>
    exact State.returnsAgree_congr hs (by simp) (by simp) (by simp) (by simp) (by simp)
      (s.keepsNotices_decideReservation _ _ _ _ _).queue
  | endMark =>
    exact State.returnsAgree_congr hs (by simp) (by simp) (by simp) (by simp) (by simp) s.keepsNotices_takeEnd.queue
  | abort =>
    exact State.returnsAgree_congr hs (by simp) (by simp) (by simp) (by simp) (by simp) s.keepsNotices_takeAbort.queue
  | taken idle room waiting => exact State.returnsAgree_take hs idle room _ _
  | sent free noRestart => exact State.returnsAgree_arbitrateReturn hs noRestart
  | responseDone lane => exact State.returnsAgree_completeResponse hs lane
  | noticeDone => exact returnsAgree_noticeDone hs
  | reinitialised | resetReleased => exact State.returnsAgree_reset _ rfl rfl rfl rfl rfl
  | resetHeld => exact returnsAgree_resetHeld hs _ _ _
  | swept f => exact hs.of_same (by simp) (by simp) fun queue => (State.keepsNotices_ageFlow _ f).queue queue
  | stepped | lifetimeEnded => exact hs.of_same (by simp) (by simp) (s.keepsNotices_takeProfileStep _).queue
  | flushed => exact hs.of_same (by simp) (by simp) (s.keepsNotices_discardHead _ _).queue
  | selected => exact hs.of_same (by simp) (by simp) (by simpa using s.keepsNotices_agingCheck.queue)
  | completed x =>
    exact hs.of_same (by simp) (by simp) fun queue =>
      (State.keepsNotices_settleDrain _ x.flow).queue ((State.keepsNotices_pauseTest _).queue queue)
  | quenched => exact hs.of_same rfl rfl id
  | holdTicked => exact hs.of_same (by simp) (by simp) s.keepsNotices_takeHoldTick.queue
  | occurred kind scope => exact hs.of_same rfl rfl fun queue => by simpa using queue
  | built => exact hs.of_same rfl rfl fun queue => by simp [NoticeUnit.firstBuild]
  | repeated => exact hs.of_same rfl rfl fun queue => repeatBuild_queue_ne_nil _ _ _ queue
  | expired | ticked => exact hs.of_same rfl rfl id
  | kept => exact hs
  | replenished | sweptDisabled | pins | dhold => exact hs.of_same rfl rfl id

/-- Settles O59: the returns stay in agreement under each effect. -/
theorem everyStepKeepsTheReturnsInAgreement : Obligations.EveryStepKeepsTheReturnsInAgreement := fun _ _ =>
  step_keeps (fun _ _ h => h) State.Effect.returnsAgree

end Returns

end Sys2Proof.Machine
end

section
/-! PROOFS. The store, the queues, the frames on their way and the registers under every step (R26 to R30, R38, R39, R40, R57, R63, R136). -/
namespace Sys2Proof.Machine

/-! ## The management commands -/

section Commands

variable (args : List Byte) (s : State)

theorem calm_commandHold : s.Calm (commandHold args s).state := by
  refine ofLength_keeps (P := s.Calm) (.refl s) ?_
  split
  · exact .refl s
  · next f _ =>
    split
    case h_2 active => exact (State.calm_setFlowState s f _ (by simp) (by simp [active])).trans (State.calm_endRunOf _ f)
    all_goals exact .refl s

theorem calm_commandRelease : s.Calm (commandRelease args s).state := by
  refine ofLength_keeps (P := s.Calm) (.refl s) ?_
  split
  · exact .refl s
  · next f _ =>
    split
    case h_3 held => exact .setFlow ⟨rfl, rfl, rfl, rfl, rfl, rfl, nofun, fun e => by simp [held] at e⟩
    case h_4 held => exact State.calm_setFlowState s f _ (by simp) (by simp [held])
    all_goals exact .refl s

theorem calm_commandClose : s.Calm (commandClose args s).state := by
  refine ofLength_keeps (P := s.Calm) (.refl s) ?_
  split
  · exact .refl s
  · next f _ =>
    split
    case h_2 active => exact State.calm_closeFlow s f (by simp [active])
    case h_3 held => exact State.calm_closeFlow s f (by simp [held])
    all_goals exact .refl s

theorem calm_commandFlush : s.Calm (commandFlush args s).state := by
  refine ofLength_keeps (P := s.Calm) (.refl s) ?_
  split
  · exact .refl s
  · next f _ =>
    split
    case h_2 active => exact State.calm_startFlush s f _ (by simp [active])
    case h_3 held => exact State.calm_startFlush s f _ (by simp [held])
    case h_4 draining => exact State.calm_startFlush s f _ (by simp [draining])
    all_goals exact .refl s

/-- The watermarks, the pause condition and the low-water count are not of the frames. -/
theorem calm_commandSetPool : s.Calm (commandSetPool args s).state := by
  refine ofLength_keeps (P := s.Calm) (.refl s) ?_
  split
  · refine State.Calm.trans ?_ (State.calm_pauseTest _)
    exact .of_same rfl ⟨rfl, rfl, rfl, rfl, rfl, rfl⟩ rfl rfl rfl rfl rfl
  · exact .refl s

theorem calm_commandReadPool : s.Calm (commandReadPool args s).state :=
  ofLength_keeps (P := s.Calm) (.refl s) (.of_same rfl ⟨rfl, rfl, rfl, rfl, rfl, rfl⟩ rfl rfl rfl rfl rfl)

theorem calm_commandStage : s.Calm (commandStage args s).state := by
  refine ofLength_keeps (P := s.Calm) (.refl s) ?_
  split
  · split
    · exact .refl s
    · split
      · exact .refl s
      · exact .setFlow ⟨rfl, rfl, rfl, rfl, rfl, rfl, .inl, id⟩
  · exact .refl s

theorem calm_commandUnstage : s.Calm (commandUnstage args s).state := by
  refine ofLength_keeps (P := s.Calm) (.refl s) ?_
  split
  · exact .refl s
  · split
    · exact .setFlow ⟨rfl, rfl, rfl, rfl, rfl, rfl, .inl, id⟩
    · exact .refl s

theorem calm_commandAdopt : s.Calm (commandAdopt args s).state := by
  refine ofLength_keeps (P := s.Calm) (.refl s) ?_
  split
  · exact .refl s
  · split
    · exact .setFlow ⟨rfl, rfl, rfl, rfl, rfl, rfl, .inl, id⟩
    · exact .refl s

theorem calm_commandSetHoldLimit : s.Calm (commandSetHoldLimit args s).state := by
  refine ofLength_keeps (P := s.Calm) (.refl s) ?_
  refine State.Calm.trans ?_ (State.calm_stuckTest _)
  exact .of_same rfl (.refl _) rfl rfl rfl rfl rfl

theorem commandSetDefault_entries : (commandSetDefault args s).state.classifier.entries = s.classifier.entries := by
  refine ofLength_keeps (P := fun t => t.classifier.entries = s.classifier.entries) rfl ?_
  split
  · rfl
  · rfl

/-- A command that changes none of the flows, the store, the ports, the agent and the match entries. -/
theorem calm_of_blocks {s t : State} (flows : t.flows = s.flows) (store : t.store = s.store) (up : t.up = s.up)
    (down : t.down = s.down) (agent : t.agent = s.agent) (entries : t.classifier.entries = s.classifier.entries) :
    s.Calm t :=
  .of_same flows (.of_eq store) (by rw [up]) (by rw [down]) (by rw [agent]) (by rw [agent]) entries

end Commands

theorem calm_block {c : Instr} {run : State → Answer} (block : blockOf c = some run) (s : State)
    (noOpen : ∀ args, c ≠ .openFlow args) (noSetFlow : ∀ args, c ≠ .setFlow args) (noWrite : ∀ args, c ≠ .writeMatch args) :
    s.Calm (run s).state := by
  cases c <;> cases block
  case openFlow args => exact absurd rfl (noOpen args)
  case setFlow args => exact absurd rfl (noSetFlow args)
  case writeMatch args => exact absurd rfl (noWrite args)
  case hold args => exact calm_commandHold args s
  case release args => exact calm_commandRelease args s
  case close args => exact calm_commandClose args s
  case flush args => exact calm_commandFlush args s
  case setPool args => exact calm_commandSetPool args s
  case readPool args => exact calm_commandReadPool args s
  case stage args => exact calm_commandStage args s
  case unstage args => exact calm_commandUnstage args s
  case adopt args => exact calm_commandAdopt args s
  case setHoldLimit args => exact calm_commandSetHoldLimit args s
  case readCounters args => exact commandReadCounters_keeps (.refl s) State.calm_clearScope
  case setDefault args =>
    exact calm_of_blocks (by simp) (by simp) (by simp) (by simp) (by simp) (commandSetDefault_entries args s)
  all_goals exact calm_of_blocks (by simp) (by simp) (by simp) (by simp) (by simp) (by simp)

/-! ### OPEN, SET_FLOW and WRITE_MATCH -/

section Special

variable {s : State} (h : s.FramesAgree) (args : List Byte)
include h

/-- A flow's limits change only in DISABLED, where its queue is empty and no grant to it counts (R14, R22). -/
theorem State.FramesAgree.setLimits {f : FlowId} (disabled : (s.flow f).state = .disabled) {x : Flow}
    (same : (s.flow f).state = x.state ∧ x.queue = (s.flow f).queue ∧ x.queuedFrames = (s.flow f).queuedFrames ∧
      x.queuedBytes = (s.flow f).queuedBytes ∧ x.generation = (s.flow f).generation)
    (frames : 1 ≤ x.frameLimit ∧ x.frameLimit ≤ 1024) (bytes : 16 ≤ x.byteLimit ∧ x.byteLimit ≤ 262144) :
    (s.setFlow f x).FramesAgree := by
  obtain ⟨state, queue, queuedFrames, queuedBytes, generation⟩ := same
  obtain ⟨-, -, count, total, -, -, -, -, -, -, empty⟩ := h.queues f
  refine h.assemble (.refl _) (fun g => ?_) (fun _ => id) rfl rfl h.reception h.grantsApart h.grantsFew (fun g mem => ?_)
    h.requests h.table
  · rw [State.flow_setFlow]
    split
    · next eq =>
      subst eq
      refine ⟨queue, queuedFrames, queuedBytes, frames.1, frames.2, bytes.1, bytes.2, ?_, ?_, fun _ => queue.trans (empty disabled)⟩
      · simp [queuedFrames, count, empty disabled]
      · simp [queuedBytes, total, empty disabled]
    · exact ⟨rfl, rfl, rfl, (h.queues g).limited⟩
  · obtain ⟨round, fits⟩ := h.grantsKept g mem
    unfold State.grantKept
    rw [State.flow_setFlow]
    split
    · next eq =>
      subst eq
      exact ⟨by rw [generation]; exact round, fun _ live => absurd (state.symm.trans disabled) live⟩
    · exact ⟨round, fits⟩

theorem framesAgree_commandSetFlow : (commandSetFlow args s).state.FramesAgree := by
  refine ofLength_keeps h ?_
  split
  · next f g p _ _ _ =>
    split
    · next limits =>
      split
      · next disabled =>
        obtain ⟨frames, frames', bytes, bytes'⟩ := limits
        exact h.setLimits ((s.flow f).isDisabled_iff.mp disabled) ⟨rfl, rfl, rfl, rfl, rfl⟩ ⟨frames, frames'⟩ ⟨bytes, bytes'⟩
      · exact h
    · exact h
  · exact h

theorem State.FramesAgree.setEntry {i : Fin 64} {e : MatchEntry} (inRange : e.inRange) (hits : Vector Counter 64) :
    (s.setClassifier { s.classifier with entries := s.classifier.entries.set i e, hits := hits }).FramesAgree := by
  refine ⟨h.lists, h.blocks, h.bodies, h.shares, h.queues, h.sending, h.reserved, h.filling, h.reception, h.grantsApart,
    h.grantsFew, h.grantsKept, h.requests, fun j => ?_⟩
  change ((s.classifier.entries.set i e)[j]).inRange
  rw [getElem_set_fin]
  split
  · exact inRange
  · exact h.table j

theorem framesAgree_commandWriteMatch : (commandWriteMatch args s).state.FramesAgree := by
  refine ofLength_keeps h ?_
  split
  · next i e _ decoded => exact h.setEntry (decodeEntry_inRange decoded) _
  · exact h

end Special

/-! ### The record of a result -/

section Answered

variable {s : State} {c : Instr} {code : Byte} {args : List Byte} (due : s.commandDue code args = true)
include due

theorem State.FramesAgree.finish {r : Answer} (h : r.state.FramesAgree) (agent : r.state.agent.state = s.agent.state)
    (restart : Bool) : (r.finish code restart).FramesAgree := by
  obtain ⟨x, executing, left⟩ := State.commandDue_index due
  exact h.calm (State.calm_finish (agent.trans executing) left _ _ _)

/-- The opening of a flow moves its generation, and its command is one less to run (R3, R4). -/
theorem framesAgree_openFlow (h : s.FramesAgree) (args : List Byte) : ((commandOpen args s).finish code false).FramesAgree := by
  have refused (status : Status) : ((refuse s status).finish code false).FramesAgree :=
    State.FramesAgree.finish due (r := refuse s status) h rfl false
  refine ofLength_answers (P := fun r => (r.finish code false).FramesAgree) (refused _) ?_
  split
  · next f p _ _ =>
    split
    · next disabled =>
      obtain ⟨x, executing, left⟩ := State.commandDue_index due
      exact h.open_flow ((s.flow f).isDisabled_iff.mp disabled) rfl rfl ⟨rfl, rfl, rfl, rfl⟩ rfl rfl rfl rfl
        (Agent.finish_commandsLeft executing left _ _ _)
        (fun y hy => (Agent.finish_requests executing _ _ _ hy) ▸ h.requests x executing) rfl
    · exact refused _
  · exact refused _

theorem framesAgree_answered {run : State → Answer} (block : blockOf c = some run) (h : s.FramesAgree) :
    ((run s).finish code false).FramesAgree := by
  by_cases opens : ∃ args, c = .openFlow args
  · obtain ⟨args, rfl⟩ := opens
    cases block
    exact framesAgree_openFlow due h args
  · refine State.FramesAgree.finish due ?_ (block_agent_state block s) false
    by_cases limits : ∃ args, c = .setFlow args
    · obtain ⟨args, rfl⟩ := limits
      cases block
      exact framesAgree_commandSetFlow h args
    · by_cases entry : ∃ args, c = .writeMatch args
      · obtain ⟨args, rfl⟩ := entry
        cases block
        exact framesAgree_commandWriteMatch h args
      · exact h.calm (calm_block block s (fun args e => opens ⟨args, e⟩) (fun args e => limits ⟨args, e⟩)
          fun args e => entry ⟨args, e⟩)

end Answered

/-! ## Every step -/

theorem State.calm_makeDue (s : State) : s.Calm s.makeDue := by
  refine ⟨.refl _, fun f => ?_, rfl, fun _ => id, le_refl _, id, rfl⟩
  have due : s.makeDue.flow f = { s.flow f with due := { replenishment := true, sweep := true, step := true } } :=
    getElem_mapAll _ _ f.val f.isLt
  rw [due]
  exact ⟨rfl, rfl, rfl, rfl, rfl, rfl, .inl, id⟩

theorem State.arbitrateReturn_lane (s : State) : s.arbitrateReturn.up.lane = s.up.lane := by
  unfold State.arbitrateReturn
  repeat' split
  all_goals rfl

theorem State.Effect.framesAgree {s t : State} {c : Instr} (h : s.Effect c t) (hs : s.FramesAgree) : t.FramesAgree := by
  cases h with
  | kept => exact hs
  | answered block carried due => exact framesAgree_answered due block hs
  | refused c status due => exact State.FramesAgree.finish due (r := refuse s status) hs rfl false
  | restarted due => exact State.FramesAgree.finish due (r := answerOk s []) hs rfl true
  | start => exact hs.takeStart
  | byte | lead => exact hs.takeByte _
  | classified lane => exact hs.classify lane
  | admitted lane => exact hs.decideAdmission (fun _ ht xs => State.FramesAgree.takeHeld xs ht) lane
  | reserved lane => exact hs.decideReservation lane
  | endMark => exact hs.takeEnd
  | abort => exact hs.takeAbort
  | taken idle room waiting => exact hs.calm (State.calm_take idle waiting _ _)
  | sent => exact hs.calm (.of_same (by simp) (.of_eq s.arbitrateReturn_store) s.arbitrateReturn_lane (by simp) (by simp) (by simp) (by simp))
  | responseDone => exact hs.completeResponse
  | noticeDone => exact hs.calm (.of_same rfl (.refl _) rfl rfl rfl rfl rfl)
  | reinitialised | resetReleased => exact State.framesAgree_reset rfl rfl rfl rfl rfl rfl
  | expired =>
    refine (hs.calm ?_).calm (State.calm_makeDue _)
    exact .of_same rfl (.refl _) rfl rfl rfl rfl rfl
  | replenished | sweptDisabled => exact hs.calm (.setFlow ⟨rfl, rfl, rfl, rfl, rfl, rfl, .inl, id⟩)
  | swept f =>
    refine State.FramesAgree.ageFlow ?_ f
    exact hs.calm (.setFlow ⟨rfl, rfl, rfl, rfl, rfl, rfl, .inl, id⟩)
  | stepped | lifetimeEnded => exact hs.calm (s.calm_takeProfileStep _)
  | flushed => exact hs.discardHead _ _
  | selected => exact hs.agingCheck.choose
  | completed x live sending => exact hs.transmissionCompletion (by simp [execTransmissionCompletion, sending, live])
  | pins | dhold => exact hs.calm (.of_same rfl (.refl _) rfl rfl rfl rfl rfl)
  | quenched => exact hs.calm (.of_same rfl (.refl _) rfl rfl rfl rfl rfl)
  | holdTicked => exact hs.calm s.calm_takeHoldTick
  | occurred | built | ticked | repeated => exact hs.calm (s.calm_setNotices _)
  | resetHeld => exact hs.calm ⟨.refl _, fun _ => .refl _, rfl, nofun, le_refl _, id, rfl⟩

theorem State.framesAgree_pending {s : State} (rest : List Instr) (h : s.FramesAgree) :
    State.FramesAgree { s with pending := rest } :=
  h.calm (.of_same rfl (.refl _) rfl rfl rfl rfl rfl)

theorem step_framesAgree {s t : State} (run : step s = .next t) (h : s.FramesAgree) : t.FramesAgree :=
  step_keeps (fun _ rest => State.framesAgree_pending rest) State.Effect.framesAgree h run

/-! ## The free lists and the pause condition (R29, R38, R39, R40) -/

theorem storeInvariant_listsAgree : StoreInvariant FrameStore.listsAgree where
  release _ r h := FrameStore.lists_afterPause (FrameStore.lists_releaseRecord h r)
  recordState _ r rs h := FrameStore.lists_setRecordState h r rs
  freeRecord _ r h := FrameStore.lists_freeRecord h r
  settle _ b n h := FrameStore.lists_afterPause (FrameStore.lists_settleBody h b n)
  freeReservation _ b rs h := FrameStore.lists_afterPause (FrameStore.lists_freeReservation h b rs)
  lowWater _ _ h := h
  marks _ _ _ h _ _ := FrameStore.lists_afterPause h
  reset := FrameStore.lists_reset
  storeByte _ b n v h := FrameStore.lists_storeByte h b n v
  reserve _ _ _ _ _ _ bytes h reserved :=
    FrameStore.lists_afterPause (FrameStore.lists_storeBytes bytes (FrameStore.lists_reserve h reserved) _ _)

theorem FrameStore.pauseAgrees_reset : FrameStore.reset.pauseAgrees :=
  ⟨by decide, by decide, nofun, fun _ => by simp [FrameStore.reset]⟩

/-- Every change of the free-block count or the watermarks is followed by the pause test, which needs the watermarks in order. -/
theorem storeInvariant_pauseAgrees : StoreInvariant FrameStore.pauseAgrees where
  release st r h := FrameStore.afterPause_agrees _ ((st.sameMarks_releaseRecord r).inOrder h.inOrder)
  recordState st r rs h := (st.sameSpace_setRecordState r rs).agrees h
  freeRecord st r h := (st.sameSpace_freeRecord r).agrees h
  settle st b n h := FrameStore.afterPause_agrees _ ((st.sameMarks_settleBody b n).inOrder h.inOrder)
  freeReservation st b rs h := FrameStore.afterPause_agrees _ ((st.sameMarks_freeReservation b rs).inOrder h.inOrder)
  lowWater _ _ h := h
  marks _ _ _ _ ordered bounded := FrameStore.afterPause_agrees _ ⟨ordered, bounded⟩
  reset := FrameStore.pauseAgrees_reset
  storeByte st b n v h := by
    obtain ⟨blocks, pause, resume, condition⟩ := st.storeByte_space b n v
    unfold FrameStore.pauseAgrees
    rw [blocks, pause, resume, condition]
    exact h
  reserve st st' length grants b rs bytes h reserved := by
    obtain ⟨pause, resume⟩ := FrameStore.storeBytes_marks bytes st' b 0
    refine FrameStore.afterPause_agrees _ ?_
    unfold FrameStore.marksInOrder
    rw [pause, resume]
    exact (FrameStore.sameMarks_reserve reserved).inOrder h.inOrder

theorem step_storeInvariant {P : FrameStore → Prop} (invariant : StoreInvariant P) {s t : State} (run : step s = .next t)
    (h : P s.store) : P t.store := by
  unfold step at run
  split at run
  · cases run
    exact h
  · exact invariant.exec run h

/-! ## The registers (R57, R63, R136) -/

section Registers

variable {s t : State} {c : Instr}

theorem State.arbitrateReturn_ownTag (s : State) : s.arbitrateReturn.up.ownTag = s.up.ownTag := by
  unfold State.arbitrateReturn
  repeat' split
  all_goals rfl

theorem State.beginRestart_ownTag (s : State) : s.beginRestart.up.ownTag = s.up.ownTag := by
  unfold State.beginRestart
  split
  · simp
  · simp

theorem State.completeResponse_ownTag (s : State) : s.completeResponse.up.ownTag = s.up.ownTag := by
  unfold State.completeResponse
  split
  · exact State.beginRestart_ownTag _
  · rfl

theorem State.classify_entries (s : State) (rx : Reception) (bytes : List Byte) (held : List Symbol) :
    (s.classify rx bytes held).classifier.entries = s.classifier.entries := by
  unfold State.classify
  simp only
  split
  · simp [s.classifier.count_entries]
  · simp [s.classifier.count_entries]

theorem State.periodsInRange_reset (reset : s.pacing = Pacing.reset) : s.periodsInRange := by
  unfold State.periodsInRange
  rw [reset]
  decide

theorem block_ownTag {run : State → Answer} (block : blockOf c = some run) (s : State) :
    (run s).state.up.ownTag = s.up.ownTag := by
  by_cases read : ∃ args, c = .readCounters args
  · obtain ⟨args, rfl⟩ := read
    cases block
    exact commandReadCounters_keeps (P := fun t => t.up.ownTag = s.up.ownTag) rfl fun scope => by cases scope <;> rfl
  · exact congrArg UpstreamPort.ownTag (block_agent_up block s fun args e => read ⟨args, e⟩).2

theorem State.Effect.ownTagInRange (h : s.Effect c t) (hs : s.ownTagInRange) : t.ownTagInRange := by
  have same (e : t.up.ownTag = s.up.ownTag) : t.ownTagInRange := by
    unfold State.ownTagInRange
    rw [e]
    exact hs
  cases h with
  | resetReleased straps => exact ownTagOf_range straps
  | answered block carried due => exact same (block_ownTag block s)
  | start | byte | lead | classified | admitted | reserved | endMark | abort => exact same (by simp)
  | sent => exact same s.arbitrateReturn_ownTag
  | responseDone => exact same s.completeResponse_ownTag
  | swept | stepped | lifetimeEnded | flushed | selected | completed | holdTicked => exact same (by simp)
  | _ => exact hs

theorem block_entries {run : State → Answer} (block : blockOf c = some run) (noWrite : ∀ args, c ≠ .writeMatch args) (s : State) :
    (run s).state.classifier.entries = s.classifier.entries := by
  cases c <;> cases block
  case writeMatch args => exact absurd rfl (noWrite args)
  case setDefault args => exact commandSetDefault_entries args s
  case readCounters args =>
    exact commandReadCounters_keeps (P := fun t => t.classifier.entries = s.classifier.entries) rfl
      fun scope => by cases scope <;> rfl
  all_goals simp

theorem tableInRange_commandWriteMatch (args : List Byte) (hs : s.tableInRange) :
    (commandWriteMatch args s).state.tableInRange := by
  refine ofLength_keeps hs ?_
  split
  · next i e _ decoded =>
    intro j
    change ((s.classifier.entries.set i e)[j]).inRange
    rw [getElem_set_fin]
    split
    · exact decodeEntry_inRange decoded
    · exact hs j
  · exact hs

theorem State.Effect.tableInRange (h : s.Effect c t) (hs : s.tableInRange) : t.tableInRange := by
  have same {u : State} (e : u.classifier.entries = s.classifier.entries) : u.tableInRange := by
    unfold State.tableInRange
    rw [e]
    exact hs
  cases h with
  | answered block carried due =>
    by_cases write : ∃ args, c = .writeMatch args
    · obtain ⟨args, rfl⟩ := write
      cases block
      exact tableInRange_commandWriteMatch args hs
    · exact same (block_entries block (fun args e => write ⟨args, e⟩) s)
  | reinitialised | resetReleased => exact State.tableInRange_reset _ rfl
  | classified => exact same (s.classify_entries _ _ _)
  | start | byte | lead | admitted | reserved | endMark | abort => exact same (by simp)
  | sent | responseDone | swept | stepped | lifetimeEnded | flushed | selected | completed | holdTicked =>
    exact same (by simp)
  | _ => exact hs

theorem periodsInRange_block {run : State → Answer} (block : blockOf c = some run) (hs : s.periodsInRange) :
    (run s).state.periodsInRange := by
  have same {u : State} (e : u.pacing = s.pacing) : u.periodsInRange := by
    unfold State.periodsInRange
    rw [e]
    exact hs
  cases c <;> cases block
  case setEpoch args =>
    refine ofLength_keeps hs ?_
    split
    · next ten => exact ⟨hs.1, hs.2.1, ten, Nat.le_of_lt_succ (num16At_lt args 0)⟩
    · exact hs
  case readCounters args => exact commandReadCounters_keeps hs fun scope => by cases scope <;> exact hs
  all_goals exact same (by simp)

theorem State.Effect.periodsInRange (h : s.Effect c t) (hs : s.periodsInRange) : t.periodsInRange := by
  have same (e : t.pacing = s.pacing) : t.periodsInRange := by
    unfold State.periodsInRange
    rw [e]
    exact hs
  cases h with
  | answered block carried due => exact periodsInRange_block block hs
  | reinitialised | resetReleased => exact State.periodsInRange_reset rfl
  | expired => exact ⟨hs.2.2.1, hs.2.2.2, hs.2.2.1, hs.2.2.2⟩
  | start | byte | lead | classified | admitted | reserved | endMark | abort => exact same (by simp)
  | sent | responseDone | swept | stepped | lifetimeEnded | flushed | selected | completed | holdTicked =>
    exact same (by simp)
  | _ => exact hs

end Registers

/-- Settles O60: the free lists and the pause condition are properties of the store that each of its operations keeps; the rest
is kept under each effect; and what the lists, blocks and shares in agreement say is counted. -/
theorem everyStepKeepsTheStoreAndRegistersInAgreement : Obligations.EveryStepKeepsTheStoreAndRegistersInAgreement := by
  refine ⟨fun s t run => ⟨step_storeInvariant storeInvariant_listsAgree run, step_storeInvariant storeInvariant_pauseAgrees run,
    fun h => step_keeps (fun _ _ h => h) State.Effect.ownTagInRange h run,
    fun h => step_keeps (fun _ _ h => h) State.Effect.tableInRange h run,
    fun h => step_keeps (fun _ _ h => h) State.Effect.periodsInRange h run, step_framesAgree run⟩,
    fun st lists => ?_, fun st blocks => ⟨blocks.freeNodup, fun b => ⟨blocks.nodup b, fun _ => blocks.notFree⟩, blocks.total⟩,
    fun st b body shares live => shares.2 b body live⟩
  obtain ⟨records, bodies⟩ := st.listsAgree_iff.mp lists
  exact ⟨records.card, bodies.card⟩

/-! ## Right after reset -/

theorem State.flowsLegal_reset (s : State) (flows : s.flows = State.reset.flows) (run : s.scheduler.run = none) : s.flowsLegal := by
  refine ⟨fun f => ?_, fun r hr => by simp [run] at hr⟩
  have same : s.flow f = Flow.reset := by
    unfold State.flow
    rw [flows]
    simp [State.reset]
  rw [same]
  exact Flow.legal_reset

/-- Settles O55: every block's reset values meet the invariants about it. -/
theorem resetMeetsEveryInvariant : Obligations.ResetMeetsEveryInvariant :=
  ⟨FrameStore.wf_reset, State.flowsLegal_reset _ rfl rfl, NoticeUnit.legal_reset,
    State.returnsAgree_reset _ rfl rfl rfl rfl rfl, FrameStore.lists_reset, FrameStore.pauseAgrees_reset,
    ⟨by decide, by decide⟩, State.tableInRange_reset _ rfl, State.periodsInRange_reset rfl,
    State.framesAgree_reset rfl rfl rfl rfl rfl rfl⟩

end Sys2Proof.Machine
end

section
/-! PROOFS. Flows, the run and the queues under every step (R1, R8, R14, R28, R67, R84, R86, R104). -/
namespace Sys2Proof.Machine

/-! ## One flow or the scheduler replaced -/

section Replaced

variable {s : State} (h : s.flowsLegal)
include h

theorem State.flowsLegal_setFlow_sameState (f : FlowId) {x : Flow} (legal : x.legal) (state : x.state = (s.flow f).state)
    (group : x.group = (s.flow f).group) : (s.setFlow f x).flowsLegal := by
  refine State.flowsLegal_setFlow h f x legal fun run hr holder => ?_
  obtain ⟨releasing, notExpress, -⟩ := h.2 run hr
  rw [holder] at releasing notExpress
  rw [Flow.releasing_iff] at releasing
  rw [Flow.releasing_iff, state, group]
  exact ⟨releasing, notExpress⟩

/-- The holder of the run releases, so a flow that does not may become any legal flow. -/
theorem State.flowsLegal_setFlow_notReleasing (f : FlowId) {x : Flow} (legal : x.legal) (idle : (s.flow f).releasing = false) :
    (s.setFlow f x).flowsLegal :=
  State.flowsLegal_setFlow h f x legal fun run hr holder => absurd holder (State.notHolder h idle run hr)

theorem State.flowsLegal_setScheduler_sameRun {c : Scheduler} (run : c.run = s.scheduler.run)
    (allowed : s.releaseAllowed = true → (c.releaseEnable && !c.quenchFlag) = true) : (s.setScheduler c).flowsLegal := by
  refine State.flowsLegal_setScheduler h c fun r hr => ?_
  obtain ⟨releasing, notExpress, few, many, released⟩ := h.2 r (run ▸ hr)
  exact ⟨releasing, notExpress, few, many, allowed released⟩

end Replaced

theorem Flow.not_releasing_of_disabled {x : Flow} (h : x.state = .disabled) : x.releasing = false := by
  simp [Flow.releasing, h]

theorem Flow.not_releasing_of_held {x : Flow} {cause : HoldCause} (h : x.state = .held cause) : x.releasing = false := by
  simp [Flow.releasing, h]

theorem Flow.lifetimeFits_of_reloaded {x : Flow} (h : x.remaining = x.active.lifetime) : x.lifetimeFits := by
  unfold Flow.lifetimeFits
  omega

theorem Flow.legal_replenished {x : Flow} (legal : x.legal) (due : FlowDue) :
    Flow.legal { x with credit := if x.isDisabled then x.credit else replenished x, due := due } := by
  obtain ⟨count, good, staged, floor, cap, adopt, empty, fits⟩ := legal
  refine ⟨count, good, staged, ?_, ?_, adopt, empty, fits⟩
  · change Config.creditFloor ≤ if x.isDisabled then x.credit else replenished x
    split
    · exact floor
    · have rate : (0 : Int) ≤ x.active.rate := Int.natCast_nonneg _
      have burst : (0 : Int) ≤ x.active.burstCap := Int.natCast_nonneg _
      unfold replenished Config.creditFloor at *
      omega
  · change (if x.isDisabled then x.credit else replenished x) ≤ x.active.burstCap
    split
    · exact cap
    · exact min_le_right _ _

/-! ## The management commands -/

section Commands

variable {s : State} (args : List Byte) (h : s.flowsLegal)
include h

theorem flowsLegal_commandOpen : (commandOpen args s).state.flowsLegal := by
  refine ofLength_keeps h ?_
  split
  · next f p _ decoded =>
    split
    · next disabled =>
      have state := (s.flow f).isDisabled_iff.mp disabled
      obtain ⟨count, -, staged, -, -, adopt, -, -⟩ := h.1 f
      have floor : Config.creditFloor ≤ 0 := by decide
      refine State.flowsLegal_setFlow_notReleasing h f ?_ (Flow.not_releasing_of_disabled state)
      exact ⟨count, decodeProfile_good decoded, staged, floor, Int.natCast_nonneg p.burstCap, adopt, nofun,
        fun _ => Flow.lifetimeFits_of_reloaded rfl⟩
    · exact h
  · exact h

theorem flowsLegal_commandHold : (commandHold args s).state.flowsLegal := by
  refine ofLength_keeps h ?_
  split
  · exact h
  · next f _ =>
    split
    case h_2 active =>
      refine State.flowsLegal_without h f _ (Flow.legal_setState (h.1 f) (.held .ordered) nofun fun _ => .inl active) ?_ ?_
      · exact State.endRunOf_flows _ f
      · exact State.endRunOf_scheduler _ f
    all_goals exact h

theorem flowsLegal_commandRelease : (commandRelease args s).state.flowsLegal := by
  refine ofLength_keeps h ?_
  split
  · exact h
  · next f _ =>
    split
    case h_3 held =>
      obtain ⟨count, good, staged, floor, cap, adopt, -, -⟩ := h.1 f
      refine State.flowsLegal_setFlow_notReleasing h f ?_ (Flow.not_releasing_of_held held)
      exact ⟨count, good, staged, floor, cap, adopt, nofun, fun _ => Flow.lifetimeFits_of_reloaded rfl⟩
    case h_4 held =>
      exact State.flowsLegal_setState h f .active nofun (fun _ => .inr (.inl held)) (.inl rfl)
    all_goals exact h

theorem flowsLegal_commandClose : (commandClose args s).state.flowsLegal := by
  refine ofLength_keeps h ?_
  repeat' split
  all_goals first
    | exact State.flowsLegal_closeFlow h _
    | exact h

theorem flowsLegal_commandFlush : (commandFlush args s).state.flowsLegal := by
  refine ofLength_keeps h ?_
  split
  · exact h
  · next f _ =>
    split
    case h_2 active => exact State.flowsLegal_startFlush h f .active active
    case h_3 cause held => exact State.flowsLegal_startFlush h f (.held cause) held
    case h_4 draining => exact State.flowsLegal_startFlush h f .draining draining
    all_goals exact h

theorem flowsLegal_commandSetFlow : (commandSetFlow args s).state.flowsLegal := by
  refine ofLength_keeps h ?_
  split
  · next f g p _ _ _ =>
    split
    · split
      · next disabled =>
        exact State.flowsLegal_setFlow_notReleasing h f (Flow.legal_of_same (h.1 f) rfl rfl rfl rfl rfl rfl rfl rfl)
          (Flow.not_releasing_of_disabled ((s.flow f).isDisabled_iff.mp disabled))
      · exact h
    · exact h
  · exact h

theorem flowsLegal_commandStage : (commandStage args s).state.flowsLegal := by
  refine ofLength_keeps h ?_
  split
  · next f p _ decoded =>
    split
    · exact h
    · next live =>
      split
      · exact h
      · obtain ⟨count, good, -, floor, cap, -, -, fits⟩ := h.1 f
        have staged : ∀ q, some p = some q → q.good = true := fun q e => Option.some.inj e ▸ decodeProfile_good decoded
        refine State.flowsLegal_setFlow_sameState h f ?_ rfl rfl
        exact ⟨count, good, staged, floor, cap, nofun, fun d => absurd ((s.flow f).isDisabled_iff.mpr d) live, fits⟩
  · exact h

theorem flowsLegal_commandUnstage : (commandUnstage args s).state.flowsLegal := by
  refine ofLength_keeps h ?_
  split
  · exact h
  · next f _ =>
    split
    · obtain ⟨count, good, -, floor, cap, -, -, fits⟩ := h.1 f
      refine State.flowsLegal_setFlow_sameState h f ?_ rfl rfl
      exact ⟨count, good, nofun, floor, cap, nofun, fun _ => rfl, fits⟩
    · exact h

theorem flowsLegal_commandAdopt : (commandAdopt args s).state.flowsLegal := by
  refine ofLength_keeps h ?_
  split
  · exact h
  · next f _ =>
    split
    · next loaded =>
      obtain ⟨count, good, staged, floor, cap, -, empty, fits⟩ := h.1 f
      refine State.flowsLegal_setFlow_sameState h f ?_ rfl rfl
      exact ⟨count, good, staged, floor, cap, fun _ => Option.isSome_iff_ne_none.mp loaded, empty, fits⟩
    · exact h

theorem flowsLegal_commandSetRelease : (commandSetRelease args s).state.flowsLegal := by
  refine ofLength_keeps h ?_
  split
  · exact h
  · refine State.flowsLegal_setScheduler_sameRun h rfl fun allowed => ?_
    simp only [State.releaseAllowed, Bool.and_eq_true] at allowed
    simp [allowed.2]
  · exact State.flowsLegal_setScheduler h _ nofun

theorem flowsLegal_commandResume : (commandResume args s).state.flowsLegal := by
  refine ofLength_keeps h ?_
  split
  · exact h
  · refine State.flowsLegal_setScheduler_sameRun h rfl fun allowed => ?_
    simp only [State.releaseAllowed, Bool.and_eq_true] at allowed
    simp [allowed.1]

theorem flowsLegal_commandSetGroup : (commandSetGroup args s).state.flowsLegal := by
  refine ofLength_keeps h ?_
  split
  · exact State.flowsLegal_setScheduler_sameRun h rfl id
  · exact h

theorem flowsLegal_commandSetTop : (commandSetTop args s).state.flowsLegal := by
  refine ofLength_keeps h ?_
  split
  · exact State.flowsLegal_setScheduler_sameRun h rfl id
  · exact h

theorem flowsLegal_clearScope (scope : CounterScope) : (s.clearScope scope).flowsLegal := by
  cases scope with
  | flow f =>
    exact State.flowsLegal_setFlow_sameState h f (Flow.legal_of_same (h.1 f) rfl rfl rfl rfl rfl rfl rfl rfl) rfl rfl
  | _ => exact State.flowsLegal_congr h rfl rfl

theorem flowsLegal_block {c : Instr} {run : State → Answer} (block : blockOf c = some run) : (run s).state.flowsLegal := by
  cases c <;> cases block
  case openFlow args => exact flowsLegal_commandOpen args h
  case hold args => exact flowsLegal_commandHold args h
  case release args => exact flowsLegal_commandRelease args h
  case close args => exact flowsLegal_commandClose args h
  case flush args => exact flowsLegal_commandFlush args h
  case setFlow args => exact flowsLegal_commandSetFlow args h
  case stage args => exact flowsLegal_commandStage args h
  case unstage args => exact flowsLegal_commandUnstage args h
  case adopt args => exact flowsLegal_commandAdopt args h
  case setRelease args => exact flowsLegal_commandSetRelease args h
  case resume args => exact flowsLegal_commandResume args h
  case setGroup args => exact flowsLegal_commandSetGroup args h
  case setTop args => exact flowsLegal_commandSetTop args h
  case readCounters args => exact commandReadCounters_keeps h (flowsLegal_clearScope h)
  all_goals exact State.flowsLegal_congr h (by simp) (by simp)

end Commands

/-! ## The receive lane and the restart -/

section Lane

variable {s : State} (h : s.flowsLegal)
include h

theorem State.flowsLegal_leaveDeciding (lane : Lane) (held : List Symbol) : (s.leaveDeciding lane held).flowsLegal := by
  refine State.flowsLegal_takeHeld ?_ held
  exact State.flowsLegal_congr h rfl rfl

theorem State.flowsLegal_classify (rx : Reception) (bytes : List Byte) (held : List Symbol) :
    (s.classify rx bytes held).flowsLegal := by
  have counted : (s.setClassifier (s.classifier.count bytes)).flowsLegal := State.flowsLegal_congr h rfl rfl
  unfold State.classify
  simp only
  split
  · exact State.flowsLegal_leaveDeciding counted _ _
  · exact State.flowsLegal_congr counted rfl rfl

theorem State.flowsLegal_decideAdmission (rx : Reception) (bytes : List Byte) (f : FlowId) (rest : List FlowId)
    (granted : List Grant) (label : Tag) (held : List Symbol) :
    (s.decideAdmission rx bytes f rest granted label held).flowsLegal := by
  have decided := State.flowsLegal_admit h f (leadLength bytes)
  unfold State.decideAdmission
  simp only
  split
  · exact State.flowsLegal_congr decided rfl rfl
  · split
    · exact State.flowsLegal_leaveDeciding decided _ _
    · exact State.flowsLegal_congr decided rfl rfl

theorem State.flowsLegal_decideReservation (rx : Reception) (bytes : List Byte) (granted : List Grant) (label : Tag)
    (held : List Symbol) : (s.decideReservation rx bytes granted label held).flowsLegal := by
  unfold State.decideReservation
  split
  · exact State.flowsLegal_leaveDeciding (State.flowsLegal_poolDiscard h granted) _ _
  · refine State.flowsLegal_leaveDeciding (State.flowsLegal_pauseTest ?_) _ _
    exact State.flowsLegal_congr h rfl rfl

theorem State.flowsLegal_beginRestart : s.beginRestart.flowsLegal := by
  unfold State.beginRestart
  split
  · exact State.flowsLegal_congr h (by simp) (by simp)
  · exact State.flowsLegal_takeHeld (State.flowsLegal_congr h (by simp) (by simp)) _

theorem State.flowsLegal_completeResponse : s.completeResponse.flowsLegal := by
  unfold State.completeResponse
  split
  · exact State.flowsLegal_beginRestart (State.flowsLegal_congr h rfl rfl)
  · exact State.flowsLegal_congr h rfl rfl

/-! ## The work of an expiry and the end of a transmission -/

theorem State.flowsLegal_makeDue : s.makeDue.flowsLegal := by
  have due (f : FlowId) : s.makeDue.flow f = { s.flow f with due := { replenishment := true, sweep := true, step := true } } :=
    getElem_mapAll _ _ f.val f.isLt
  refine ⟨fun f => ?_, fun run hr => ?_⟩
  · rw [due]
    exact Flow.legal_of_same (h.1 f) rfl rfl rfl rfl rfl rfl rfl rfl
  · rw [due]
    exact h.2 run hr

theorem State.flowsLegal_completed (x : Transmission) (d : DownstreamPort) (st : FrameStore) :
    ((((s.modifyFlow x.flow fun y => y.completed x.length).setDown d).setStore st).pauseTest.settleDrain x.flow).flowsLegal := by
  have flow : (s.modifyFlow x.flow fun y => y.completed x.length).flowsLegal :=
    State.flowsLegal_setFlow_sameState h x.flow (Flow.legal_of_same (h.1 x.flow) rfl rfl rfl rfl rfl rfl rfl rfl) rfl rfl
  refine State.flowsLegal_settleDrain (State.flowsLegal_pauseTest ?_) x.flow
  exact State.flowsLegal_congr flow rfl rfl

end Lane

/-! ## Every step -/

theorem State.Effect.flowsLegal {s t : State} {c : Instr} (h : s.Effect c t) (hs : s.flowsLegal) : t.flowsLegal := by
  cases h with
  | kept => exact hs
  | answered block carried due => exact State.flowsLegal_congr (flowsLegal_block hs block) rfl rfl
  | classified => exact State.flowsLegal_classify hs _ _ _
  | admitted => exact State.flowsLegal_decideAdmission hs _ _ _ _ _ _ _
  | reserved => exact State.flowsLegal_decideReservation hs _ _ _ _ _
  | endMark => exact State.flowsLegal_takeEnd hs
  | responseDone => exact State.flowsLegal_completeResponse hs
  | reinitialised | resetReleased => exact State.flowsLegal_reset _ rfl rfl
  | expired =>
    refine State.flowsLegal_makeDue ?_
    exact State.flowsLegal_congr hs rfl rfl
  | replenished f => exact State.flowsLegal_setFlow_sameState hs f (Flow.legal_replenished (hs.1 f) _) rfl rfl
  | sweptDisabled f =>
    exact State.flowsLegal_setFlow_sameState hs f (Flow.legal_of_same (hs.1 f) rfl rfl rfl rfl rfl rfl rfl rfl) rfl rfl
  | swept f =>
    refine State.flowsLegal_ageFlow ?_ f
    exact State.flowsLegal_setFlow_sameState hs f (Flow.legal_of_same (hs.1 f) rfl rfl rfl rfl rfl rfl rfl rfl) rfl rfl
  | stepped f | lifetimeEnded f => exact State.flowsLegal_takeProfileStep hs f
  | flushed f => exact State.flowsLegal_discardHead hs f _
  | selected => exact State.flowsLegal_choose (State.flowsLegal_agingCheck hs)
  | completed x => exact State.flowsLegal_completed hs x _ _
  | quenched =>
    refine State.flowsLegal_report ?_ _ _
    exact State.flowsLegal_setScheduler (State.flowsLegal_congr hs rfl rfl) _ nofun
  | start | byte | lead | abort | sent | holdTicked => exact State.flowsLegal_congr hs (by simp) (by simp)
  | _ => exact State.flowsLegal_congr hs rfl rfl

/-- Settles O57: legal flows are kept under each effect; the queues are part of the agreement of the frames, which every step keeps. -/
theorem everyStepKeepsFlowsAndTheRunLegal : Obligations.EveryStepKeepsFlowsAndTheRunLegal := fun _ _ run =>
  ⟨fun h => step_keeps (fun _ _ h => h) State.Effect.flowsLegal h run, fun h => (step_framesAgree run h).queues⟩

end Sys2Proof.Machine
end

section
/-! PROOFS. The queue of what waits, the states of a flow, and the codes of the tables. -/
namespace Sys2Proof.Machine

/-- Settles O1: step looks at the front of the queue only. -/
theorem stepTakesTheFrontOfTheQueue : Obligations.StepTakesTheFrontOfTheQueue := by
  refine ⟨fun c s rest front => ?_, fun s empty => ?_⟩
  · rw [step, front]
  · rw [step, empty]

/-- Settles O10: by the five states. -/
theorem flowStatesAcceptAndRelease : Obligations.FlowStatesAcceptAndRelease := by
  intro x
  refine ⟨?_, x.releasing_iff⟩
  cases h : x.state <;> simp [Flow.accepting, h]

/-- Settles O53: every clause is one table of codes, read off its definition. -/
theorem codesAreThoseOfTheTables : Obligations.CodesAreThoseOfTheTables :=
  ⟨rfl, rfl, fun _ => rfl, rfl, rfl, rfl, rfl, rfl, rfl, fun _ _ _ => rfl, rfl, fun _ => rfl⟩

end Sys2Proof.Machine
end

section
/-! PROOFS. The Management Agent (R157 to R173): the row of a request's next command, the record of a result, the response and the take. -/
namespace Sys2Proof.Machine

/-! ## The row of a command code (R163, R191) -/

theorem not_knownCode_iff (code : Byte) : knownCode code = false ↔ code.toNat = 0 ∨ 27 < code.toNat := by
  simp only [knownCode, Bool.and_eq_false_iff, decide_eq_false_iff_not]
  omega

theorem argumentLength_none {code : Byte} (h : argumentLength code = none) : knownCode code = false := by
  unfold argumentLength at h
  split at h
  case h_28 =>
    have outside : code.toNat = 0 ∨ 27 < code.toNat := by
      simp only [imp_false] at *
      omega
    exact (not_knownCode_iff code).mpr outside
  all_goals cases h

theorem argumentLength_of_unknown {code : Byte} (h : knownCode code = false) : argumentLength code = none := by
  have outside := (not_knownCode_iff code).mp h
  unfold argumentLength
  split
  case h_28 => rfl
  all_goals omega

/-- The row of a code: a command with a block of its own, RESTART, or the unknown command. -/
theorem commandRow_cases (code : Byte) (args : List Byte) :
    (∃ run, blockOf (commandRow code args) = some run ∧ commandCode (commandRow code args) = some (code, args)) ∨
      code = 0x19#8 ∨ (knownCode code = false ∧ commandRow code args = .unknownCommand code args) := by
  unfold commandRow
  split
  case h_25 restart => exact .inr (.inl (BitVec.eq_of_toNat_eq restart))
  case h_28 =>
    have outside : code.toNat = 0 ∨ 27 < code.toNat := by
      simp only [imp_false] at *
      omega
    exact .inr (.inr ⟨(not_knownCode_iff code).mpr outside, rfl⟩)
  all_goals
    next known => exact .inl ⟨_, rfl, congrArg (fun c => some (c, args)) (BitVec.eq_of_toNat_eq known).symm⟩

theorem exec_unknownCommand_eq {code : Byte} (args : List Byte) (s : State) (unknown : knownCode code = false) :
    exec (.unknownCommand code args) s = takeCommand code args (fun s => refuse s .badCommand) s :=
  if_neg (by simp [unknown])

theorem exec_commandRow_of_not_due {code : Byte} {args : List Byte} {s : State} (h : s.commandDue code args = false) :
    exec (commandRow code args) s = .next s := by
  rcases commandRow_cases code args with ⟨run, block, carried⟩ | rfl | ⟨unknown, row⟩
  · rw [exec_of_block s block carried, takeCommand_of_not_due run h]
  · exact if_neg (by simp [h])
  · rw [row, exec_unknownCommand_eq args s unknown, takeCommand_of_not_due _ h]

/-- A block looks at nothing when its arguments have the wrong length. -/
theorem blockOf_wrong_length {c : Instr} {code : Byte} {args : List Byte} {run : State → Answer} {n : Nat}
    (block : blockOf c = some run) (carried : commandCode c = some (code, args)) (len : argumentLength code = some n)
    (wrong : args.length ≠ n) (s : State) : run s = refuse s .badArgument := by
  cases c
  all_goals cases block
  all_goals
    cases carried
    cases len
    exact ofLength_of_ne s _ wrong

theorem exec_commandRow_of_wrong_length {code : Byte} {args : List Byte} {s : State} {n : Nat}
    (due : s.commandDue code args = true) (len : argumentLength code = some n) (wrong : args.length ≠ n) :
    exec (commandRow code args) s = .next (s.answered code .badArgument []) := by
  rcases commandRow_cases code args with ⟨run, block, carried⟩ | rfl | ⟨unknown, -⟩
  · rw [exec_of_block s block carried, takeCommand_due run due, blockOf_wrong_length block carried len wrong, finish_refuse]
  · cases len
    exact (if_pos due).trans (if_neg wrong)
  · cases (argumentLength_of_unknown unknown).symm.trans len

/-- Settles O3: every row of a code takes its command in the same way, and every block checks the length first. -/
theorem commandsAreTakenInTurnAndChecked : Obligations.CommandsAreTakenInTurnAndChecked := by
  refine ⟨fun code args s => ⟨commandDue_iff s code args, exec_commandRow_of_not_due⟩,
    fun code args s due => ⟨fun unknown => ?_, ?_⟩⟩
  · rw [exec_unknownCommand_eq args s (argumentLength_none unknown), takeCommand_due _ due, finish_refuse]
  · exact fun n len wrong => exec_commandRow_of_wrong_length due len wrong

/-! ## The record of a result (R164, R166) -/

section Finish

variable {a : Agent} {x : Execution} (executing : a.state = .executing x) (tag : Tag) (r : CommandResult)

theorem Execution.ended_record_iff (x : Execution) (r : CommandResult) (restart : Bool) :
    (x.record r restart).ended = true ↔
      (x.stop = true ∨ restart = true) ∨ (x.stopOnError = true ∧ r.status ≠ .ok) ∨ x.commands.drop (x.index + 1) = [] := by
  simp [Execution.ended, Execution.record, or_assoc]

include executing

theorem Agent.finish_of_going (goes : (x.record r false).ended = false) :
    a.finish tag r false = { a with state := .executing (x.record r false) } := by
  unfold Agent.finish
  rw [executing]
  exact if_neg (by simp [goes])

theorem Agent.finish_of_ended {restart : Bool} (ends : (x.record r restart).ended = true) :
    let all := x.results ++ [r] ++
      (x.commands.drop (x.index + 1)).map fun c => { code := c.code, status := .notAttempted, data := [] }
    a.finish tag r restart =
      { a.placeAndStore x.request (buildResponse x.request tag (overallStatus all) all) with
        state := if restart then .restartPending else .idle } := by
  unfold Agent.finish
  rw [executing]
  exact if_pos ends

end Finish

/-- Settles O4: the execution goes on or has ended, and each case is one branch of the record. -/
theorem aResultIsRecordedOrEndsTheRequest : Obligations.AResultIsRecordedOrEndsTheRequest := by
  intro s x code status data executing going result left all response
  have ended := x.ended_record_iff result false
  refine ⟨fun ⟨more, carriesOn⟩ => ?_, fun ends => ?_⟩
  · have goes : (x.record result false).ended = false := by
      rw [Bool.eq_false_iff, ne_eq, ended]
      rcases carriesOn with noStop | ok
      · simp [going, noStop, show x.commands.drop (x.index + 1) ≠ [] from more]
      · simp [going, show result.status = .ok from ok, show x.commands.drop (x.index + 1) ≠ [] from more]
    have record : x.record result false = { x with index := x.index + 1, results := x.results ++ [result] } := by
      rcases carriesOn with noStop | ok
      · simp [Execution.record, noStop]
      · simp [Execution.record, show result.status = .ok from ok]
    rw [State.answered, Agent.finish_of_going executing _ result goes, record]
    rfl
  · have ends : (x.record result false).ended = true := ended.mpr (.inr ends.symm)
    rw [State.answered, Agent.finish_of_ended executing _ result ends]
    rfl

/-! ## Responses (R165, R190) -/

theorem field16At_toNat (bs : List Byte) (i : Nat) : (field16At bs i).toNat = num16At bs i := by
  rw [field16At, BitVec.toNat_ofNat]
  exact Nat.mod_eq_of_lt (num16At_lt bs i)

theorem encodeResult_length (r : CommandResult) : (encodeResult r).length = 3 + r.data.length := by
  simp [encodeResult, bytes8]
  omega

theorem responseBody_length (overall : Status) (results : List CommandResult) :
    (responseBody overall results).length = 2 + (results.map fun r => 3 + r.data.length).sum := by
  simp [responseBody, bytes8, List.length_flatMap, encodeResult_length]
  omega

theorem overallStatus_append {before : List CommandResult} (r : CommandResult) (after : List CommandResult)
    (ok : ∀ q ∈ before, q.status = .ok) (bad : r.status ≠ .ok) : overallStatus (before ++ r :: after) = r.status := by
  induction before with
  | nil => exact if_neg bad
  | cons q before ih =>
    have rest := ih fun p hp => ok p (List.mem_cons_of_mem q hp)
    exact (if_pos (ok q List.mem_cons_self)).trans rest

theorem overallStatus_of_ok {results : List CommandResult} (ok : ∀ r ∈ results, r.status = .ok) :
    overallStatus results = .ok := by
  induction results with
  | nil => rfl
  | cons r rs ih =>
    have rest := ih fun p hp => ok p (List.mem_cons_of_mem r hp)
    exact (if_pos (ok r List.mem_cons_self)).trans rest

/-- Settles O5: the lead from the request's fields, the body from the results. -/
theorem responsesAreBuiltFromTheirRequests : Obligations.ResponsesAreBuiltFromTheirRequests := by
  refine ⟨fun request ownTag overall results => ?_, fun results => ⟨overallStatus_of_ok, ?_⟩⟩
  · rw [buildResponse, responseBody_length, leadSource, leadSequence, leadLabel, buildLead]
    simp only [field16At_toNat, Config.leadBytes, Config.checkBytes, kindMgmtResp, leadClass, leadLane, responseBody, bytes8,
      List.append_assoc, List.cons_append, List.nil_append]
    rfl
  · rintro before r after rfl ok bad
    exact overallStatus_append r after ok bad

/-! ## Taking a request (R157, R160 to R163) -/

theorem exec_take_eq {s : State} {slot : SlotId} {others : List SlotId} {frame : List Byte} (live : s.pins.reset = false)
    (idle : s.agent.state = .idle) (room : s.agent.responses.length < 4) (order : s.agent.waitOrder = slot :: others)
    (waiting : s.agent.slots[slot] = .waiting frame) :
    exec .take s = .next (s.setAgent ((s.agent.claim slot).answerTake s.up.ownTag (leadAndBody frame))) := by
  have oldest : s.agent.oldestWaiting = some (slot, frame) := by
    rw [Agent.oldestWaiting, order]
    simp [waiting, Slot.waitingFrame]
  have taken : exec .take s = execTake s := rfl
  rw [taken, execTake, if_pos ⟨live, idle, room⟩, oldest]

theorem Agent.replays_of_key {a : Agent} {request : List Byte} {m : Replay} (memory : a.replay = some m)
    (key : (leadSource request, leadSequence request) = (m.source, m.sequence)) : a.replays request = some m.response := by
  rw [Agent.replays, memory]
  exact if_pos (Prod.mk.inj key)

theorem Agent.replays_of_other_key {a : Agent} {request : List Byte}
    (other : ∀ m, a.replay = some m → (leadSource request, leadSequence request) ≠ (m.source, m.sequence)) :
    a.replays request = none := by
  unfold Agent.replays
  split
  · rfl
  · next m memory => exact if_neg fun ⟨source, sequence⟩ => other m memory (Prod.ext source sequence)

section AnswerTake

variable {a : Agent} (tag : Tag) {request : List Byte}

theorem Agent.answerTake_of_replay {response : List Byte} (replay : a.replays request = some response) :
    a.answerTake tag request = { a.placeResponse response with replayed := a.replayed + 1 } := by
  rw [Agent.answerTake, replay]

theorem Agent.answerTake_of_malformed (new : a.replays request = none) (malformed : parseBody (request.drop 12) = none) :
    a.answerTake tag request =
      { a.placeAndStore request (buildResponse request tag .malformed []) with malformed := a.malformed + 1 } := by
  rw [Agent.answerTake, new]
  simp only [Config.leadBytes, malformed]

theorem Agent.answerTake_of_commands (new : a.replays request = none) {stopOnError : Bool} {commands : List Command}
    (parsed : parseBody (request.drop 12) = some (stopOnError, commands)) :
    a.answerTake tag request =
      { a with
        state := .executing
          { request := request, commands := commands, stopOnError := stopOnError, index := 0, results := [], stop := false } } := by
  rw [Agent.answerTake, new]
  simp only [Config.leadBytes, parsed]

end AnswerTake

/-- Settles O6: the take claims an entry first; then the request's key and its body decide what is answered. -/
theorem aTakeReplaysRefusesOrExecutes : Obligations.ATakeReplaysRefusesOrExecutes := by
  intro s slot others frame live idle room order waiting request claimed key
  rw [exec_take_eq live idle room order waiting]
  have claim : s.agent.claim slot = { claimed with responses := s.agent.responses ++ [.claimed] } := by
    simp [Agent.claim, claimed, order]
  refine ⟨fun m memory same => ?_, fun other => ⟨fun malformed => ?_, fun stopOnError commands parsed => ?_⟩⟩
  · have replay : (s.agent.claim slot).replays (leadAndBody frame) = some m.response := Agent.replays_of_key memory same
    rw [Agent.answerTake_of_replay _ replay, claim]
    simp [Agent.placeResponse, readyClaimed, State.setAgent, claimed]
  · have new : (s.agent.claim slot).replays (leadAndBody frame) = none := Agent.replays_of_other_key other
    rw [Agent.answerTake_of_malformed _ new malformed, claim]
    simp [Agent.placeAndStore, Agent.placeResponse, readyClaimed, State.setAgent, claimed, request, leadAndBody, Config.checkBytes]
  · have new : (s.agent.claim slot).replays (leadAndBody frame) = none := Agent.replays_of_other_key other
    rw [Agent.answerTake_of_commands _ new parsed, claim]
    rfl

/-! ## Requests read back (R161, R190, R191) -/

/-- A row that the part can be offered is the row of the code it is carried under. -/
theorem commandRow_of_wellFormed {i : Instr} (fits : i.wellFormed = true) {code : Byte} {args : List Byte}
    (carried : commandCode i = some (code, args)) : commandRow code args = i ∧ args.length ≤ 255 := by
  have row : Laws.CommandCode.Statement i := by
    cases i
    case unknownCommand code args => exact Laws.CommandCode.unknownCommand code args
    all_goals first
      | exact Laws.CommandCode.of_event rfl
      | exact Laws.CommandCode.of_code rfl rfl of_decide_eq_true
  exact row fits code args carried

theorem parseBody_cons (flags count : Byte) (rest : List Byte) {stopOnError : Bool} {commands : List Command} :
    parseBody (flags :: count :: rest) = some (stopOnError, commands) ↔
      boolOf flags.toNat = some stopOnError ∧ 1 ≤ count.toNat ∧ count.toNat ≤ 8 ∧
        parseCommands count.toNat rest = some commands := by
  rw [parseBody]
  split
  · next unread => simp [unread]
  · next read =>
    split
    · next outside =>
      simp only [reduceCtorEq, false_iff, not_and]
      omega
    · next inside =>
      have range : 1 ≤ count.toNat ∧ count.toNat ≤ 8 := by omega
      split
      · next unread => simp [unread]
      · next parsed => simp [read, parsed, range]

theorem parseBody_encodeRequest (stopOnError : Bool) {commands : List Command} (least : 1 ≤ commands.length)
    (most : commands.length ≤ 8) (short : ∀ c ∈ commands, c.args.length ≤ 255) :
    parseBody (encodeRequest stopOnError commands) = some (stopOnError, commands) := by
  have flags : (BitVec.ofNat 8 stopOnError.toNat).toNat = stopOnError.toNat := by cases stopOnError <;> rfl
  have count : (BitVec.ofNat 8 commands.length).toNat = commands.length := by
    rw [BitVec.toNat_ofNat]
    omega
  refine (parseBody_cons _ _ _).mpr ⟨?_, ?_, ?_, ?_⟩
  · rw [flags, boolOf_toNat]
  · rwa [count]
  · rwa [count]
  · rw [count]
    exact parseCommands_encode commands short

theorem encodeRequest_of_parseBody {body : List Byte} {stopOnError : Bool} {commands : List Command}
    (parsed : parseBody body = some (stopOnError, commands)) :
    body = encodeRequest stopOnError commands ∧ 1 ≤ commands.length ∧ commands.length ≤ 8 := by
  match body, parsed with
  | [], parsed => cases parsed
  | [_], parsed => cases parsed
  | flags :: count :: rest, parsed =>
    obtain ⟨read, least, most, list⟩ := (parseBody_cons flags count rest).mp parsed
    obtain ⟨bytes, length⟩ := parseCommands_sound _ _ _ list
    refine ⟨?_, length ▸ least, length ▸ most⟩
    simp [encodeRequest, length, bytesBool, (boolOf_iff _ _).mp read, bytes8, bytes]

/-- Settles O7: the command list is read back by its encoding, and each code names its row. -/
theorem requestsAreReadBackAsTheirCommands : Obligations.RequestsAreReadBackAsTheirCommands := by
  refine ⟨fun stopOnError rows commands fits carried least most => ?_,
    fun body stopOnError commands => encodeRequest_of_parseBody⟩
  have each (n : Nat) (i : Instr) (c : Command) (hi : rows[n]? = some i) (hc : commands[n]? = some c) :
      commandRow c.code c.args = i ∧ c.args.length ≤ 255 := by
    have code : commandCode i = some (c.code, c.args) := by
      have same := congrArg (fun l => l[n]?) carried
      simpa [hi, hc] using same
    exact commandRow_of_wellFormed (fits i (List.mem_of_getElem? hi)) code
  have sameLength : rows.length = commands.length := by simpa using congrArg List.length carried
  refine ⟨parseBody_encodeRequest stopOnError least most fun c hc => ?_, List.ext_getElem? fun n => ?_⟩
  · obtain ⟨n, hn⟩ := List.getElem?_of_mem hc
    have lt : n < rows.length := sameLength ▸ (List.getElem?_eq_some_iff.mp hn).1
    exact (each n rows[n] c (List.getElem?_eq_getElem lt) hn).2
  · rw [List.getElem?_map]
    cases hc : commands[n]? with
    | none =>
      have past : rows.length ≤ n := sameLength ▸ List.getElem?_eq_none_iff.mp hc
      exact (List.getElem?_eq_none past).symm
    | some c =>
      have lt : n < rows.length := sameLength ▸ (List.getElem?_eq_some_iff.mp hc).1
      have hi := List.getElem?_eq_getElem lt
      rw [hi]
      exact congrArg some (each n rows[n] c hi hc).1

/-! ## RESTART (R171) -/

/-- Settles O8: an executed RESTART sets the stop marker, so the request ends at it. -/
theorem restartWaitsForItsResponse : Obligations.RestartWaitsForItsResponse := by
  intro s x due executing all response
  have taken : exec (.restart []) s = .next ((answerOk s []).finish 0x19#8 true) := (if_pos due).trans (if_pos rfl)
  have ends : (x.record { code := 0x19#8, status := .ok, data := [] } true).ended = true :=
    (x.ended_record_iff _ true).mpr (.inl (.inr rfl))
  have finished := Agent.finish_of_ended executing s.up.ownTag _ ends
  refine taken.trans ?_
  simp only [Answer.finish, answerOk, finished]
  rfl

end Sys2Proof.Machine
end

section
/-! PROOFS. HOLD, RELEASE, CLOSE and FLUSH, the removal of head records, admission and the commit re-check (R5 to R21). -/
namespace Sys2Proof.Machine

/-! ## The tests on a flow's state -/

theorem Flow.isFlushing_iff (x : Flow) : x.isFlushing = true ↔ ∃ back, x.state = .flushing back := by
  unfold Flow.isFlushing
  cases x.state <;> simp

theorem Flow.not_isFlushing_iff (x : Flow) : x.isFlushing = false ↔ ∀ back, x.state ≠ .flushing back := by
  unfold Flow.isFlushing
  cases x.state <;> simp

theorem Flow.accepting_iff (x : Flow) : x.accepting = true ↔ x.state = .active ∨ ∃ cause, x.state = .held cause := by
  unfold Flow.accepting
  cases x.state <;> simp

theorem Flow.not_accepting {x : Flow} (h : x.state = .disabled ∨ x.state = .draining ∨ ∃ back, x.state = .flushing back) :
    x.accepting = false := by
  rw [Bool.eq_false_iff, ne_eq, x.accepting_iff]
  rcases h with h | h | ⟨back, h⟩
  all_goals simp [h]

/-! ## The four commands at the Flow Table (R5 to R13) -/

section Commands

variable {args : List Byte} {s : State}

theorem exec_hold_due (due : s.commandDue 0x02#8 args = true) :
    exec (.hold args) s = .next ((commandHold args s).finish 0x02#8 false) := takeCommand_due _ due

theorem exec_release_due (due : s.commandDue 0x03#8 args = true) :
    exec (.release args) s = .next ((commandRelease args s).finish 0x03#8 false) := takeCommand_due _ due

theorem exec_close_due (due : s.commandDue 0x04#8 args = true) :
    exec (.close args) s = .next ((commandClose args s).finish 0x04#8 false) := takeCommand_due _ due

theorem exec_flush_due (due : s.commandDue 0x05#8 args = true) :
    exec (.flush args) s = .next ((commandFlush args s).finish 0x05#8 false) := takeCommand_due _ due

variable (s) (len : args.length = 2)
include len

section Unnamed

variable (unnamed : flowAt args 0 = none)
include unnamed

theorem commandHold_of_unnamed : commandHold args s = refuse s .badArgument := by
  rw [commandHold, ofLength_of_eq _ _ len, unnamed]

theorem commandRelease_of_unnamed : commandRelease args s = refuse s .badArgument := by
  rw [commandRelease, ofLength_of_eq _ _ len, unnamed]

theorem commandClose_of_unnamed : commandClose args s = refuse s .badArgument := by
  rw [commandClose, ofLength_of_eq _ _ len, unnamed]

theorem commandFlush_of_unnamed : commandFlush args s = refuse s .badArgument := by
  rw [commandFlush, ofLength_of_eq _ _ len, unnamed]

end Unnamed

variable {f : FlowId} (flow : flowAt args 0 = some f)
include flow

theorem commandHold_of_active (h : (s.flow f).state = .active) :
    commandHold args s = answerOk ((s.setFlowState f (.held .ordered)).endRunOf f) [] := by
  rw [commandHold, ofLength_of_eq _ _ len, flow]
  simp only [h]

theorem commandHold_of_flushing {back : ReturnState} (h : (s.flow f).state = .flushing back) :
    commandHold args s = refuse s .busy := by
  rw [commandHold, ofLength_of_eq _ _ len, flow]
  simp only [h]

theorem commandHold_of_bad_state (h : (s.flow f).state = .disabled ∨ (s.flow f).state = .draining ∨
    ∃ cause, (s.flow f).state = .held cause) :
    commandHold args s = refuse s .badState := by
  rw [commandHold, ofLength_of_eq _ _ len, flow]
  rcases h with h | h | ⟨cause, h⟩
  all_goals simp only [h]

theorem commandRelease_of_expired (h : (s.flow f).state = .held .expired) :
    commandRelease args s =
      answerOk (s.setFlow f { s.flow f with state := .active, remaining := (s.flow f).active.lifetime }) [] := by
  rw [commandRelease, ofLength_of_eq _ _ len, flow]
  simp only [h]
  rfl

theorem commandRelease_of_ordered (h : (s.flow f).state = .held .ordered) :
    commandRelease args s = answerOk (s.setFlow f { s.flow f with state := .active }) [] := by
  rw [commandRelease, ofLength_of_eq _ _ len, flow]
  simp only [h]
  rfl

theorem commandRelease_of_flushing {back : ReturnState} (h : (s.flow f).state = .flushing back) :
    commandRelease args s = refuse s .busy := by
  rw [commandRelease, ofLength_of_eq _ _ len, flow]
  simp only [h]

theorem commandRelease_of_bad_state (h : (s.flow f).state = .disabled ∨ (s.flow f).state = .draining ∨
    (s.flow f).state = .active) :
    commandRelease args s = refuse s .badState := by
  rw [commandRelease, ofLength_of_eq _ _ len, flow]
  rcases h with h | h | h
  all_goals simp only [h]

theorem commandClose_of_accepting (h : (s.flow f).state = .active ∨ ∃ cause, (s.flow f).state = .held cause) :
    commandClose args s = answerOk (s.closeFlow f) [] := by
  rw [commandClose, ofLength_of_eq _ _ len, flow]
  rcases h with h | ⟨cause, h⟩
  all_goals simp only [h]

theorem commandClose_of_flushing {back : ReturnState} (h : (s.flow f).state = .flushing back) :
    commandClose args s = refuse s .busy := by
  rw [commandClose, ofLength_of_eq _ _ len, flow]
  simp only [h]

theorem commandClose_of_bad_state (h : (s.flow f).state = .disabled ∨ (s.flow f).state = .draining) :
    commandClose args s = refuse s .badState := by
  rw [commandClose, ofLength_of_eq _ _ len, flow]
  rcases h with h | h
  all_goals simp only [h]

theorem commandFlush_of_return_state {back : ReturnState} (h : (s.flow f).state = back.toFlowState) :
    commandFlush args s = answerOk (s.startFlush f back) [] := by
  rw [commandFlush, ofLength_of_eq _ _ len, flow]
  cases back
  all_goals
    simp only [ReturnState.toFlowState] at h
    simp only [h]

theorem commandFlush_of_flushing {back : ReturnState} (h : (s.flow f).state = .flushing back) :
    commandFlush args s = refuse s .busy := by
  rw [commandFlush, ofLength_of_eq _ _ len, flow]
  simp only [h]

theorem commandFlush_of_disabled (h : (s.flow f).state = .disabled) : commandFlush args s = refuse s .badState := by
  rw [commandFlush, ofLength_of_eq _ _ len, flow]
  simp only [h]

end Commands

/-- Settles O12: the two commands' accepting branches, with the run's end said by `endRunOf_eq`. -/
theorem holdAndReleaseStopAndResumeAFlow : Obligations.HoldAndReleaseStopAndResumeAFlow := by
  refine ⟨fun s args f due len hf active => ?_, fun s args f due len hf => ⟨fun expired => ?_, fun ordered => ?_⟩⟩
  · rw [exec_hold_due due, commandHold_of_active s len (flowAt_of_val hf) active, State.endRunOf_eq]
    rfl
  · rw [exec_release_due due, commandRelease_of_expired s len (flowAt_of_val hf) expired]
    rfl
  · rw [exec_release_due due, commandRelease_of_ordered s len (flowAt_of_val hf) ordered]
    rfl

/-- Settles O13: CLOSE closes the flow, and `closeFlow_eq` says where that leads. -/
theorem closeDrainsOrDisables : Obligations.CloseDrainsOrDisables := by
  intro s args f due len hf accepting
  rw [exec_close_due due, commandClose_of_accepting s len (flowAt_of_val hf) accepting, State.closeFlow_eq]
  refine ⟨fun idle => ?_, fun busy => ?_⟩
  · rw [if_pos idle]
    rfl
  · have notIdle : ¬ ((s.flow f).queue = [] ∧ (s.flow f).inTransmission = false) := by
      rintro ⟨empty, still⟩
      rcases busy with queued | moving
      · exact queued empty
      · simp [still] at moving
    rw [if_neg notIdle]
    rfl

/-- Settles O15: each command's refusals, by the flow it names and that flow's state. -/
theorem flowCommandsAnswerTheFirstFailure : Obligations.FlowCommandsAnswerTheFirstFailure := by
  intro s args len
  refine ⟨fun out => ?_, fun f hf => ?_⟩
  · have unnamed := flowAt_of_lt out
    refine ⟨fun due => ?_, fun due => ?_, fun due => ?_, fun due => ?_⟩
    · rw [exec_hold_due due, commandHold_of_unnamed s len unnamed, finish_refuse]
    · rw [exec_release_due due, commandRelease_of_unnamed s len unnamed, finish_refuse]
    · rw [exec_close_due due, commandClose_of_unnamed s len unnamed, finish_refuse]
    · rw [exec_flush_due due, commandFlush_of_unnamed s len unnamed, finish_refuse]
  · have flow := flowAt_of_val hf
    refine ⟨fun flushing => ?_, fun state => ?_, fun held due => ?_, fun active due => ?_, fun disabled due => ?_⟩
    · obtain ⟨back, state⟩ := (s.flow f).isFlushing_iff.mp flushing
      refine ⟨fun due => ?_, fun due => ?_, fun due => ?_, fun due => ?_⟩
      · rw [exec_hold_due due, commandHold_of_flushing s len flow state, finish_refuse]
      · rw [exec_release_due due, commandRelease_of_flushing s len flow state, finish_refuse]
      · rw [exec_close_due due, commandClose_of_flushing s len flow state, finish_refuse]
      · rw [exec_flush_due due, commandFlush_of_flushing s len flow state, finish_refuse]
    · refine ⟨fun due => ?_, fun due => ?_, fun due => ?_⟩
      · rw [exec_hold_due due, commandHold_of_bad_state s len flow (state.imp_right .inl), finish_refuse]
      · rw [exec_release_due due, commandRelease_of_bad_state s len flow (state.imp_right .inl), finish_refuse]
      · rw [exec_close_due due, commandClose_of_bad_state s len flow state, finish_refuse]
    · rw [exec_hold_due due, commandHold_of_bad_state s len flow (.inr (.inr held)), finish_refuse]
    · rw [exec_release_due due, commandRelease_of_bad_state s len flow (.inr (.inr active)), finish_refuse]
    · rw [exec_flush_due due, commandFlush_of_disabled s len flow disabled, finish_refuse]

/-! ## A flush (R10, R11) -/

@[simp] theorem Scheduler.without_without (c : Scheduler) (f : FlowId) : (c.without f).without f = c.without f := by
  simp [Scheduler.without, Option.filter_filter]

/-- A flush that has been started and has not completed: the flow FLUSHING, and its run ended (R10). -/
def State.flushingAt (s : State) (f : FlowId) (back : ReturnState) : State :=
  { s with flows := s.flows.set f { s.flow f with state := .flushing back }, scheduler := s.scheduler.without f }

theorem State.flushingAt_flow (s : State) (f : FlowId) (back : ReturnState) :
    (s.flushingAt f back).flow f = { s.flow f with state := .flushing back } := by
  simp [State.flushingAt, State.flow]

theorem State.flushingAt_setFlow (s : State) (f : FlowId) (back : ReturnState) (x : Flow) :
    (s.flushingAt f back).setFlow f x = { s with flows := s.flows.set f x, scheduler := s.scheduler.without f } := by
  simp [State.flushingAt, State.setFlow]

theorem State.startFlush_eq (s : State) (f : FlowId) (back : ReturnState) :
    s.startFlush f back = (s.flushingAt f back).settleFlow f := by
  rw [State.startFlush, State.endRunOf_eq]
  rfl

theorem State.startFlush_of_queue {s : State} {f : FlowId} (back : ReturnState) (h : (s.flow f).queue ≠ []) :
    s.startFlush f back = s.flushingAt f back := by
  rw [State.startFlush_eq]
  refine State.settleFlow_of_queue ?_
  rwa [State.flushingAt_flow]

theorem State.startFlush_of_empty {s : State} {f : FlowId} (back : ReturnState) (h : (s.flow f).queue = []) :
    s.startFlush f back = (s.flushingAt f back).completeFlush f back := by
  rw [State.startFlush_eq]
  refine State.settleFlow_of_flushing ?_ ?_
  · rwa [State.flushingAt_flow]
  · rw [State.flushingAt_flow]

/-- A flush of an empty flow that returns to where it started has only ended the run. -/
theorem State.startFlush_of_return {s : State} {f : FlowId} {back : ReturnState} (h : (s.flow f).queue = [])
    (state : (s.flow f).state = back.toFlowState) (returns : back ≠ .draining ∨ (s.flow f).inTransmission = true) :
    s.startFlush f back = { s with scheduler := s.scheduler.without f } := by
  have stays : ¬ (back = .draining ∧ ((s.flushingAt f back).flow f).inTransmission = false) := by
    rw [State.flushingAt_flow]
    rintro ⟨draining, still⟩
    rcases returns with other | moving
    · exact other draining
    · simp [show (s.flow f).inTransmission = false from still] at moving
  have returned : { (s.flushingAt f back).flow f with state := back.toFlowState } = s.flow f := by
    rw [State.flushingAt_flow, ← state]
  rw [State.startFlush_of_empty back h, State.completeFlush_eq, if_neg stays, returned, State.flushingAt_setFlow]
  simp [State.flow]

/-- A flush of an empty DRAINING flow with nothing in transmission disables it. -/
theorem State.startFlush_of_drained {s : State} {f : FlowId} (h : (s.flow f).queue = [])
    (still : (s.flow f).inTransmission = false) : s.startFlush f .draining = s.disabledAt f := by
  have drained : ReturnState.draining = .draining ∧ ((s.flushingAt f .draining).flow f).inTransmission = false := by
    rw [State.flushingAt_flow]
    exact ⟨rfl, still⟩
  rw [State.startFlush_of_empty _ h, State.completeFlush_eq, if_pos drained, State.disabledAt, State.flushingAt_flow]
  simp [State.flushingAt, State.disabledAt]

/-- Settles O14: FLUSH starts a flush, which completes in the event when the queue is empty. -/
theorem flushStartsAFlush : Obligations.FlushStartsAFlush := by
  intro s args f back due len hf state
  rw [exec_flush_due due, commandFlush_of_return_state s len (flowAt_of_val hf) state, finish_answerOk]
  refine ⟨fun queued => ?_, fun empty returns => ?_, fun empty draining still => ?_⟩
  · rw [State.startFlush_of_queue back queued]
    rfl
  · rw [State.startFlush_of_return empty state returns]
  · subst draining
    rw [State.startFlush_of_drained empty still]

end Sys2Proof.Machine
end

section
/-! PROOFS. Head records leaving a queue, the admission of a frame and the commit re-check (R11, R15, R17 to R21, R80, R129). -/
namespace Sys2Proof.Machine

/-! ## The tests after a removal (R8, R11) -/

section Settle

variable {s : State} {f : FlowId}

theorem State.settleFlow_of_staying (h : (s.flow f).queue ≠ [] ∨ (s.flow f).state = .active ∨
    (∃ cause, (s.flow f).state = .held cause) ∨ (s.flow f).state = .draining ∧ (s.flow f).inTransmission = true) :
    s.settleFlow f = s := by
  unfold State.settleFlow
  rcases h with queued | active | ⟨cause, held⟩ | ⟨draining, moving⟩
  · exact State.settleFlow_of_queue queued
  · simp [active]
  · simp [held]
  · simp [draining, moving]

theorem State.settleFlow_of_drained (empty : (s.flow f).queue = []) (draining : (s.flow f).state = .draining)
    (still : (s.flow f).inTransmission = false) : s.settleFlow f = s.disabledAt f := by
  simp [State.settleFlow, empty, draining, still, State.enterDisabled_eq]

theorem State.settleFlow_of_flush_returning {back : ReturnState} (empty : (s.flow f).queue = [])
    (flushing : (s.flow f).state = .flushing back) (returns : back ≠ .draining ∨ (s.flow f).inTransmission = true) :
    s.settleFlow f = s.setFlow f { s.flow f with state := back.toFlowState } := by
  have stays : ¬ (back = .draining ∧ (s.flow f).inTransmission = false) := by
    rintro ⟨draining, still⟩
    rcases returns with other | moving
    · exact other draining
    · simp [still] at moving
  rw [State.settleFlow_of_flushing empty flushing, State.completeFlush_eq, if_neg stays]

theorem State.settleFlow_of_flush_drained (empty : (s.flow f).queue = []) (flushing : (s.flow f).state = .flushing .draining)
    (still : (s.flow f).inTransmission = false) : s.settleFlow f = s.disabledAt f := by
  rw [State.settleFlow_of_flushing empty flushing, State.completeFlush_eq, if_pos ⟨rfl, still⟩]

end Settle

theorem Flow.popHead_of_queue {x : Flow} {r : RecordId} {rest : List RecordId} (h : x.queue = r :: rest) (length : Nat) :
    x.popHead length =
      { x with queue := rest, queuedFrames := x.queuedFrames - 1, queuedBytes := x.queuedBytes - length } := by
  rw [Flow.popHead, h, List.tail_cons]

theorem exec_flushStep_of_flushing {s : State} {f : FlowId} {back : ReturnState} (live : s.pins.reset = false)
    (flushing : (s.flow f).state = .flushing back) : exec (.flushStep f) s = .next (s.discardHead f .flushed) :=
  if_pos ⟨live, (s.flow f).isFlushing_iff.mpr ⟨back, flushing⟩⟩

/-- Settles O18: a removal pops the head, releases its record and settles the flow as it then stands. -/
theorem headsLeaveByFlushOrDiscard : Obligations.HeadsLeaveByFlushOrDiscard := by
  refine ⟨?_, ?_⟩
  · intro s f back r rest live flushing queue x popped t
    have removed : s.discardHead f .flushed = t.settleFlow f := by
      rw [State.discardHead_of_queue s f _ r rest queue, Flow.popHead_of_queue queue]
      rfl
    have now : t.flow f = popped := by simp [t, State.flow_of_set]
    rw [exec_flushStep_of_flushing live flushing, removed]
    refine ⟨fun more => ?_, fun empty returns => ?_, fun empty draining still => ?_⟩
    · rw [State.settleFlow_of_staying (.inl (by rwa [now]))]
    · rw [State.settleFlow_of_flush_returning (by rwa [now]) (by rwa [now]) (by rwa [now]), now]
    · subst draining
      rw [State.settleFlow_of_flush_drained (by rwa [now]) (by rwa [now]) (by rwa [now])]
  · intro s f r rest why counters queue x reason popped t
    have removed : s.discardHead f why = t.settleFlow f := by
      rw [State.discardHead_of_queue s f _ r rest queue, Flow.popHead_of_queue queue]
      rcases reason with ⟨rfl, rfl⟩ | ⟨rfl, rfl⟩
      · rfl
      · rfl
    have now : t.flow f = popped := by simp [t, State.flow_of_set]
    rw [removed]
    refine ⟨fun stays => ?_, fun empty draining still => ?_, fun back empty flushing returns => ?_, fun empty flushing still => ?_⟩
    · exact State.settleFlow_of_staying (by rwa [now])
    · exact State.settleFlow_of_drained (by rwa [now]) (by rwa [now]) (by rwa [now])
    · rw [State.settleFlow_of_flush_returning (by rwa [now]) (by rwa [now]) (by rwa [now]), now]
    · exact State.settleFlow_of_flush_drained (by rwa [now]) (by rwa [now]) (by rwa [now])

/-! ## Admission (R18, R19) -/

theorem Flow.fits_iff (x : Flow) (length : Nat) :
    x.fits length = true ↔ x.queuedFrames + 1 ≤ x.frameLimit ∧ x.queuedBytes + length ≤ x.byteLimit := by
  simp [Flow.fits]

section Admitting

variable {s : State} {f : FlowId} {length : Nat}

theorem State.admitting_of_not_accepting (h : (s.flow f).accepting = false) :
    s.admitting f length = (s.countDiscard f (if (s.flow f).isFlushing then .flushed else .closed), false) := if_pos h

variable (accepts : (s.flow f).accepting = true)
include accepts

theorem State.admitting_of_too_long (long : (s.flow f).byteLimit < length) :
    s.admitting f length = (s.refuseLimit f, false) := by
  simp [State.admitting, accepts, long]

variable (short : length ≤ (s.flow f).byteLimit)
include short

theorem State.admitting_of_fits (fits : (s.flow f).fits length = true) : s.admitting f length = (s, true) := by
  simp [State.admitting, accepts, Nat.not_lt.mpr short, fits]

theorem State.admitting_of_tailDrop (full : (s.flow f).fits length = false) (policy : (s.flow f).policy = .tailDrop) :
    s.admitting f length = (s.refuseLimit f, false) := by
  simp [State.admitting, accepts, Nat.not_lt.mpr short, full, policy]

theorem State.admitting_of_headDrop (full : (s.flow f).fits length = false) (policy : (s.flow f).policy = .headDrop) :
    s.admitting f length = (s.makeRoom f length (s.flow f).queue.length, true) := by
  simp [State.admitting, accepts, Nat.not_lt.mpr short, full, policy]

end Admitting

/-- Settles O19: the tests of R18 in their order; under HEAD_DROP the removals go on until the frame fits or the queue is empty. -/
theorem admissionFollowsStateLimitsAndPolicy : Obligations.AdmissionFollowsStateLimitsAndPolicy := by
  intro s f length x fits accepts limited
  have full (h : ¬ fits) : x.fits length = false := Bool.eq_false_iff.mpr fun room => h ((x.fits_iff length).mp room)
  refine ⟨fun back flushing => ?_, fun closed => ?_, fun accepting long => ?_, fun accepting short room => ?_,
    fun accepting short tight policy => ?_, fun accepting short tight policy => ?_⟩
  · have isFlushing : x.isFlushing = true := x.isFlushing_iff.mpr ⟨back, flushing⟩
    rw [State.admitting_of_not_accepting (Flow.not_accepting (.inr (.inr ⟨back, flushing⟩))), if_pos isFlushing]
    rfl
  · have notFlushing : ¬ x.isFlushing = true := by
      rw [x.isFlushing_iff]
      rcases closed with state | state
      all_goals simp [state]
    rw [State.admitting_of_not_accepting (Flow.not_accepting (closed.imp_right .inl)), if_neg notFlushing]
    rfl
  · exact State.admitting_of_too_long (x.accepting_iff.mpr accepting) long
  · exact State.admitting_of_fits (x.accepting_iff.mpr accepting) short ((x.fits_iff length).mpr room)
  · exact State.admitting_of_tailDrop (x.accepting_iff.mpr accepting) short (full tight) policy
  · obtain ⟨n, few, made, before, ends⟩ := State.makeRoom_iterate f length x.queue.length s
    refine ⟨n, few, ?_, before, ?_, fun agree => ?_⟩
    · rw [State.admitting_of_headDrop (x.accepting_iff.mpr accepting) short (full tight) policy, made]
    · refine ends.imp_left fun all => ?_
      rw [State.discardHead_iterate_queue, all, List.drop_length]
    · rw [← made]
      exact agree.makeRoom_fits f length short

theorem grantsAfter_eq (granted : List Grant) (f : FlowId) (generation : Byte) (granting : Bool) :
    grantsAfter granted f generation granting =
      granted ++ if granting then [{ flow := f, generation := generation }] else [] := by
  cases granting
  · exact (List.append_nil granted).symm
  · rfl

theorem exec_admission_eq {s : State} {rx : Reception} {lead : List Byte} {f : FlowId} {more : List FlowId}
    {granted : List Grant} {label : Tag} {held : List Symbol} (live : s.pins.reset = false)
    (lane : s.up.lane = .deciding rx lead (.admitting (f :: more) granted label) held) :
    exec .admission s = .next (s.decideAdmission rx lead f more granted label held) := by
  have taken : exec .admission s = execAdmission s := rfl
  rw [taken, execAdmission, lane]
  exact if_neg (by simp [live])

/-- Settles O20: by the flows left to decide, and, at the last, by the grants. -/
theorem admissionGoesFlowByFlow : Obligations.AdmissionGoesFlowByFlow := by
  intro s rx lead f more granted label held live lane decision grants
  have grantsNow : grantsAfter granted f (s.flow f).generation decision.2 = grants := grantsAfter_eq _ _ _ _
  rw [exec_admission_eq live lane]
  refine ⟨fun others => ?_, fun last refused => ?_, fun last granting => ?_⟩
  · obtain ⟨g, rest, rfl⟩ := List.exists_cons_of_ne_nil others
    rw [← grantsNow]
    rfl
  · subst last
    have isEmpty : (grantsAfter granted f (s.flow f).generation decision.2).isEmpty = true := by rw [grantsNow, refused]; rfl
    exact congrArg _ (if_pos isEmpty)
  · subst last
    have notEmpty : ¬ (grantsAfter granted f (s.flow f).generation decision.2).isEmpty = true := by
      rwa [grantsNow, List.isEmpty_iff]
    rw [← grantsNow]
    exact congrArg _ (if_neg notEmpty)

/-! ## The commit re-check (R15, R21) -/

section Records

variable {st : FrameStore} {r : RecordId} {fr : FrameRecord} (record : st.records[r] = some fr)
include record

theorem FrameStore.freeRecord_of_record :
    st.freeRecord r = { st with records := st.records.set r none, freeRecords := st.freeRecords ++ [r] } := by
  simp only [FrameStore.freeRecord, record]

theorem FrameStore.setRecordState_of_record (rs : RecordState) :
    st.setRecordState r rs = { st with records := st.records.set r (some { fr with state := rs }) } := by
  simp only [FrameStore.setRecordState, record]

end Records

section Commit

variable {s : State} {r : RecordId} {fr : FrameRecord} {generation : Byte} (record : s.store.records[r] = some fr)
  (reserved : fr.state = .reserved generation)
include record reserved

theorem State.commitRecord_of_appended (accepts : (s.flow fr.flow).accepting = true)
    (same : (s.flow fr.flow).generation = generation) : s.commitRecord r = (s.appendRecord fr.flow r, 1) := by
  simp only [State.commitRecord, record, reserved]
  exact if_pos ⟨accepts, same⟩

theorem State.commitRecord_of_rejected
    (rejects : ¬ ((s.flow fr.flow).accepting = true ∧ (s.flow fr.flow).generation = generation)) :
    s.commitRecord r =
      ((s.countDiscard fr.flow (rejectReason (s.flow fr.flow) generation)).setStore (s.store.freeRecord r), 0) := by
  simp only [State.commitRecord, record, reserved]
  exact if_neg rejects

end Commit

/-- Settles O21: appended by an accepting flow of the same generation, and otherwise freed under the reason of R21. -/
theorem theCommitRechecksEachFlow : Obligations.TheCommitRechecksEachFlow := by
  intro s r fr generation record reserved x length freed
  have freedStore : s.store.freeRecord r = freed := FrameStore.freeRecord_of_record record
  refine ⟨fun accepts same => ?_, fun same flushing => ?_, fun other => ?_⟩
  · rw [State.commitRecord_of_appended record reserved accepts same, State.appendRecord]
    simp only [State.modifyFlow_store, FrameStore.setRecordState_of_record record]
    rfl
  · have rejects : ¬ (x.accepting = true ∧ x.generation = generation) := by
      rw [Flow.not_accepting (.inr (.inr (x.isFlushing_iff.mp flushing)))]
      simp
    have why : rejectReason x generation = .flushed := if_pos ⟨same, flushing⟩
    rw [State.commitRecord_of_rejected record reserved rejects, why, freedStore]
    rfl
  · have rejects : ¬ (x.accepting = true ∧ x.generation = generation) := by
      rintro ⟨accepts, same⟩
      rcases other with changed | state | state
      · exact changed same
      all_goals simp [Flow.accepting, state] at accepts
    have why : rejectReason x generation = .closed := by
      refine if_neg fun ⟨same, flushing⟩ => ?_
      rcases other with changed | state | state
      · exact changed same
      all_goals simp [Flow.isFlushing, state] at flushing
    rw [State.commitRecord_of_rejected record reserved rejects, why, freedStore]
    rfl

end Sys2Proof.Machine
end

section
/-! PROOFS. The Frame Store's reservations, stored bytes and releases, and the classification of a lead (R26 to R37, R45 to R53). -/
namespace Sys2Proof.Machine

/-! ## Reservations (R30, R31, R41) -/

section Reserve

variable {st : FrameStore} {length : Nat} {grants : List Grant}

theorem FrameStore.reserve_of_shortage (short : st.freeBodies = [] ∨ st.freeRecords.length < grants.length ∨
    st.freeBlocks.length < blocksFor length) : st.reserve length grants = none := by
  unfold FrameStore.reserve
  split
  · next room =>
    have noBody : st.freeBodies = [] := short.resolve_right (by omega)
    rw [noBody]
  · rfl

theorem FrameStore.reserve_of_room {body : BodyId} {bodies : List BodyId} {first : BlockId} {pending blocks : List BlockId}
    {taken records : List RecordId} (freeBodies : st.freeBodies = body :: bodies)
    (freeBlocks : st.freeBlocks = first :: pending ++ blocks) (needed : pending.length + 1 = blocksFor length)
    (freeRecords : st.freeRecords = taken ++ records) (one : taken.length = grants.length) :
    st.reserve length grants = some ({ st with
      links := st.links.set first .last
      freeBlocks := blocks
      bodies := st.bodies.set body (some
        { state := .filling 1 pending, firstBlock := first, blockCount := blocksFor length,
          length := length, share := grants.length })
      freeBodies := bodies
      records := reserveRecords st.records body taken grants
      freeRecords := records
      lowWater := min st.lowWater blocks.length }, body, taken) := by
  have room : grants.length ≤ st.freeRecords.length ∧ blocksFor length ≤ st.freeBlocks.length := by
    rw [freeRecords, freeBlocks, List.length_append, List.length_append, List.length_cons]
    omega
  have takenBlocks : st.freeBlocks.take (blocksFor length) = first :: pending := by simp [freeBlocks, ← needed]
  have leftBlocks : st.freeBlocks.drop (blocksFor length) = blocks := by simp [freeBlocks, ← needed]
  have takenRecords : st.freeRecords.take grants.length = taken := by rw [freeRecords, ← one, List.take_left]
  have leftRecords : st.freeRecords.drop grants.length = records := by rw [freeRecords, ← one, List.drop_left]
  rw [FrameStore.reserve, if_pos room, freeBodies, takenBlocks]
  simp only [leftBlocks, takenRecords, leftRecords]

end Reserve

/-- Settles O22: a shortage refuses, and otherwise each list gives up its head; the records are those of `reserveRecords`. -/
theorem aReservationIsWholeOrNothing : Obligations.AReservationIsWholeOrNothing := by
  intro st length grants _ _ b
  refine ⟨FrameStore.reserve_of_shortage, ?_⟩
  intro body bodies first pending blocks taken records freeBodies freeBlocks needed freeRecords one
  refine ⟨_, FrameStore.reserve_of_room freeBodies freeBlocks needed freeRecords one, rfl, rfl, rfl, rfl, rfl, rfl, rfl, rfl, rfl,
    rfl, fun nodup n hr hg => ?_, fun r other => ?_⟩
  · exact reserveRecords_get body grants taken st.records nodup n hr hg
  · exact reserveRecords_notMem body grants taken st.records r other

theorem exec_reservation_eq {s : State} {rx : Reception} {lead : List Byte} {granted : List Grant} {label : Tag}
    {held : List Symbol} (live : s.pins.reset = false) (lane : s.up.lane = .deciding rx lead (.reserve granted label) held) :
    exec .reservation s = .next (s.decideReservation rx lead granted label held) := by
  have taken : exec .reservation s = execReservation s := rfl
  rw [taken, execReservation, lane]
  exact if_neg (by simp [live])

section Decide

variable {s : State} (rx : Reception) {lead : List Byte} {granted : List Grant} (label : Tag) (held : List Symbol)

theorem State.decideReservation_of_refused (refused : s.store.reserve (leadLength lead) granted = none) :
    s.decideReservation rx lead granted label held =
      (s.poolDiscard granted).leaveDeciding (.pass rx (leadLength lead)) held := by
  rw [State.decideReservation, refused]

theorem State.decideReservation_of_made {st : FrameStore} {body : BodyId} {records : List RecordId}
    (made : s.store.reserve (leadLength lead) granted = some (st, body, records)) :
    s.decideReservation rx lead granted label held =
      ((s.setStore (st.storeBytes body 0 (relabelled lead label))).pauseTest).leaveDeciding
        (.store rx (leadLength lead) body records label) held := by
  rw [State.decideReservation, made]

end Decide

/-- Settles O23: made or refused; a refusal counts POOL in the granting flows, which are one or two. -/
theorem theReservationFixesTheOutcome : Obligations.TheReservationFixesTheOutcome := by
  intro s rx lead granted label held live lane
  rw [exec_reservation_eq live lane]
  refine ⟨fun st body records made => ?_, fun refused g one => ?_, fun refused g h two apart => ?_⟩
  · rw [State.decideReservation_of_made rx label held made]
    rfl
  · rw [State.decideReservation_of_refused rx label held refused, one]
    rfl
  · have second : (s.countDiscard g.flow .pool).flow h.flow = s.flow h.flow := State.modifyFlow_flow_of_ne s _ _ _ apart
    rw [State.decideReservation_of_refused rx label held refused, two, State.poolDiscard, State.poolDiscard, State.poolDiscard,
      State.countDiscard, State.modifyFlow, second]
    rfl

/-! ## Stored bytes (R26, R32) -/

section StoreByte

variable {st : FrameStore} {b : BodyId} {body : Body} {linked : Nat} {pending : List BlockId} {n : Nat} (v : Byte)
  (live : st.bodies[b] = some body) (filling : body.state = .filling linked pending)

theorem FrameStore.read_storeByte {block : BlockId} (canonical : Memory.wf st.mem = true)
    (place : st.byteBlock b n = some block) (a : Nat) :
    Memory.read (st.storeByte b n v).mem a = if a = block.val * 128 + n % 128 then v else Memory.read st.mem a := by
  have stored : (st.storeByte b n v).mem = Memory.write st.mem (blockAddress block n) v := by
    simp [FrameStore.storeByte, place, FrameStore.writeByte]
  rw [stored]
  exact Memory.read_write st.mem (blockAddress block n) a v canonical

include live filling

theorem FrameStore.byteBlock_of_placed {block : BlockId} (placed : (st.chain body)[n / 128]? = some block) :
    st.byteBlock b n = some block := by
  simp [FrameStore.byteBlock, live, filling, Config.blockBytes, placed]

theorem FrameStore.byteBlock_of_full (full : (st.chain body)[n / 128]? = none) : st.byteBlock b n = pending.head? := by
  simp [FrameStore.byteBlock, live, filling, Config.blockBytes, full]

theorem FrameStore.storeByte_of_placed {block : BlockId} (placed : (st.chain body)[n / 128]? = some block) :
    st.storeByte b n v = st.writeByte block n v := by
  have stays : st.extendTo b n = st := by simp [FrameStore.extendTo, live, filling, Config.blockBytes, placed]
  rw [FrameStore.storeByte, FrameStore.byteBlock_of_placed live filling placed]
  simp only [stays]

theorem FrameStore.storeByte_of_extended {block : BlockId} {rest : List BlockId} (full : (st.chain body)[n / 128]? = none)
    (next : pending = block :: rest) :
    st.storeByte b n v =
      { st with
        links := linkTail st.links (st.chain body) block
        bodies := st.bodies.set b (some { body with state := .filling (linked + 1) rest }) }.writeByte block n v := by
  subst next
  have extended : st.extendTo b n = { st with
      links := linkTail st.links (st.chain body) block
      bodies := st.bodies.set b (some { body with state := .filling (linked + 1) rest }) } := by
    simp [FrameStore.extendTo, live, filling, Config.blockBytes, full]
  rw [FrameStore.storeByte, FrameStore.byteBlock_of_full live filling full]
  simp only [List.head?_cons, extended]

theorem FrameStore.storeByte_of_exhausted (full : (st.chain body)[n / 128]? = none) (exhausted : pending = []) :
    st.storeByte b n v = st := by
  subst exhausted
  rw [FrameStore.storeByte, FrameStore.byteBlock_of_full live filling full]
  rfl

end StoreByte

theorem linkTail_last (links : Vector BlockLink 2048) (chain : List BlockId) (b : BlockId) :
    (linkTail links chain b)[b] = .last := by
  unfold linkTail
  split
  all_goals simp

theorem linkTail_tail (links : Vector BlockLink 2048) {chain : List BlockId} {b t : BlockId} (last : chain.getLast? = some t)
    (other : t ≠ b) : (linkTail links chain b)[t] = .next b := by
  simp only [linkTail, last]
  rw [getElem_set_fin, if_neg other.symm, getElem_set_fin, if_pos rfl]

/-- Settles O24: the byte's block is the chain's or the first pending one, and one write to memory follows. -/
theorem aByteIsStoredAtItsPlaceInTheChain : Obligations.AByteIsStoredAtItsPlaceInTheChain := by
  intro st b body linked pending n v canonical live filling
  refine ⟨fun block place => ?_, fun full exhausted => ?_, fun block placed => ?_, fun block rest full next => ?_⟩
  · have place : st.byteBlock b n = some block := by
      rcases place with placed | ⟨full, next⟩
      · exact FrameStore.byteBlock_of_placed live filling placed
      · rw [FrameStore.byteBlock_of_full live filling full, next]
    have read := FrameStore.read_storeByte v canonical place
    exact ⟨(read _).trans (if_pos rfl), fun a other => (read a).trans (if_neg other)⟩
  · exact FrameStore.storeByte_of_exhausted v live filling full exhausted
  · rw [FrameStore.storeByte_of_placed v live filling placed]
    exact ⟨rfl, rfl⟩
  · rw [FrameStore.storeByte_of_extended v live filling full next]
    exact ⟨rfl, linkTail_last _ _ _, fun t last other => linkTail_tail _ last other⟩

/-! ## Releases and the commit (R33 to R37) -/

section Free

variable {st : FrameStore} {b : BodyId} {body : Body} (live : st.bodies[b] = some body)
include live

theorem FrameStore.freeBody_of_filling {linked : Nat} {pending : List BlockId} (filling : body.state = .filling linked pending) :
    st.freeBody b =
      { st with
        bodies := st.bodies.set b none
        freeBodies := st.freeBodies ++ [b]
        links := clearLinks st.links (chainFrom st.links linked body.firstBlock)
        freeBlocks := st.freeBlocks ++ chainFrom st.links linked body.firstBlock ++ pending } := by
  simp only [FrameStore.freeBody, live, FrameStore.chain, Body.pendingBlocks, filling]

theorem FrameStore.freeBody_of_stored (stored : body.state = .stored) :
    st.freeBody b =
      { st with
        bodies := st.bodies.set b none
        freeBodies := st.freeBodies ++ [b]
        links := clearLinks st.links (chainFrom st.links body.blockCount body.firstBlock)
        freeBlocks := st.freeBlocks ++ chainFrom st.links body.blockCount body.firstBlock } := by
  simp only [FrameStore.freeBody, live, FrameStore.chain, Body.pendingBlocks, stored, List.append_nil]

theorem FrameStore.dropShare_of_shared (shared : 2 ≤ body.share) :
    st.dropShare b = { st with bodies := st.bodies.set b (some { body with share := body.share - 1 }) } := by
  simp only [FrameStore.dropShare, live]
  exact if_neg (by omega)

theorem FrameStore.dropShare_of_last (last : body.share = 1) : st.dropShare b = st.freeBody b := by
  simp only [FrameStore.dropShare, live]
  exact if_pos (by omega)

theorem FrameStore.settleBody_succ (n : Nat) :
    st.settleBody b (n + 1) =
      { st with bodies := st.bodies.set b (some { body with state := .stored, share := n + 1 }) } := by
  simp only [FrameStore.settleBody, live]
  rfl

end Free

theorem FrameStore.releaseRecord_of_record {st : FrameStore} {r : RecordId} {fr : FrameRecord}
    (record : st.records[r] = some fr) : st.releaseRecord r = (st.freeRecord r).dropShare fr.body := by
  simp only [FrameStore.releaseRecord, record]

/-- Settles O25: a release frees the record and drops a share; a commit settles the body by the records appended. -/
theorem spaceIsGivenBackShareByShare : Obligations.SpaceIsGivenBackShareByShare := by
  refine ⟨fun st r fr body record live => ?_, fun s b records => ?_⟩
  · have stillLive : (st.freeRecord r).bodies[fr.body] = some body := by rwa [FrameStore.freeRecord_bodies]
    rw [FrameStore.releaseRecord_of_record record]
    refine ⟨fun shared => ?_, fun last stored => ?_⟩
    · rw [FrameStore.dropShare_of_shared stillLive shared, FrameStore.freeRecord_of_record record]
    · rw [FrameStore.dropShare_of_last stillLive last, FrameStore.freeBody_of_stored stillLive stored,
        FrameStore.freeRecord_of_record record]
  · refine ⟨rfl, fun st body n live => ⟨FrameStore.settleBody_succ live n, fun linked pending filling => ?_⟩, ?_, rfl,
      fun r rest => rfl⟩
    · exact (if_pos rfl).trans (FrameStore.freeBody_of_filling live filling)
    · intro st body linked pending live filling nodup taken chain freed
      obtain ⟨freeRecords, cleared, others, bodies, freeBodies, links, freeBlocks, mem⟩ :=
        FrameStore.freeRecords_spec records st nodup taken
      have stillLive : (records.foldl FrameStore.freeRecord st).bodies[b] = some body := by rwa [bodies]
      have freedBody : freed = _ := FrameStore.freeBody_of_filling stillLive filling
      rw [freedBody]
      refine ⟨freeRecords, cleared, others, ?_, ?_, ?_, ?_, mem⟩
      · simp only [bodies]
      · simp only [freeBodies]
      · simp only [links, chain]
      · simp only [freeBlocks, links, chain]

/-! ## Classification (R45 to R53) -/

theorem MatchEntry.matchesLead_iff (e : MatchEntry) (lead : List Byte) :
    e.matchesLead lead = true ↔
      e.valid = true ∧
        (∀ i < 16, e.destMask.getLsbD i = true → (leadDest lead).getLsbD i = e.destValue.getLsbD i) ∧
        (∀ i < 16, e.sourceMask.getLsbD i = true → (leadSource lead).getLsbD i = e.sourceValue.getLsbD i) ∧
        e.kindSet.getLsbD (leadKind lead) = true ∧
        e.classSet.getLsbD (leadClass lead) = true ∧
        (∀ i < 8, e.laneMask.getLsbD i = true → (leadLane lead).getLsbD i = e.laneValue.getLsbD i) ∧
        (∀ i < 16, e.labelMask.getLsbD i = true → (leadLabel lead).getLsbD i = e.labelValue.getLsbD i) ∧
        e.lengthMin ≤ leadLength lead ∧ leadLength lead ≤ e.lengthMax := by
  simp only [MatchEntry.matchesLead, Bool.and_eq_true, decide_eq_true_eq, maskedTest_iff, and_assoc]

theorem Classifier.chosen_first (c : Classifier) (lead : List Byte) {n : Fin 64} (hit : c.entries[n].matchesLead lead = true)
    (first : ∀ m : Fin 64, m < n → c.entries[m].matchesLead lead = false) : c.chosen lead = some n :=
  find_finRange _ n hit first

theorem Classifier.chosen_none (c : Classifier) (lead : List Byte)
    (miss : ∀ n : Fin 64, c.entries[n].matchesLead lead = false) : c.chosen lead = none := by
  refine List.find?_eq_none.mpr fun n _ hit => ?_
  exact absurd hit (Bool.eq_false_iff.mp (miss n))

theorem exec_classification_eq {s : State} {rx : Reception} {lead : List Byte} {held : List Symbol}
    (live : s.pins.reset = false) (lane : s.up.lane = .deciding rx lead .classify held) :
    exec .classification s = .next (s.classify rx lead held) := by
  have taken : exec .classification s = execClassification s := rfl
  rw [taken, execClassification, lane]
  exact if_neg (by simp [live])

/-- Settles O27: the chosen entry or the default action fixes the counter that moves, and the action where the frame goes. -/
theorem classificationTakesTheFirstMatch : Obligations.ClassificationTakesTheFirstMatch := by
  refine ⟨MatchEntry.matchesLead_iff, ?_⟩
  intro s rx lead held live lane outcome
  have leads (c : Classifier) (a : MatchAction) (counted : s.classifier.count lead = c) (action : s.classifier.actionFor lead = a) :
      s.classify rx lead held = outcome c a := by
    rw [State.classify, counted, action]
    cases a with
    | discard => rfl
    | queue f relabel => rfl
    | mirror f g relabel => rfl
  rw [exec_classification_eq live lane]
  refine ⟨fun n hit first => ?_, fun miss => ⟨fun discard => ?_, fun f queue => ?_⟩⟩
  · have chosen := s.classifier.chosen_first lead hit first
    rw [leads _ s.classifier.entries[n].action (by rw [Classifier.count, chosen]) (by rw [Classifier.actionFor, chosen])]
  · have chosen := s.classifier.chosen_none lead miss
    rw [leads _ .discard (by rw [Classifier.count, chosen]) (by rw [Classifier.actionFor, chosen, discard])]
  · have chosen := s.classifier.chosen_none lead miss
    rw [leads _ (.queue f none) (by rw [Classifier.count, chosen]) (by rw [Classifier.actionFor, chosen, queue])]

end Sys2Proof.Machine
end

section
/-! PROOFS. Profiles and match entries read back from their encodings (R44, R57, R58, R84, R192, R193, R196). -/
namespace Sys2Proof.Machine

/-! ## Profiles (R84, R192) -/

/-- What a read profile says of the sixteen bytes, field by field. -/
theorem decodeProfile_iff (bs : List Byte) (p : Profile) :
    decodeProfile bs = some p ↔
      (disciplineCode p.discipline = byteAt bs 0 ∧ releaseModeCode p.releaseMode = byteAt bs 1 ∧
        expireActionCode p.expireAction = byteAt bs 9) ∧
      (p.rate = num16At bs 2 ∧ p.burstCap = num32At bs 4 ∧ p.runLength = byteAt bs 8 ∧ p.ageLimit = num16At bs 10 ∧
        p.lifetime = num16At bs 12) ∧
      p.good = true ∧ num16At bs 14 = 0 := by
  rw [← disciplineOf_iff, ← releaseModeOf_iff, ← expireActionOf_iff]
  constructor
  · intro read
    unfold decodeProfile at read
    split at read
    · next d m e hd hm he =>
      rw [Option.ite_none_right_eq_some] at read
      obtain ⟨fits, same⟩ := read
      rw [Bool.and_eq_true, decide_eq_true_iff] at fits
      obtain rfl := Option.some.inj same
      exact ⟨⟨hd, hm, he⟩, ⟨rfl, rfl, rfl, rfl, rfl⟩, fits⟩
    · cases read
  · rintro ⟨⟨hd, hm, he⟩, ⟨rate, burst, run, age, lifetime⟩, good, zero⟩
    obtain ⟨discipline, _, _, releaseMode, _, _, _, expireAction⟩ := p
    simp only at rate burst run age lifetime hd hm he
    subst rate burst run age lifetime
    rw [decodeProfile, hd, hm, he]
    exact if_pos (by rw [Bool.and_eq_true, decide_eq_true_iff]; exact ⟨good, zero⟩)

theorem encodeProfile_length (p : Profile) : (encodeProfile p).length = 16 := by
  simp [encodeProfile, bytes8, bytes16, bytes32]

theorem Profile.good_iff (p : Profile) :
    p.good = true ↔ p.rate ≤ 65535 ∧ p.burstCap ≤ 262143 ∧ 1 ≤ p.runLength ∧ p.runLength ≤ 64 ∧ p.ageLimit ≤ 32767 ∧
      p.lifetime ≤ 65535 := by
  simp [Profile.good, and_assoc]

theorem decodeProfile_encodeProfile {p : Profile} (good : p.good = true) : decodeProfile (encodeProfile p) = some p := by
  obtain ⟨rate, burst, least, most, age, lifetime⟩ := p.good_iff.mp good
  have discipline : disciplineCode p.discipline < 256 := by cases p.discipline <;> decide
  have releaseMode : releaseModeCode p.releaseMode < 256 := by cases p.releaseMode <;> decide
  have expireAction : expireActionCode p.expireAction < 256 := by cases p.expireAction <;> decide
  have spare : num16At (encodeProfile p) 14 = 0 := by
    simp [encodeProfile, byteAt, num16At, bytes8, bytes16, bytes32]
  refine (decodeProfile_iff _ _).mpr ⟨⟨?_, ?_, ?_⟩, ⟨?_, ?_, ?_, ?_, ?_⟩, good, spare⟩
  all_goals
    simp [encodeProfile, byteAt, num16At, num32At, bytes8, bytes16, bytes32]
    omega

theorem encodeProfile_decodeProfile {bs : List Byte} {p : Profile} (length : bs.length = 16)
    (read : decodeProfile bs = some p) : encodeProfile p = bs := by
  obtain ⟨⟨discipline, releaseMode, expireAction⟩, ⟨rate, burst, run, age, lifetime⟩, -, zero⟩ := (decodeProfile_iff bs p).mp read
  obtain ⟨a, b, c, d, e, f, g, h, i, j, k, l, m, n, o, q, rfl⟩ := sixteen_bytes bs length
  have last : num16At [a, b, c, d, e, f, g, h, i, j, k, l, m, n, o, q] 14 = o.toNat * 256 + q.toNat := rfl
  have highZero : o = 0#8 := BitVec.eq_of_toNat_eq (by simp; omega)
  have lowZero : q = 0#8 := BitVec.eq_of_toNat_eq (by simp; omega)
  rw [encodeProfile, discipline, releaseMode, expireAction, rate, burst, run, age, lifetime, highZero, lowZero]
  simp [byteAt, num16At, num32At, bytes8, bytes16, bytes32, byte_high, byte_low, byte_first, byte_second, byte_third, byte_fourth]

/-- Settles O33: each field is read back from the bytes it is written in, and the two spare bytes are zero. -/
theorem profilesAreReadBack : Obligations.ProfilesAreReadBack :=
  ⟨fun p good => ⟨encodeProfile_length p, decodeProfile_encodeProfile good⟩,
    fun _ _ length read => ⟨decodeProfile_good read, encodeProfile_decodeProfile length read⟩⟩

/-! ## Match entries (R57, R58, R193) -/

/-- What a read entry says of the bytes, field by field; `decodeAction` reads the action's fields. -/
theorem decodeEntry_iff (bs : List Byte) (e : MatchEntry) :
    decodeEntry bs = some e ↔
      (boolOf (byteAt bs 0) = some e.valid ∧ decodeAction bs = some e.action) ∧
      (e.destValue = field16At bs 4 ∧ e.destMask = field16At bs 6 ∧ e.sourceValue = field16At bs 8 ∧
        e.sourceMask = field16At bs 10 ∧ e.kindSet = field16At bs 12 ∧ e.classSet = field16At bs 14 ∧
        e.laneValue = BitVec.ofNat 8 (byteAt bs 16) ∧ e.laneMask = BitVec.ofNat 8 (byteAt bs 17) ∧
        e.labelValue = field16At bs 18 ∧ e.labelMask = field16At bs 20 ∧ e.lengthMin = num16At bs 22 ∧
        e.lengthMax = num16At bs 24) ∧
      byteAt bs 3 = 0 ∧ num16At bs 22 ≤ 2048 ∧ num16At bs 24 ≤ 2048 ∧ num16At bs 22 ≤ num16At bs 24 := by
  constructor
  · intro read
    unfold decodeEntry at read
    split at read
    · next v a hv ha =>
      rw [Option.ite_none_right_eq_some] at read
      obtain ⟨ranges, same⟩ := read
      obtain rfl := Option.some.inj same
      exact ⟨⟨hv, ha⟩, ⟨rfl, rfl, rfl, rfl, rfl, rfl, rfl, rfl, rfl, rfl, rfl, rfl⟩, ranges⟩
    · cases read
  · rintro ⟨⟨hv, ha⟩, ⟨h1, h2, h3, h4, h5, h6, h7, h8, h9, h10, h11, h12⟩, ranges⟩
    obtain ⟨valid, _, _, _, _, _, _, _, _, _, _, _, _, action⟩ := e
    simp only at h1 h2 h3 h4 h5 h6 h7 h8 h9 h10 h11 h12 hv ha
    subst h1 h2 h3 h4 h5 h6 h7 h8 h9 h10 h11 h12
    rw [decodeEntry, hv, ha]
    exact if_pos ranges

theorem encodeEntry_length (e : MatchEntry) : (encodeEntry e).length = 32 := by
  simp [encodeEntry, bytes8, bytes16, bytesBool]

/-- A tag read back from the two bytes it was written in. -/
theorem tag_of_bytes (v : BitVec 16) : BitVec.ofNat 16 (v.toNat / 256 % 256 * 256 + v.toNat % 256) = v := by
  have := v.isLt
  apply BitVec.eq_of_toNat_eq
  rw [BitVec.toNat_ofNat]
  omega

/-- A number below 65536 read back from the two bytes it was written in. -/
theorem number_of_bytes {n : Nat} (h : n < 65536) : n / 256 % 256 * 256 + n % 256 = n := by omega

theorem decodeEntry_encodeEntry {e : MatchEntry} (range : e.inRange) : decodeEntry (encodeEntry e) = some e := by
  obtain ⟨ordered, bounded, -⟩ := id range
  have least : e.lengthMin < 65536 := by omega
  have most : e.lengthMax < 65536 := by omega
  have valid : byteAt (encodeEntry e) 0 = e.valid.toNat := by
    cases h : e.valid <;> simp [encodeEntry, byteAt, bytesBool, bytes8, h]
  have lengthMin : num16At (encodeEntry e) 22 = e.lengthMin := by
    simp [encodeEntry, num16At, byteAt, bytes8, bytes16, bytesBool, number_of_bytes least]
  have lengthMax : num16At (encodeEntry e) 24 = e.lengthMax := by
    simp [encodeEntry, num16At, byteAt, bytes8, bytes16, bytesBool, number_of_bytes most]
  refine (decodeEntry_iff _ _).mpr ⟨⟨?_, decodeAction_encodeEntry e range⟩, ?_, ?_, ?_, ?_, ?_⟩
  · rw [valid, boolOf_toNat]
  · refine ⟨?_, ?_, ?_, ?_, ?_, ?_, ?_, ?_, ?_, ?_, lengthMin.symm, lengthMax.symm⟩
    all_goals simp [encodeEntry, field16At, num16At, byteAt, bytes8, bytes16, bytesBool, tag_of_bytes]
  · simp [encodeEntry, byteAt, bytes8, bytesBool]
  · omega
  · omega
  · omega

/-! ### What a read entry was written with -/

theorem relabelOf_sound {bs : List Byte} {r : Option Tag} (read : relabelOf bs = some r) :
    byteAt bs 2 = r.isSome.toNat ∧ ∀ label, r = some label → num16At bs 30 = label.toNat := by
  unfold relabelOf at read
  split at read
  · cases read
  · next flag =>
    cases read
    exact ⟨((boolOf_iff _ _).mp flag).symm, nofun⟩
  · next flag =>
    cases read
    refine ⟨((boolOf_iff _ _).mp flag).symm, fun label same => ?_⟩
    rw [← Option.some.inj same, field16At, BitVec.toNat_ofNat]
    exact (Nat.mod_eq_of_lt (num16At_lt bs 30)).symm

theorem decodeAction_sound {bs : List Byte} {a : MatchAction} (read : decodeAction bs = some a) :
    byteAt bs 1 = actionCode a ∧
      (a ≠ .discard → num16At bs 26 = actionFlow a ∧ relabelOf bs = some (actionRelabel a)) ∧
      ∀ f g relabel, a = .mirror f g relabel → num16At bs 28 = g.val := by
  unfold decodeAction at read
  split at read
  · next code =>
    cases read
    exact ⟨code, fun other => absurd rfl other, nofun⟩
  · next code =>
    split at read
    · next f r flow relabel =>
      cases read
      exact ⟨code, fun _ => ⟨((flowOf_iff _ _).mp flow).symm, relabel⟩, nofun⟩
    · cases read
  · next code =>
    split at read
    · next f g r flow mirror relabel =>
      rw [Option.ite_none_left_eq_some] at read
      obtain ⟨-, same⟩ := read
      cases same
      refine ⟨code, fun _ => ⟨((flowOf_iff _ _).mp flow).symm, relabel⟩, ?_⟩
      rintro f' g' r' ⟨⟩
      exact ((flowOf_iff _ _).mp mirror).symm
    · cases read
  · cases read

/-- An action with a relabel value is not DISCARD, so its relabel fields were read. -/
theorem actionRelabel_ne_discard {a : MatchAction} {label : Tag} (h : actionRelabel a = some label) : a ≠ .discard := by
  rintro rfl
  cases h

theorem field16At_eq {bs : List Byte} {i : Nat} {v : BitVec 16} (h : v = field16At bs i) : num16At bs i = v.toNat := by
  rw [h, field16At, BitVec.toNat_ofNat]
  exact (Nat.mod_eq_of_lt (num16At_lt bs i)).symm

theorem byteAt_eq {bs : List Byte} {i : Nat} {v : Byte} (h : v = BitVec.ofNat 8 (byteAt bs i)) : byteAt bs i = v.toNat := by
  rw [h, BitVec.toNat_ofNat]
  exact (Nat.mod_eq_of_lt (byteAt_lt bs i)).symm

/-! ### The fields that are not read -/

section Agree

variable {bs cs : List Byte}

theorem num16At_congr {i : Nat} (high : byteAt cs i = byteAt bs i) (low : byteAt cs (i + 1) = byteAt bs (i + 1)) :
    num16At cs i = num16At bs i := by
  rw [num16At, num16At, high, low]

theorem relabelOf_congr (flag : byteAt cs 2 = byteAt bs 2) (label : byteAt bs 2 = 1 → num16At cs 30 = num16At bs 30) :
    relabelOf cs = relabelOf bs := by
  rw [relabelOf, relabelOf, flag]
  cases read : boolOf (byteAt bs 2) with
  | none => rfl
  | some set =>
    cases set with
    | false => rfl
    | true => simp only [field16At, label ((boolOf_iff _ _).mp read).symm]

theorem decodeAction_congr (code : byteAt cs 1 = byteAt bs 1)
    (flow : byteAt bs 1 ≠ 0 → num16At cs 26 = num16At bs 26) (mirror : byteAt bs 1 = 2 → num16At cs 28 = num16At bs 28)
    (relabel : byteAt bs 1 ≠ 0 → relabelOf cs = relabelOf bs) : decodeAction cs = decodeAction bs := by
  unfold decodeAction flowAt
  rw [code]
  split
  · rfl
  · next queue => rw [flow (by omega), relabel (by omega)]
  · next both => rw [flow (by omega), mirror both, relabel (by omega)]
  · rfl

variable (agree : ∀ i < 32, (i = 2 ∨ 26 ≤ i → byteAt bs 1 ≠ 0) → (i = 28 ∨ i = 29 → byteAt bs 1 = 2) →
  (30 ≤ i → byteAt bs 2 = 1) → byteAt cs i = byteAt bs i)
include agree

theorem decodeEntry_congr : decodeEntry cs = decodeEntry bs := by
  have always {i : Nat} (h : i < 26) (h2 : i ≠ 2) : byteAt cs i = byteAt bs i :=
    agree i (by omega) (by omega) (by omega) (by omega)
  have number {i : Nat} (h : i < 25) (h2 : i ≠ 2) (h1 : i ≠ 1) : num16At cs i = num16At bs i :=
    num16At_congr (always (by omega) h2) (always (by omega) (by omega))
  have relabel (acts : byteAt bs 1 ≠ 0) : relabelOf cs = relabelOf bs := by
    refine relabelOf_congr (agree 2 (by omega) (fun _ => acts) (by omega) (by omega)) fun flag => ?_
    exact num16At_congr (agree 30 (by omega) (fun _ => acts) (by omega) fun _ => flag)
      (agree 31 (by omega) (fun _ => acts) (by omega) fun _ => flag)
  have action : decodeAction cs = decodeAction bs := by
    refine decodeAction_congr (always (by omega) (by omega)) (fun acts => ?_) (fun both => ?_) relabel
    · exact num16At_congr (agree 26 (by omega) (fun _ => acts) (by omega) (by omega))
        (agree 27 (by omega) (fun _ => acts) (by omega) (by omega))
    · exact num16At_congr (agree 28 (by omega) (by omega) (fun _ => both) (by omega))
        (agree 29 (by omega) (by omega) (fun _ => both) (by omega))
  ext e
  rw [decodeEntry_iff, decodeEntry_iff, action, always (i := 0) (by omega) (by omega), always (i := 3) (by omega) (by omega),
    always (i := 16) (by omega) (by omega), always (i := 17) (by omega) (by omega),
    number (i := 22) (by omega) (by omega) (by omega), number (i := 24) (by omega) (by omega) (by omega)]
  simp only [field16At, number (i := 4) (by omega) (by omega) (by omega), number (i := 6) (by omega) (by omega) (by omega),
    number (i := 8) (by omega) (by omega) (by omega), number (i := 10) (by omega) (by omega) (by omega),
    number (i := 12) (by omega) (by omega) (by omega), number (i := 14) (by omega) (by omega) (by omega),
    number (i := 18) (by omega) (by omega) (by omega), number (i := 20) (by omega) (by omega) (by omega)]

end Agree

/-- Settles O29: an entry written is read back, an entry read was written so, and what is not read does not matter. -/
theorem matchEntriesAreReadBack : Obligations.MatchEntriesAreReadBack := by
  refine ⟨fun e range => ⟨encodeEntry_length e, decodeEntry_encodeEntry range⟩, fun bs e _ read => ?_,
    fun bs cs => decodeEntry_congr⟩
  obtain ⟨⟨valid, action⟩, ⟨dest, destMask, source, sourceMask, kinds, classes, lane, laneMask, label, labelMask, least, most⟩,
    spare, -⟩ := (decodeEntry_iff bs e).mp read
  obtain ⟨code, fields, mirror⟩ := decodeAction_sound action
  refine ⟨decodeEntry_inRange read, ((boolOf_iff _ _).mp valid).symm, code, spare, field16At_eq dest, field16At_eq destMask,
    field16At_eq source, field16At_eq sourceMask, field16At_eq kinds, field16At_eq classes, byteAt_eq lane, byteAt_eq laneMask,
    field16At_eq label, field16At_eq labelMask, least.symm, most.symm, fun acts => ?_, mirror, fun label relabel => ?_⟩
  · exact ⟨(fields acts).1, (relabelOf_sound (fields acts).2).1⟩
  · exact (relabelOf_sound (fields (actionRelabel_ne_discard relabel)).2).2 label relabel

end Sys2Proof.Machine
end

section
/-! PROOFS. Epochs, credit, the aging sweep, the profile step and the expiry of a profile (R63 to R91). -/
namespace Sys2Proof.Machine

/-! ## The expiry of an epoch (R63 to R65) -/

theorem all_toList_iff {α : Type} {n : Nat} (v : Vector α n) (p : α → Bool) :
    v.toList.all p = true ↔ ∀ i : Fin n, p v[i] = true := by
  rw [List.all_eq_true]
  refine ⟨fun all i => all _ (by simp), fun all x hx => ?_⟩
  obtain ⟨i, hi, rfl⟩ := List.mem_iff_getElem.mp hx
  have lt : i < n := by simpa using hi
  simpa using all ⟨i, lt⟩

theorem State.expiryDone_iff (s : State) :
    s.expiryDone = true ↔
      (∀ f, (s.flow f).expiryDone = true) ∧ (s.down.holdTickDue = true → s.pins.dhold = false) ∧
        ∀ i : ItemId, s.notices.items[i].expiryDone = true := by
  rw [State.expiryDone, Bool.and_eq_true, Bool.and_eq_true, all_toList_iff, all_toList_iff, and_assoc]
  refine and_congr_right fun _ => and_congr_left fun _ => ?_
  cases s.down.holdTickDue <;> simp

theorem NoticeItem.expiryDone_iff (x : NoticeItem) : x.expiryDone = true ↔ (x.isSent = true → x.tickDue = false) := by
  unfold NoticeItem.expiryDone
  cases x.isSent <;> simp

theorem exec_epochExpiry_of_done {s : State} (live : s.pins.reset = false) (done : s.expiryDone = true) :
    exec .epochExpiry s = .next (s.setPacing s.pacing.expire).makeDue := if_pos ⟨live, done⟩

theorem exec_epochExpiry_of_not_done {s : State} (waits : ¬ s.expiryDone = true) : exec .epochExpiry s = .next s :=
  if_neg fun taken => waits taken.2

section SetEpoch

variable {args : List Byte} (s : State) (len : args.length = 2)
include len

theorem commandSetEpoch_of_short (short : num16At args 0 < 10) : commandSetEpoch args s = refuse s .badArgument := by
  rw [commandSetEpoch, ofLength_of_eq _ _ len, if_neg (Nat.not_le.mpr short)]

theorem commandSetEpoch_of_period (period : 10 ≤ num16At args 0) :
    commandSetEpoch args s =
      answerOk (s.setPacing { s.pacing with nextPeriod := num16At args 0 }) (bytes16 s.pacing.periodInForce) := by
  rw [commandSetEpoch, ofLength_of_eq _ _ len, if_pos period]

end SetEpoch

/-- Settles O30: the expiry is taken exactly when the last one's work is done, and marks all work due. -/
theorem epochsExpireAndTakeTheNextPeriod : Obligations.EpochsExpireAndTakeTheNextPeriod := by
  refine ⟨fun s live => ⟨fun flows hold items => ?_, fun waits => ?_⟩, fun s args due len => ?_⟩
  · rw [exec_epochExpiry_of_done live (s.expiryDone_iff.mpr ⟨flows, hold, items⟩)]
    refine ⟨_, _, rfl, fun f => ?_, fun i => ?_⟩
    · exact getElem_mapAll _ s.flows f.val f.isLt
    · exact getElem_mapAll _ s.notices.items i.val i.isLt
  · refine exec_epochExpiry_of_not_done fun done => ?_
    obtain ⟨flows, hold, items⟩ := s.expiryDone_iff.mp done
    rcases waits with ⟨f, undone⟩ | ⟨tick, asserted⟩ | ⟨i, sent, tick⟩
    · simp [flows f] at undone
    · simp [hold tick] at asserted
    · cases tick.symm.trans (s.notices.items[i].expiryDone_iff.mp (items i) sent)
  · have taken : exec (.setEpoch args) s = .next ((commandSetEpoch args s).finish 0x0D#8 false) := takeCommand_due _ due
    rw [taken]
    refine ⟨fun short => ?_, fun period => ?_⟩
    · rw [commandSetEpoch_of_short s len short, finish_refuse]
    · rw [commandSetEpoch_of_period s len period]
      rfl

/-! ## Credit (R64 to R73) -/

section Replenishment

variable {s : State} {f : FlowId}

theorem exec_replenishment_of_due (live : s.pins.reset = false) (due : (s.flow f).due.replenishment = true) :
    exec (.replenishment f) s = .next (s.setFlow f { s.flow f with
      credit := if (s.flow f).isDisabled then (s.flow f).credit else replenished (s.flow f)
      due := { (s.flow f).due with replenishment := false } }) := if_pos ⟨live, due⟩

theorem exec_replenishment_of_not_due (taken : (s.flow f).due.replenishment = false) :
    exec (.replenishment f) s = .next s := if_neg (by simp [taken])

end Replenishment

theorem replenished_eq (x : Flow) :
    replenished x =
      if x.credit + x.active.rate > x.active.burstCap then (x.active.burstCap : Int) else x.credit + x.active.rate := by
  unfold replenished
  split
  · next above => exact min_eq_right (le_of_lt above)
  · next within => exact min_eq_left (not_lt.mp within)

theorem eligible_loose_iff (credit : Int) (length : Nat) : eligible .loose credit length = true ↔ 0 < credit :=
  decide_eq_true_iff

theorem eligible_strict_iff (credit : Int) (length : Nat) :
    eligible .strict credit length = true ↔ (length : Int) ≤ credit := decide_eq_true_iff

/-- Settles O31: by the mark of the expiry, the state of the flow, and the side of the floor the debit falls on. -/
theorem creditIsReplenishedJudgedAndDebited : Obligations.CreditIsReplenishedJudgedAndDebited := by
  refine ⟨fun s f live due => ⟨fun enabled => ?_, fun disabled => ?_⟩, fun s f taken => ?_, fun s f => ?_, fun credit length => ?_⟩
  · rw [exec_replenishment_of_due live due, if_neg fun d => enabled ((s.flow f).isDisabled_iff.mp d), replenished_eq]
  · rw [exec_replenishment_of_due live due, if_pos ((s.flow f).isDisabled_iff.mpr disabled)]
  · exact exec_replenishment_of_not_due taken
  · simp [State.disabledAt, State.flow]
  · refine ⟨rfl, eligible_loose_iff credit length, eligible_strict_iff credit length, rfl, fun above => ?_, fun below => ?_⟩
    · exact ⟨max_eq_left above, max_eq_left above⟩
    · exact ⟨max_eq_right below, max_eq_right below⟩

/-! ## Aging (R76 to R78) -/

theorem State.stale_of_queued {s : State} {r : RecordId} {fr : FrameRecord} {stamp : BitVec 16}
    (record : s.store.records[r] = some fr) (queued : fr.state = .queued stamp) (limit : Nat) :
    s.stale limit r = (decide (limit ≠ 0) && decide (limit < residence s.pacing.epochCounter stamp)) := by
  simp only [State.stale, FrameStore.arrivalStamp, record, queued]

theorem residence_eq (counter stamp : BitVec 16) :
    residence counter stamp = (counter.toNat + 65536 - stamp.toNat) % 65536 := by
  have := stamp.isLt
  rw [residence, BitVec.toNat_sub]
  omega

/-- Stale heads leave one after another until the head is not stale or the queue is empty. -/
theorem State.ageFlow_iterate (s : State) (f : FlowId) :
    ∃ n, n ≤ (s.flow f).queue.length ∧ s.ageFlow f = (fun t : State => t.discardHead f .stale)^[n] s ∧
      (∀ m < n, ∃ r rest, (((fun t : State => t.discardHead f .stale)^[m] s).flow f).queue = r :: rest ∧
        ((fun t : State => t.discardHead f .stale)^[m] s).stale
          (((fun t : State => t.discardHead f .stale)^[m] s).flow f).active.ageLimit r = true) ∧
      ∀ r rest, (((fun t : State => t.discardHead f .stale)^[n] s).flow f).queue = r :: rest →
        ((fun t : State => t.discardHead f .stale)^[n] s).stale
          (((fun t : State => t.discardHead f .stale)^[n] s).flow f).active.ageLimit r = false := by
  obtain ⟨n, few, made, before, ends⟩ := State.removeStale_iterate f (s.flow f).queue.length s
  refine ⟨n, few, made, before, fun r rest queue => ?_⟩
  rcases ends with all | fresh
  · rw [State.discardHead_iterate_queue, all, List.drop_length] at queue
    cases queue
  · exact fresh r rest queue

theorem exec_agingSweep_of_due {s : State} {f : FlowId} (live : s.pins.reset = false) (due : (s.flow f).due.sweep = true) :
    exec (.agingSweep f) s = .next (
      let swept := s.setFlow f { s.flow f with due := { (s.flow f).due with sweep := false } }
      if (swept.flow f).isDisabled then swept else swept.ageFlow f) := if_pos ⟨live, due⟩

/-- Settles O32: residence is the wrapped difference, and a sweep removes stale heads one by one. -/
theorem aSweepRemovesTheStaleHeads : Obligations.ASweepRemovesTheStaleHeads := by
  refine ⟨fun s limit r fr stamp record queued => ?_, ?_⟩
  · rw [State.stale_of_queued record queued, residence_eq, Bool.and_eq_true, decide_eq_true_iff, decide_eq_true_iff]
  · intro s f live due s0
    have now : s0.flow f = { s.flow f with due := { (s.flow f).due with sweep := false } } := State.flow_setFlow_same s f _
    have state : (s0.flow f).state = (s.flow f).state := by rw [now]
    have queue : (s0.flow f).queue = (s.flow f).queue := by rw [now]
    rw [exec_agingSweep_of_due live due]
    refine ⟨fun disabled => ?_, fun enabled => ?_⟩
    · exact congrArg _ (if_pos ((s0.flow f).isDisabled_iff.mpr (state.trans disabled)))
    · obtain ⟨n, few, made, before, ends⟩ := s0.ageFlow_iterate f
      refine ⟨n, queue ▸ few, ?_, before, ends⟩
      rw [← made]
      exact congrArg _ (if_neg fun d => enabled (state.symm.trans ((s0.flow f).isDisabled_iff.mp d)))

/-! ## The profile step (R87 to R91) -/

section Step

variable {s : State} {f : FlowId}

theorem State.profileStep_of_disabled (state : (s.flow f).state = .disabled) : s.profileStep f = s := by
  simp only [State.profileStep, state]

theorem State.profileStep_of_adopt (live : (s.flow f).state ≠ .disabled) (adopt : (s.flow f).adoptPending = true) :
    s.profileStep f = s.swap f := by
  unfold State.profileStep
  split
  case h_1 disabled => exact absurd disabled live
  case h_3 | h_6 => rfl
  all_goals exact if_pos adopt

theorem State.profileStep_of_expired
    (expired : (s.flow f).state = .held .expired ∨ (s.flow f).state = .flushing (.held .expired)) :
    s.profileStep f = s.swap f := by
  rcases expired with state | state
  all_goals simp only [State.profileStep, state]

theorem State.profileStep_of_resting (notActive : (s.flow f).state ≠ .active)
    (notExpired : ¬ ((s.flow f).state = .held .expired ∨ (s.flow f).state = .flushing (.held .expired)))
    (clear : (s.flow f).adoptPending = false) : s.profileStep f = s := by
  have noAdopt : ¬ (s.flow f).adoptPending = true := by simp [clear]
  unfold State.profileStep
  split
  case h_1 => rfl
  case h_2 active => exact absurd active notActive
  case h_3 state => exact absurd (.inl state) notExpired
  case h_6 state => exact absurd (.inr state) notExpired
  all_goals exact if_neg noAdopt

section Active

variable (active : (s.flow f).state = .active) (clear : (s.flow f).adoptPending = false)
include active clear

theorem State.profileStep_of_lasting (lasting : (s.flow f).active.lifetime = 0) : s.profileStep f = s := by
  simp [State.profileStep, active, clear, lasting]

theorem State.profileStep_of_counting (counting : (s.flow f).active.lifetime ≠ 0) : s.profileStep f = s.countDown f := by
  simp [State.profileStep, active, clear, counting]

end Active

theorem State.countDown_of_remaining (more : 1 < (s.flow f).remaining) :
    s.countDown f = s.setFlow f { s.flow f with remaining := (s.flow f).remaining - 1 } := if_pos more

theorem State.countDown_of_staged (ends : (s.flow f).remaining ≤ 1) {p : Profile} (staged : (s.flow f).staged = some p) :
    s.countDown f = s.swappedAt f p := by
  rw [State.countDown, if_neg (Nat.not_lt.mpr ends), staged]
  exact s.swap_eq f p staged

theorem State.countDown_of_unstaged (ends : (s.flow f).remaining ≤ 1) (staged : (s.flow f).staged = none) :
    s.countDown f = s.expireFlow f := by
  rw [State.countDown, if_neg (Nat.not_lt.mpr ends), staged]

theorem State.expireFlow_of_repeat (action : (s.flow f).active.expireAction = .repeat) :
    s.expireFlow f = s.setFlow f { s.flow f with remaining := (s.flow f).active.lifetime } := by
  simp only [State.expireFlow, action]
  rfl

theorem State.expireFlow_of_hold (action : (s.flow f).active.expireAction = .hold) :
    s.expireFlow f =
      { s with
        flows := s.flows.set f { s.flow f with state := .held .expired, remaining := 0 }
        scheduler := s.scheduler.without f
        notices := s.notices.reporting .flowHeld f } := by
  simp only [State.expireFlow, action, State.endRunOf_eq, State.report_eq, State.setFlowState, State.modifyFlow,
    State.flow_setFlow_same, State.setFlow_setFlow]
  rfl

theorem State.expireFlow_of_close (action : (s.flow f).active.expireAction = .close) :
    s.expireFlow f = (s.setFlow f { s.flow f with remaining := 0 }).closeFlow f := by
  simp only [State.expireFlow, action]
  rfl

theorem exec_profileStep_of_due (live : s.pins.reset = false) (due : (s.flow f).due.step = true) :
    exec (.profileStep f) s =
      .next ((s.setFlow f { s.flow f with due := { (s.flow f).due with step := false } }).profileStep f) :=
  if_pos ⟨live, due⟩

theorem exec_lifetimeExpiry_of_due (live : s.pins.reset = false) (due : (s.flow f).due.step = true)
    (active : (s.flow f).state = .active) (clear : (s.flow f).adoptPending = false)
    (counting : (s.flow f).active.lifetime ≠ 0) (ends : (s.flow f).remaining ≤ 1) :
    exec (.lifetimeExpiry f) s =
      .next ((s.setFlow f { s.flow f with due := { (s.flow f).due with step := false } }).profileStep f) := by
  have expires : (s.flow f).expires = true := by simp [Flow.expires, active, clear, counting, ends]
  exact if_pos ⟨live, due, expires⟩

end Step

/-- Settles O35: the step clears its mark and then takes the row of the table that the flow's state names. -/
theorem aProfileStepFollowsItsTable : Obligations.AProfileStepFollowsItsTable := by
  refine ⟨?_, rfl, rfl, fun fs notHeld notFlushing => ?_⟩
  · intro s f live due x y s0 expiredHold
    have now : s0.flow f = y := State.flow_setFlow_same s f y
    rw [exec_profileStep_of_due live due]
    refine ⟨fun disabled => ?_, fun p enabled adopt staged => ?_, fun p expired staged => ?_, fun expired staged => ?_,
      fun notActive notExpired clear => ?_, fun active clear lasting => ?_, fun active clear counting more => ?_,
      fun active clear counting ends => ?_⟩
    · exact congrArg _ (State.profileStep_of_disabled (by rwa [now]))
    · exact congrArg _ ((State.profileStep_of_adopt (by rwa [now]) (by rwa [now])).trans (s0.swap_eq f p (by rwa [now])))
    · exact congrArg _ ((State.profileStep_of_expired (by rwa [now])).trans (s0.swap_eq f p (by rwa [now])))
    · exact congrArg _ ((State.profileStep_of_expired (by rwa [now])).trans (s0.swap_of_empty f (by rwa [now])))
    · exact congrArg _ (State.profileStep_of_resting (by rwa [now]) (by rwa [now]) (by rwa [now]))
    · exact congrArg _ (State.profileStep_of_lasting (by rwa [now]) (by rwa [now]) (by rwa [now]))
    · refine congrArg _ ((State.profileStep_of_counting (by rwa [now]) (by rwa [now]) (by rwa [now])).trans ?_)
      rw [State.countDown_of_remaining (by rwa [now]), now]
    · exact (exec_lifetimeExpiry_of_due live due active clear counting ends).symm
  · unfold stateAfterSwap
    split
    case h_3 => exact absurd rfl notHeld
    case h_6 => exact absurd rfl notFlushing
    all_goals rfl

/-- Settles O36: the expiring step is a countdown that ends, and then the staged slot or the expire action decides. -/
theorem anExpiredProfileIsFollowedUp : Obligations.AnExpiredProfileIsFollowedUp := by
  intro s f live due active clear counting ends x y s0
  have now : s0.flow f = y := State.flow_setFlow_same s f y
  have down : s0.profileStep f = s0.countDown f :=
    State.profileStep_of_counting (by rwa [now]) (by rwa [now]) (by rwa [now])
  have unstaged (staged : x.staged = none) : s0.countDown f = s0.expireFlow f :=
    State.countDown_of_unstaged (by rwa [now]) (by rwa [now])
  have step : exec (.lifetimeExpiry f) s = .next (s0.countDown f) :=
    (exec_lifetimeExpiry_of_due live due active clear counting ends).trans (congrArg _ down)
  rw [step]
  refine ⟨fun p staged => ?_, fun staged action => ?_, fun staged action => ?_, fun staged action busy => ?_,
    fun staged action empty still => ?_⟩
  · exact congrArg _ (State.countDown_of_staged (by rwa [now]) (by rwa [now]))
  · rw [unstaged staged, State.expireFlow_of_repeat (by rwa [now]), now]
  · rw [unstaged staged, State.expireFlow_of_hold (by rwa [now]), now]
    simp [s0, State.setFlow]
  · have notIdle : ¬ (y.queue = [] ∧ y.inTransmission = false) := by
      rintro ⟨empty, still⟩
      rcases busy with queued | moving
      · exact queued empty
      · simp [show x.inTransmission = false from still] at moving
    rw [unstaged staged, State.expireFlow_of_close (by rwa [now]), now, State.closeFlow_eq, State.flow_setFlow_same,
      if_neg notIdle, State.setFlow_setFlow]
  · have idle : y.queue = [] ∧ y.inTransmission = false := ⟨empty, still⟩
    rw [unstaged staged, State.expireFlow_of_close (by rwa [now]), now, State.closeFlow_eq, State.flow_setFlow_same,
      if_pos idle]

end Sys2Proof.Machine
end

section
/-! PROOFS. The Release Scheduler (R104 to R119): candidates, selections, express flows, runs, arbitration, and the release of a head. -/
namespace Sys2Proof.Machine

/-! ## The release of a head (R112, R143, R144) -/

theorem FrameStore.bodyBytes_eq (st : FrameStore) (body : Body) (n : Nat) :
    st.bodyBytes body n =
      ((st.chain body).flatMap fun block =>
        (List.range 128).map fun o => Memory.read st.mem (block.val * 128 + o)).take n := by
  have block (k : BlockId) :
      (List.range 128).map (fun o => Memory.read st.mem (blockAddress k o)) =
        (List.range 128).map fun o => Memory.read st.mem (k.val * 128 + o) := by
    refine List.map_congr_left fun o ho => ?_
    have offset : o % 128 = o := Nat.mod_eq_of_lt (List.mem_range.mp ho)
    simp only [blockAddress, Config.blockBytes, offset]
  simp only [FrameStore.bodyBytes, Config.blockBytes, block]

theorem FrameStore.trunkFrame_of_body {st : FrameStore} {b : BodyId} {body : Body} (live : st.bodies[b] = some body)
    (length : Nat) : st.trunkFrame b length = withCheck (st.bodyBytes body (length - 4)) := by
  simp only [FrameStore.trunkFrame, live]
  rfl

/-- Settles O37: the record's length is its body's, and the trunk frame is the stored bytes under a fresh check. -/
theorem aReleasedHeadGoesToPortD : Obligations.AReleasedHeadGoesToPortD := by
  intro s f r rest fr body queue record live x stored
  have length : s.store.recordLength r = body.length := FrameStore.recordLength_of record live
  have sent : s.store.trunkFrame fr.body body.length = stored ++ checkOf stored := by
    rw [FrameStore.trunkFrame_of_body live, FrameStore.bodyBytes_eq, withCheck]
  have inTransmission : s.store.setRecordState r .inTransmission =
      { s.store with records := s.store.records.set r (some { fr with state := .inTransmission }) } :=
    FrameStore.setRecordState_of_record record _
  simp only [State.releaseHead, queue, record, length, sent, State.setFlow_store, inTransmission,
    Flow.popHead_of_queue queue, State.modifyFlow]
  rfl

/-! ## When a selection is due (R105, R110, R117, R119) -/

theorem State.candidate_iff (s : State) (f : FlowId) :
    s.candidate f = true ↔
      ((s.flow f).state = .active ∨ (s.flow f).state = .draining) ∧
        (∃ r rest, (s.flow f).queue = r :: rest ∧
          eligible (s.flow f).active.discipline (s.flow f).credit (s.store.recordLength r) = true) ∧
        s.scheduler.releaseEnable = true ∧ s.scheduler.quenchFlag = false := by
  rw [← Flow.releasing_iff]
  cases queue : (s.flow f).queue with
  | nil => simp [s.candidate_of_empty f queue]
  | cons r rest => simp [s.candidate_of_queue f r rest queue, State.releaseAllowed, and_assoc]

theorem State.selectionDue_iff (s : State) :
    s.selectionDue = true ↔
      s.down.sending = none ∧ s.pins.dhold = false ∧
        (s.scheduler.releaseEnable = true ∧ s.scheduler.quenchFlag = false) ∧ s.up.restartCondition = false ∧
        (s.scheduler.run ≠ none ∨ ∃ f, s.candidate f = true) := by
  simp [State.selectionDue, State.releaseAllowed, allFlows, and_assoc, Option.isSome_iff_ne_none]

theorem exec_selection_of_due {s : State} (live : s.pins.reset = false) (due : s.selectionDue = true) :
    exec .selection s = .next s.agingCheck.choose := if_pos ⟨live, due⟩

theorem State.agingCheck_eq (s : State) :
    s.agingCheck = (List.finRange 256).foldl
      (fun t f => if (t.flow f).state = .active ∨ (t.flow f).state = .draining
        then (fun u : State => u.removeStale f (u.flow f).queue.length) t else t) s := by
  unfold State.agingCheck allFlows
  congr 1
  funext t f
  exact if_congr (t.flow f).releasing_iff rfl rfl

/-- Settles O40: a condition that fails keeps the selection from being due; the aging check is a fold over the releasing flows. -/
theorem selectionsAreTakenInTurnAndAgeHeads : Obligations.SelectionsAreTakenInTurnAndAgeHeads := by
  refine ⟨fun s => ⟨fun blocked => if_neg ?_, s.candidate_iff⟩, State.agingCheck_eq⟩
  rintro ⟨live, due⟩
  obtain ⟨free, noHold, ⟨enabled, noQuench⟩, noRestart, waits⟩ := s.selectionDue_iff.mp due
  rcases blocked with sending | hold | disabled | quenched | restart | reset | ⟨noRun, noCandidate⟩
  · exact sending free
  · cases hold.symm.trans noHold
  · cases disabled.symm.trans enabled
  · cases quenched.symm.trans noQuench
  · cases restart.symm.trans noRestart
  · cases reset.symm.trans live
  · rcases waits with run | ⟨f, candidate⟩
    · exact run noRun
    · cases candidate.symm.trans (noCandidate f)

/-! ## Express flows and runs (R109, R111, R115) -/

section Choose

variable {s : State}

theorem State.choose_of_express {f : FlowId} (candidate : s.candidateIn .express f = true)
    (lowest : ∀ g, g < f → s.candidateIn .express g = false) : s.choose = s.releaseHead f := by
  have choice : s.expressChoice = some f := find_finRange _ f candidate lowest
  rw [State.choose, choice]

variable (noExpress : ∀ g, s.candidateIn .express g = false)
include noExpress

theorem State.choose_of_run {run : Run} (running : s.scheduler.run = some run) (qualifies : s.qualifies run = true) :
    s.choose = (s.setScheduler { s.scheduler with run := run.spend }).releaseHead run.holder := by
  rw [State.choose, s.expressChoice_none noExpress, running]
  exact if_pos qualifies

theorem State.choose_of_no_run (noRun : ∀ run, s.scheduler.run = some run → s.qualifies run = false) :
    s.choose = s.endRun.arbitrate := by
  rw [State.choose, s.expressChoice_none noExpress]
  cases running : s.scheduler.run with
  | none => rw [s.endRun_of_none running]
  | some run => exact if_neg (by simp [noRun run running])

end Choose

theorem State.qualifies_of {s : State} {run : Run} (left : 0 < run.remaining)
    (goes : run.mode = .block ∧ (s.flow run.holder).releasing = true ∧ (s.flow run.holder).queue ≠ [] ∨
      run.mode = .demand ∧ s.candidate run.holder = true) : s.qualifies run = true := by
  rcases goes with ⟨block, releasing, queued⟩ | ⟨demand, candidate⟩
  · simp [State.qualifies, block, releasing, List.isEmpty_eq_false_iff.mpr queued, left]
  · simp [State.qualifies, demand, candidate, left]

theorem Run.spend_of_remaining {run : Run} (left : 0 < run.remaining) :
    run.spend = if run.remaining = 1 then none else some { run with remaining := run.remaining - 1 } :=
  if_congr (by omega) rfl rfl

/-- Settles O38: the lowest express candidate first, and then the run while it qualifies. -/
theorem aSelectionServesExpressThenTheRun : Obligations.ASelectionServesExpressThenTheRun := by
  refine ⟨fun s f live due candidate lowest => ?_, fun s run live due noExpress running left goes => ?_⟩
  · rw [exec_selection_of_due live due, State.choose_of_express candidate lowest]
  · rw [exec_selection_of_due live due, State.choose_of_run noExpress running (State.qualifies_of left goes),
      Run.spend_of_remaining left]
    rfl

/-! ## Arbitration (R106 to R108, R114) -/

theorem State.arbitration_of_nobody {s : State} (nobody : ∀ g, ¬ s.groupWaits g) : s.arbitration = none := by
  refine List.findSome?_eq_none_iff.mpr fun g _ => ?_
  have noChoice : s.groupChoice g = none := not_not.mp fun choice => nobody g ((s.groupChoice_ne_none g).mp choice)
  rw [noChoice]
  rfl

theorem State.arbitration_of_nearest {s : State} {g : Fin 8} {f : FlowId} (nearest : s.nearest g f) :
    s.arbitration = some (g, f) := by
  obtain ⟨candidate, group, flow⟩ := nearest
  have choice : s.groupChoice g = some f := by
    unfold State.groupChoice
    exact find_of_nearest (flowRing s.scheduler.groups[g].pointer) (flowDistance s.scheduler.groups[g].pointer)
      (s.candidateIn (.ring g)) f (flowRing_sorted _) (mem_flowRing _ f) candidate flow
  unfold State.arbitration
  refine findSome_of_nearest (groupRing s.scheduler.topPointer) (groupDistance s.scheduler.topPointer)
    (fun g => (s.groupChoice g).map fun f => (g, f)) g (g, f) (groupRing_sorted _) (mem_groupRing _ g)
    (by rw [choice]; rfl) fun g' chooses => ?_
  refine group g' ((s.groupChoice_ne_none g').mp fun noChoice => ?_)
  rw [noChoice] at chooses
  exact chooses rfl

theorem rotated_eq {n : Nat} (policy : RingPolicy) (pointer chosen : Fin n) :
    rotated policy pointer chosen = if policy = RingPolicy.rotating then chosen else pointer := by
  cases policy <;> rfl

/-- Settles O39: arbitration finds the nearest waiting group and its nearest candidate, or nobody. -/
theorem aSelectionArbitratesAroundTheRings : Obligations.ASelectionArbitratesAroundTheRings := by
  intro s live due noExpress noRun a
  have chosen : exec .selection s = .next a.arbitrate := by
    rw [exec_selection_of_due live due, State.choose_of_no_run noExpress noRun]
    rfl
  rw [chosen]
  refine ⟨fun nobody => ?_, fun g f nearest => ?_⟩
  · rw [State.arbitrate, State.arbitration_of_nobody nobody]
  · intro x frames run
    have started : (x.startedRun f).bind Run.spend = run := by
      unfold run frames Flow.startedRun
      clear_value x
      cases x.active.releaseMode with
      | single => rfl
      | block => rfl
      | demand => rfl
    have granted : a.grant g f = a.setScheduler { a.scheduler with
        topPointer := if a.scheduler.topPolicy = RingPolicy.rotating then g else a.scheduler.topPointer
        groups := a.scheduler.groups.set g { a.scheduler.groups[g] with
          pointer := if a.scheduler.groups[g].policy = RingPolicy.rotating then f else a.scheduler.groups[g].pointer }
        run := run } := by
      rw [State.grant, started, rotated_eq, GroupRing.granted, rotated_eq]
    rw [State.arbitrate, State.arbitration_of_nearest nearest]
    simp only [granted]
    rfl

end Sys2Proof.Machine
end

section
/-! PROOFS. The QUENCH and DHOLD pins, the completion of a transmission, and the hold timer (R121, R145 to R152). -/
namespace Sys2Proof.Machine

/-! ## The pins at their changes (R121, R149, R150) -/

section Pins

variable {s : State}

theorem exec_quenchAssertion_of_change (low : s.pins.quench = false) :
    exec .quenchAssertion s = .next (
      let changed := s.setPins { s.pins with quench := true }
      if changed.pins.reset then changed else changed.quenchOn) := if_neg (by simp [low])

theorem exec_quenchAssertion_of_asserted (high : s.pins.quench = true) : exec .quenchAssertion s = .next s := if_pos high

theorem exec_dholdAssertion_of_change (low : s.pins.dhold = false) :
    exec .dholdAssertion s = .next (s.dholdChange true) := if_neg (by simp [low])

theorem exec_dholdAssertion_of_asserted (high : s.pins.dhold = true) : exec .dholdAssertion s = .next s := if_pos high

theorem exec_dholdDeassertion_of_change (high : s.pins.dhold = true) :
    exec .dholdDeassertion s = .next (s.dholdChange false) := if_pos high

theorem exec_dholdDeassertion_of_deasserted (low : s.pins.dhold = false) : exec .dholdDeassertion s = .next s :=
  if_neg (by simp [low])

end Pins

/-- Settles O42: each pin event by the level it finds, and the assertion of QUENCH by RESET as well. -/
theorem quenchAndDholdPinsActAtTheirChanges : Obligations.QuenchAndDholdPinsActAtTheirChanges := by
  refine ⟨fun s => ⟨fun low live => ?_, fun low reset => ?_, exec_quenchAssertion_of_asserted, rfl⟩,
    fun s => ⟨fun low => ⟨?_, exec_dholdDeassertion_of_deasserted low⟩, fun high => ⟨?_, exec_dholdAssertion_of_asserted high⟩⟩⟩
  · have live : ¬ (s.setPins { s.pins with quench := true }).pins.reset = true := Bool.eq_false_iff.mp live
    rw [exec_quenchAssertion_of_change low]
    exact congrArg _ (if_neg live)
  · rw [exec_quenchAssertion_of_change low]
    exact congrArg _ (if_pos reset)
  · rw [exec_dholdAssertion_of_change low]
    rfl
  · rw [exec_dholdDeassertion_of_change high]
    rfl

/-! ## A completion (R145, R148) -/

theorem exec_transmissionCompletion_of_sending {s : State} {sent : Transmission} (live : s.pins.reset = false)
    (sending : s.down.sending = some sent) :
    exec .transmissionCompletion s = .next (
      ((((s.modifyFlow sent.flow fun x => x.completed sent.length).setDown (s.down.completed sent.length)).setStore
        (s.store.releaseRecord sent.record)).pauseTest.settleDrain sent.flow)) := by
  have taken : exec .transmissionCompletion s = execTransmissionCompletion s := rfl
  rw [taken, execTransmissionCompletion, sending]
  exact if_neg (by simp [live])

theorem State.settleDrain_of_drained {s : State} {f : FlowId} (draining : (s.flow f).state = .draining)
    (empty : (s.flow f).queue = []) (still : (s.flow f).inTransmission = false) : s.settleDrain f = s.disabledAt f := by
  rw [State.settleDrain, if_pos ⟨draining, List.isEmpty_iff.mpr empty, still⟩, State.enterDisabled_eq]

theorem State.settleDrain_of_staying {s : State} {f : FlowId} (stays : (s.flow f).state ≠ .draining ∨ (s.flow f).queue ≠ []) :
    s.settleDrain f = s := by
  refine if_neg ?_
  rintro ⟨draining, empty, -⟩
  rcases stays with other | queued
  · exact other draining
  · exact queued (List.isEmpty_iff.mp empty)

/-- Settles O43: the completed flow is settled by the drain test as it then stands. -/
theorem aCompletionFreesPortD : Obligations.ACompletionFreesPortD := by
  intro s sent frame live sending line x t
  have closed : s.down.line.close = .ended frame := by rw [line]; rfl
  have done : exec .transmissionCompletion s = .next (t.settleDrain sent.flow) := by
    rw [exec_transmissionCompletion_of_sending live sending, DownstreamPort.completed, closed]
    rfl
  have now : t.flow sent.flow = x.completed sent.length := by simp [t, State.flow, x, Flow.completed]
  rw [done]
  refine ⟨fun ⟨draining, empty⟩ => ?_, fun stays => ?_⟩
  · rw [State.settleDrain_of_drained (by rwa [now]) (by rwa [now]) (by rw [now]; rfl)]
  · rw [State.settleDrain_of_staying (by rwa [now])]

/-! ## The hold timer (R150 to R152) -/

section Hold

variable {s : State}

theorem State.stuckTest_of_reached (reached : s.pins.dhold = true ∧ s.down.stuck = false ∧ s.down.holdLimit ≠ 0 ∧
    s.down.holdLimit ≤ s.down.holdTimer) :
    s.stuckTest =
      { s with down := { s.down with stuck := true }, notices := s.notices.reporting .holdStuck 0 } :=
  if_pos ((stuckReports_iff _ _ _ _).mpr reached)

theorem State.stuckTest_of_not_reached (below : ¬ (s.pins.dhold = true ∧ s.down.stuck = false ∧ s.down.holdLimit ≠ 0 ∧
    s.down.holdLimit ≤ s.down.holdTimer)) : s.stuckTest = s :=
  if_neg fun reports => below ((stuckReports_iff _ _ _ _).mp reports)

theorem State.tickReports_iff (s : State) :
    s.tickReports = true ↔ s.pins.dhold = true ∧ s.down.stuck = false ∧ s.down.holdLimit ≠ 0 ∧
      s.down.holdLimit ≤ min (s.down.holdTimer + 1) 65535 := stuckReports_iff _ _ _ _

theorem State.takeHoldTick_of_asserted (asserted : s.pins.dhold = true) :
    s.takeHoldTick =
      (s.setDown { s.down with holdTickDue := false, holdTimer := min (s.down.holdTimer + 1) 65535 }).stuckTest :=
  if_pos asserted

theorem State.takeHoldTick_of_deasserted (low : s.pins.dhold = false) :
    s.takeHoldTick = s.setDown { s.down with holdTickDue := false } := if_neg (by simp [low])

theorem exec_holdTick_of_due (live : s.pins.reset = false) (due : s.down.holdTickDue = true) :
    exec .holdTick s = .next s.takeHoldTick := if_pos ⟨live, due⟩

theorem exec_holdStuck_of_quiet (quiet : ¬ s.tickReports = true) : exec .holdStuck s = .next s :=
  if_neg fun taken => quiet taken.2.2

theorem exec_holdStuck_of_reports (live : s.pins.reset = false) (due : s.down.holdTickDue = true)
    (reports : s.tickReports = true) : exec .holdStuck s = .next s.takeHoldTick := if_pos ⟨live, due, reports⟩

theorem commandSetHoldLimit_of_length {args : List Byte} (len : args.length = 2) :
    commandSetHoldLimit args s =
      answerOk (s.setDown { s.down with holdLimit := num16At args 0 }).stuckTest (bytes16 s.down.holdLimit) := by
  rw [commandSetHoldLimit, ofLength_of_eq _ _ len]

end Hold

/-- Settles O44: the tick counts under DHOLD alone, and one test at the count and the limit reports. -/
theorem holdTicksAndLimitsReportOnce : Obligations.HoldTicksAndLimitsReportOnce := by
  refine ⟨?_, ?_⟩
  · intro s live due timer reached
    rw [exec_holdTick_of_due live due]
    refine ⟨fun low => ⟨?_, ?_⟩, fun asserted below => ⟨?_, ?_⟩, fun asserted ⟨limit, most, fresh⟩ => ⟨?_, ?_⟩⟩
    · rw [State.takeHoldTick_of_deasserted low]
      rfl
    · refine exec_holdStuck_of_quiet fun reports => ?_
      cases low.symm.trans (s.tickReports_iff.mp reports).1
    · rw [State.takeHoldTick_of_asserted asserted, State.stuckTest_of_not_reached]
      · rfl
      · rintro ⟨-, fresh, limit, most⟩
        exact below ⟨limit, most, fresh⟩
    · refine exec_holdStuck_of_quiet fun reports => ?_
      obtain ⟨-, fresh, limit, most⟩ := s.tickReports_iff.mp reports
      exact below ⟨limit, most, fresh⟩
    · rw [State.takeHoldTick_of_asserted asserted, State.stuckTest_of_reached]
      · rfl
      · exact ⟨asserted, fresh, limit, most⟩
    · exact exec_holdStuck_of_reports live due (s.tickReports_iff.mpr ⟨asserted, fresh, limit, most⟩)
  · intro s args due len limit reached
    have taken : exec (.setHoldLimit args) s = .next ((commandSetHoldLimit args s).finish 0x16#8 false) := takeCommand_due _ due
    rw [taken, commandSetHoldLimit_of_length len]
    refine ⟨fun stands => ?_, fun below => ?_⟩
    · rw [State.stuckTest_of_reached stands]
      rfl
    · rw [State.stuckTest_of_not_reached below]
      rfl

end Sys2Proof.Machine
end

section
/-! PROOFS. The receive lane: delimiters, the lead event, the bytes of a frame, and the check (R126 to R137, R188). -/
namespace Sys2Proof.Machine

/-! ## The receive events at the lane -/

section Live

variable {s : State} (live : s.pins.reset = false)
include live

theorem exec_startDelimiter_live : exec .startDelimiter s = .next s.takeStart := if_neg (by simp [live])

theorem exec_endDelimiter_live : exec .endDelimiter s = .next s.takeEnd := if_neg (by simp [live])

theorem exec_abortDelimiter_live : exec .abortDelimiter s = .next s.takeAbort := if_neg (by simp [live])

theorem exec_receiveByte_live (b : Byte) : exec (.receiveByte b) s = .next (s.takeByte b) := if_neg (by simp [live])

theorem exec_leadEvent_of_twelfth {rx : Reception} {bytes : List Byte} (b : Byte) (lane : s.up.lane = .lead rx bytes)
    (eleven : bytes.length = 11) : exec (.leadEvent b) s = .next (s.leadArrived (rx.take b) (bytes ++ [b])) := by
  have taken : exec (.leadEvent b) s = execLeadEvent b s := rfl
  rw [taken, execLeadEvent, lane]
  exact if_pos ⟨live, by rw [eleven]; rfl⟩

end Live

/-! ## Delimiters by the lane's state (R126, R129, R131, R132) -/

section Lane

variable {s : State}

theorem State.holdSymbol_of_deciding {rx : Reception} {lead : List Byte} {phase : Deciding} {held : List Symbol}
    (lane : s.up.lane = .deciding rx lead phase held) (x : Symbol) :
    s.holdSymbol x = s.setLane (.deciding rx lead phase (held ++ [x])) := by
  rw [State.holdSymbol, lane]

/-- A start delimiter first does what an abort delimiter does to an open frame. -/
theorem State.takeStart_of_open (opened : s.up.lane ≠ .idle) (decided : s.up.lane.decidingParts = none) :
    s.takeStart = s.takeAbort.setLane (.lead Reception.opened []) := by
  unfold State.takeStart
  split
  case h_1 idle => exact absurd idle opened
  case h_3 deciding => rw [deciding] at decided; cases decided
  all_goals rfl

section Restart

variable (restart : s.up.restartCondition = true)
include restart

theorem State.countReceived_of_restart : s.countReceived = s := if_pos restart

theorem State.ingressError_of_restart (e : IngressError) : s.ingressError e = s := if_pos restart

end Restart

theorem State.closeIgnored_of_restart (restart : s.up.restartCondition = true) : s.closeIgnored = s.setLane .idle :=
  State.countReceived_of_restart (s := s.setLane .idle) restart

theorem State.closeBad_of_restart (restart : s.up.restartCondition = true) {rx : Reception} {bytes : List Byte}
    (lane : s.up.lane = .lead rx bytes) (e : IngressError) : s.closeBad e = s.setLane .idle := by
  have held : s.freeReception = s := by rw [State.freeReception, lane]
  rw [State.closeBad, held, State.countReceived_of_restart (s := s.setLane .idle) restart,
    State.ingressError_of_restart (s := s.setLane .idle) restart]

section Closing

variable (counted : s.up.restartCondition = false)
include counted

theorem State.closeIgnored_of_counted : s.closeIgnored = s.closedQuietly := s.closedQuietly_eq counted

theorem State.closeBad_of_lead {rx : Reception} {bytes : List Byte} (lane : s.up.lane = .lead rx bytes) (e : IngressError) :
    s.closeBad e = s.closedWith e :=
  s.closeBad_of_freeReception e s (by rw [State.freeReception, lane]) rfl counted

theorem State.closeBad_of_pass {rx : Reception} {claimed : Nat} (lane : s.up.lane = .pass rx claimed) (e : IngressError) :
    s.closeBad e = s.closedWith e :=
  s.closeBad_of_freeReception e s (by rw [State.freeReception, lane]) rfl counted

theorem State.closeBad_of_request {rx : Reception} {claimed : Nat} {slot : SlotId} (lane : s.up.lane = .request rx claimed slot)
    (e : IngressError) :
    s.closeBad e = { s with agent := { s.agent with slots := s.agent.slots.set slot .free } }.closedWith e :=
  s.closeBad_of_freeReception e _ (by rw [State.freeReception, lane]; rfl) rfl counted

theorem State.closeBad_of_store {rx : Reception} {claimed : Nat} {body : BodyId} {records : List RecordId} {label : Tag}
    (lane : s.up.lane = .store rx claimed body records label) (e : IngressError) :
    s.closeBad e = { s with store := s.store.freeReservation body records }.pauseTest.closedWith e :=
  s.closeBad_of_freeReception e _ (by rw [State.freeReception, lane]; rfl) (by simp) counted

theorem State.closeGood_of_pass {rx : Reception} {claimed : Nat} (lane : s.up.lane = .pass rx claimed) :
    s.closeGood = s.closedQuietly := by
  rw [State.closeGood, lane]
  exact s.closedQuietly_eq counted

theorem State.closeGood_of_request {rx : Reception} {claimed : Nat} {slot : SlotId} (lane : s.up.lane = .request rx claimed slot)
    {bytes : List Byte} (filling : s.agent.slots[slot] = .filling bytes) :
    s.closeGood =
      { s with agent := { s.agent with
        slots := s.agent.slots.set slot (.waiting bytes)
        waitOrder := s.agent.waitOrder ++ [slot] } }.closedQuietly := by
  have agent : s.closedQuietly.agent.slots[slot].await = .waiting bytes := by
    change (s.agent.slots[slot]).await = _
    rw [filling]
    rfl
  rw [State.closeGood, lane, s.closedQuietly_eq counted]
  simp only [agent]
  rfl

theorem State.closeGood_of_store {rx : Reception} {claimed : Nat} {body : BodyId} {records : List RecordId} {label : Tag}
    (lane : s.up.lane = .store rx claimed body records label) : s.closeGood = s.closedQuietly.commit body records := by
  rw [State.closeGood, lane, s.closedQuietly_eq counted]

end Closing

section Tested

variable {rx : Reception} {claimed : Nat}

theorem State.closeTested_of_length (wrong : rx.actual ≠ claimed) : s.closeTested rx claimed = s.closeBad .length :=
  if_pos wrong

theorem State.closeTested_of_check (right : rx.actual = claimed) (bad : rx.checkGood = false) :
    s.closeTested rx claimed = s.closeBad .check := by
  simp [State.closeTested, right, bad]

theorem State.closeTested_of_good (right : rx.actual = claimed) (good : rx.checkGood = true) :
    s.closeTested rx claimed = s.closeGood := by
  simp [State.closeTested, right, good]

end Tested

end Lane

/-- Settles O45: each delimiter by the state of the lane it finds, and an end delimiter by the tests of R132 in their order. -/
theorem delimitersOpenAndCloseFrames : Obligations.DelimitersOpenAndCloseFrames := by
  intro s live opened
  rw [exec_startDelimiter_live live, exec_endDelimiter_live live, exec_abortDelimiter_live live]
  refine ⟨fun idle => ?_, fun rx lead phase held lane => ?_, fun open_ decided => ?_, fun restart lane => ?_, fun counted => ?_,
    fun u => ⟨rfl, rfl, rfl, rfl⟩⟩
  · rw [State.takeStart, State.takeEnd, State.takeAbort, idle]
    exact ⟨rfl, rfl, rfl⟩
  · rw [State.takeStart, State.takeEnd, State.takeAbort, lane]
    simp only [State.holdSymbol_of_deciding lane, and_self]
  · exact ⟨s.takeAbort, rfl, congrArg _ (State.takeStart_of_open open_ decided)⟩
  · rcases lane with ⟨claimed, lane⟩ | ⟨rx, bytes, lane⟩
    · rw [State.takeEnd, State.takeAbort, lane]
      simp only [State.closeIgnored_of_restart restart, and_self]
    · rw [State.takeEnd, State.takeAbort, lane]
      simp only [State.closeBad_of_restart restart lane, and_self]
  · refine ⟨fun rx bytes lane => ?_, fun claimed lane => ?_, fun rx claimed lane => ?_, fun rx claimed slot lane => ?_,
      fun rx claimed body records label lane => ?_⟩
    · rw [State.takeEnd, State.takeAbort, lane]
      simp only [State.closeBad_of_lead counted lane, and_self]
    · rw [State.takeEnd, State.takeAbort, lane]
      simp only [State.closeIgnored_of_counted counted, and_self]
    · rw [State.takeEnd, State.takeAbort, lane]
      have bad := State.closeBad_of_pass counted lane
      refine ⟨congrArg _ (bad _), fun wrong => ?_, fun right check => ?_, fun right check => ?_⟩
      · exact congrArg _ ((State.closeTested_of_length wrong).trans (bad _))
      · exact congrArg _ ((State.closeTested_of_check right check).trans (bad _))
      · exact congrArg _ ((State.closeTested_of_good right check).trans (State.closeGood_of_pass counted lane))
    · rw [State.takeEnd, State.takeAbort, lane]
      have bad := State.closeBad_of_request counted lane
      refine ⟨congrArg _ (bad _), fun wrong => ?_, fun right check => ?_, fun bytes right check filling => ?_⟩
      · exact congrArg _ ((State.closeTested_of_length wrong).trans (bad _))
      · exact congrArg _ ((State.closeTested_of_check right check).trans (bad _))
      · exact congrArg _ ((State.closeTested_of_good right check).trans (State.closeGood_of_request counted lane filling))
    · rw [State.takeEnd, State.takeAbort, lane]
      have bad := State.closeBad_of_store counted lane
      refine ⟨congrArg _ (bad _), fun wrong => ?_, fun right check => ?_, fun right check => ?_⟩
      · exact congrArg _ ((State.closeTested_of_length wrong).trans (bad _))
      · exact congrArg _ ((State.closeTested_of_check right check).trans (bad _))
      · exact congrArg _ ((State.closeTested_of_good right check).trans (State.closeGood_of_store counted lane))

/-! ## The lead event (R127 to R129) -/

section Lead

variable {s : State} (rx : Reception) {lead : List Byte}

theorem State.leadArrived_of_restart (restart : s.up.restartCondition = true) :
    s.leadArrived rx lead = s.setLane (.ignore (some (leadLength lead))) := if_pos restart

variable (counted : s.up.restartCondition = false)
include counted

theorem State.leadArrived_of_outside (outside : leadLength lead < 16 ∨ 2048 < leadLength lead) :
    s.leadArrived rx lead =
      { s with
        up := { s.up with leadErrors := s.up.leadErrors + 1, lane := .ignore (some (leadLength lead)) }
        notices := s.notices.reporting .ingressError 0 } := by
  have notRestart : ¬ s.up.restartCondition = true := Bool.eq_false_iff.mp counted
  rw [State.leadArrived, if_neg notRestart, State.ingressError, if_neg notRestart]
  exact if_pos outside

variable (inside : 16 ≤ leadLength lead ∧ leadLength lead ≤ 2048)
include inside

theorem State.leadArrived_of_traffic (traffic : ¬ (leadKind lead = 2 ∧ leadDest lead = s.up.ownTag)) :
    s.leadArrived rx lead = s.setLane (.deciding rx lead .classify []) := by
  have notRestart : ¬ s.up.restartCondition = true := Bool.eq_false_iff.mp counted
  have fits : ¬ (leadLength lead < Config.minFrame ∨ Config.maxFrame < leadLength lead) := by
    unfold Config.minFrame Config.maxFrame
    omega
  rw [State.leadArrived, if_neg notRestart, if_neg fits]
  exact if_neg traffic

theorem State.leadArrived_of_request (request : leadKind lead = 2 ∧ leadDest lead = s.up.ownTag) :
    s.leadArrived rx lead = s.routeRequest rx lead := by
  have notRestart : ¬ s.up.restartCondition = true := Bool.eq_false_iff.mp counted
  have fits : ¬ (leadLength lead < Config.minFrame ∨ Config.maxFrame < leadLength lead) := by
    unfold Config.minFrame Config.maxFrame
    omega
  rw [State.leadArrived, if_neg notRestart, if_neg fits]
  exact if_pos request

end Lead

section Route

variable {s : State} (rx : Reception) {lead : List Byte}

theorem Agent.freeSlot_of_lowest {a : Agent} {slot : SlotId} (free : a.slots[slot] = .free)
    (lowest : ∀ other : SlotId, other < slot → a.slots[other] ≠ .free) : a.freeSlot = some slot :=
  find_finRange _ slot (decide_eq_true free) fun other below => decide_eq_false (lowest other below)

theorem Agent.freeSlot_of_full {a : Agent} (full : ∀ slot : SlotId, a.slots[slot] ≠ .free) : a.freeSlot = none := by
  refine List.find?_eq_none.mpr fun slot _ free => ?_
  exact full slot (of_decide_eq_true free)

theorem State.routeRequest_of_slot (short : leadLength lead ≤ 512) {slot : SlotId} (chosen : s.agent.freeSlot = some slot) :
    s.routeRequest rx lead =
      (s.setSlot slot (.filling lead)).setLane (.request rx (leadLength lead) slot) := by
  have fits : ¬ Config.maxRequest < leadLength lead := Nat.not_lt.mpr short
  rw [State.routeRequest, if_neg fits, chosen]

theorem State.routeRequest_of_lost (lost : 512 < leadLength lead ∨ s.agent.freeSlot = none) :
    s.routeRequest rx lead = s.loseRequest lead := by
  unfold State.routeRequest
  split
  · rfl
  · next short =>
    have full : s.agent.freeSlot = none := lost.resolve_left short
    rw [full]

end Route

section Request

variable {s : State} {rx : Reception} {claimed : Nat} {slot : SlotId} (lane : s.up.lane = .request rx claimed slot) (b : Byte)
include lane

theorem State.takeByte_of_filling (short : rx.actual < claimed) {bytes : List Byte}
    (filling : s.agent.slots[slot] = .filling bytes) :
    s.takeByte b = (s.setSlot slot (.filling (bytes ++ [b]))).setLane (.request (rx.take b) claimed slot) := by
  rw [State.takeByte, lane]
  refine (if_pos short).trans ?_
  change (s.setLane _).setSlot slot ((s.agent.slots[slot]).append b) = _
  rw [filling]
  rfl

theorem State.takeByte_of_full (full : claimed ≤ rx.actual) :
    s.takeByte b = s.setLane (.request (rx.take b) claimed slot) := by
  rw [State.takeByte, lane]
  exact if_neg (Nat.not_lt.mpr full)

end Request

/-- Settles O46: the byte by the lane's state, and the twelfth by the lead's length, destination and the slots. -/
theorem leadsAreRoutedAndBytesAreTaken : Obligations.LeadsAreRoutedAndBytesAreTaken := by
  intro s b live
  rw [exec_receiveByte_live live, exec_startDelimiter_live live, exec_endDelimiter_live live, exec_abortDelimiter_live live]
  refine ⟨?_, fun rx lead phase held lane => ?_, fun rx claimed slot lane => ⟨fun bytes short filling => ?_, fun full => ?_⟩,
    fun rx claimed body records label lane => ?_, fun rx claimed lane => ?_, fun lane => ?_, rfl, fun held => ?_⟩
  · intro rx bytes lane lead length toAgent
    refine ⟨fun early => ?_, fun eleven => ?_⟩
    · have more : (bytes ++ [b]).length < Config.leadBytes := by
        rw [List.length_append]
        exact Nat.succ_lt_succ early
      rw [State.takeByte_of_lead lane]
      exact congrArg _ (if_pos more)
    · rw [exec_leadEvent_of_twelfth live b lane eleven]
      refine ⟨?_, fun restart => ?_, fun counted outside => ?_, fun counted least most traffic => ?_,
        fun counted least request => ⟨fun short slot free lowest => ?_, fun lost => ?_⟩⟩
      · have twelfth : bytes.length + 1 = 12 := by rw [eleven]
        rw [State.takeByte_of_lead lane, State.takeLeadByte_of_twelfth s rx twelfth]
      · exact congrArg _ (State.leadArrived_of_restart _ restart)
      · exact congrArg _ (State.leadArrived_of_outside _ counted outside)
      · exact congrArg _ (State.leadArrived_of_traffic _ counted ⟨least, most⟩ traffic)
      · have inside : 16 ≤ leadLength lead ∧ leadLength lead ≤ 2048 := ⟨least, short.trans (by decide)⟩
        refine congrArg _ ((State.leadArrived_of_request _ counted inside request).trans ?_)
        exact State.routeRequest_of_slot _ short (Agent.freeSlot_of_lowest free lowest)
      · have inside : 16 ≤ leadLength lead ∧ leadLength lead ≤ 2048 := by
          refine ⟨least, ?_⟩
          rcases lost with ⟨-, most⟩ | ⟨short, -⟩
          · exact most
          · exact short.trans (by decide)
        refine congrArg _ ((State.leadArrived_of_request _ counted inside request).trans ?_)
        exact State.routeRequest_of_lost _ (lost.imp And.left fun full => Agent.freeSlot_of_full full.2)
  · rw [State.takeByte, lane]
    exact congrArg _ (State.holdSymbol_of_deciding lane _)
  · exact congrArg _ (State.takeByte_of_filling lane b short filling)
  · exact congrArg _ (State.takeByte_of_full lane b full)
  · rw [State.takeByte, lane]
    rfl
  · rw [State.takeByte, lane]
  · rcases lane with lane | ⟨claimed, lane⟩
    · rw [State.takeByte, lane]
    · rw [State.takeByte, lane]
  · refine ⟨fun t ht => ?_, fun t ht => ?_, fun t ht => ?_, fun t ht => ?_⟩
    all_goals
      cases ht
      rfl

/-! ## The check (R126, R132, R188) -/

/-- Settles O47: the check of nine bytes by computation, and what a reception holds by induction on the bytes. -/
theorem theCheckCoversAllButTheLastFour : Obligations.TheCheckCoversAllButTheLastFour := by
  refine ⟨by decide +kernel, fun bytes => ?_⟩
  obtain ⟨actual, tail, crc⟩ := Reception.take_foldl bytes
  refine ⟨actual, fun _ => ?_⟩
  rw [Reception.checkGood, decide_eq_true_iff, tail, crc]
  rfl

end Sys2Proof.Machine
end

section
/-! PROOFS. The return lane and the start of a restart (R138 to R140, R172). -/
namespace Sys2Proof.Machine

/-! ## A return transmission (R138, R139) -/

section Start

variable {s : State}

theorem exec_returnTransmission_of_free (live : s.pins.reset = false) (free : s.up.returnLane = .free)
    (noRestart : s.up.restartCondition = false) : exec .returnTransmission s = .next s.arbitrateReturn :=
  if_pos ⟨live, free, noRestart⟩

theorem State.arbitrateReturn_of_response_alone {frame : List Byte} (ready : s.agent.headReady = some frame)
    (noNotice : s.notices.queue = []) :
    s.arbitrateReturn = s.startReturn .response (min (s.up.responseRun + 1) 2) frame := by
  rw [State.arbitrateReturn, ready, noNotice]

theorem State.arbitrateReturn_of_short_run {frame : List Byte} (ready : s.agent.headReady = some frame)
    (notices : s.notices.queue ≠ []) (short : s.up.responseRun < 2) :
    s.arbitrateReturn = s.startReturn .response (s.up.responseRun + 1) frame := by
  obtain ⟨notice, rest, queue⟩ := List.exists_cons_of_ne_nil notices
  rw [State.arbitrateReturn, ready, queue]
  exact if_pos short

theorem State.arbitrateReturn_of_notice {notice : List Byte} {rest : List (List Byte)} (queue : s.notices.queue = notice :: rest)
    (turn : s.agent.headReady = none ∨ s.up.responseRun = 2) : s.arbitrateReturn = s.startReturn .notice 0 notice := by
  cases ready : s.agent.headReady with
  | none => rw [State.arbitrateReturn, ready, queue]
  | some frame =>
    have full : s.up.responseRun = 2 := turn.resolve_left (by simp [ready])
    rw [State.arbitrateReturn, ready, queue]
    exact if_neg (by omega)

theorem State.arbitrateReturn_of_nothing (noResponse : s.agent.headReady = none) (noNotice : s.notices.queue = []) :
    s.arbitrateReturn = s := by
  rw [State.arbitrateReturn, noResponse, noNotice]

end Start

/-! ## A return completion (R138, R140) -/

section Complete

variable {s : State}

theorem State.freeReturnLane_of_carrying {frame : List Byte} (line : s.up.line = .carrying frame) :
    s.freeReturnLane = s.setUp { s.up with returnLane := .free, line := .ended frame } := by
  rw [State.freeReturnLane, line]

theorem exec_returnCompletion_of_response (live : s.pins.reset = false) (lane : s.up.returnLane = .response) :
    exec .returnCompletion s = .next s.completeResponse := by
  have taken : exec .returnCompletion s = execReturnCompletion s := rfl
  rw [taken, execReturnCompletion, lane]
  exact if_neg (by simp [live])

theorem exec_returnCompletion_of_notice (live : s.pins.reset = false) (lane : s.up.returnLane = .notice) :
    exec .returnCompletion s =
      .next (s.freeReturnLane.setNotices { s.notices with queue := s.notices.queue.tail }) := by
  have taken : exec .returnCompletion s = execReturnCompletion s := rfl
  rw [taken, execReturnCompletion, lane]
  exact if_neg (by simp [live])

theorem State.completeResponse_of_last (pending : s.agent.state = .restartPending) (last : s.agent.responses.tail = []) :
    s.completeResponse = (s.freeReturnLane.setAgent { s.agent with responses := s.agent.responses.tail }).beginRestart :=
  if_pos ⟨pending, last⟩

theorem State.completeResponse_of_other (other : s.agent.state ≠ .restartPending ∨ s.agent.responses.tail ≠ []) :
    s.completeResponse = s.freeReturnLane.setAgent { s.agent with responses := s.agent.responses.tail } := by
  refine if_neg ?_
  rintro ⟨pending, last⟩
  rcases other with other | more
  · exact other pending
  · exact more last

end Complete

/-! ## The start of a restart (R137, R172) -/

/-- The agent in RESTARTING under the restart condition, with the receive lane in the given state (R172). -/
def State.restartingIn (t : State) (lane : Lane) : State :=
  { t with
    up := { t.up with restartCondition := true, lane := lane }
    agent := { t.agent with state := .restarting } }

section Begin

variable {s : State}

theorem State.beginRestart_of_idle (idle : s.up.lane = .idle) : s.beginRestart = s.restartingIn .idle := by
  have held : s.freeReception = s := by rw [State.freeReception, idle]
  rw [State.beginRestart, if_pos idle, held, ← idle]
  rfl

/-- A frame in reception is given back and ignored, with what was held of it taken. -/
theorem State.beginRestart_of_open (opened : s.up.lane ≠ .idle) :
    s.beginRestart = (s.freeReception.restartingIn (.ignore s.up.lane.claimed)).takeHeld s.up.lane.heldSymbols :=
  if_neg opened

theorem State.beginRestart_of_lead {rx : Reception} {bytes : List Byte} (lane : s.up.lane = .lead rx bytes) :
    s.beginRestart = s.restartingIn (.ignore none) := by
  rw [State.beginRestart_of_open (by simp [lane]), State.freeReception, lane]
  rfl

theorem State.beginRestart_of_pass {rx : Reception} {claimed : Nat} (lane : s.up.lane = .pass rx claimed) :
    s.beginRestart = s.restartingIn (.ignore (some claimed)) := by
  rw [State.beginRestart_of_open (by simp [lane]), State.freeReception, lane]
  rfl

theorem State.beginRestart_of_ignore {claimed : Option Nat} (lane : s.up.lane = .ignore claimed) :
    s.beginRestart = s.restartingIn (.ignore claimed) := by
  rw [State.beginRestart_of_open (by simp [lane]), State.freeReception, lane]
  rfl

theorem State.beginRestart_of_deciding {rx : Reception} {lead : List Byte} {phase : Deciding} {held : List Symbol}
    (lane : s.up.lane = .deciding rx lead phase held) :
    s.beginRestart = (s.restartingIn (.ignore (some (leadLength lead)))).takeHeld held := by
  rw [State.beginRestart_of_open (by simp [lane]), State.freeReception, lane]
  rfl

theorem State.beginRestart_of_request {rx : Reception} {claimed : Nat} {slot : SlotId} (lane : s.up.lane = .request rx claimed slot) :
    s.beginRestart = (s.setSlot slot .free).restartingIn (.ignore (some claimed)) := by
  rw [State.beginRestart_of_open (by simp [lane]), State.freeReception, lane]
  rfl

theorem State.beginRestart_of_store {rx : Reception} {claimed : Nat} {body : BodyId} {records : List RecordId} {label : Tag}
    (lane : s.up.lane = .store rx claimed body records label) :
    s.beginRestart =
      (s.setStore (s.store.freeReservation body records)).pauseTest.restartingIn (.ignore (some claimed)) := by
  rw [State.beginRestart_of_open (by simp [lane]), State.freeReception, lane]
  rfl

end Begin

/-- Settles O48: a start by the arbiter's table, a completion by the lane's queue, and the RESTART response's by the receive lane. -/
theorem theReturnLaneServesItsTwoQueues : Obligations.TheReturnLaneServesItsTwoQueues := by
  intro s live
  refine ⟨fun free noRestart => ?_, fun blocked => if_neg ?_, fun frame line lane => ?_, ?_⟩
  · rw [exec_returnTransmission_of_free live free noRestart]
    refine ⟨fun frame ready noNotice => ?_, fun frame ready notices short => ?_, fun notice rest queue turn => ?_,
      fun noResponse noNotice => ?_⟩
    · exact congrArg _ (State.arbitrateReturn_of_response_alone ready noNotice)
    · exact congrArg _ (State.arbitrateReturn_of_short_run ready notices short)
    · exact congrArg _ (State.arbitrateReturn_of_notice queue turn)
    · exact congrArg _ (State.arbitrateReturn_of_nothing noResponse noNotice)
  · rintro ⟨-, free, noRestart⟩
    rcases blocked with busy | restart
    · exact busy free
    · cases restart.symm.trans noRestart
  · rw [exec_returnCompletion_of_notice live lane, State.freeReturnLane_of_carrying line]
    rfl
  · intro frame line lane freed
    have freedNow : s.freeReturnLane.setAgent { s.agent with responses := s.agent.responses.tail } = freed := by
      rw [State.freeReturnLane_of_carrying line]
      rfl
    rw [exec_returnCompletion_of_response live lane]
    refine ⟨fun other => ?_, ?_⟩
    · rw [State.completeResponse_of_other other, freedNow]
    · intro pending last begun
      rw [State.completeResponse_of_last pending last, freedNow]
      refine ⟨fun idle => ?_, fun rx bytes receiving => ?_, fun rx claimed receiving => ?_, fun claimed receiving => ?_,
        fun rx lead phase held receiving => ?_, fun rx claimed slot receiving => ?_, fun rx claimed body records label receiving => ?_⟩
      · exact congrArg _ (State.beginRestart_of_idle (s := freed) idle)
      · exact congrArg _ (State.beginRestart_of_lead (s := freed) receiving)
      · exact congrArg _ (State.beginRestart_of_pass (s := freed) receiving)
      · exact congrArg _ (State.beginRestart_of_ignore (s := freed) receiving)
      · exact congrArg _ (State.beginRestart_of_deciding (s := freed) receiving)
      · exact congrArg _ (State.beginRestart_of_request (s := freed) receiving)
      · exact congrArg _ (State.beginRestart_of_store (s := freed) receiving)

end Sys2Proof.Machine
end

section
/-! PROOFS. The resets: the assertion and release of RESET, and the re-initialisation at a restart (R136 to R141, R153, R173, R198). -/
namespace Sys2Proof.Machine

theorem ownTagOf_eq (straps : Byte) : ownTagOf straps = BitVec.ofNat 16 (0xF000 + straps.toNat) := by
  rw [ownTagOf, BitVec.ofNat_add]
  rfl

theorem LaneOut.abort_eq (p : Prop) [Decidable p] : LaneOut.abort (decide ¬ p) = if p then .idle else .aborted := by
  by_cases h : p
  all_goals simp [LaneOut.abort, h]

section Resets

variable {s : State}

theorem exec_resetAssertion_of_change (live : s.pins.reset = false) :
    exec .resetAssertion s = .next
      { s with
        pins := { s.pins with reset := true }
        down := { s.down with sending := none, line := if s.down.sending = none then .idle else .aborted }
        up := { s.up with returnLane := .free, line := if s.up.returnLane = .free then .idle else .aborted } } := by
  have noReset : ¬ s.pins.reset = true := Bool.eq_false_iff.mp live
  have down : LaneOut.abort s.down.sending.isSome = if s.down.sending = none then .idle else .aborted := by
    cases s.down.sending <;> rfl
  have up : LaneOut.abort (decide (s.up.returnLane ≠ .free)) = if s.up.returnLane = .free then .idle else .aborted :=
    LaneOut.abort_eq _
  refine (if_neg noReset).trans ?_
  rw [down, up]
  rfl

theorem exec_resetRelease_of_held (held : s.pins.reset = true) (straps : Byte) :
    exec (.resetRelease straps) s = .next (s.powerOn straps) := if_pos held

theorem exec_reinitialisation_of_restarting (live : s.pins.reset = false) (restarting : s.agent.state = .restarting)
    (free : s.down.sending = none) : exec .reinitialisation s = .next s.reinitialised :=
  if_pos ⟨live, restarting, free⟩

theorem exec_reinitialisation_of_waiting (waits : s.agent.state ≠ .restarting ∨ s.down.sending ≠ none) :
    exec .reinitialisation s = .next s := by
  refine if_neg ?_
  rintro ⟨-, restarting, free⟩
  rcases waits with other | sending
  · exact other restarting
  · exact sending free

end Resets

/-- Settles O49: the reset values are those of the definitions, and each reset event keeps what its rule names. -/
theorem resetsGiveEveryBlockItsValues : Obligations.ResetsGiveEveryBlockItsValues := by
  refine ⟨rfl, fun s => ⟨exec_resetAssertion_of_change, fun held straps => ?_, fun live restarting free => ?_,
    fun waits _ => exec_reinitialisation_of_waiting waits⟩⟩
  · rw [exec_resetRelease_of_held held, ← ownTagOf_eq]
    rfl
  · rw [exec_reinitialisation_of_restarting live restarting free]
    rfl

end Sys2Proof.Machine
end

section
/-! PROOFS. The Notice Unit: occurrences, builds, acknowledgements, the repeat ticks and SET_NOTICE (R176 to R184). -/
namespace Sys2Proof.Machine

/-! ## Occurrences (R177) -/

section Occur

variable {n : NoticeUnit} {kind : NoticeKind} {scope : FlowId}

theorem NoticeUnit.occur_of_disabled (disabled : n.enables.getLsbD (kindCode kind) = false) :
    n.occur (itemOf kind scope) = n := by
  have off : ¬ kindEnabled n.enables (itemKind (itemOf kind scope)) = true := by
    rw [itemKind_itemOf, kindEnabled, disabled]
    exact Bool.false_ne_true
  exact if_neg off

variable (enabled : n.enables.getLsbD (kindCode kind) = true)
include enabled

theorem kindEnabled_itemOf : kindEnabled n.enables (itemKind (itemOf kind scope)) = true := by
  rw [itemKind_itemOf, kindEnabled, enabled]

theorem NoticeUnit.occur_of_clear (state : n.items[itemOf kind scope].state = .clear) :
    n.occur (itemOf kind scope) =
      { n with
        items := n.items.set (itemOf kind scope) { n.items[itemOf kind scope] with state := .raised, count := 1 }
        raisedList := n.raisedList ++ [itemOf kind scope] } := by
  rw [NoticeUnit.occur, if_pos (kindEnabled_itemOf enabled), state]
  rfl

theorem NoticeUnit.occur_of_raised (state : n.items[itemOf kind scope].state = .raised) :
    n.occur (itemOf kind scope) =
      { n with
        items := n.items.set (itemOf kind scope)
          { n.items[itemOf kind scope] with count := min (n.items[itemOf kind scope].count + 1) 65535 } } := by
  rw [NoticeUnit.occur, if_pos (kindEnabled_itemOf enabled), state]
  rfl

theorem NoticeUnit.occur_of_sent {again : Bool} {number : BitVec 16} {sentCount epochs : Nat}
    (state : n.items[itemOf kind scope].state = .sent again number sentCount epochs) :
    n.occur (itemOf kind scope) =
      { n with
        items := n.items.set (itemOf kind scope)
          { n.items[itemOf kind scope] with
            state := .sent true number sentCount epochs
            count := min (n.items[itemOf kind scope].count + 1) 65535 } } := by
  rw [NoticeUnit.occur, if_pos (kindEnabled_itemOf enabled), state]
  rfl

end Occur

section Exec

variable {s : State} {kind : NoticeKind} {scope : FlowId}

theorem exec_noticeOccurrence_of_reported (live : s.pins.reset = false) (suits : kind.perFlow = true ∨ scope = 0)
    (reported : itemOf kind scope ∈ s.notices.reports) :
    exec (.noticeOccurrence kind scope) s = .next (s.setNotices
      ({ s.notices with reports := s.notices.reports.erase (itemOf kind scope) }.occur (itemOf kind scope))) :=
  if_pos ⟨live, (scopeSuits_iff kind scope).mpr suits, reported⟩

theorem exec_noticeOccurrence_of_unreported (unreported : itemOf kind scope ∉ s.notices.reports) :
    exec (.noticeOccurrence kind scope) s = .next s := if_neg fun taken => unreported taken.2.2

end Exec

/-! ## Builds (R178, R179, R182) -/

theorem NoticeUnit.buildAllowed_iff (n : NoticeUnit) :
    n.buildAllowed = true ↔ n.destination ≠ 0#16 ∧ n.queue.length < 16 := by
  rw [NoticeUnit.buildAllowed, Bool.and_eq_true, decide_eq_true_iff, decide_eq_true_iff]
  rfl

section Build

variable {s : State}

theorem exec_firstBuild_of_raised (live : s.pins.reset = false) (allowed : s.notices.buildAllowed = true)
    (noRepeat : s.notices.repeatList = []) {i : ItemId} {rest : List ItemId} (raised : s.notices.raisedList = i :: rest) :
    exec .firstBuild s = .next (s.setNotices (s.notices.firstBuild s.up.ownTag i rest)) := by
  have taken : exec .firstBuild s = execFirstBuild s := rfl
  rw [taken, execFirstBuild, if_pos ⟨live, allowed, noRepeat⟩, raised]

theorem exec_firstBuild_of_none
    (nothing : ¬ s.notices.buildAllowed = true ∨ s.notices.repeatList ≠ [] ∨ s.notices.raisedList = []) :
    exec .firstBuild s = .next s := by
  have taken : exec .firstBuild s = execFirstBuild s := rfl
  rw [taken]
  unfold execFirstBuild
  split
  · next due =>
    rcases nothing with refused | repeats | noRaised
    · exact absurd due.2.1 refused
    · exact absurd due.2.2 repeats
    · rw [noRaised]
  · rfl

theorem exec_repeatBuild_of_listed (live : s.pins.reset = false) (allowed : s.notices.buildAllowed = true) {i : ItemId}
    {rest : List ItemId} (listed : s.notices.repeatList = i :: rest) :
    exec .repeatBuild s = .next (s.setNotices (s.notices.repeatBuild s.up.ownTag i rest)) := by
  have taken : exec .repeatBuild s = execRepeatBuild s := rfl
  rw [taken, execRepeatBuild, if_pos ⟨live, allowed⟩, listed]

theorem exec_repeatBuild_of_none (nothing : ¬ s.notices.buildAllowed = true ∨ s.notices.repeatList = []) :
    exec .repeatBuild s = .next s := by
  have taken : exec .repeatBuild s = execRepeatBuild s := rfl
  rw [taken]
  unfold execRepeatBuild
  split
  · next due =>
    have noRepeat : s.notices.repeatList = [] := nothing.resolve_left fun refused => refused due.2
    rw [noRepeat]
  · rfl

theorem NoticeUnit.repeatBuild_of_sent {n : NoticeUnit} {i : ItemId} (ownTag : Tag) (rest : List ItemId) {again : Bool}
    {number : BitVec 16} {sentCount epochs : Nat} (state : n.items[i].state = .sent again number sentCount epochs) :
    n.repeatBuild ownTag i rest =
      { n.setItem i { n.items[i] with state := .sent again number sentCount 0 } with
        repeatList := rest
        queue := n.queue ++ [buildNotice n.destination ownTag i true number sentCount]
        repeats := n.repeats + 1 } := by
  rw [NoticeUnit.repeatBuild, state]

end Build

/-- Settles O50: an occurrence by the kind's enable and the item's state, a build by the two lists, the destination and the queue. -/
theorem occurrencesRaiseItemsAndBuildsSendThem : Obligations.OccurrencesRaiseItemsAndBuildsSendThem := by
  intro s live n
  refine ⟨?_, fun destination room noRepeat kind scope rest suits raised => ?_,
    fun destination room kind scope rest again number sentCount epochs suits listed state => ?_,
    fun blocked => ?_, fun nothing => exec_firstBuild_of_none (.inr nothing), fun nothing => exec_repeatBuild_of_none (.inr nothing)⟩
  · intro kind scope suits i left
    refine ⟨exec_noticeOccurrence_of_unreported, fun reported => ?_⟩
    have taken : exec (.noticeOccurrence kind scope) s = .next (s.setNotices (left.occur i)) :=
      exec_noticeOccurrence_of_reported live suits reported
    rw [taken]
    refine ⟨fun disabled => ?_, fun enabled => ⟨fun state => ?_, fun state => ?_, fun again number sentCount epochs state => ?_⟩⟩
    · rw [NoticeUnit.occur_of_disabled (n := left) disabled]
      rfl
    · exact congrArg (fun m => Host.Outcome.next (s.setNotices m)) (NoticeUnit.occur_of_clear (n := left) enabled state)
    · exact congrArg (fun m => Host.Outcome.next (s.setNotices m)) (NoticeUnit.occur_of_raised (n := left) enabled state)
    · exact congrArg (fun m => Host.Outcome.next (s.setNotices m)) (NoticeUnit.occur_of_sent (n := left) enabled state)
  · rw [exec_firstBuild_of_raised live (n.buildAllowed_iff.mpr ⟨destination, room⟩) noRepeat raised, NoticeUnit.firstBuild,
      buildNotice_eq _ _ _ _ suits]
    rfl
  · rw [exec_repeatBuild_of_listed live (n.buildAllowed_iff.mpr ⟨destination, room⟩) listed,
      NoticeUnit.repeatBuild_of_sent _ _ state, buildNotice_eq _ _ _ _ suits]
    rfl
  · have refused : ¬ n.buildAllowed = true := by
      rw [n.buildAllowed_iff]
      rintro ⟨destination, room⟩
      rcases blocked with noDestination | full
      · exact destination noDestination
      · omega
    exact ⟨exec_firstBuild_of_none (.inl refused), exec_repeatBuild_of_none (.inl refused)⟩

/-! ## Repeat ticks (R181) -/

section Tick

variable {s : State} {kind : NoticeKind} {scope : FlowId} (live : s.pins.reset = false)
  (suits : kind.perFlow = true ∨ scope = 0) (due : s.notices.items[itemOf kind scope].tickDue = true)
include live suits due

theorem exec_repeatTick_of_due :
    exec (.repeatTick kind scope) s = .next (s.setNotices (s.notices.tick (itemOf kind scope))) :=
  if_pos ⟨live, (scopeSuits_iff kind scope).mpr suits, due⟩

theorem exec_repeatDue_of_makes_due (makes : s.notices.tickMakesDue (itemOf kind scope) = true) :
    exec (.repeatDue kind scope) s = .next (s.setNotices (s.notices.tick (itemOf kind scope))) :=
  if_pos ⟨live, (scopeSuits_iff kind scope).mpr suits, due, makes⟩

end Tick

theorem exec_repeatDue_of_not_due {s : State} {kind : NoticeKind} {scope : FlowId}
    (quiet : s.notices.tickMakesDue (itemOf kind scope) = false) : exec (.repeatDue kind scope) s = .next s :=
  if_neg fun taken => Bool.false_ne_true (quiet.symm.trans taken.2.2.2)

section TickItem

variable {n : NoticeUnit} {i : ItemId}

theorem NoticeUnit.tick_of_quiet (quiet : n.tickMakesDue i = false) : n.tick i = n.setItem i n.items[i].ticked := by
  rw [NoticeUnit.tick, quiet]
  rfl

theorem NoticeUnit.tick_of_makes_due (makes : n.tickMakesDue i = true) :
    n.tick i = { n.setItem i n.items[i].ticked with repeatList := n.repeatList ++ [i] } := by
  rw [NoticeUnit.tick, makes]
  rfl

theorem NoticeUnit.tickMakesDue_of_idle (idle : n.items[i].state = .clear ∨ n.items[i].state = .raised) :
    n.tickMakesDue i = false := by
  rw [NoticeUnit.tickMakesDue, NoticeItem.ticked_of_idle _ idle]
  rcases idle with state | state
  all_goals simp only [NoticeItem.repeatDueAt, NoticeItem.epochsSent, state, Bool.false_and]

theorem NoticeUnit.tickMakesDue_of_sent {again : Bool} {number : BitVec 16} {sentCount epochs : Nat}
    (state : n.items[i].state = .sent again number sentCount epochs) :
    n.tickMakesDue i = true ↔ n.interval ≠ 0 ∧ n.interval ≤ min (epochs + 1) 65535 ∧ i ∉ n.repeatList := by
  rw [NoticeUnit.tickMakesDue, NoticeItem.ticked_of_sent _ state]
  simp [NoticeItem.repeatDueAt, NoticeItem.epochsSent, and_assoc]

end TickItem

/-- Settles O52: the tick counts a SENT item's epochs, and the count it reaches decides whether the repeat comes due. -/
theorem aRepeatTickCountsAndComesDue : Obligations.ARepeatTickCountsAndComesDue := by
  intro s kind scope live suits due n i
  rw [exec_repeatTick_of_due live suits due]
  refine ⟨fun idle => ?_, ?_⟩
  · have quiet := NoticeUnit.tickMakesDue_of_idle idle
    refine ⟨?_, exec_repeatDue_of_not_due quiet⟩
    rw [NoticeUnit.tick_of_quiet quiet, NoticeItem.ticked_of_idle _ idle]
    rfl
  · intro again number sentCount epochs state counted items comesDue
    have makes : n.tickMakesDue i = true ↔ comesDue := NoticeUnit.tickMakesDue_of_sent state
    refine ⟨fun comes => ⟨?_, ?_⟩, fun stays => ⟨?_, ?_⟩⟩
    · rw [NoticeUnit.tick_of_makes_due (makes.mpr comes), NoticeItem.ticked_of_sent _ state]
      rfl
    · exact exec_repeatDue_of_makes_due live suits due (makes.mpr comes)
    · rw [NoticeUnit.tick_of_quiet (Bool.eq_false_iff.mpr fun h => stays (makes.mp h)), NoticeItem.ticked_of_sent _ state]
      rfl
    · exact exec_repeatDue_of_not_due (Bool.eq_false_iff.mpr fun h => stays (makes.mp h))

/-! ## Acknowledgements (R180) -/

theorem ackItem_of_codes {code number : Nat} {kind : NoticeKind} {scope : FlowId} (hk : kindCode kind = code)
    (hs : scope.val = number) (suits : kind.perFlow = true ∨ scope = 0) : ackItem code number = some (itemOf kind scope) := by
  have hsuits := (scopeSuits_iff kind scope).mpr suits
  rw [ackItem, ← hk, ← hs, kindOf_kindCode, flowOf_val]
  exact if_pos hsuits

section Ack

variable {args : List Byte} (s : State) (len : args.length = 5)
include len

theorem commandAckNotice_of_unnamed (unnamed : ackItem (byteAt args 0) (num16At args 1) = none) :
    commandAckNotice args s = refuse s .badArgument := by
  rw [commandAckNotice, ofLength_of_eq _ _ len, unnamed]

variable {i : ItemId} (item : ackItem (byteAt args 0) (num16At args 1) = some i)
include item

theorem commandAckNotice_of_not_sent (idle : s.notices.items[i].state = .clear ∨ s.notices.items[i].state = .raised) :
    commandAckNotice args s = staleAck s := by
  rw [commandAckNotice, ofLength_of_eq _ _ len, item]
  rcases idle with state | state
  all_goals simp only [state]

variable {again : Bool} {number : BitVec 16} {sentCount epochs : Nat}
  (state : s.notices.items[i].state = .sent again number sentCount epochs)
include state

theorem commandAckNotice_of_other_number (other : number ≠ field16At args 3) : commandAckNotice args s = staleAck s := by
  rw [commandAckNotice, ofLength_of_eq _ _ len, item]
  simp only [state]
  exact if_neg other

theorem commandAckNotice_of_number (given : number = field16At args 3) :
    commandAckNotice args s = answerOk (s.setNotices (s.notices.acknowledge i again)) [] := by
  rw [commandAckNotice, ofLength_of_eq _ _ len, item]
  simp only [state]
  exact if_pos given

end Ack

/-! ## SET_NOTICE (R183, R184) -/

section Configure

variable {args : List Byte} (s : State) (len : args.length = 6)
include len

theorem commandSetNotice_of_outside (outside : 512 ≤ num16At args 2) : commandSetNotice args s = refuse s .badArgument := by
  rw [commandSetNotice, ofLength_of_eq _ _ len, if_neg (Nat.not_lt.mpr outside)]

theorem commandSetNotice_of_enables (inside : num16At args 2 < 512) :
    commandSetNotice args s =
      answerOk (s.setNotices (s.notices.configure (field16At args 0) (BitVec.ofNat 9 (num16At args 2)) (num16At args 4)))
        (bytes16 s.notices.destination.toNat ++ bytes16 s.notices.enables.toNat ++ bytes16 s.notices.interval) := by
  rw [commandSetNotice, ofLength_of_eq _ _ len, if_pos inside]

end Configure

theorem newlyDisabled_iff (old new : BitVec 9) (i : ItemId) :
    newlyDisabled old new i = true ↔
      old.getLsbD (kindCode (itemKind i)) = true ∧ new.getLsbD (kindCode (itemKind i)) = false := by
  simp [newlyDisabled, kindEnabled]

section Silence

variable {old new : BitVec 9} {items : Vector NoticeItem 1029} {i : ItemId}

theorem silenceItems_of_kept (kept : ¬ newlyDisabled old new i = true ∨ items[i].state = .clear) :
    (silenceItems old new items)[i] = items[i] := by
  rw [silenceItems_get]
  split
  · next disabled =>
    have clear : items[i].state = .clear := kept.resolve_left fun enabled => enabled disabled
    simp only [NoticeItem.silenced, clear]
  · rfl

variable (disabled : newlyDisabled old new i = true)
include disabled

theorem silenceItems_of_raised (state : items[i].state = .raised) :
    (silenceItems old new items)[i] = { items[i] with state := .clear, count := 0 } := by
  rw [silenceItems_get, if_pos disabled]
  simp only [NoticeItem.silenced, state]

theorem silenceItems_of_sent {again : Bool} {number : BitVec 16} {sentCount epochs : Nat}
    (state : items[i].state = .sent again number sentCount epochs) :
    (silenceItems old new items)[i] = { items[i] with state := .sent false number sentCount epochs, count := 0 } := by
  rw [silenceItems_get, if_pos disabled]
  simp only [NoticeItem.silenced, state]

end Silence

/-- The repeat list under a new interval: the items that stay due in their order, and the others now due in rising order. -/
theorem repeatsAfter_parts (items : Vector NoticeItem 1029) (interval : Nat) (old : List ItemId) :
    ∃ kept added : List ItemId, repeatsAfter items interval old = kept ++ added ∧ kept.Sublist old ∧
      added.Pairwise (· < ·) ∧ (∀ i, i ∈ kept ↔ i ∈ old ∧ items[i].repeatDueAt interval = true) ∧
      ∀ i, i ∈ added ↔ i ∉ old ∧ items[i].repeatDueAt interval = true := by
  refine ⟨_, _, rfl, List.filter_sublist, ?_, fun i => List.mem_filter, fun i => ?_⟩
  · exact (List.pairwise_lt_finRange 1029).sublist List.filter_sublist
  · simp only [List.mem_filter, allItems, List.mem_finRange, true_and, Bool.and_eq_true, Bool.not_eq_true',
      List.contains_eq_mem, decide_eq_false_iff_not, not_and]
    tauto

/-- Settles O51: an acknowledgement by the item it names and the number it gives; SET_NOTICE item by item and list by list. -/
theorem noticeCommandsAcknowledgeAndConfigure : Obligations.NoticeCommandsAcknowledgeAndConfigure := by
  intro s args n
  refine ⟨fun due len => ?_, fun due len => ?_⟩
  · have taken : exec (.ackNotice args) s = .next ((commandAckNotice args s).finish 0x1A#8 false) := takeCommand_due _ due
    rw [taken]
    refine ⟨fun bad => ?_, ?_⟩
    · rw [commandAckNotice_of_unnamed s len (ackItem_none _ _ bad), finish_refuse]
    · intro kind scope hk hs suits i given stale
      have item := ackItem_of_codes hk hs suits
      refine ⟨fun idle => ?_, fun again number sentCount epochs state => ⟨fun other => ?_, fun same isAgain => ?_, fun same once => ?_⟩⟩
      · rw [commandAckNotice_of_not_sent s len item idle]
        rfl
      · rw [commandAckNotice_of_other_number s len item state other]
        rfl
      · subst isAgain
        rw [commandAckNotice_of_number s len item state same]
        rfl
      · subst once
        rw [commandAckNotice_of_number s len item state same]
        rfl
  · have taken : exec (.setNotice args) s = .next ((commandSetNotice args s).finish 0x1B#8 false) := takeCommand_due _ due
    rw [taken]
    refine ⟨fun outside => ?_, fun inside => ?_⟩
    · rw [commandSetNotice_of_outside s len outside, finish_refuse]
    · intro enables interval silenced
      have disabled (i : ItemId) : silenced i ↔ newlyDisabled n.enables enables i = true := (newlyDisabled_iff _ _ i).symm
      refine ⟨silenceItems n.enables enables n.items, n.raisedList.filter fun i => !newlyDisabled n.enables enables i,
        repeatsAfter (silenceItems n.enables enables n.items) interval n.repeatList, ?_, fun i kept => ?_,
        fun i off state => ?_, fun i again number sentCount epochs off state => ?_, List.filter_sublist, fun i => ?_, ?_⟩
      · rw [commandSetNotice_of_enables s len inside]
        rfl
      · exact silenceItems_of_kept (kept.imp_left fun on off => on ((disabled i).mpr off))
      · exact silenceItems_of_raised ((disabled i).mp off) state
      · exact silenceItems_of_sent ((disabled i).mp off) state
      · rw [List.mem_filter, disabled, Bool.not_eq_true', Bool.not_eq_true]
      · simp only [← NoticeItem.repeatDueAt_iff]
        exact repeatsAfter_parts _ _ _

end Sys2Proof.Machine
end

section
/-! PROOFS. Frame memory is written by the frame in reception alone (R26, R32): what each effect and each received byte leaves of it. -/
namespace Sys2Proof.Machine

/-! ## A byte of memory under the management commands and the decisions -/

theorem Lane.quiet_pass (rx : Reception) (claimed : Nat) : (Lane.pass rx claimed).Quiet := nofun

section Reads

variable {s : State} {a : Nat} {v : Byte} (hs : FrameStore.Reads a v s.store)
include hs

theorem reads_commandSetPool (args : List Byte) : FrameStore.Reads a v (commandSetPool args s).state.store := by
  refine ofLength_keeps (P := fun t : State => FrameStore.Reads a v t.store) hs ?_
  split
  · next marks =>
    change FrameStore.Reads a v (State.pauseTest _).store
    rw [State.pauseTest_store]
    exact (FrameStore.reads_quiet a v).marks _ _ _ hs marks.1 marks.2
  · exact hs

theorem reads_block {c : Instr} {run : State → Answer} (block : blockOf c = some run) :
    FrameStore.Reads a v (run s).state.store := by
  cases c <;> cases block
  case setPool args => exact reads_commandSetPool hs args
  case readPool args => exact ofLength_keeps (P := fun t : State => FrameStore.Reads a v t.store) hs hs
  case readCounters args =>
    refine commandReadCounters_keeps (P := fun t : State => FrameStore.Reads a v t.store) hs fun scope => ?_
    cases scope <;> exact hs
  all_goals exact hs.congr (by simp)

/-- The hold of a frame that does not enter STORE changes no byte. -/
theorem State.leaveDeciding_reads {lane : Lane} (quiet : lane.Quiet) (held : List Symbol) :
    FrameStore.Reads a v (s.leaveDeciding lane held).store :=
  State.takeHeld_quiet (s.setLane lane) held a v hs quiet

theorem State.classify_reads (rx : Reception) (bytes : List Byte) (held : List Symbol) :
    FrameStore.Reads a v (s.classify rx bytes held).store := by
  unfold State.classify
  simp only
  split
  · exact State.leaveDeciding_reads (s := s.setClassifier (s.classifier.count bytes)) hs (Lane.quiet_pass _ _) held
  · exact hs

theorem State.decideAdmission_reads (rx : Reception) (bytes : List Byte) (f : FlowId) (rest : List FlowId)
    (granted : List Grant) (label : Tag) (held : List Symbol) :
    FrameStore.Reads a v (s.decideAdmission rx bytes f rest granted label held).store := by
  have decided := (FrameStore.reads_quiet a v).admitting s f (leadLength bytes) hs
  unfold State.decideAdmission
  simp only
  split
  · exact decided
  · split
    · exact State.leaveDeciding_reads decided (Lane.quiet_pass _ _) held
    · exact decided

theorem State.beginRestart_reads : FrameStore.Reads a v s.beginRestart.store := by
  have given := (FrameStore.reads_quiet a v).freeReception s hs
  unfold State.beginRestart
  simp only
  split
  · exact given
  · exact State.takeHeld_quiet _ _ a v given nofun

theorem State.completeResponse_reads : FrameStore.Reads a v s.completeResponse.store := by
  unfold State.completeResponse
  split
  · exact State.beginRestart_reads (s := s.freeReturnLane.setAgent _) hs
  · exact hs

end Reads

/-! ## A byte of memory under every other event -/

/-- Only a received byte, a reservation and the two resets can change a byte. -/
theorem State.Effect.reads {s t : State} {c : Instr} {a : Nat} {v : Byte} (h : s.Effect c t)
    (noByte : ∀ b, c ≠ .receiveByte b) (noReservation : c ≠ .reservation) (noRelease : ∀ straps, c ≠ .resetRelease straps)
    (noReinitialisation : c ≠ .reinitialisation) (hs : FrameStore.Reads a v s.store) : FrameStore.Reads a v t.store := by
  have quiet := FrameStore.reads_quiet a v
  cases h with
  | byte b => exact absurd rfl (noByte b)
  | reserved => exact absurd rfl noReservation
  | reinitialised => exact absurd rfl noReinitialisation
  | resetReleased straps => exact absurd rfl (noRelease straps)
  | answered block => exact reads_block hs block
  | start => exact quiet.takeStart s hs
  | lead b lane => exact (State.takeByte_quiet s b a v hs (by rw [lane]; nofun)).1
  | classified => exact State.classify_reads hs _ _ _
  | admitted => exact State.decideAdmission_reads hs _ _ _ _ _ _ _
  | endMark => exact quiet.takeEnd s hs
  | abort => exact quiet.takeAbort s hs
  | responseDone => exact State.completeResponse_reads hs
  | swept f => exact quiet.ageFlow _ f hs
  | flushed f => exact quiet.discardHead s f _ hs
  | selected => exact quiet.choose _ (quiet.agingCheck s hs)
  | completed x =>
    rw [State.settleDrain_store, State.pauseTest_store]
    exact quiet.release _ _ hs
  | sent | stepped | lifetimeEnded | holdTicked => exact hs.congr (by simp)
  | _ => exact hs

/-! ## A byte of memory under a received byte and a reservation -/

theorem State.takeByte_store_of_store {s : State} {rx : Reception} {claimed : Nat} {body : BodyId} {records : List RecordId}
    {label : Tag} (lane : s.up.lane = .store rx claimed body records label) (b : Byte) :
    (s.takeByte b).store = s.store.storeByte body rx.actual b := by
  rw [State.takeByte, lane]
  rfl

/-- A reservation writes within the blocks it takes, and so do the bytes held for it. -/
theorem State.decideReservation_reads {s : State} {a : Nat} {v : Byte} (hs : FrameStore.Reads a v s.store) (rx : Reception)
    {lead : List Byte} (granted : List Grant) (label : Tag) (held : List Symbol)
    (outside : OutsideBlocks (s.store.freeBlocks.take (blocksFor (leadLength lead))) a) :
    FrameStore.Reads a v (s.decideReservation rx lead granted label held).store := by
  cases made : s.store.reserve (leadLength lead) granted with
  | none =>
    rw [State.decideReservation_of_refused rx label held made]
    exact State.leaveDeciding_reads (hs.congr (by simp)) (Lane.quiet_pass _ _) held
  | some reservation =>
    obtain ⟨st, body, records⟩ := reservation
    have taken : FrameStore.Reads a v st := hs.congr (FrameStore.sameMarks_reserve made).mem
    obtain ⟨written, fills⟩ := FrameStore.fillsWithin_storeBytes outside body (relabelled lead label) st 0 taken
      (FrameStore.fillsWithin_reserve made)
    obtain ⟨bodies, links, mem⟩ := (st.storeBytes body 0 (relabelled lead label)).afterPause_same
    rw [State.decideReservation_of_made rx label held made]
    refine State.takeHeld_reads outside held _ rx _ body records label rfl ?_ ?_
    · rw [State.setLane_store, State.pauseTest_store]
      exact written.congr mem
    · rw [State.setLane_store, State.pauseTest_store]
      exact fills.congr bodies links

theorem exec_receiveByte_result {s t : State} {b : Byte} (run : exec (.receiveByte b) s = .next t) : t = s ∨ t = s.takeByte b := by
  cases reset : s.pins.reset with
  | true =>
    have idle : exec (.receiveByte b) s = .next s := if_pos reset
    exact .inl (Host.Outcome.next.inj (run.symm.trans idle))
  | false => exact .inr (Host.Outcome.next.inj (run.symm.trans (exec_receiveByte_live reset b)))

theorem exec_reservation_result {s t : State} {rx : Reception} {lead : List Byte} {granted : List Grant} {label : Tag}
    {held : List Symbol} (run : exec .reservation s = .next t)
    (lane : s.up.lane = .deciding rx lead (.reserve granted label) held) :
    t = s ∨ t = s.decideReservation rx lead granted label held := by
  cases reset : s.pins.reset with
  | true =>
    have idle : exec .reservation s = .next s := if_pos reset
    exact .inl (Host.Outcome.next.inj (run.symm.trans idle))
  | false => exact .inr (Host.Outcome.next.inj (run.symm.trans (exec_reservation_eq reset lane)))

/-- Settles O54: a byte of memory is followed through each effect, and through the two events of a reception by the lane's state. -/
theorem memoryIsWrittenByReceptionAlone : Obligations.MemoryIsWrittenByReceptionAlone := by
  intro c s t canonical run
  have now (a : Nat) : FrameStore.Reads a (Memory.read s.store.mem a) s.store := ⟨canonical, rfl⟩
  refine ⟨fun noByte noReservation noRelease noReinitialisation a => ?_, ?_, ?_, ?_⟩
  · exact ((effect_of_exec run).reads noByte noReservation noRelease noReinitialisation (now a)).2
  · rintro b rx claimed body records label rfl lane a other
    rcases exec_receiveByte_result run with rfl | rfl
    · rfl
    · rw [State.takeByte_store_of_store lane]
      exact (FrameStore.reads_storeByte (now a) body rx.actual b other).2
  · rintro b rfl notStore a
    rcases exec_receiveByte_result run with rfl | rfl
    · rfl
    · exact (State.takeByte_quiet s b a _ (now a) notStore).1.2
  · rintro rx lead granted label held rfl lane a outside
    rcases exec_reservation_result run lane with rfl | rfl
    · rfl
    · exact (State.decideReservation_reads (now a) rx granted label held outside).2

end Sys2Proof.Machine
end
